-- ==== Sys2Proof/Word.lean ====
section
/-! DEFINITION. The word types of the links and tables: bytes, detector addresses, keys, and the numbers of heads
and zones (01 R4, R12; 10 R186). -/

namespace Sys2Proof

/-- One byte of a link. -/
abbrev Byte := BitVec 8

/-- A detector address, 24 bits (section 1.2). -/
abbrev Address := BitVec 24

/-- A detector key, 128 bits (R12). -/
abbrev Key := BitVec 128

/-- A radio head, 0 to 3. -/
abbrev HeadNo := Fin 4

/-- A zone, 0 to 63 (R91). -/
abbrev ZoneNo := Fin 64

/-- A sequence number, 12 bits, compared modulo 4096 (R57). -/
abbrev SeqNo := BitVec 12

/-- A reception slot number, modulo 65536 (R36). -/
abbrev SlotStamp := BitVec 16

/-- The heads in the order in which they are visited. -/
abbrev allHeads : List HeadNo := List.finRange 4

/-- The zones in ascending number. -/
abbrev allZones : List ZoneNo := List.finRange 64

end Sys2Proof
end

