-- ==== Sys2Proof/Syntax.lean ====
section
/-! DEFINITION. The commands and events the part takes: one constructor of `Instr` per row of opcode_table.json, with
the operands Section 10 lays out for it. -/

namespace Sys2Proof

/-- The arguments of ENROL and AMEND as they are carried (10 R188). -/
structure EnrolArgs where
  address : Address
  kind    : Byte
  zone    : Byte
  key     : Key
  period  : BitVec 16
  misses  : Byte
deriving DecidableEq, Repr

/-- The arguments of ZONE_SET (R109, R188). -/
structure ZoneSetArgs where
  zone    : Byte
  mode    : Byte
  window  : BitVec 16
  partner : Byte
  offset  : Byte
deriving DecidableEq, Repr

/-- The arguments of FILTER_SET (R156, R188): the flag bytes are read bit by bit, their reserved bits ignored. -/
structure FilterArgs where
  index       : Byte
  enable      : Bool
  careEvent   : Bool
  careKind    : Bool
  careZone    : Bool
  careAddress : Bool
  eventKind   : Byte
  detKind     : Byte
  zone        : Byte
  address     : Address
  priority    : Byte
  raiseClass  : Byte
  suppress    : Bool
  urgent      : Bool
deriving DecidableEq, Repr

/-- The body of page 0, AIR (R40, R188). -/
structure AirArgs where
  channels   : Byte
  order      : Byte
  starts     : Vector Byte 4
  slotLength : BitVec 16
  jam        : Byte
  margin     : Byte
deriving DecidableEq, Repr

/-- One threshold set of a page 1 body: P, A and H (R73). -/
structure ThresholdArgs where
  pre   : Byte
  alarm : Byte
  hyst  : Byte
deriving DecidableEq, Repr

/-- One drift set of a page 1 body: D and k (R73). -/
structure DriftArgs where
  limit : Byte
  shift : Byte
deriving DecidableEq, Repr

/-- One report set of a page 1 body: report mode and band delta (R73). -/
structure ReportArgs where
  mode  : Byte
  delta : Byte
deriving DecidableEq, Repr

/-- The body of page 1, LEVELS (R73, R188). -/
structure LevelsArgs where
  smoke       : ThresholdArgs
  heat        : ThresholdArgs
  multiSmoke  : ThresholdArgs
  multiHeat   : ThresholdArgs
  smokeDrift  : DriftArgs
  multiDrift  : DriftArgs
  smokeReport : ReportArgs
  heatReport  : ReportArgs
  multiReport : ReportArgs
deriving DecidableEq, Repr

/-- The body of page 2, TIMING (R119, R137, R161, R188). -/
structure TimingArgs where
  flush    : BitVec 16
  summary  : Byte
  sweep    : Byte
  grace    : BitVec 16
  lifetime : BitVec 16
  attempts : Byte
deriving DecidableEq, Repr

/-- The body of page 3, MEMORY (R2, R188). -/
structure MemoryArgs where
  tableSize : BitVec 16
  advice    : Byte
deriving DecidableEq, Repr

/-- A management command with its arguments, as MEX reads it from a MANAGEMENT payload (R174, R188). -/
inductive Command where
  | enrol (a : EnrolArgs)
  | amend (a : EnrolArgs) (freshStart : Bool)
  | withdraw (address : Address)
  | lookup (address : Address)
  | clearTable
  | detectorDisable (address : Address)
  | detectorEnable (address : Address)
  | headReset (head : Byte)
  | zoneSet (a : ZoneSetArgs)
  | zoneService (zone : Byte) (service : Byte)
  | zoneReset (zone : Byte)
  | zoneDisable (zone : Byte)
  | zoneEnable (zone : Byte)
  | command (address : Address) (held : Byte) (argument : BitVec 16)
  | groupOrder (scope : Byte) (pattern : Byte)
  | filterSet (a : FilterArgs)
  | pageWriteAir (a : AirArgs)
  | pageWriteLevels (a : LevelsArgs)
  | pageWriteTiming (a : TimingArgs)
  | pageWriteMemory (a : MemoryArgs)
  | pageRead (page : Byte)
  | start
  | stop
  | restart
  | statusQuery
deriving DecidableEq, Repr

/-- The steps of the part, one constructor per row of opcode_table.json, in the table's order. A management command's
row is the step in which the command MEX has taken takes effect (log 4); a received frame's row carries the bytes that
arrive on its link (log 3). -/
inductive Instr where
  | powerOnReset
  | radioFrame (h : HeadNo) (bytes : List Byte)
  | headStatus (h : HeadNo) (bytes : List Byte)
  | headLinkDiscard (h : HeadNo) (bytes : List Byte)
  | headFrameSend (h : HeadNo)
  | secondsTick
  | headLost (h : HeadNo)
  | verifyWindowLapse (z : ZoneNo)
  | heldCommandExpiry (target : Address) (number : Byte)
  | flushExpiry
  | summaryExpiry
  | sweepTimerExpiry
  | slotTimerExpiry
  | frameTake
  | lookupRequest
  | integrityCheckDone
  | completionRequest
  | visitRequest
  | panelGrant
  | transmissionComplete
  | managementFrame (bytes : List Byte)
  | badPanelFrame (bytes : List Byte)
  | unknownCommand (payload : List Byte)
  | enrol (a : EnrolArgs)
  | amend (a : EnrolArgs) (freshStart : Bool)
  | withdraw (address : Address)
  | lookup (address : Address)
  | clearTable
  | detectorDisable (address : Address)
  | detectorEnable (address : Address)
  | headReset (head : Byte)
  | zoneSet (a : ZoneSetArgs)
  | zoneService (zone : Byte) (service : Byte)
  | zoneReset (zone : Byte)
  | zoneDisable (zone : Byte)
  | zoneEnable (zone : Byte)
  | command (address : Address) (held : Byte) (argument : BitVec 16)
  | groupOrder (scope : Byte) (pattern : Byte)
  | filterSet (a : FilterArgs)
  | pageWriteAir (a : AirArgs)
  | pageWriteLevels (a : LevelsArgs)
  | pageWriteTiming (a : TimingArgs)
  | pageWriteMemory (a : MemoryArgs)
  | pageRead (page : Byte)
  | start
  | stop
  | restart
  | statusQuery
  | headTransmissionComplete (h : HeadNo)
deriving DecidableEq, Repr

end Sys2Proof
end

