-- ==== Sys2Proof/Decode.lean ====
section
/-! DEFINITION. Reading words: numbers from bytes (most significant byte first, R186), a management command from a
MANAGEMENT payload (R174, R188), and `decodeTableWord` over the rows of opcode_table.json that give bits (there are
none). -/

namespace Sys2Proof

/-- The byte at an offset of an argument list; the lengths are checked before any offset is read. -/
def byteAt (bs : List Byte) (i : Nat) : Byte := bs.getD i 0

/-- A two-byte number, high byte first (R186). -/
def word16At (bs : List Byte) (i : Nat) : BitVec 16 := byteAt bs i ++ byteAt bs (i + 1)

/-- A detector address, three bytes a2, a1, a0 (R186). -/
def addressAt (bs : List Byte) (i : Nat) : Address := byteAt bs i ++ byteAt bs (i + 1) ++ byteAt bs (i + 2)

/-- A four-byte number, high byte first (R186). -/
def word32At (bs : List Byte) (i : Nat) : BitVec 32 :=
  byteAt bs i ++ byteAt bs (i + 1) ++ byteAt bs (i + 2) ++ byteAt bs (i + 3)

/-- A key, sixteen bytes, most significant first (R186). -/
def keyAt (bs : List Byte) (i : Nat) : Key :=
  ((bs.drop i).take 16).foldl (fun k b => (k <<< 8) ||| b.setWidth 128) 0

/-- The 24 argument bytes of ENROL, and the first 24 of AMEND (R188). -/
def enrolArgsOf (bs : List Byte) : EnrolArgs :=
  { address := addressAt bs 0, kind := byteAt bs 3, zone := byteAt bs 4, key := keyAt bs 5,
    period := word16At bs 21, misses := byteAt bs 23 }

/-- The 6 argument bytes of ZONE_SET (R188). -/
def zoneSetArgsOf (bs : List Byte) : ZoneSetArgs :=
  { zone := byteAt bs 0, mode := byteAt bs 1, window := word16At bs 2, partner := byteAt bs 4, offset := byteAt bs 5 }

/-- The 11 argument bytes of FILTER_SET; bits 5 to 7 of the enable and care byte and bits 2 to 7 of the actions byte
are reserved and ignored (R186, R188). -/
def filterArgsOf (bs : List Byte) : FilterArgs :=
  { index := byteAt bs 0,
    enable := (byteAt bs 1).getLsbD 0, careEvent := (byteAt bs 1).getLsbD 1, careKind := (byteAt bs 1).getLsbD 2,
    careZone := (byteAt bs 1).getLsbD 3, careAddress := (byteAt bs 1).getLsbD 4,
    eventKind := byteAt bs 2, detKind := byteAt bs 3, zone := byteAt bs 4, address := addressAt bs 5,
    priority := byteAt bs 8, raiseClass := byteAt bs 9,
    suppress := (byteAt bs 10).getLsbD 0, urgent := (byteAt bs 10).getLsbD 1 }

/-- The body of page 0, 10 bytes (R188). -/
def airArgsOf (bs : List Byte) : AirArgs :=
  { channels := byteAt bs 0, order := byteAt bs 1,
    starts := #v[byteAt bs 2, byteAt bs 3, byteAt bs 4, byteAt bs 5],
    slotLength := word16At bs 6, jam := byteAt bs 8, margin := byteAt bs 9 }

/-- P, A and H of one threshold set (R188). -/
def thresholdArgsOf (bs : List Byte) (i : Nat) : ThresholdArgs :=
  { pre := byteAt bs i, alarm := byteAt bs (i + 1), hyst := byteAt bs (i + 2) }

/-- The body of page 1, 22 bytes (R188). -/
def levelsArgsOf (bs : List Byte) : LevelsArgs :=
  { smoke := thresholdArgsOf bs 0, heat := thresholdArgsOf bs 3,
    multiSmoke := thresholdArgsOf bs 6, multiHeat := thresholdArgsOf bs 9,
    smokeDrift := ⟨byteAt bs 12, byteAt bs 13⟩, multiDrift := ⟨byteAt bs 14, byteAt bs 15⟩,
    smokeReport := ⟨byteAt bs 16, byteAt bs 17⟩, heatReport := ⟨byteAt bs 18, byteAt bs 19⟩,
    multiReport := ⟨byteAt bs 20, byteAt bs 21⟩ }

/-- The body of page 2, 9 bytes (R188). -/
def timingArgsOf (bs : List Byte) : TimingArgs :=
  { flush := word16At bs 0, summary := byteAt bs 2, sweep := byteAt bs 3, grace := word16At bs 4,
    lifetime := word16At bs 6, attempts := byteAt bs 8 }

/-- The body of page 3, 3 bytes (R188). -/
def memoryArgsOf (bs : List Byte) : MemoryArgs :=
  { tableSize := word16At bs 0, advice := byteAt bs 2 }

/-- A PAGE_WRITE of one of the four pages, when the body has the length of its page (R188). -/
def parsePageWrite (page : Byte) (body : List Byte) : Option Command :=
  match page.toNat with
  | 0 => if body.length = 10 then some (.pageWriteAir (airArgsOf body)) else none
  | 1 => if body.length = 22 then some (.pageWriteLevels (levelsArgsOf body)) else none
  | 2 => if body.length = 9 then some (.pageWriteTiming (timingArgsOf body)) else none
  | 3 => if body.length = 3 then some (.pageWriteMemory (memoryArgsOf body)) else none
  | _ => none

/-- The command a command code and its arguments name; none for a code outside the table and for arguments of another
length than the table's (R174, R188). -/
def parseArguments (code : Byte) (args : List Byte) : Option Command :=
  match code.toNat with
  | 0x01 => if args.length = 24 then some (.enrol (enrolArgsOf args)) else none
  | 0x02 => if args.length = 25 then some (.amend (enrolArgsOf args) ((byteAt args 24).getLsbD 0)) else none
  | 0x03 => if args.length = 3 then some (.withdraw (addressAt args 0)) else none
  | 0x04 => if args.length = 3 then some (.lookup (addressAt args 0)) else none
  | 0x05 => if args.length = 0 then some .clearTable else none
  | 0x06 => if args.length = 3 then some (.detectorDisable (addressAt args 0)) else none
  | 0x07 => if args.length = 3 then some (.detectorEnable (addressAt args 0)) else none
  | 0x08 => if args.length = 1 then some (.headReset (byteAt args 0)) else none
  | 0x10 => if args.length = 6 then some (.zoneSet (zoneSetArgsOf args)) else none
  | 0x11 => if args.length = 2 then some (.zoneService (byteAt args 0) (byteAt args 1)) else none
  | 0x12 => if args.length = 1 then some (.zoneReset (byteAt args 0)) else none
  | 0x13 => if args.length = 1 then some (.zoneDisable (byteAt args 0)) else none
  | 0x14 => if args.length = 1 then some (.zoneEnable (byteAt args 0)) else none
  | 0x20 => if args.length = 6 then some (.command (addressAt args 0) (byteAt args 3) (word16At args 4)) else none
  | 0x21 => if args.length = 2 then some (.groupOrder (byteAt args 0) (byteAt args 1)) else none
  | 0x30 => if args.length = 11 then some (.filterSet (filterArgsOf args)) else none
  | 0x40 => match args with
    | page :: body => parsePageWrite page body
    | [] => none
  | 0x41 => if args.length = 1 then some (.pageRead (byteAt args 0)) else none
  | 0x50 => if args.length = 0 then some .start else none
  | 0x51 => if args.length = 0 then some .stop else none
  | 0x52 => if args.length = 0 then some .restart else none
  | 0x53 => if args.length = 0 then some .statusQuery else none
  | _ => none

/-- The command of a MANAGEMENT payload: the tag, the command code, the arguments (R188). None is what R174 refuses
for its code or its length, and a PAGE_WRITE naming page 4 or more (R181; log 5). -/
def parseCommand (payload : List Byte) : Option Command :=
  match payload with
  | _ :: code :: args => parseArguments code args
  | _ => none

/-- The command code of a command (R188). -/
def Command.code : Command → Byte
  | .enrol _ => 0x01
  | .amend _ _ => 0x02
  | .withdraw _ => 0x03
  | .lookup _ => 0x04
  | .clearTable => 0x05
  | .detectorDisable _ => 0x06
  | .detectorEnable _ => 0x07
  | .headReset _ => 0x08
  | .zoneSet _ => 0x10
  | .zoneService _ _ => 0x11
  | .zoneReset _ => 0x12
  | .zoneDisable _ => 0x13
  | .zoneEnable _ => 0x14
  | .command _ _ _ => 0x20
  | .groupOrder _ _ => 0x21
  | .filterSet _ => 0x30
  | .pageWriteAir _ => 0x40
  | .pageWriteLevels _ => 0x40
  | .pageWriteTiming _ => 0x40
  | .pageWriteMemory _ => 0x40
  | .pageRead _ => 0x41
  | .start => 0x50
  | .stop => 0x51
  | .restart => 0x52
  | .statusQuery => 0x53

/-- The commands taken as MEX requests at DTU (R175). -/
def Command.atDtu : Command → Bool
  | .enrol _ | .amend _ _ | .withdraw _ | .lookup _ | .clearTable | .detectorDisable _ | .detectorEnable _ => true
  | .zoneReset _ | .command _ _ _ | .start | .pageWriteMemory _ | .statusQuery => true
  | .headReset _ | .zoneSet _ | .zoneService _ _ | .zoneDisable _ | .zoneEnable _ | .groupOrder _ _ => false
  | .filterSet _ | .pageWriteAir _ | .pageWriteLevels _ | .pageWriteTiming _ | .pageRead _ => false
  | .stop | .restart => false

/-- The command a word spells by the table's bits. No row of opcode_table.json gives bits, so no word spells one. -/
def decodeTableWord (_nbits _w : Nat) : Option Instr := none

end Sys2Proof
end

