-- ==== Sys2Proof/Config.lean ====
section
/-! DEFINITION. What the manual fixes once for the part (depths and maxima), and the values it leaves open, each an
uninterpreted constant. -/

namespace Sys2Proof.Config

/-- The seconds clock and every deadline hold here (R118). -/
def clockMax : Nat := 4294967295

/-- Counters of 0 to 4294967295 hold here (R70, R133, R148, R170, R173). -/
def count32Max : Nat := 4294967295

/-- Counters of 0 to 65535 hold here (R38, R171, R172). -/
def count16Max : Nat := 65535

/-- Loss counts hold here (R162). -/
def lossMax : Nat := 255

/-- Blocks of the record memory (R1). -/
def memoryBlocks : Nat := 2048

/-- Pool blocks kept for urgent frames (R35). -/
def poolReserve : Nat := 32

/-- Depth of a head's transmit FIFO (R44). -/
def txDepth : Nat := 16

/-- Depth of the management FIFO (R172). -/
def managementDepth : Nat := 4

/-- Depth of the FAULT queue (R162). -/
def faultDepth : Nat := 48

/-- Depth of the STATUS queue (R162). -/
def statusDepth : Nat := 48

/-- Depth of the LEVEL queue (R162). -/
def levelDepth : Nat := 96

/-- Open aggregation contexts at most (R157). -/
def contextMax : Nat := 16

/-- Values a context gathers before it closes (R158). -/
def contextValues : Nat := 16

/-- Held entries at most (R134). -/
def heldMax : Nat := 64

/-- Group order entries at most (R145). -/
def ordersMax : Nat := 8

/-- Restored bytes of one head link frame at most (R187). -/
def headFrameMax : Nat := 40

/-- The Wendrun tag function (R50): one 32-bit value for a key and the covered bytes. The manual gives its
computation in the data sheet and not here, so it stays uninterpreted (log 8). -/
opaque wendrunTag : Key → List Byte → BitVec 32

/-- A byte the manual does not state: the tag or the command code echoed for a MANAGEMENT payload that is too short to
carry one (R174, R188; log 6). Applied to the counter `freeIndex` of the state. -/
opaque freeByte : Nat → Byte

/-- The argument stored with a held TEST_ENTER or TEST_EXIT, from the command's code byte and the argument given: the
manual says the command has none and ignores the one given, and not which one is stored and carried (R135, R188;
log 7). -/
opaque unstatedArgument : Byte → BitVec 16 → BitVec 16

end Sys2Proof.Config
end

