-- ==== Sys2Proof/Machine/State.lean ====
section
/-! DEFINITION. Everything the manual gives the part to hold, block by block, as plain data; the reasons a step could
stop (the part has none); and the state after power-on reset (R185). -/

namespace Sys2Proof.Machine

/-! ## Names of modes, states and kinds -/

/-- The part's mode (R176). -/
inductive Mode where
  | loading
  | running
deriving DecidableEq, Repr

/-- Link state of a head (section 2.1). -/
inductive LinkState where
  | down
  | up
  | lost
deriving DecidableEq, Repr

/-- The six detector kinds (R12). -/
inductive DetectorKind where
  | smoke
  | heat
  | multi
  | callpoint
  | sounder
  | relay
deriving DecidableEq, Repr

/-- The five frame kinds (R34). -/
inductive FrameKind where
  | check
  | reading
  | dualReading
  | callState
  | sounderState
deriving DecidableEq, Repr

/-- Presence of a detector (R120). -/
inductive Presence where
  | awaited
  | present
  | missing
deriving DecidableEq, Repr

/-- Battery field (R122). -/
inductive Battery where
  | ok
  | low
deriving DecidableEq, Repr

/-- Tamper field (R122). -/
inductive Tamper where
  | closed
  | opened
deriving DecidableEq, Repr

/-- Level of a detector (R72). -/
inductive Level where
  | normal
  | pre
  | alarm
deriving DecidableEq, Repr

/-- Verification mode of a zone (R91). -/
inductive ZoneMode where
  | direct
  | persist
  | coincidence
deriving DecidableEq, Repr

/-- State of a zone (R92). -/
inductive ZoneState where
  | quiet
  | pre
  | verify
  | alarm
deriving DecidableEq, Repr

/-- Channel order of page 0 (R40). -/
inductive AirOrder where
  | rotate
  | mirror
deriving DecidableEq, Repr

/-- Report mode of page 1 (R85). -/
inductive ReportMode where
  | off
  | band
  | all
deriving DecidableEq, Repr

/-- The commands that can be held (R135). -/
inductive HeldCode where
  | sounderPattern
  | locate
  | testEnter
  | testExit
  | setPeriod
deriving DecidableEq, Repr

/-- State of a held entry (R134). -/
inductive HeldState where
  | waiting
  | sent
deriving DecidableEq, Repr

/-- Scope of a group order (R145). -/
inductive Scope where
  | all
  | zone (z : ZoneNo)
deriving DecidableEq, Repr

/-- Why a zone entered ALARM (R105). -/
inductive AlarmCause where
  | callpoint
  | direct
  | persisted
  | second
  | partner
deriving DecidableEq, Repr

/-- Why a verify window lapsed (R103, R115). -/
inductive LapseCause where
  | expiry
  | stop
deriving DecidableEq, Repr

/-- Why a held command failed (R140, R143). -/
inductive FailCause where
  | noEcho
  | withdrawn
deriving DecidableEq, Repr

/-- Why an aggregation context closed, in the order of R159. -/
inductive CloseCause where
  | count
  | gap
  | transition
  | notice
  | eviction
  | flush
  | alarm
  | urgent
  | stop
deriving DecidableEq, Repr

/-- Classes of event records, ALARM the most urgent (R150). -/
inductive EventClass where
  | alarm
  | fault
  | status
  | level
deriving DecidableEq, Repr

/-- The kinds of event records (R150), in the order of their codes (R189). -/
inductive EventKind where
  | zoneAlarm
  | detectorMissing | batteryLow | tamperOpen | driftLimit | integrityFault | lowSignal | headLost | headJammed
  | commandFailed | commandExpired | sounderMismatch
  | zonePre | zoneVerify | zoneLapse | zoneQuiet | detectorState | detectorPresent | batteryOk | tamperClosed
  | driftCleared | integrityOk | signalOk | headUp | headClear | commandDone | sounderMatch
  | levelSummary
deriving DecidableEq, Repr

/-- The six sources of the panel transmit arbiter, in its order (R166). -/
inductive Source where
  | alarm
  | reply
  | summary
  | fault
  | status
  | level
deriving DecidableEq, Repr

/-- Result codes of replies (9.6, R189). -/
inductive Result where
  | ok
  | adjusted
  | unchanged
  | conflict
  | absent
  | tableFull
  | queueFull
  | invalid
  | wrongMode
  | notDelivered
  | alarmLatched
  | pagesMissing
deriving DecidableEq, Repr

/-! ## Settings pages (R40, R73, R119, R137, R161, R2) -/

/-- Page 0, AIR (R40). -/
structure PageAir where
  channels     : Nat
  order        : AirOrder
  starts       : Vector Nat 4
  slotLength   : Nat
  jamThreshold : Nat
  signalMargin : Int
deriving DecidableEq, Repr

/-- A threshold set of page 1: P, A and H (R73). -/
structure ThresholdSet where
  pre   : Nat
  alarm : Nat
  hyst  : Nat
deriving DecidableEq, Repr

/-- A drift set of page 1: D and k (R73). -/
structure DriftSet where
  limit : Nat
  shift : Nat
deriving DecidableEq, Repr

/-- A report set of page 1: report mode and band delta (R73). -/
structure ReportSet where
  mode  : ReportMode
  delta : Nat
deriving DecidableEq, Repr

/-- Page 1, LEVELS (R73). -/
structure PageLevels where
  smoke       : ThresholdSet
  heat        : ThresholdSet
  multiSmoke  : ThresholdSet
  multiHeat   : ThresholdSet
  smokeDrift  : DriftSet
  multiDrift  : DriftSet
  smokeReport : ReportSet
  heatReport  : ReportSet
  multiReport : ReportSet
deriving DecidableEq, Repr

/-- Page 2, TIMING (R119, R137, R161), in seconds but for the attempt limit. -/
structure PageTiming where
  flush        : Nat
  summary      : Nat
  sweep        : Nat
  grace        : Nat
  lifetime     : Nat
  attemptLimit : Nat
deriving DecidableEq, Repr

/-- Page 3, MEMORY (R2): the table size T and the chain length advice L. -/
structure PageMemory where
  tableSize : Nat
  advice    : Nat
deriving DecidableEq, Repr

/-- The four pages with their loaded flags (R182). -/
structure Pages where
  air          : PageAir
  levels       : PageLevels
  timing       : PageTiming
  memory       : PageMemory
  airLoaded    : Bool
  levelsLoaded : Bool
  timingLoaded : Bool
  memoryLoaded : Bool
deriving DecidableEq, Repr

/-! ## Frames -/

/-- A RADIO_FRAME as a head hands it up (10.2). The kind, the hop count and the flags are kept as received: R34 checks
them at admission and R50 covers the flags byte whole. -/
structure RadioFrame where
  address  : Address
  kind     : Byte
  sequence : SeqNo
  retry    : BitVec 4
  flags    : Byte
  done     : Byte
  tag      : BitVec 32
  hop      : Byte
  relay    : Address
  channel  : Byte
  signal   : Byte
  payload  : List Byte
deriving DecidableEq, Repr

/-- An admitted frame: the radio frame, the head that passed it up and its reception slot number (R36). -/
structure LaneFrame where
  frame : RadioFrame
  head  : HeadNo
  stamp : SlotStamp
deriving DecidableEq, Repr

/-- A held command as an acknowledgement carries it (R67, R138). -/
structure Attachment where
  number   : Byte
  code     : HeldCode
  argument : BitVec 16
deriving DecidableEq, Repr

/-- A group order entry (R145). -/
structure GroupEntry where
  scope   : Scope
  pattern : Nat
deriving DecidableEq, Repr

/-- The frames the part hands to a head link (R42, R43, R45). -/
inductive HeadFrame where
  | tune (channel : Nat) (superframe : BitVec 16) (slot : BitVec 3)
  | beacon (superframe : BitVec 16) (orders : List GroupEntry)
  | ack (address : Address) (sequence : SeqNo) (superframe : BitVec 16) (slot : BitVec 3) (held : Option Attachment)
deriving DecidableEq, Repr

/-- A frame being sent on a head link, with its bytes on the line (R44, R187). -/
structure HeadTransmission where
  frame : HeadFrame
  wire  : List Byte
deriving DecidableEq, Repr

/-- The receiver of a head link (R187): ignoring bytes, or collecting a frame, `escaped` when the last byte was C2h. -/
inductive HeadReceiver where
  | ignoring
  | collecting (bytes : List Byte) (escaped : Bool)
deriving DecidableEq, Repr

/-- The receiver of the panel link (R171): hunting, or receiving a frame, with the bytes after its start marker. -/
inductive PanelReceiver where
  | hunting
  | receiving (bytes : List Byte)
deriving DecidableEq, Repr

/-! ## Heads, intake and the Slot Clock (section 2, section 3) -/

/-- The per-head counters of R38, in its order. -/
structure HeadCounters where
  linkError   : Nat
  statuses    : Nat
  notRunning  : Nat
  unknownKind : Nat
  hopLimit    : Nat
  length      : Nat
  poolFull    : Nat
  admitted    : Nat
  late        : Nat
  overrun     : Nat
deriving DecidableEq, Repr

/-- What HLI holds for one head (R29 to R33, R38, R44). -/
structure Head where
  link       : LinkState
  statusSeen : Bool
  missed     : Nat
  jam        : Bool
  jamRun     : Nat
  counters   : HeadCounters
  rx         : HeadReceiver
  txFifo     : List HeadFrame
  sending    : Option HeadTransmission
deriving DecidableEq, Repr

/-- The frame pool's free blocks and the two lanes (R35, R36). -/
structure Intake where
  freeBlocks : Nat
  urgentLane : List LaneFrame
  normalLane : List LaneFrame
deriving DecidableEq, Repr

/-- The Slot Clock (R39): slot index, superframe number, and the slot timer, stopped or armed with a slot length. -/
structure SlotClock where
  slot       : BitVec 3
  superframe : BitVec 16
  slotTimer  : Option Nat
deriving DecidableEq, Repr

/-- FIU's states with the frame held (R47) and, in the integrity unit, the captured index, epoch and key (R49) and the
check's verdict (R53). -/
inductive FiuState where
  | idle
  | lookingUp (f : LaneFrame)
  | checking (f : LaneFrame) (index : Nat) (epoch : BitVec 8) (key : Key)
  | completing (f : LaneFrame) (index : Nat) (epoch : BitVec 8) (passed : Bool)
deriving DecidableEq, Repr

/-- FIU's counters (R70), in its order. -/
structure FiuCounters where
  urgentTaken      : Nat
  normalTaken      : Nat
  unknown          : Nat
  integrityFailure : Nat
  moved            : Nat
  stale            : Nat
  repeated         : Nat
  new              : Nat
  kindMismatch     : Nat
  acknowledgements : Nat
  abandoned        : Nat
deriving DecidableEq, Repr

/-- The Frame Intake Unit (R47, R70). -/
structure Fiu where
  state    : FiuState
  counters : FiuCounters
deriving DecidableEq, Repr

/-! ## The detector table (section 1) -/

/-- A path (R60). -/
structure Path where
  head   : HeadNo
  relay  : Option Address
  hop    : Nat
  signal : Int
deriving DecidableEq, Repr

/-- A detector record: the configuration fields of R12 and the runtime fields of R13, but for the epoch, which belongs
to the index (`Slot`), and the next field, which `Dtu.chains` holds (log 13). -/
structure DetectorRecord where
  address        : Address
  kind           : DetectorKind
  zone           : ZoneNo
  key            : Key
  period         : Nat
  misses         : Nat
  enabled        : Bool
  test           : Bool
  collision      : Bool
  lastSequence   : Option SeqNo
  path           : Option Path
  weakCount      : Nat
  failureRun     : Nat
  presence       : Presence
  deadline       : Nat
  battery        : Battery
  tamper         : Tamper
  baseline       : Option Nat
  driftFault     : Bool
  level          : Level
  levelEpoch     : BitVec 8
  lastReported   : Option Nat
  sounderPattern : Nat
  mismatchRun    : Nat
deriving DecidableEq, Repr

/-- One record index: its epoch (R8) and its record, none when the index is free (R3, R7). -/
structure Slot where
  epoch  : BitVec 8
  record : Option DetectorRecord
deriving DecidableEq, Repr

/-- The Detector Table Unit (R5, R7, R8). `chains` lists, per bucket, the record indices of its chain in order. -/
structure Dtu where
  slots    : List Slot
  chains   : List (List Nat)
  freeList : List Nat
  maxChain : Nat
deriving DecidableEq, Repr

/-! ## Zones, supervision and held commands (sections 5 to 7) -/

/-- A zone record: configuration (R91) and runtime state (R92). -/
structure Zone where
  mode        : ZoneMode
  window      : Nat
  partner     : Option ZoneNo
  offset      : Nat
  service     : Bool
  enabled     : Bool
  state       : ZoneState
  raised      : Nat
  epoch       : BitVec 8
  first       : Option Address
  deadline    : Option Nat
  alarmUnsent : Bool
deriving DecidableEq, Repr

/-- The Supervision Unit (R118, R124, R125, R131, R133). `sweep` is the position of a running sweep, whose visit
request then waits. -/
structure Su where
  clock           : Nat
  sweepTimer      : Option Nat
  sweep           : Option Nat
  missing         : Nat
  sweepsStarted   : Nat
  sweepsCompleted : Nat
  sweepsAbandoned : Nat
  overlaps        : Nat
deriving DecidableEq, Repr

/-- A held entry (R134). -/
structure HeldEntry where
  target   : Address
  code     : HeldCode
  argument : BitVec 16
  number   : Byte
  state    : HeldState
  attempts : Nat
  expiry   : Nat
deriving DecidableEq, Repr

/-- HCQ's counters (R148), in its order. -/
structure HcqCounters where
  entered         : Nat
  attached        : Nat
  reverted        : Nat
  done            : Nat
  failedNoEcho    : Nat
  failedWithdrawn : Nat
  expired         : Nat
deriving DecidableEq, Repr

/-- The Held Command Queue and the group order table (R134, R145, R148). -/
structure Hcq where
  entries    : List HeldEntry
  nextNumber : Byte
  orders     : List GroupEntry
  counters   : HcqCounters
deriving DecidableEq, Repr

/-! ## Event records (section 8) -/

/-- What a record says, one constructor per event kind with its detail (R150; the details of R189). -/
inductive EventBody where
  | zoneAlarm (cause : AlarmCause) (mode : ZoneMode) (first : Option Address) (partner : Option ZoneNo) (raised : Nat)
  | detectorMissing (before : Presence) (deadline : Nat) (allowance : Nat)
  | batteryLow
  | tamperOpen
  | driftLimit (b : Nat) (limit : Nat)
  | integrityFault (head : HeadNo) (hop : Nat)
  | lowSignal (signal : Int) (hop : Nat)
  | headLost (head : HeadNo)
  | headJammed (head : HeadNo)
  | commandFailed (cause : FailCause) (e : Attachment) (removedIn : Option HeldState) (attempts : Nat)
  | commandExpired (e : Attachment) (removedIn : HeldState) (attempts : Nat)
  | sounderMismatch (reported : Nat) (expected : Nat)
  | zonePre (raised : Nat)
  | zoneVerify (mode : ZoneMode) (deadline : Nat)
  | zoneLapse (cause : LapseCause) (fallen : ZoneState) (raised : Nat)
  | zoneQuiet
  | detectorState (before : Level) (after : Level) (smoke : Option Nat) (other : Option Nat) (test : Bool)
  | detectorPresent (deadline : Nat)
  | batteryOk
  | tamperClosed
  | driftCleared (b : Nat) (limit : Nat)
  | integrityOk
  | signalOk (signal : Int) (hop : Nat)
  | headUp (head : HeadNo)
  | headClear (head : HeadNo)
  | commandDone (e : Attachment) (attempts : Nat)
  | sounderMatch (reported : Nat) (expected : Nat)
  | levelSummary (openedAt : Nat) (first : SeqNo) (last : SeqNo) (count : Nat) (least : Nat) (greatest : Nat)
      (lastValue : Nat) (cause : CloseCause)
deriving DecidableEq, Repr

/-- An event record (R149). -/
structure EventRecord where
  body       : EventBody
  cls        : EventClass
  time       : Nat
  zone       : Option ZoneNo
  address    : Option Address
  kind       : Option DetectorKind
  lostBefore : Nat
deriving DecidableEq, Repr

/-- A message filter (R152). A field whose care flag is off is none, and is stored and read as 0 (R156). -/
structure Filter where
  enable     : Bool
  eventKind  : Option EventKind
  detKind    : Option DetectorKind
  zone       : Option ZoneNo
  address    : Option Address
  priority   : Nat
  raiseClass : Option EventClass
  suppress   : Bool
  urgent     : Bool
deriving DecidableEq, Repr

/-- An open aggregation context (R157). -/
structure Context where
  address  : Address
  zone     : ZoneNo
  kind     : DetectorKind
  openedAt : Nat
  first    : SeqNo
  last     : SeqNo
  count    : Nat
  least    : Nat
  greatest : Nat
  value    : Nat
deriving DecidableEq, Repr

/-- A ZONE_SUMMARY (R165): per zone its state, enabled and service flags; per head its link state and jam flag. -/
structure ZoneSummary where
  time    : Nat
  mode    : Mode
  missing : Nat
  heads   : List (LinkState × Bool)
  zones   : List (ZoneState × Bool × Bool)
deriving DecidableEq, Repr

/-- A reply (R174): tag, command code, result code, reply data. -/
structure Reply where
  tag    : Byte
  code   : Byte
  result : Result
  data   : List Byte
deriving DecidableEq, Repr

/-- The three kinds of upstream frame (section 8.5). -/
inductive PanelFrame where
  | record (r : EventRecord)
  | reply (r : Reply)
  | summary (z : ZoneSummary)
deriving DecidableEq, Repr

/-- A frame on the panel link: its source, the frame, and its bytes on the line (R166, R189). -/
structure PanelTransmission where
  source : Source
  frame  : PanelFrame
  wire   : List Byte
deriving DecidableEq, Repr

/-- EVU's counters (R170), in its order. -/
structure EvuCounters where
  takenAlarm       : Nat
  takenFault       : Nat
  takenStatus      : Nat
  takenLevel       : Nat
  suppressed       : Nat
  classRaised      : Nat
  urgentClosings   : Nat
  droppedFault     : Nat
  droppedStatus    : Nat
  droppedLevel     : Nat
  contextsOpened   : Nat
  closedCount      : Nat
  closedGap        : Nat
  closedTransition : Nat
  closedNotice     : Nat
  closedEviction   : Nat
  closedFlush      : Nat
  closedAlarm      : Nat
  closedUrgent     : Nat
  closedStop       : Nat
  summariesBuilt   : Nat
  summariesReplaced : Nat
  sentAlarm        : Nat
  sentReply        : Nat
  sentSummary      : Nat
  sentFault        : Nat
  sentStatus       : Nat
  sentLevel        : Nat
deriving DecidableEq, Repr

/-- The Event Unit (R152, R157, R161 to R164, R170) with the panel transmitter it arbitrates (R166). The reply slot is
MEX's (R173); it stands here beside the other sources of the arbiter. `replyFirst` says that the arbiter's choice on the
idle link fell on the reply before the ALARM records that have joined since (R166; log 11). -/
structure Evu where
  filters      : Vector Filter 16
  contexts     : List Context
  alarmQueue   : List EventRecord
  faultQueue   : List EventRecord
  statusQueue  : List EventRecord
  levelQueue   : List EventRecord
  faultLoss    : Nat
  statusLoss   : Nat
  levelLoss    : Nat
  summarySlot  : Option ZoneSummary
  replySlot    : Option Reply
  replyFirst   : Bool
  tx           : Option PanelTransmission
  flushTimer   : Nat
  summaryTimer : Nat
  counters     : EvuCounters
deriving DecidableEq, Repr

/-! ## Panel link and management (section 9) -/

/-- The downstream side of the panel link (R171, R172). The management FIFO holds MANAGEMENT payloads. -/
structure Pli where
  rx        : PanelReceiver
  fifo      : List (List Byte)
  badFrames : Nat
  overflows : Nat
deriving DecidableEq, Repr

/-- MEX's states; EXECUTING holds the payload of the command taken (R173). -/
inductive MexState where
  | idle
  | executing (payload : List Byte)
  | restarting
deriving DecidableEq, Repr

/-- The Management Executor (R173). -/
structure Mex where
  state         : MexState
  commandsTaken : Nat
deriving DecidableEq, Repr

/-- The whole part, and the queue of commands and events that wait to be taken. -/
structure State where
  mode      : Mode
  pages     : Pages
  dtu       : Dtu
  heads     : Vector Head 4
  intake    : Intake
  clock     : SlotClock
  fiu       : Fiu
  zones     : Vector Zone 64
  su        : Su
  hcq       : Hcq
  evu       : Evu
  pli       : Pli
  mex       : Mex
  pending   : List Instr
  freeIndex : Nat
deriving DecidableEq, Repr

/-! ## Why a step could stop -/

/-- Faults. The manual stops the part nowhere: what it cannot use it discards and counts, or refuses with a result code
in a reply (R28, R171, R174). So there is no fault, and no meaning can raise one. -/
inductive Fault where
deriving DecidableEq, Repr

/-- Refusals. -/
inductive Refusal where
  /-- No meaning is written for the row of this mnemonic. Raised by a dispatch arm only, and safe: a run stops there.
  Every row has its meaning, so no arm raises it. -/
  | notModelled (mnemonic : String)
deriving DecidableEq, Repr

/-! ## Power-on reset (R185) -/

/-- Page 0 at power-on (R40). -/
def PageAir.powerOn : PageAir :=
  { channels := 4, order := .rotate, starts := #v[0, 1, 2, 3], slotLength := 250, jamThreshold := 80,
    signalMargin := -90 }

/-- Page 1 at power-on (R73). -/
def PageLevels.powerOn : PageLevels :=
  { smoke := ⟨20, 45, 3⟩, heat := ⟨55, 70, 2⟩, multiSmoke := ⟨20, 45, 3⟩, multiHeat := ⟨55, 70, 2⟩,
    smokeDrift := ⟨80, 6⟩, multiDrift := ⟨80, 6⟩,
    smokeReport := ⟨.band, 8⟩, heatReport := ⟨.band, 4⟩, multiReport := ⟨.band, 8⟩ }

/-- Page 2 at power-on (R119, R137, R161). -/
def PageTiming.powerOn : PageTiming :=
  { flush := 60, summary := 10, sweep := 2, grace := 300, lifetime := 600, attemptLimit := 3 }

/-- Page 3 at power-on (R3). -/
def PageMemory.powerOn : PageMemory := { tableSize := 512, advice := 8 }

/-- The pages at power-on, none of them loaded (R182). -/
def Pages.powerOn : Pages :=
  { air := .powerOn, levels := .powerOn, timing := .powerOn, memory := .powerOn,
    airLoaded := false, levelsLoaded := false, timingLoaded := false, memoryLoaded := false }

/-- An empty table of T indices: every epoch 0, every bucket empty, every index free in ascending order (R2, R3). -/
def Dtu.empty (tableSize : Nat) : Dtu :=
  { slots := List.replicate tableSize ⟨0, none⟩, chains := List.replicate (tableSize / 4) [],
    freeList := List.range tableSize, maxChain := 0 }

/-- A head's counters at 0 (R33). -/
def HeadCounters.zero : HeadCounters := ⟨0, 0, 0, 0, 0, 0, 0, 0, 0, 0⟩

/-- A head at power-on (R33). -/
def Head.powerOn : Head :=
  { link := .down, statusSeen := false, missed := 0, jam := false, jamRun := 0, counters := .zero,
    rx := .ignoring, txFifo := [], sending := none }

/-- The intake side with an empty pool of a table of T indices (R37). -/
def Intake.empty (tableSize : Nat) : Intake :=
  { freeBlocks := Config.memoryBlocks - tableSize, urgentLane := [], normalLane := [] }

/-- The Slot Clock at power-on and after RESTART (R39). -/
def SlotClock.stopped : SlotClock := { slot := 0, superframe := 0, slotTimer := none }

/-- FIU's counters at 0 (R70). -/
def FiuCounters.zero : FiuCounters := ⟨0, 0, 0, 0, 0, 0, 0, 0, 0, 0, 0⟩

/-- FIU at power-on and after RESTART (R52). -/
def Fiu.cleared : Fiu := { state := .idle, counters := .zero }

/-- A zone at power-on (R91, R92). -/
def Zone.powerOn : Zone :=
  { mode := .direct, window := 30, partner := none, offset := 0, service := false, enabled := true,
    state := .quiet, raised := 0, epoch := 0, first := none, deadline := none, alarmUnsent := false }

/-- SU at power-on and after RESTART (R132). -/
def Su.cleared : Su :=
  { clock := 0, sweepTimer := none, sweep := none, missing := 0,
    sweepsStarted := 0, sweepsCompleted := 0, sweepsAbandoned := 0, overlaps := 0 }

/-- HCQ's counters at 0 (R148). -/
def HcqCounters.zero : HcqCounters := ⟨0, 0, 0, 0, 0, 0, 0⟩

/-- HCQ at power-on and after RESTART (R134, R145, R148). -/
def Hcq.cleared : Hcq := { entries := [], nextNumber := 1, orders := [], counters := .zero }

/-- A filter at power-on (R152). -/
def Filter.powerOn : Filter :=
  { enable := false, eventKind := none, detKind := none, zone := none, address := none, priority := 1,
    raiseClass := none, suppress := false, urgent := false }

/-- EVU's counters at 0 (R170). -/
def EvuCounters.zero : EvuCounters :=
  ⟨0, 0, 0, 0, 0, 0, 0, 0, 0, 0, 0, 0, 0, 0, 0, 0, 0, 0, 0, 0, 0, 0, 0, 0, 0, 0, 0, 0⟩

/-- EVU with everything empty, its timers armed with the periods of a page 2 (R169). -/
def Evu.cleared (filters : Vector Filter 16) (timing : PageTiming) (tx : Option PanelTransmission) : Evu :=
  { filters := filters, contexts := [], alarmQueue := [], faultQueue := [], statusQueue := [], levelQueue := [],
    faultLoss := 0, statusLoss := 0, levelLoss := 0, summarySlot := none, replySlot := none, replyFirst := false,
    tx := tx, flushTimer := timing.flush, summaryTimer := timing.summary, counters := .zero }

/-- PLI at power-on (R171, R172). -/
def Pli.powerOn : Pli := { rx := .hunting, fifo := [], badFrames := 0, overflows := 0 }

/-- MEX at power-on and after the RESTART clear (R173). -/
def Mex.cleared : Mex := { state := .idle, commandsTaken := 0 }

/-- The part right after power-on reset (R185). -/
def State.reset : State :=
  { mode := .loading, pages := .powerOn, dtu := .empty 512, heads := Vector.replicate 4 .powerOn,
    intake := .empty 512, clock := .stopped, fiu := .cleared, zones := Vector.replicate 64 .powerOn,
    su := .cleared, hcq := .cleared, evu := .cleared (Vector.replicate 16 .powerOn) .powerOn none,
    pli := .powerOn, mex := .cleared, pending := [], freeIndex := 0 }

end Sys2Proof.Machine
end

