-- ==== Sys2Proof/Machine/Ops.lean ====
section
/-! DEFINITION. The named operations every block uses: counters and clock values that hold at a maximum, clamping, and
the accessors of heads, zones and detector records. -/

namespace Sys2Proof.Machine

/-- A sum that holds at a maximum. -/
def satAdd (max a b : Nat) : Nat := min (a + b) max

/-- A clock value later by some seconds; a sum past the clock's maximum is set to it (R13, R118). -/
def clockAdd (a b : Nat) : Nat := satAdd Config.clockMax a b

/-- A counter of 0 to 65535, one more (R38, R171, R172). -/
def inc16 (n : Nat) : Nat := satAdd Config.count16Max n 1

/-- A counter of 0 to 4294967295, one more (R70, R133, R148, R170, R173). -/
def inc32 (n : Nat) : Nat := satAdd Config.count32Max n 1

/-- A loss count, one more, holding at 255 (R162). -/
def incLoss (n : Nat) : Nat := satAdd Config.lossMax n 1

/-- Clamping: the nearest value in range (00 Conventions). -/
def clamp (lo hi x : Nat) : Nat := max lo (min x hi)

/-- Clamping of a signed value. -/
def clampInt (lo hi x : Int) : Int := max lo (min x hi)

/-- The reserved addresses 000000h and FFFFFFh (section 1.2). -/
def reservedAddress (a : Address) : Bool := a == 0 || a == 0xFFFFFF

/-- Apply a change to the first element that satisfies `p`. -/
def modifyFirst {α : Type} (p : α → Bool) (f : α → α) : List α → List α
  | [] => []
  | x :: xs => if p x then f x :: xs else x :: modifyFirst p f xs

/-- Apply a change to every element of a vector. -/
def mapVector {α : Type} {n : Nat} (f : α → α) (v : Vector α n) : Vector α n :=
  ⟨⟨v.toList.map f⟩, by simp⟩

/-! ## Heads and zones -/

/-- What HLI holds for head h. -/
def State.head (s : State) (h : HeadNo) : Head := s.heads.get h

/-- Replace what HLI holds for head h. -/
def State.setHead (s : State) (h : HeadNo) (v : Head) : State := { s with heads := s.heads.set h v }

/-- Change what HLI holds for head h. -/
def State.modifyHead (s : State) (h : HeadNo) (f : Head → Head) : State := s.setHead h (f (s.head h))

/-- The record of zone z. -/
def State.zone (s : State) (z : ZoneNo) : Zone := s.zones.get z

/-- Replace the record of zone z. -/
def State.setZone (s : State) (z : ZoneNo) (v : Zone) : State := { s with zones := s.zones.set z v }

/-- Change the record of zone z. -/
def State.modifyZone (s : State) (z : ZoneNo) (f : Zone → Zone) : State := s.setZone z (f (s.zone z))

/-! ## The detector table -/

/-- The epoch of a record index (R8). -/
def Dtu.epochAt (d : Dtu) (i : Nat) : BitVec 8 := (d.slots[i]?.map Slot.epoch).getD 0

/-- The record an index holds, none when it is free. -/
def Dtu.recordAt (d : Dtu) (i : Nat) : Option DetectorRecord := d.slots[i]?.bind Slot.record

/-- Write the record of an index, its epoch kept. -/
def Dtu.putRecord (d : Dtu) (i : Nat) (r : Option DetectorRecord) : Dtu :=
  { d with slots := d.slots.set i ⟨d.epochAt i, r⟩ }

/-- Increment the epoch of an index, wrapping from 255 to 0 (R8). -/
def Dtu.bumpEpoch (d : Dtu) (i : Nat) : Dtu :=
  { d with slots := d.slots.set i ⟨d.epochAt i + 1, d.recordAt i⟩ }

/-- The number of chained records (R7, R27). -/
def Dtu.chained (d : Dtu) : Nat := d.slots.countP (·.record.isSome)

/-- The table size T (R1). -/
def State.tableSize (s : State) : Nat := s.pages.memory.tableSize

/-- The bucket count B, always T/4 (R1). -/
def State.buckets (s : State) : Nat := s.tableSize / 4

/-- The frame pool's size, 2048 - T (R1). -/
def State.poolSize (s : State) : Nat := Config.memoryBlocks - s.tableSize

/-- Now: the value of the seconds clock (R118). -/
def State.now (s : State) : Nat := s.su.clock

/-- A detector's check-in allowance P × M (R12). -/
def DetectorRecord.allowance (r : DetectorRecord) : Nat := r.period * r.misses

/-- The current level: the stored level when its stamp is the zone's epoch, else NORMAL (R78). -/
def DetectorRecord.currentLevel (r : DetectorRecord) (epoch : BitVec 8) : Level :=
  if r.levelEpoch = epoch then r.level else .normal

/-- Whether a record is counted in its zone, whose epoch is given (R13). -/
def DetectorRecord.counted (r : DetectorRecord) (epoch : BitVec 8) : Bool :=
  r.enabled && !r.test && r.currentLevel epoch != .normal

/-- The record with its level NORMAL, stamped with an epoch: the writes of R88. -/
def DetectorRecord.levelNormal (r : DetectorRecord) (epoch : BitVec 8) : DetectorRecord :=
  { r with level := .normal, levelEpoch := epoch }

/-- The current reception slot number, (superframe × 8 + slot index) mod 65536 (R36, R39). -/
def SlotClock.stamp (c : SlotClock) : SlotStamp := c.superframe * 8 + c.slot.setWidth 16

end Sys2Proof.Machine
end

