-- ==== Sys2Proof/Machine/Flags.lean ====
section
/-! DEFINITION. The flag bytes of the layouts of Section 10, bit 0 the least significant (R186), and the flags of a
received frame. -/

namespace Sys2Proof.Machine

/-- A byte with its low bits set from a list of flags, bit 0 first; the bits not named are 0 (R186). -/
def flagByte (flags : List Bool) : Byte :=
  BitVec.ofNat 8 (flags.foldr (fun b n => b.toNat + 2 * n) 0)

/-- A flag sent as a whole byte, 01h when set (R189). -/
def boolByte (b : Bool) : Byte := if b then 1 else 0

/-- Urgent flag of a radio frame: bit 0 of its flags byte (10.2). -/
def RadioFrame.urgent (f : RadioFrame) : Bool := f.flags.getLsbD 0

/-- Battery flag of a radio frame: bit 1, set when the battery is low (10.2). -/
def RadioFrame.batteryLow (f : RadioFrame) : Bool := f.flags.getLsbD 1

/-- Tamper flag of a radio frame: bit 2, set when the cover is open (10.2). -/
def RadioFrame.tamperOpen (f : RadioFrame) : Bool := f.flags.getLsbD 2

/-- The flags byte of a LOOKUP reply (R189): enabled, key present (R12), collision, test, battery LOW, tamper OPEN,
drift fault. -/
def DetectorRecord.flags (r : DetectorRecord) : Byte :=
  flagByte [r.enabled, r.key != 0, r.collision, r.test, r.battery == .low, r.tamper == .opened, r.driftFault]

/-- The flags byte of a zone record in a reply (R189): service, enabled, alarm record unsent. -/
def Zone.flags (z : Zone) : Byte := flagByte [z.service, z.enabled, z.alarmUnsent]

/-- The enable and care byte of a stored filter (R188): enable, then the care flags of event kind, detector kind, zone
and address. -/
def Filter.careByte (f : Filter) : Byte :=
  flagByte [f.enable, f.eventKind.isSome, f.detKind.isSome, f.zone.isSome, f.address.isSome]

/-- The actions byte of a stored filter (R188): suppress, urgent. -/
def Filter.actionByte (f : Filter) : Byte := flagByte [f.suppress, f.urgent]

/-- The presence byte of a RECORD (R189): zone, address, detector kind. -/
def EventRecord.presenceByte (r : EventRecord) : Byte :=
  flagByte [r.zone.isSome, r.address.isSome, r.kind.isSome]

end Sys2Proof.Machine
end

