-- ==== Sys2Proof/Machine/Operands.lean ====
section
/-! DEFINITION. Reading operands: the codes of the layouts (R188), the clamping of each value to its range, and the
stored form of each settings page with the argument form it is read back in. -/

namespace Sys2Proof.Machine

/-! ## Codes -/

/-- Detector kind codes (R188). -/
def DetectorKind.code : DetectorKind → Byte
  | .smoke => 1
  | .heat => 2
  | .multi => 3
  | .callpoint => 4
  | .sounder => 5
  | .relay => 6

/-- The detector kind a code names (R188). -/
def DetectorKind.ofCode (b : Byte) : Option DetectorKind :=
  match b.toNat with
  | 1 => some .smoke
  | 2 => some .heat
  | 3 => some .multi
  | 4 => some .callpoint
  | 5 => some .sounder
  | 6 => some .relay
  | _ => none

/-- The frame kind a byte names (10.2). -/
def FrameKind.ofCode (b : Byte) : Option FrameKind :=
  match b.toNat with
  | 0 => some .check
  | 1 => some .reading
  | 2 => some .dualReading
  | 3 => some .callState
  | 4 => some .sounderState
  | _ => none

/-- The payload length of a frame kind (R34). -/
def FrameKind.payloadLength : FrameKind → Nat
  | .check => 0
  | .reading => 1
  | .dualReading => 2
  | .callState => 1
  | .sounderState => 1

/-- The zone a zone number names; 64 or more names none (R108). -/
def zoneOf (b : Byte) : Option ZoneNo := if h : b.toNat < 64 then some ⟨b.toNat, h⟩ else none

/-- The head a head number names; 4 or more names none (R32). -/
def headOf (b : Byte) : Option HeadNo := if h : b.toNat < 4 then some ⟨b.toNat, h⟩ else none

/-- The zone mode a code names (R188). -/
def ZoneMode.ofCode (b : Byte) : Option ZoneMode :=
  match b.toNat with
  | 0 => some .direct
  | 1 => some .persist
  | 2 => some .coincidence
  | _ => none

/-- Zone mode codes (R188). -/
def ZoneMode.code : ZoneMode → Byte
  | .direct => 0
  | .persist => 1
  | .coincidence => 2

/-- A partner byte: a zone, or FFh for none; any other value names no possible thing (R108, R188). -/
def partnerOf (b : Byte) : Option (Option ZoneNo) :=
  if b = 0xFF then some none else (zoneOf b).map some

/-- The service code (R188). -/
def serviceOf (b : Byte) : Option Bool :=
  match b.toNat with
  | 0 => some false
  | 1 => some true
  | _ => none

/-- A group order scope: a zone, or FFh for ALL (R188). -/
def Scope.ofCode (b : Byte) : Option Scope :=
  if b = 0xFF then some .all else (zoneOf b).map .zone

/-- Scope codes (10.2, R188). -/
def Scope.code : Scope → Byte
  | .all => 0xFF
  | .zone z => BitVec.ofNat 8 z.val

/-- The held command a code names (R188). -/
def HeldCode.ofCode (b : Byte) : Option HeldCode :=
  match b.toNat with
  | 1 => some .sounderPattern
  | 2 => some .locate
  | 3 => some .testEnter
  | 4 => some .testExit
  | 5 => some .setPeriod
  | _ => none

/-- Held command codes (R188). -/
def HeldCode.code : HeldCode → Byte
  | .sounderPattern => 1
  | .locate => 2
  | .testEnter => 3
  | .testExit => 4
  | .setPeriod => 5

/-- The channel order a code names (R188). -/
def AirOrder.ofCode (b : Byte) : Option AirOrder :=
  match b.toNat with
  | 0 => some .rotate
  | 1 => some .mirror
  | _ => none

/-- Channel order codes (R188). -/
def AirOrder.code : AirOrder → Byte
  | .rotate => 0
  | .mirror => 1

/-- The report mode a code names (R188). -/
def ReportMode.ofCode (b : Byte) : Option ReportMode :=
  match b.toNat with
  | 0 => some .off
  | 1 => some .band
  | 2 => some .all
  | _ => none

/-- Report mode codes (R188). -/
def ReportMode.code : ReportMode → Byte
  | .off => 0
  | .band => 1
  | .all => 2

/-- The raise-class a code names: none, FAULT or STATUS (R188). -/
def raiseClassOf (b : Byte) : Option (Option EventClass) :=
  match b.toNat with
  | 0 => some none
  | 2 => some (some .fault)
  | 3 => some (some .status)
  | _ => none

/-- Class codes of a RECORD (R189); a raise-class has the same codes and 00h for none (R188). -/
def EventClass.code : EventClass → Byte
  | .alarm => 1
  | .fault => 2
  | .status => 3
  | .level => 4

/-- Event kind codes (R189). -/
def EventKind.code : EventKind → Byte
  | .zoneAlarm => 0x01
  | .detectorMissing => 0x10
  | .batteryLow => 0x11
  | .tamperOpen => 0x12
  | .driftLimit => 0x13
  | .integrityFault => 0x14
  | .lowSignal => 0x15
  | .headLost => 0x16
  | .headJammed => 0x17
  | .commandFailed => 0x18
  | .commandExpired => 0x19
  | .sounderMismatch => 0x1A
  | .zonePre => 0x20
  | .zoneVerify => 0x21
  | .zoneLapse => 0x22
  | .zoneQuiet => 0x23
  | .detectorState => 0x24
  | .detectorPresent => 0x25
  | .batteryOk => 0x26
  | .tamperClosed => 0x27
  | .driftCleared => 0x28
  | .integrityOk => 0x29
  | .signalOk => 0x2A
  | .headUp => 0x2B
  | .headClear => 0x2C
  | .commandDone => 0x2D
  | .sounderMatch => 0x2E
  | .levelSummary => 0x30

/-- Every event kind a filter may care for: all but ZONE_ALARM (R152, R189). -/
def filterableKinds : List EventKind :=
  [.detectorMissing, .batteryLow, .tamperOpen, .driftLimit, .integrityFault, .lowSignal, .headLost, .headJammed,
    .commandFailed, .commandExpired, .sounderMismatch,
    .zonePre, .zoneVerify, .zoneLapse, .zoneQuiet, .detectorState, .detectorPresent, .batteryOk, .tamperClosed,
    .driftCleared, .integrityOk, .signalOk, .headUp, .headClear, .commandDone, .sounderMatch, .levelSummary]

/-- The event kind a FILTER_SET code names (R156, R189). -/
def filterKindOf (b : Byte) : Option EventKind := filterableKinds.find? (fun k => k.code == b)

/-! ## Values with a range -/

/-- A check-in period as stored: clamped to 20 to 600 and rounded down to a multiple of 10 (R12). -/
def storedPeriod (p : Nat) : Nat := clamp 20 600 p / 10 * 10

/-- Allowed misses as stored: clamped to 1 to 4 (R12). -/
def storedMisses (m : Nat) : Nat := clamp 1 4 m

/-- A received signal strength: signed, taken into -127 to 0 (R60, R186). -/
def RadioFrame.signalDbm (f : RadioFrame) : Int := clampInt (-127) 0 f.signal.toInt

/-! ## Page 0, AIR (R40) -/

/-- Page 0 as stored, when its order code names an order (R40): N first, the head starts reduced by it, MIRROR kept
only with N of 2, 4 or 8, the slot length clamped and rounded down to a multiple of 25. -/
def PageAir.store (a : AirArgs) : Option PageAir :=
  (AirOrder.ofCode a.order).map fun order =>
    let n := clamp 2 8 a.channels.toNat
    { channels := n,
      order := if order = .mirror ∧ ¬ (n = 2 ∨ n = 4 ∨ n = 8) then .rotate else order,
      starts := #v[(a.starts.get 0).toNat % n, (a.starts.get 1).toNat % n,
        (a.starts.get 2).toNat % n, (a.starts.get 3).toNat % n],
      slotLength := clamp 100 500 a.slotLength.toNat / 25 * 25,
      jamThreshold := clamp 50 100 a.jam.toNat,
      signalMargin := clampInt (-100) (-60) a.margin.toInt }

/-- Page 0 as its body carries it (R188). -/
def PageAir.toArgs (p : PageAir) : AirArgs :=
  { channels := BitVec.ofNat 8 p.channels, order := p.order.code,
    starts := #v[BitVec.ofNat 8 (p.starts.get 0), BitVec.ofNat 8 (p.starts.get 1),
      BitVec.ofNat 8 (p.starts.get 2), BitVec.ofNat 8 (p.starts.get 3)],
    slotLength := BitVec.ofNat 16 p.slotLength, jam := BitVec.ofNat 8 p.jamThreshold,
    margin := BitVec.ofInt 8 p.signalMargin }

/-! ## Page 1, LEVELS (R73) -/

/-- A threshold set as stored: each number clamped, and then a P that is not below A stored as A - 1 (R73). -/
def ThresholdSet.store (a : ThresholdArgs) : ThresholdSet :=
  let p := clamp 1 254 a.pre.toNat
  let al := clamp 2 250 a.alarm.toNat
  { pre := if p < al then p else al - 1, alarm := al, hyst := clamp 0 15 a.hyst.toNat }

/-- A threshold set as a page body carries it (R188). -/
def ThresholdSet.toArgs (t : ThresholdSet) : ThresholdArgs :=
  { pre := BitVec.ofNat 8 t.pre, alarm := BitVec.ofNat 8 t.alarm, hyst := BitVec.ofNat 8 t.hyst }

/-- A drift set as stored (R73). -/
def DriftSet.store (a : DriftArgs) : DriftSet :=
  { limit := clamp 10 200 a.limit.toNat, shift := clamp 2 10 a.shift.toNat }

/-- A drift set as a page body carries it (R188). -/
def DriftSet.toArgs (d : DriftSet) : DriftArgs :=
  { limit := BitVec.ofNat 8 d.limit, shift := BitVec.ofNat 8 d.shift }

/-- A report set as stored, when its mode code names a mode (R73). -/
def ReportSet.store (a : ReportArgs) : Option ReportSet :=
  (ReportMode.ofCode a.mode).map fun m => { mode := m, delta := clamp 1 64 a.delta.toNat }

/-- A report set as a page body carries it (R188). -/
def ReportSet.toArgs (r : ReportSet) : ReportArgs := { mode := r.mode.code, delta := BitVec.ofNat 8 r.delta }

/-- Page 1 as stored, when its three report mode codes name modes (R73). -/
def PageLevels.store (a : LevelsArgs) : Option PageLevels :=
  match ReportSet.store a.smokeReport, ReportSet.store a.heatReport, ReportSet.store a.multiReport with
  | some sr, some hr, some mr =>
    some { smoke := .store a.smoke, heat := .store a.heat, multiSmoke := .store a.multiSmoke,
           multiHeat := .store a.multiHeat, smokeDrift := .store a.smokeDrift, multiDrift := .store a.multiDrift,
           smokeReport := sr, heatReport := hr, multiReport := mr }
  | _, _, _ => none

/-- Page 1 as its body carries it (R188). -/
def PageLevels.toArgs (p : PageLevels) : LevelsArgs :=
  { smoke := p.smoke.toArgs, heat := p.heat.toArgs, multiSmoke := p.multiSmoke.toArgs,
    multiHeat := p.multiHeat.toArgs, smokeDrift := p.smokeDrift.toArgs, multiDrift := p.multiDrift.toArgs,
    smokeReport := p.smokeReport.toArgs, heatReport := p.heatReport.toArgs, multiReport := p.multiReport.toArgs }

/-! ## Page 2, TIMING (R119, R137, R161) -/

/-- Page 2 as stored: every value clamped. -/
def PageTiming.store (a : TimingArgs) : PageTiming :=
  { flush := clamp 5 300 a.flush.toNat, summary := clamp 2 60 a.summary.toNat, sweep := clamp 1 10 a.sweep.toNat,
    grace := clamp 0 3600 a.grace.toNat, lifetime := clamp 30 3600 a.lifetime.toNat,
    attemptLimit := clamp 1 8 a.attempts.toNat }

/-- Page 2 as its body carries it (R188). -/
def PageTiming.toArgs (p : PageTiming) : TimingArgs :=
  { flush := BitVec.ofNat 16 p.flush, summary := BitVec.ofNat 8 p.summary, sweep := BitVec.ofNat 8 p.sweep,
    grace := BitVec.ofNat 16 p.grace, lifetime := BitVec.ofNat 16 p.lifetime,
    attempts := BitVec.ofNat 8 p.attemptLimit }

/-! ## Page 3, MEMORY (R2) -/

/-- The nearest of 256, 512 and 1024; a value exactly between two takes the smaller (R2). -/
def nearestTableSize (t : Nat) : Nat := if t ≤ 384 then 256 else if t ≤ 768 then 512 else 1024

/-- Page 3 as stored (R2). -/
def PageMemory.store (a : MemoryArgs) : PageMemory :=
  { tableSize := nearestTableSize a.tableSize.toNat, advice := clamp 1 16 a.advice.toNat }

/-- Page 3 as its body carries it (R188). -/
def PageMemory.toArgs (p : PageMemory) : MemoryArgs :=
  { tableSize := BitVec.ofNat 16 p.tableSize, advice := BitVec.ofNat 8 p.advice }

/-! ## Held command arguments (R135) -/

/-- The argument stored with a held command; none refuses a LOCATE argument that is neither on nor off. A pattern
above 7 is stored as 7 and a period as R12 states; TEST_ENTER and TEST_EXIT ignore theirs (R135, R188; log 7). -/
def storedArgument (c : HeldCode) (argument : BitVec 16) : Option (BitVec 16) :=
  match c with
  | .sounderPattern => some (BitVec.ofNat 16 (min argument.toNat 7))
  | .locate => if argument.toNat ≤ 1 then some argument else none
  | .testEnter => some (Config.unstatedArgument HeldCode.testEnter.code argument)
  | .testExit => some (Config.unstatedArgument HeldCode.testExit.code argument)
  | .setPeriod => some (BitVec.ofNat 16 (storedPeriod argument.toNat))

/-- Whether storing replaced an argument that is carried: ADJUSTED (R135). -/
def argumentReplaced (c : HeldCode) (argument stored : BitVec 16) : Bool :=
  match c with
  | .testEnter | .testExit => false
  | .sounderPattern | .locate | .setPeriod => stored != argument

/-- The detector kinds a held command suits (R135). -/
def HeldCode.suits (c : HeldCode) (k : DetectorKind) : Bool :=
  match c with
  | .sounderPattern => k == .sounder
  | .locate => k != .relay
  | .testEnter | .testExit => k == .smoke || k == .heat || k == .multi || k == .callpoint
  | .setPeriod => true

end Sys2Proof.Machine
end

