-- ==== Sys2Proof/Machine/Formats.lean ====
section
/-! DEFINITION. The bytes on the links (section 10): the check, the framing of both links, the receivers of both
links, and the payload of every frame the part sends. -/

namespace Sys2Proof.Machine

/-! ## Numbers and the check (R186) -/

/-- A number as one byte. -/
def byte1 (n : Nat) : List Byte := [BitVec.ofNat 8 n]

/-- A number as two bytes, high byte first (R186). -/
def byte2 (n : Nat) : List Byte := [BitVec.ofNat 8 (n / 256), BitVec.ofNat 8 n]

/-- A number as four bytes, high byte first (R186). -/
def byte4 (n : Nat) : List Byte :=
  [BitVec.ofNat 8 (n / 16777216), BitVec.ofNat 8 (n / 65536), BitVec.ofNat 8 (n / 256), BitVec.ofNat 8 n]

/-- An address as three bytes a2, a1, a0 (R186). -/
def addressBytes (a : Address) : List Byte :=
  [a.extractLsb' 16 8, a.extractLsb' 8 8, a.extractLsb' 0 8]

/-- One bit of the check computation (R186). -/
def checkBit (r : BitVec 16) (b : Bool) : BitVec 16 :=
  if r.msb != b then (r <<< 1) ^^^ 0x1021 else r <<< 1

/-- One byte of the check computation, most significant bit first (R186). -/
def checkByte (r : BitVec 16) (b : Byte) : BitVec 16 :=
  [7, 6, 5, 4, 3, 2, 1, 0].foldl (fun r i => checkBit r (b.getLsbD i)) r

/-- The check over the length field, the type and the payload (R186). -/
def checkOf (bs : List Byte) : BitVec 16 := bs.foldl checkByte 0xFFFF

/-- The check as two bytes, high byte first. -/
def checkBytes (bs : List Byte) : List Byte := byte2 (checkOf bs).toNat

/-! ## The head links (R187) -/

/-- Start marker of a head link frame. -/
def headStart : Byte := 0xC0

/-- End marker of a head link frame. -/
def headEnd : Byte := 0xC1

/-- Escape byte of a head link. -/
def headEscape : Byte := 0xC2

/-- One frame byte on the line: C0h, C1h and C2h are sent as C2h and the byte minus 40h (R187). -/
def escapeByte (b : Byte) : List Byte :=
  if b = headStart ∨ b = headEnd ∨ b = headEscape then [headEscape, b - 0x40] else [b]

/-- A head link frame on the line, from its type and payload (R187). -/
def headWire (type : Byte) (payload : List Byte) : List Byte :=
  let body := BitVec.ofNat 8 (payload.length + 1) :: type :: payload
  headStart :: ((body ++ checkBytes body).flatMap escapeByte ++ [headEnd])

/-- A group order entry, its scope and its pattern (10.2). -/
def GroupEntry.bytes (g : GroupEntry) : List Byte := g.scope.code :: byte1 g.pattern

/-- The group order table as a BEACON and a GROUP_ORDER reply carry it: the entry count and the entries. -/
def ordersBytes (orders : List GroupEntry) : List Byte := byte1 orders.length ++ orders.flatMap GroupEntry.bytes

/-- Type codes of the frames the part sends to a head (R187). -/
def HeadFrame.type : HeadFrame → Byte
  | .tune _ _ _ => 0x11
  | .beacon _ _ => 0x12
  | .ack _ _ _ _ _ => 0x13

/-- The held command fields of an ACK, all 0 when none is attached (10.2). -/
def attachmentBytes : Option Attachment → List Byte
  | none => [0, 0, 0, 0]
  | some a => a.number :: a.code.code :: byte2 a.argument.toNat

/-- Payloads of TUNE, BEACON and ACK (10.2). -/
def HeadFrame.payload : HeadFrame → List Byte
  | .tune channel superframe slot => byte1 channel ++ byte2 superframe.toNat ++ byte1 slot.toNat
  | .beacon superframe orders => byte2 superframe.toNat ++ ordersBytes orders
  | .ack address sequence superframe slot held =>
    addressBytes address ++ byte2 sequence.toNat ++ byte2 superframe.toNat ++ byte1 slot.toNat ++ attachmentBytes held

/-- A frame to a head as it stands on the line. -/
def HeadFrame.wire (f : HeadFrame) : List Byte := headWire f.type f.payload

/-- The fields of a RADIO_FRAME from the bytes after its type; `n` is its payload length (10.2). -/
def radioFrameOf (bs : List Byte) (n : Nat) : RadioFrame :=
  { address := addressAt bs 0, kind := byteAt bs 3, sequence := (word16At bs 4).extractLsb' 4 12,
    retry := (word16At bs 4).extractLsb' 0 4, flags := byteAt bs 6, done := byteAt bs 7, tag := word32At bs 8,
    hop := byteAt bs 12, relay := addressAt bs 13, channel := byteAt bs 16, signal := byteAt bs 17,
    payload := (bs.drop 18).take n }

/-- What the receiver of a head link reports when a frame ends. -/
inductive HeadReceipt where
  | radio (f : RadioFrame)
  | status (busy : Byte)
  | discard
deriving DecidableEq, Repr

/-- A frame's restored bytes judged at its end marker: its length field against their number, its check, its type and
the lengths its type allows (R28, R187). -/
def judgeHeadFrame (bs : List Byte) : HeadReceipt :=
  let n := (byteAt bs 0).toNat
  if n = 0 ∨ bs.length ≠ n + 3 then .discard
  else if checkOf (bs.take (n + 1)) ≠ word16At bs (n + 1) then .discard
  else if byteAt bs 1 = 0x01 ∧ 19 ≤ n ∧ n ≤ 21 then .radio (radioFrameOf (bs.drop 2) (n - 19))
  else if byteAt bs 1 = 0x02 ∧ n = 2 then .status (byteAt bs 2)
  else .discard

/-- A restored byte joins the frame being collected; the 41st drops it (R187). -/
def HeadReceiver.collect (bs : List Byte) (b : Byte) : HeadReceiver × Option HeadReceipt :=
  if bs.length < Config.headFrameMax then (.collecting (bs ++ [b]) false, none) else (.ignoring, some .discard)

/-- One byte at the receiver of a head link (R187). -/
def HeadReceiver.take (rx : HeadReceiver) (b : Byte) : HeadReceiver × Option HeadReceipt :=
  match rx with
  | .ignoring => if b = headStart then (.collecting [] false, none) else (.ignoring, none)
  | .collecting bs escaped =>
    if b = headStart then (.collecting [] false, some .discard)
    else if escaped then
      if b = 0x80 ∨ b = 0x81 ∨ b = 0x82 then HeadReceiver.collect bs (b + 0x40) else (.ignoring, some .discard)
    else if b = headEnd then (.ignoring, some (judgeHeadFrame bs))
    else if b = headEscape then (.collecting bs true, none)
    else HeadReceiver.collect bs b

/-- Bytes arriving in turn at the receiver of a head link, and what it reports. -/
def HeadReceiver.feed (rx : HeadReceiver) : List Byte → HeadReceiver × List HeadReceipt
  | [] => (rx, [])
  | b :: bs =>
    let r := rx.take b
    let rest := r.1.feed bs
    (rest.1, r.2.toList ++ rest.2)

/-- The bytes a tag is computed over (R50, R187): address, frame kind, sequence and retry field, flags byte as
received, done number, payload. -/
def RadioFrame.covered (f : RadioFrame) : List Byte :=
  addressBytes f.address ++ [f.kind] ++ byte2 (f.sequence.toNat * 16 + f.retry.toNat) ++ [f.flags, f.done] ++ f.payload

/-! ## The panel link (R171, R188) -/

/-- Start marker of a panel link frame. -/
def panelStart : Byte := 0xA5

/-- A panel link frame on the line, from its type and payload (R188). -/
def panelWire (type : Byte) (payload : List Byte) : List Byte :=
  let body := byte2 (payload.length + 1) ++ type :: payload
  panelStart :: (body ++ checkBytes body)

/-- What the receiver of the panel link reports when a frame ends. -/
inductive PanelReceipt where
  | management (payload : List Byte)
  | bad
deriving DecidableEq, Repr

/-- A frame's bytes after its start marker judged when the last has arrived: its check, then its type (R171). -/
def judgePanelFrame (bs : List Byte) : PanelReceipt :=
  let n := (word16At bs 0).toNat
  if checkOf (bs.take (n + 2)) ≠ word16At bs (n + 2) then .bad
  else if byteAt bs 2 = 0x01 then .management ((bs.drop 3).take (n - 1))
  else .bad

/-- One byte at the receiver of the panel link (R171, R188). -/
def PanelReceiver.take (rx : PanelReceiver) (b : Byte) : PanelReceiver × Option PanelReceipt :=
  match rx with
  | .hunting => if b = panelStart then (.receiving [], none) else (.hunting, none)
  | .receiving bs =>
    let bs := bs ++ [b]
    let n := (word16At bs 0).toNat
    if bs.length < 2 then (.receiving bs, none)
    else if n = 0 ∨ 1024 < n then (.hunting, some .bad)
    else if bs.length < n + 4 then (.receiving bs, none)
    else (.hunting, some (judgePanelFrame bs))

/-- Bytes arriving in turn at the receiver of the panel link, and what it reports. -/
def PanelReceiver.feed (rx : PanelReceiver) : List Byte → PanelReceiver × List PanelReceipt
  | [] => (rx, [])
  | b :: bs =>
    let r := rx.take b
    let rest := r.1.feed bs
    (rest.1, r.2.toList ++ rest.2)

/-! ## State codes: 00h upward in the order of their names in the manual's tables (R189) -/

/-- Mode codes (R189). -/
def Mode.code : Mode → Byte
  | .loading => 0
  | .running => 1

/-- Link state codes (R189). -/
def LinkState.code : LinkState → Byte
  | .down => 0
  | .up => 1
  | .lost => 2

/-- Presence codes (R189). -/
def Presence.code : Presence → Byte
  | .awaited => 0
  | .present => 1
  | .missing => 2

/-- Level codes (R189). -/
def Level.code : Level → Byte
  | .normal => 0
  | .pre => 1
  | .alarm => 2

/-- Zone state codes (R189). -/
def ZoneState.code : ZoneState → Byte
  | .quiet => 0
  | .pre => 1
  | .verify => 2
  | .alarm => 3

/-- FIU state codes, in the order of R47. -/
def FiuState.code : FiuState → Byte
  | .idle => 0
  | .lookingUp _ => 1
  | .checking _ _ _ _ => 2
  | .completing _ _ _ _ => 3

/-- Held state codes (R189). -/
def HeldState.code : HeldState → Byte
  | .waiting => 0
  | .sent => 1

/-- ZONE_ALARM causes (R189). -/
def AlarmCause.code : AlarmCause → Byte
  | .callpoint => 1
  | .direct => 2
  | .persisted => 3
  | .second => 4
  | .partner => 5

/-- ZONE_LAPSE causes (R189). -/
def LapseCause.code : LapseCause → Byte
  | .expiry => 1
  | .stop => 2

/-- COMMAND_FAILED causes (R189). -/
def FailCause.code : FailCause → Byte
  | .noEcho => 1
  | .withdrawn => 2

/-- LEVEL_SUMMARY causes (R189). -/
def CloseCause.code : CloseCause → Byte
  | .count => 1
  | .gap => 2
  | .transition => 3
  | .notice => 4
  | .eviction => 5
  | .flush => 6
  | .alarm => 7
  | .urgent => 8
  | .stop => 9

/-- Result codes (R189). -/
def Result.code : Result → Byte
  | .ok => 0x00
  | .adjusted => 0x01
  | .unchanged => 0x02
  | .conflict => 0x03
  | .absent => 0x04
  | .tableFull => 0x05
  | .queueFull => 0x06
  | .invalid => 0x07
  | .wrongMode => 0x08
  | .notDelivered => 0x09
  | .alarmLatched => 0x0A
  | .pagesMissing => 0x0B

/-! ## RECORD, REPLY and SUMMARY payloads (R189) -/

/-- The event kind of a record's body (R150). -/
def EventBody.kind : EventBody → EventKind
  | .zoneAlarm _ _ _ _ _ => .zoneAlarm
  | .detectorMissing _ _ _ => .detectorMissing
  | .batteryLow => .batteryLow
  | .tamperOpen => .tamperOpen
  | .driftLimit _ _ => .driftLimit
  | .integrityFault _ _ => .integrityFault
  | .lowSignal _ _ => .lowSignal
  | .headLost _ => .headLost
  | .headJammed _ => .headJammed
  | .commandFailed _ _ _ _ => .commandFailed
  | .commandExpired _ _ _ => .commandExpired
  | .sounderMismatch _ _ => .sounderMismatch
  | .zonePre _ => .zonePre
  | .zoneVerify _ _ => .zoneVerify
  | .zoneLapse _ _ _ => .zoneLapse
  | .zoneQuiet => .zoneQuiet
  | .detectorState _ _ _ _ _ => .detectorState
  | .detectorPresent _ => .detectorPresent
  | .batteryOk => .batteryOk
  | .tamperClosed => .tamperClosed
  | .driftCleared _ _ => .driftCleared
  | .integrityOk => .integrityOk
  | .signalOk _ _ => .signalOk
  | .headUp _ => .headUp
  | .headClear _ => .headClear
  | .commandDone _ _ => .commandDone
  | .sounderMatch _ _ => .sounderMatch
  | .levelSummary _ _ _ _ _ _ _ _ => .levelSummary

/-- The base class of an event kind (R150). -/
def EventKind.baseClass : EventKind → EventClass
  | .zoneAlarm => .alarm
  | .detectorMissing | .batteryLow | .tamperOpen | .driftLimit | .integrityFault | .lowSignal | .headLost
  | .headJammed | .commandFailed | .commandExpired | .sounderMismatch => .fault
  | .zonePre | .zoneVerify | .zoneLapse | .zoneQuiet | .detectorState | .detectorPresent | .batteryOk
  | .tamperClosed | .driftCleared | .integrityOk | .signalOk | .headUp | .headClear | .commandDone
  | .sounderMatch => .status
  | .levelSummary => .level

/-- An address that may be absent, 000000h then (R189). -/
def addressOrZero (a : Option Address) : List Byte := addressBytes (a.getD 0)

/-- A two-byte value that may be absent, FFFFh then (R189). -/
def byte2OrFF (n : Option Nat) : List Byte := byte2 (n.getD 0xFFFF)

/-- A signed dBm value as a byte (R186). -/
def signedByte (x : Int) : Byte := BitVec.ofInt 8 x

/-- The zone number as a byte. -/
def zoneByte (z : ZoneNo) : Byte := BitVec.ofNat 8 z.val

/-- The detail of the held command records: number, code, argument, state at removal (FFh not carried), attempts,
cause (R189). -/
def heldDetail (a : Attachment) (removedIn : Option HeldState) (attempts : Nat) (cause : Byte) : List Byte :=
  a.number :: a.code.code :: byte2 a.argument.toNat ++ [(removedIn.map HeldState.code).getD 0xFF] ++ byte1 attempts
    ++ [cause]

/-- The detail of a record (R189). -/
def EventBody.detail : EventBody → List Byte
  | .detectorState before after smoke other test =>
    [before.code, after.code] ++ byte2OrFF smoke ++ byte2OrFF other ++ [boolByte test]
  | .zoneAlarm cause mode first partner raised =>
    [cause.code, mode.code] ++ addressOrZero first ++ [(partner.map zoneByte).getD 0xFF] ++ byte2 raised
  | .zonePre raised => byte2 raised
  | .zoneVerify mode deadline => mode.code :: byte4 deadline
  | .zoneLapse cause fallen raised => [cause.code, fallen.code] ++ byte2 raised
  | .detectorMissing before deadline allowance => before.code :: byte4 deadline ++ byte2 allowance
  | .detectorPresent deadline => byte4 deadline
  | .driftLimit b limit => byte1 b ++ byte1 limit
  | .driftCleared b limit => byte1 b ++ byte1 limit
  | .integrityFault head hop => byte1 head.val ++ byte1 hop
  | .lowSignal signal hop => signedByte signal :: byte1 hop
  | .signalOk signal hop => signedByte signal :: byte1 hop
  | .headUp head => byte1 head.val
  | .headLost head => byte1 head.val
  | .headJammed head => byte1 head.val
  | .headClear head => byte1 head.val
  | .commandDone e attempts => heldDetail e none attempts 0
  | .commandFailed cause e removedIn attempts => heldDetail e removedIn attempts cause.code
  | .commandExpired e removedIn attempts => heldDetail e (some removedIn) attempts 0
  | .sounderMismatch reported expected => byte1 reported ++ byte1 expected
  | .sounderMatch reported expected => byte1 reported ++ byte1 expected
  | .levelSummary openedAt first last count least greatest lastValue cause =>
    byte4 openedAt ++ byte2 first.toNat ++ byte2 last.toNat ++ byte1 count ++ byte1 least ++ byte1 greatest
      ++ byte1 lastValue ++ [cause.code]
  | .zoneQuiet => []
  | .batteryLow => []
  | .batteryOk => []
  | .tamperOpen => []
  | .tamperClosed => []
  | .integrityOk => []

/-- A RECORD payload: the 14-byte head and the detail (R189). -/
def EventRecord.payload (r : EventRecord) : List Byte :=
  [r.body.kind.code, r.cls.code] ++ byte4 r.time ++ [r.presenceByte, (r.zone.map zoneByte).getD 0]
    ++ addressOrZero r.address ++ [(r.kind.map DetectorKind.code).getD 0] ++ byte1 r.lostBefore
    ++ byte1 r.body.detail.length ++ r.body.detail

/-- A REPLY payload (R189). -/
def Reply.payload (r : Reply) : List Byte := [r.tag, r.code, r.result.code] ++ r.data

/-- The byte of one head in a SUMMARY: link state in bits 0 and 1, jam flag in bit 2 (R189). -/
def summaryHeadByte (h : LinkState × Bool) : Byte := h.1.code + (if h.2 then 4 else 0)

/-- The byte of one zone in a SUMMARY: state in bits 0 and 1, enabled in bit 2, service in bit 3 (R189). -/
def summaryZoneByte (z : ZoneState × Bool × Bool) : Byte :=
  z.1.code + (if z.2.1 then 4 else 0) + (if z.2.2 then 8 else 0)

/-- A SUMMARY payload, 75 bytes (R189). -/
def ZoneSummary.payload (z : ZoneSummary) : List Byte :=
  byte4 z.time ++ [z.mode.code] ++ byte2 z.missing ++ z.heads.map summaryHeadByte ++ z.zones.map summaryZoneByte

/-- An upstream frame on the line (R188). -/
def PanelFrame.wire : PanelFrame → List Byte
  | .record r => panelWire 0x81 r.payload
  | .reply r => panelWire 0x82 r.payload
  | .summary z => panelWire 0x83 z.payload

/-! ## Bodies read back in replies (R188, R189) -/

/-- The body of page 0. -/
def airBytes (a : AirArgs) : List Byte :=
  [a.channels, a.order, a.starts.get 0, a.starts.get 1, a.starts.get 2, a.starts.get 3] ++ byte2 a.slotLength.toNat
    ++ [a.jam, a.margin]

/-- P, A and H of a threshold set. -/
def thresholdBytes (a : ThresholdArgs) : List Byte := [a.pre, a.alarm, a.hyst]

/-- The body of page 1. -/
def levelsBytes (a : LevelsArgs) : List Byte :=
  thresholdBytes a.smoke ++ thresholdBytes a.heat ++ thresholdBytes a.multiSmoke ++ thresholdBytes a.multiHeat
    ++ [a.smokeDrift.limit, a.smokeDrift.shift, a.multiDrift.limit, a.multiDrift.shift]
    ++ [a.smokeReport.mode, a.smokeReport.delta, a.heatReport.mode, a.heatReport.delta,
        a.multiReport.mode, a.multiReport.delta]

/-- The body of page 2. -/
def timingBytes (a : TimingArgs) : List Byte :=
  byte2 a.flush.toNat ++ [a.summary, a.sweep] ++ byte2 a.grace.toNat ++ byte2 a.lifetime.toNat ++ [a.attempts]

/-- The body of page 3. -/
def memoryBytes (a : MemoryArgs) : List Byte := byte2 a.tableSize.toNat ++ [a.advice]

/-- The ten stored bytes of a filter, fields that are not cared for as 0 (R156, R189). -/
def Filter.bytes (f : Filter) : List Byte :=
  [f.careByte, (f.eventKind.map EventKind.code).getD 0, (f.detKind.map DetectorKind.code).getD 0,
    (f.zone.map zoneByte).getD 0] ++ addressOrZero f.address
    ++ byte1 f.priority ++ [(f.raiseClass.map EventClass.code).getD 0, f.actionByte]

/-- A zone record in the reply to a zone command, 18 bytes (R108, R189). -/
def Zone.bytes (z : Zone) (n : ZoneNo) : List Byte :=
  [zoneByte n, z.mode.code] ++ byte2 z.window ++ [(z.partner.map zoneByte).getD 0xFF] ++ byte1 z.offset
    ++ [z.flags, z.state.code] ++ byte2 z.raised ++ [z.epoch] ++ addressOrZero z.first ++ byte4 (z.deadline.getD 0)

end Sys2Proof.Machine
end

