-- ==== Sys2Proof/Machine/Events.lean ====
section
/-! DEFINITION. The Event Unit (section 8): filters, aggregation contexts, the upstream queues, the summary slot and
the panel transmit arbiter. Everything here changes the field `evu` alone. -/

namespace Sys2Proof.Machine

/-! ## Counters (R170) -/

/-- Records taken, by base class. -/
def EvuCounters.countTaken (c : EvuCounters) : EventClass → EvuCounters
  | .alarm => { c with takenAlarm := inc32 c.takenAlarm }
  | .fault => { c with takenFault := inc32 c.takenFault }
  | .status => { c with takenStatus := inc32 c.takenStatus }
  | .level => { c with takenLevel := inc32 c.takenLevel }

/-- Contexts closed, by cause. -/
def EvuCounters.countClosed (c : EvuCounters) : CloseCause → EvuCounters
  | .count => { c with closedCount := inc32 c.closedCount }
  | .gap => { c with closedGap := inc32 c.closedGap }
  | .transition => { c with closedTransition := inc32 c.closedTransition }
  | .notice => { c with closedNotice := inc32 c.closedNotice }
  | .eviction => { c with closedEviction := inc32 c.closedEviction }
  | .flush => { c with closedFlush := inc32 c.closedFlush }
  | .alarm => { c with closedAlarm := inc32 c.closedAlarm }
  | .urgent => { c with closedUrgent := inc32 c.closedUrgent }
  | .stop => { c with closedStop := inc32 c.closedStop }

/-- Frames sent, by source. -/
def EvuCounters.countSent (c : EvuCounters) : Source → EvuCounters
  | .alarm => { c with sentAlarm := inc32 c.sentAlarm }
  | .reply => { c with sentReply := inc32 c.sentReply }
  | .summary => { c with sentSummary := inc32 c.sentSummary }
  | .fault => { c with sentFault := inc32 c.sentFault }
  | .status => { c with sentStatus := inc32 c.sentStatus }
  | .level => { c with sentLevel := inc32 c.sentLevel }

/-! ## Filters (R153 to R155) -/

/-- Whether a cared field is carried and equal; a field not cared for takes no part (R153). -/
def fieldMatches {α : Type} [DecidableEq α] (cared carried : Option α) : Bool :=
  match cared with
  | none => true
  | some v => carried = some v

/-- Whether a filter matches a record (R153). -/
def Filter.accepts (f : Filter) (r : EventRecord) : Bool :=
  f.enable && (f.eventKind.isSome || f.detKind.isSome || f.zone.isSome || f.address.isSome)
    && fieldMatches f.eventKind (some r.body.kind) && fieldMatches f.detKind r.kind
    && fieldMatches f.zone r.zone && fieldMatches f.address r.address

/-- Whether a filter has a class or suppress action (R155). -/
def Filter.acts (f : Filter) : Bool := f.raiseClass.isSome || f.suppress

/-- The deciding filter among those of ascending index that match and act: the highest priority, the lower index
between equals (R155). -/
def decidingOf (best : Option Filter) (f : Filter) : Option Filter :=
  match best with
  | none => some f
  | some b => if b.priority < f.priority then some f else some b

/-- The deciding filter of a record (R155). -/
def Evu.deciding (e : Evu) (r : EventRecord) : Option Filter :=
  (e.filters.toList.filter (fun f => f.accepts r && f.acts)).foldl decidingOf none

/-- Whether some matching filter is urgent (R154). -/
def Evu.urgentMatch (e : Evu) (r : EventRecord) : Bool :=
  e.filters.toList.any (fun f => f.accepts r && f.urgent)

/-- Rank of a class, ALARM the highest (R150). -/
def EventClass.rank : EventClass → Nat
  | .alarm => 3
  | .fault => 2
  | .status => 1
  | .level => 0

/-- What the deciding filter does with a record: none when it is suppressed, else the class it takes (R155). -/
def decidedClass (base : EventClass) (f : Option Filter) : Option EventClass :=
  match f with
  | none => some base
  | some f =>
    if f.suppress ∧ (base = .status ∨ base = .level) then none
    else match f.raiseClass with
      | none => some base
      | some c => if base.rank < c.rank then some c else some base

/-! ## The panel transmitter (R163, R166) -/

/-- A frame begins its transmission: its bytes are built at the grant and do not change after it (R189). -/
def Evu.send (e : Evu) (source : Source) (frame : PanelFrame) : Evu :=
  { e with tx := some { source := source, frame := frame, wire := frame.wire } }

/-- Grant the head of the ALARM queue; it carries lost-before 0 (R163). -/
def Evu.grantAlarm (e : Evu) (r : EventRecord) (rest : List EventRecord) : Evu :=
  { e with alarmQueue := rest }.send .alarm (.record { r with lostBefore := 0 })

/-- Grant the head of the FAULT queue with the queue's loss count, which becomes 0 (R163). -/
def Evu.grantFault (e : Evu) (r : EventRecord) (rest : List EventRecord) : Evu :=
  { e with faultQueue := rest, faultLoss := 0 }.send .fault (.record { r with lostBefore := e.faultLoss })

/-- Grant the head of the STATUS queue (R163). -/
def Evu.grantStatus (e : Evu) (r : EventRecord) (rest : List EventRecord) : Evu :=
  { e with statusQueue := rest, statusLoss := 0 }.send .status (.record { r with lostBefore := e.statusLoss })

/-- Grant the head of the LEVEL queue (R163). -/
def Evu.grantLevel (e : Evu) (r : EventRecord) (rest : List EventRecord) : Evu :=
  { e with levelQueue := rest, levelLoss := 0 }.send .level (.record { r with lostBefore := e.levelLoss })

/-- The most urgent waiting record of the FAULT, STATUS and LEVEL queues gets the link, if there is one (R166). -/
def Evu.grantQueues (e : Evu) : Evu :=
  match e.faultQueue with
  | r :: rest => e.grantFault r rest
  | [] =>
    match e.statusQueue with
    | r :: rest => e.grantStatus r rest
    | [] =>
      match e.levelQueue with
      | r :: rest => e.grantLevel r rest
      | [] => e

/-- The summary leaves its slot and goes on the link (R164, R166). -/
def Evu.grantSummary (e : Evu) (z : ZoneSummary) : Evu := { e with summarySlot := none }.send .summary (.summary z)

/-- The reply leaves its slot and goes on the link (R166, R167). -/
def Evu.grantReply (e : Evu) (r : Reply) : Evu :=
  { e with replySlot := none, replyFirst := false }.send .reply (.reply r)

/-- The reply, when it is the arbiter's choice: no ALARM record waits, or the choice fell on the reply before the ALARM
records that wait had joined (R166; log 11). -/
def Evu.replyChosen (e : Evu) : Option Reply := if e.replyFirst || e.alarmQueue.isEmpty then e.replySlot else none

/-- The grant of an idle link to a source other than the reply slot (R166): ALARM, summary, FAULT, STATUS, LEVEL. The
arbiter is called whenever a source gains a frame while the link is idle, so what waits with the link idle is granted it
before a further frame takes part in a choice. A reply that is the choice keeps it until PANEL_GRANT, since its grant
tells MEX (R167; log 11). -/
def Evu.grantDue (e : Evu) : Evu :=
  if e.tx.isSome || e.replyChosen.isSome then e
  else match e.alarmQueue with
    | r :: rest => e.grantAlarm r rest
    | [] =>
      match e.summarySlot with
      | some z => e.grantSummary z
      | none => e.grantQueues

/-! ## Queues (R162) -/

/-- A record joins the ALARM queue, which always has room (R162). A reply that waits with the link idle is the arbiter's
choice already, and stays it (R166; log 11). -/
def Evu.joinAlarm (e : Evu) (r : EventRecord) : Evu :=
  { e with alarmQueue := e.alarmQueue ++ [r], replyFirst := e.replyFirst || (e.tx.isNone && e.replySlot.isSome) }

/-- A record joins the FAULT queue, or is dropped with the loss count incremented (R162). -/
def Evu.joinFault (e : Evu) (r : EventRecord) : Evu :=
  if e.faultQueue.length < Config.faultDepth then { e with faultQueue := e.faultQueue ++ [r] }
  else { e with faultLoss := incLoss e.faultLoss,
                counters := { e.counters with droppedFault := inc32 e.counters.droppedFault } }

/-- A record joins the STATUS queue, or is dropped with the loss count incremented (R162). -/
def Evu.joinStatus (e : Evu) (r : EventRecord) : Evu :=
  if e.statusQueue.length < Config.statusDepth then { e with statusQueue := e.statusQueue ++ [r] }
  else { e with statusLoss := incLoss e.statusLoss,
                counters := { e.counters with droppedStatus := inc32 e.counters.droppedStatus } }

/-- A record joins the LEVEL queue, or is dropped with the loss count incremented (R162). -/
def Evu.joinLevel (e : Evu) (r : EventRecord) : Evu :=
  if e.levelQueue.length < Config.levelDepth then { e with levelQueue := e.levelQueue ++ [r] }
  else { e with levelLoss := incLoss e.levelLoss,
                counters := { e.counters with droppedLevel := inc32 e.counters.droppedLevel } }

/-- A record joins the tail of the queue of its class, after a grant that was due (R162, R166). -/
def Evu.join (e : Evu) (r : EventRecord) : Evu :=
  match r.cls with
  | .alarm => e.grantDue.joinAlarm r
  | .fault => e.grantDue.joinFault r
  | .status => e.grantDue.joinStatus r
  | .level => e.grantDue.joinLevel r

/-- The record is counted as taken (R170). -/
def Evu.countTaken (e : Evu) (r : EventRecord) : Evu :=
  { e with counters := e.counters.countTaken r.body.kind.baseClass }

/-- A record that the deciding filter discards (R155). -/
def Evu.suppressed (e : Evu) : Evu :=
  { e with counters := { e.counters with suppressed := inc32 e.counters.suppressed } }

/-- A record whose class the deciding filter raises (R155). -/
def Evu.raised (e : Evu) : Evu :=
  { e with counters := { e.counters with classRaised := inc32 e.counters.classRaised } }

/-- A record decided and queued (R151, R155, R162). A ZONE_ALARM is not filtered. -/
def Evu.queue (e : Evu) (r : EventRecord) : Evu :=
  if r.body.kind = .zoneAlarm then (e.countTaken r).join { r with cls := .alarm }
  else
    match decidedClass r.body.kind.baseClass (e.deciding r) with
    | none => (e.countTaken r).suppressed
    | some c =>
      if c = r.body.kind.baseClass then (e.countTaken r).join { r with cls := c }
      else (e.countTaken r).raised.join { r with cls := c }

/-! ## Closing contexts and taking records (R151, R154, R159, R160) -/

/-- The LEVEL_SUMMARY of a context that closes at clock value `now` (R159). -/
def Context.summary (c : Context) (now : Nat) (cause : CloseCause) : EventRecord :=
  { body := .levelSummary c.openedAt c.first c.last c.count c.least c.greatest c.value cause,
    cls := .level, time := now, zone := some c.zone, address := some c.address, kind := some c.kind, lostBefore := 0 }

/-- The context closing is counted by its cause (R170). -/
def Evu.countClosed (e : Evu) (cause : CloseCause) : Evu := { e with counters := e.counters.countClosed cause }

/-- One of several contexts that close together emits its summary; a match with an urgent filter closes nothing more,
since every context is closing already (R159). -/
def Evu.emit (now : Nat) (cause : CloseCause) (e : Evu) (c : Context) : Evu :=
  (e.countClosed cause).queue (c.summary now cause)

/-- Every open context closes, oldest first (R159). -/
def Evu.closeAll (e : Evu) (now : Nat) (cause : CloseCause) : Evu :=
  e.contexts.foldl (Evu.emit now cause) { e with contexts := [] }

/-- An urgent filter's closing of every open context, counted once, when a context is open (R154). -/
def Evu.urgentClosing (e : Evu) (now : Nat) : Evu :=
  if e.contexts.isEmpty then e
  else { e with counters := { e.counters with urgentClosings := inc32 e.counters.urgentClosings } }.closeAll now .urgent

/-- EVU takes a record: an urgent match closes every context first, then the record is decided and queued (R151). -/
def Evu.take (e : Evu) (now : Nat) (r : EventRecord) : Evu :=
  if r.body.kind ≠ .zoneAlarm ∧ e.urgentMatch r then (e.urgentClosing now).queue r else e.queue r

/-- One context closes and its summary is taken as any record (R159). -/
def Evu.closeOne (e : Evu) (now : Nat) (cause : CloseCause) (c : Context) : Evu :=
  ({ e with contexts := e.contexts.filter (fun d => d.address != c.address) }.countClosed cause).take now
    (c.summary now cause)

/-- The context of an address (R158). -/
def Evu.contextOf (e : Evu) (a : Address) : Option Context := e.contexts.find? (fun c => c.address == a)

/-- The context of an address closes, if one is open (R160). -/
def Evu.closeFor (e : Evu) (now : Nat) (cause : CloseCause) (a : Address) : Evu :=
  match e.contextOf a with
  | none => e
  | some c => e.closeOne now cause c

/-- A context with a first value (R158). -/
def Context.opening (now : Nat) (a : Address) (z : ZoneNo) (k : DetectorKind) (seq : SeqNo) (v : Nat) : Context :=
  { address := a, zone := z, kind := k, openedAt := now, first := seq, last := seq, count := 1,
    least := v, greatest := v, value := v }

/-- A value appended to a context (R158). -/
def Context.append (c : Context) (seq : SeqNo) (v : Nat) : Context :=
  { c with last := seq, count := c.count + 1, least := min c.least v, greatest := max c.greatest v, value := v }

/-- The oldest context closes when 16 are open (R158). -/
def Evu.evict (e : Evu) (now : Nat) : Evu :=
  if e.contexts.length < Config.contextMax then e
  else match e.contexts with
    | [] => e
    | c :: _ => e.closeOne now .eviction c

/-- A context opens at the tail of the list, after an eviction if it needs one (R158). -/
def Evu.openContext (e : Evu) (now : Nat) (c : Context) : Evu :=
  let e := e.evict now
  { e with contexts := e.contexts ++ [c],
           counters := { e.counters with contextsOpened := inc32 e.counters.contextsOpened } }

/-- A value joins an open context, which closes at its sixteenth (R158). -/
def Evu.appendValue (e : Evu) (now : Nat) (c : Context) : Evu :=
  let e := { e with contexts := modifyFirst (fun d => d.address == c.address) (fun _ => c) e.contexts }
  if c.count = Config.contextValues then e.closeOne now .count c else e

/-- A reported value v of detector a, carried by a frame of sequence `seq` (R158). -/
def Evu.report (e : Evu) (now : Nat) (a : Address) (z : ZoneNo) (k : DetectorKind) (seq : SeqNo) (v : Nat) : Evu :=
  match e.contextOf a with
  | none => e.openContext now (.opening now a z k seq v)
  | some c =>
    if c.kind = k ∧ 1 ≤ (seq - c.last).toNat ∧ (seq - c.last).toNat ≤ 16 then e.appendValue now (c.append seq v)
    else (e.closeOne now .gap c).openContext now (.opening now a z k seq v)

/-! ## The part's view of EVU -/

/-- A record as its raiser builds it (R149): its class the base class, its time now, lost-before 0. -/
def State.eventRecord (s : State) (body : EventBody) (zone : Option ZoneNo) (address : Option Address)
    (kind : Option DetectorKind) : EventRecord :=
  { body := body, cls := body.kind.baseClass, time := s.now, zone := zone, address := address, kind := kind,
    lostBefore := 0 }

/-- A unit raises a record: it is handed to EVU, which takes it at once (R151). -/
def State.raise (s : State) (body : EventBody) (zone : Option ZoneNo) (address : Option Address)
    (kind : Option DetectorKind) : State :=
  { s with evu := s.evu.take s.now (s.eventRecord body zone address kind) }

/-- Close every context (R160). -/
def State.closeContexts (s : State) (cause : CloseCause) : State := { s with evu := s.evu.closeAll s.now cause }

/-- Close the context of an address, if one is open (R160). -/
def State.closeContext (s : State) (cause : CloseCause) (a : Address) : State :=
  { s with evu := s.evu.closeFor s.now cause a }

/-- The reply slot is filled; a grant that was due is made first (R166, R173). -/
def Evu.placeReply (e : Evu) (r : Reply) : Evu := { e.grantDue with replySlot := some r }

/-- A ZONE_SUMMARY of the state as it stands (R165). -/
def State.zoneSummary (s : State) : ZoneSummary :=
  { time := s.now, mode := s.mode, missing := s.su.missing,
    heads := allHeads.map (fun h => ((s.head h).link, (s.head h).jam)),
    zones := allZones.map (fun z => ((s.zone z).state, (s.zone z).enabled, (s.zone z).service)) }

/-- The summary goes into its slot, replacing one that still waits there; a grant that was due is made first (R164,
R166). -/
def Evu.placeSummary (e : Evu) (z : ZoneSummary) : Evu :=
  let e := e.grantDue
  { e with summarySlot := some z,
           counters := { e.counters with
             summariesBuilt := inc32 e.counters.summariesBuilt,
             summariesReplaced :=
               if e.summarySlot.isSome then inc32 e.counters.summariesReplaced else e.counters.summariesReplaced } }

end Sys2Proof.Machine
end

