-- ==== Sys2Proof/Machine/Zones.lean ====
section
/-! DEFINITION. The Zone Unit (section 5): raised counts, transitions, verify windows and the ALARM latch. Everything
here changes the fields `zones` and `evu` alone. -/

namespace Sys2Proof.Machine

/-- Out of VERIFY or into it by one of the rules, a zone's first detector and window deadline are cleared (R92). -/
def Zone.leaveVerify (z : Zone) (st : ZoneState) : Zone := { z with state := st, first := none, deadline := none }

/-- A decrement of a raised count (R94), with the fall of an enabled PRE zone to QUIET at 0 and its ZONE_QUIET (R95).
`kind` is the detector's kind where the step holds its record (R149). -/
def State.zoneDecrement (s : State) (z : ZoneNo) (a : Address) (kind : Option DetectorKind) : State :=
  let s1 := s.modifyZone z (fun v => { v with raised := v.raised - 1 })
  let v := s1.zone z
  if v.raised = 0 ∧ v.enabled ∧ v.state = .pre then
    (s1.modifyZone z (fun v => { v with state := .quiet })).raise .zoneQuiet (some z) (some a) kind
  else s1

/-- A zone enters ALARM (R105): its state and its unsent flag, the closing of every context, ZONE_ALARM. -/
def State.enterAlarm (s : State) (z : ZoneNo) (a : Address) (kind : DetectorKind) (cause : AlarmCause)
    (partner : Option ZoneNo) : State :=
  let v := s.zone z
  ((s.setZone z { v.leaveVerify .alarm with alarmUnsent := true }).closeContexts .alarm).raise
    (.zoneAlarm cause v.mode v.first partner v.raised) (some z) (some a) (some kind)

/-- A zone enters VERIFY with a first detector and a window deadline of now + W, and raises ZONE_VERIFY (R98, R99). -/
def State.enterVerify (s : State) (z : ZoneNo) (a : Address) (kind : DetectorKind) : State :=
  let v := s.zone z
  let d := clockAdd s.now v.window
  (s.setZone z { v with state := .verify, first := some a, deadline := some d }).raise
    (.zoneVerify v.mode d) (some z) (some a) (some kind)

/-- What a transition of detector a into ALARM does to its own enabled zone, by its kind and the zone's mode and state
(R97 to R99). -/
def State.zoneIntoAlarm (s : State) (z : ZoneNo) (a : Address) (kind : DetectorKind) : State :=
  let v := s.zone z
  match v.state with
  | .alarm => s
  | .verify =>
    if kind = .callpoint then s.enterAlarm z a kind .callpoint none
    else match v.mode with
      | .direct => s.enterAlarm z a kind .direct none
      | .persist => s.enterAlarm z a kind (if v.first = some a then .persisted else .second) none
      | .coincidence => if v.first = some a then s else s.enterAlarm z a kind .second none
  | .quiet | .pre =>
    if kind = .callpoint then s.enterAlarm z a kind .callpoint none
    else match v.mode with
      | .direct => s.enterAlarm z a kind .direct none
      | .persist | .coincidence => s.enterVerify z a kind

/-- A zone Y that is enabled, in VERIFY and names Z as its partner is confirmed by an ALARM in Z (R101). -/
def State.confirmPartner (z : ZoneNo) (a : Address) (kind : DetectorKind) (s : State) (y : ZoneNo) : State :=
  if y ≠ z ∧ (s.zone y).enabled ∧ (s.zone y).state = .verify ∧ (s.zone y).partner = some z then
    s.enterAlarm y a kind .partner (some z)
  else s

/-- Every partner zone of Z, in ascending zone number (R101, R102). -/
def State.confirmPartners (s : State) (z : ZoneNo) (a : Address) (kind : DetectorKind) : State :=
  allZones.foldl (State.confirmPartner z a kind) s

/-- A transition from NORMAL increments the zone's raised count (R94). -/
def State.zoneIncrement (s : State) (z : ZoneNo) : State :=
  s.modifyZone z (fun v => { v with raised := v.raised + 1 })

/-- A transition of detector a of zone z reaches ZU: the count first, then what the level after means (R96, R102). -/
def State.zoneTransition (s : State) (z : ZoneNo) (a : Address) (kind : DetectorKind) (before after : Level) : State :=
  match after with
  | .normal => s.zoneDecrement z a (some kind)
  | .pre =>
    let s1 := if before = .normal then s.zoneIncrement z else s
    let v := s1.zone z
    if v.enabled ∧ v.state = .quiet then
      (s1.modifyZone z (fun v => { v with state := .pre })).raise (.zonePre v.raised) (some z) (some a) (some kind)
    else s1
  | .alarm =>
    let s1 := if before = .normal then s.zoneIncrement z else s
    if (s1.zone z).enabled then (s1.zoneIntoAlarm z a kind).confirmPartners z a kind else s1

/-- LVP's notice that detector a of zone z stays ALARM (R100). -/
def State.zoneStaysAlarm (s : State) (z : ZoneNo) (a : Address) (kind : DetectorKind) : State :=
  let v := s.zone z
  if v.enabled ∧ v.mode = .persist ∧ v.state = .verify ∧ v.first = some a then s.enterAlarm z a kind .persisted none
  else s

/-- Where a zone falls when its window lapses: PRE with a raised count above 0, else QUIET (R103, R115). -/
def Zone.fallen (v : Zone) : ZoneState := if 0 < v.raised then .pre else .quiet

/-- A zone's window lapses: the zone falls and ZONE_LAPSE is raised (R103, R115). -/
def State.lapseZone (s : State) (z : ZoneNo) (cause : LapseCause) : State :=
  let v := s.zone z
  (s.setZone z (v.leaveVerify v.fallen)).raise (.zoneLapse cause v.fallen v.raised) (some z) v.first none

/-- Whether an enabled zone in VERIFY has reached its window deadline (R103). -/
def State.windowReached (s : State) (z : ZoneNo) : Bool :=
  (s.zone z).enabled && ((s.zone z).state == .verify) &&
    match (s.zone z).deadline with
    | none => false
    | some d => decide (d ≤ s.now)

/-- The lapse of one zone whose deadline has been reached (R103). -/
def State.lapseIfReached (s : State) (z : ZoneNo) : State :=
  if s.windowReached z then s.lapseZone z .expiry else s

/-- STOP lapses an enabled zone in VERIFY (R115). -/
def State.lapseAtStop (s : State) (z : ZoneNo) : State :=
  if (s.zone z).enabled ∧ (s.zone z).state = .verify then s.lapseZone z .stop else s

/-- A zone after RESTART: its configuration kept but for the service flag, its runtime state cleared (R91, R92). -/
def Zone.restarted (v : Zone) : Zone :=
  { v with service := false, state := .quiet, raised := 0, epoch := 0, first := none, deadline := none,
           alarmUnsent := false }

end Sys2Proof.Machine
end

