-- ==== Sys2Proof/Machine/HeldCommands.lean ====
section
/-! DEFINITION. The Held Command Queue (section 7): its entries, their echo, expiry and removal, and the expected
pattern of a sounder. -/

namespace Sys2Proof.Machine

/-- The command of an entry as it is carried and reported (R138, R144). -/
def HeldEntry.attachment (e : HeldEntry) : Attachment :=
  { number := e.number, code := e.code, argument := e.argument }

/-- Whether an entry is for an address and SENT. -/
def HeldEntry.sentTo (e : HeldEntry) (a : Address) : Bool := e.target == a && e.state == .sent

/-- Whether an entry is for an address and WAITING. -/
def HeldEntry.waitingFor (e : HeldEntry) (a : Address) : Bool := e.target == a && e.state == .waiting

/-- The SENT entry of an address; at most one is SENT (R134). -/
def Hcq.sentEntry (q : Hcq) (a : Address) : Option HeldEntry := q.entries.find? (fun e => e.sentTo a)

/-- The oldest WAITING entry of an address (R138). -/
def Hcq.waitingEntry (q : Hcq) (a : Address) : Option HeldEntry := q.entries.find? (fun e => e.waitingFor a)

/-- The next command number: from 255 it becomes 1 (R136). -/
def nextCommandNumber (n : Byte) : Byte := if n = 255 then 1 else n + 1

/-- A held command whose acknowledgement was not sent: the SENT entry of that address and number becomes WAITING, its
attempts unchanged; without such an entry nothing happens (R139). -/
def Hcq.notSent (q : Hcq) (a : Address) (number : Byte) : Hcq :=
  if q.entries.any (fun e => e.sentTo a && e.number == number) then
    { q with entries := modifyFirst (fun e => e.sentTo a && e.number == number)
               (fun e => { e with state := .waiting }) q.entries,
             counters := { q.counters with reverted := inc32 q.counters.reverted } }
  else q

/-- The not-sent notice for an acknowledgement, when it carries a held command (R46, R139). -/
def State.notSent (s : State) (a : Address) (held : Option Attachment) : State :=
  match held with
  | none => s
  | some c => { s with hcq := s.hcq.notSent a c.number }

/-- The attachment for an acknowledgement to an address (R138): the SENT entry again, else the oldest WAITING entry. -/
def Hcq.attachment (q : Hcq) (a : Address) : Option Attachment :=
  match q.sentEntry a with
  | some e => some e.attachment
  | none => (q.waitingEntry a).map HeldEntry.attachment

/-- The queue after an attachment: with no entry SENT, the oldest WAITING entry becomes SENT (R138). -/
def Hcq.attach (q : Hcq) (a : Address) : Hcq :=
  match q.sentEntry a, q.waitingEntry a with
  | none, some _ =>
    { q with entries := modifyFirst (fun e => e.waitingFor a) (fun e => { e with state := .sent }) q.entries,
             counters := { q.counters with attached := inc32 q.counters.attached } }
  | _, _ => q

/-- An entry whose expiry deadline has been reached at a clock value (R142). -/
def HeldEntry.expiredAt (now : Nat) (e : HeldEntry) : Bool := decide (e.expiry ≤ now)

/-- COMMAND_EXPIRED for a removed entry: no zone, no detector kind (R144, R149). -/
def State.raiseExpired (s : State) (e : HeldEntry) : State :=
  { s with hcq := { s.hcq with counters := { s.hcq.counters with expired := inc32 s.hcq.counters.expired } } }.raise
    (.commandExpired e.attachment e.state e.attempts) none (some e.target) none

/-- Every entry whose deadline has been reached is removed, in queue order, each with COMMAND_EXPIRED (R142). -/
def State.expireHeld (s : State) : State :=
  (s.hcq.entries.filter (HeldEntry.expiredAt s.now)).foldl State.raiseExpired
    { s with hcq := { s.hcq with entries := s.hcq.entries.filter (fun e => !e.expiredAt s.now) } }

/-- COMMAND_FAILED, cause WITHDRAWN, for an entry removed by a notice, with the old record's zone (R143, R144). -/
def State.raiseWithdrawn (z : ZoneNo) (s : State) (e : HeldEntry) : State :=
  { s with hcq := { s.hcq with counters :=
      { s.hcq.counters with failedWithdrawn := inc32 s.hcq.counters.failedWithdrawn } } }.raise
    (.commandFailed .withdrawn e.attachment (some e.state) e.attempts) (some z) (some e.target) none

/-- A removal notice at HCQ: every entry for the address is removed, in queue order (R143). -/
def State.withdrawHeld (s : State) (a : Address) (z : ZoneNo) : State :=
  (s.hcq.entries.filter (fun e => e.target == a)).foldl (State.raiseWithdrawn z)
    { s with hcq := { s.hcq with entries := s.hcq.entries.filter (fun e => e.target != a) } }

/-- A group order entry covers a zone when its scope is ALL or the zone (R145). -/
def GroupEntry.covers (g : GroupEntry) (z : ZoneNo) : Bool := g.scope == .all || g.scope == .zone z

/-- The expected pattern of a sounder of a zone: the highest pattern of the entries that cover it, else 0 (R145). -/
def Hcq.expectedPattern (q : Hcq) (z : ZoneNo) : Nat :=
  (q.orders.filter (fun g => g.covers z)).foldl (fun m g => max m g.pattern) 0

end Sys2Proof.Machine
end

