-- ==== Sys2Proof/Machine/Heads.lean ====
section
/-! DEFINITION. The Head Link Interface and the Slot Clock (section 2): head link reception, head health, admission,
the transmit FIFOs, slot starts and the acknowledgement window. -/

namespace Sys2Proof.Machine

/-! ## Transmit side (R41 to R46) -/

/-- An acknowledgement's address and held command, for a frame that is one. -/
def HeadFrame.ack? : HeadFrame → Option (Address × Option Attachment)
  | .tune _ _ _ => none
  | .beacon _ _ => none
  | .ack a _ _ _ held => some (a, held)

/-- The acknowledgements of a transmit FIFO, in order. -/
def acksOf (fifo : List HeadFrame) : List (Address × Option Attachment) := fifo.filterMap HeadFrame.ack?

/-- HCQ is told of one acknowledgement that was not sent (R46, R139). -/
def State.tellNotSent (s : State) (a : Address × Option Attachment) : State := s.notSent a.1 a.2

/-- A frame refused by a full transmit FIFO (R44): the overrun counter rises, and HCQ is told of an acknowledgement's
held command. -/
def State.refuseFrame (s : State) (h : HeadNo) (f : HeadFrame) : State :=
  (acksOf [f]).foldl State.tellNotSent
    (s.modifyHead h fun v => { v with counters := { v.counters with overrun := inc16 v.counters.overrun } })

/-- A frame handed to a head's transmit FIFO (R44). -/
def State.handFrame (s : State) (h : HeadNo) (f : HeadFrame) : State :=
  if (s.head h).txFifo.length < Config.txDepth then s.modifyHead h fun v => { v with txFifo := v.txFifo ++ [f] }
  else s.refuseFrame h f

/-- A head's acknowledgement that is discarded as late (R45). -/
def State.lateAck (h : HeadNo) (s : State) (a : Address × Option Attachment) : State :=
  (s.modifyHead h fun v => { v with counters := { v.counters with late := inc16 v.counters.late } }).tellNotSent a

/-- An acknowledgement handed over by FIU (R45): to the receiving head's FIFO when its stamp is current, else late. -/
def State.handAck (s : State) (h : HeadNo) (stamp : SlotStamp) (a : Address) (seq : SeqNo)
    (held : Option Attachment) : State :=
  if stamp = s.clock.stamp then s.handFrame h (.ack a seq s.clock.superframe s.clock.slot held)
  else State.lateAck h s (a, held)

/-- The acknowledgements waiting at head h are removed as late (R42 step 1). -/
def State.purgeAcks (s : State) (h : HeadNo) : State :=
  (acksOf (s.head h).txFifo).foldl (State.lateAck h)
    (s.modifyHead h fun v => { v with txFifo := v.txFifo.filter (fun f => f.ack?.isNone) })

/-- The channel on which a head listens in a slot (R41). -/
def PageAir.channel (p : PageAir) (h : HeadNo) (slot : BitVec 3) : Nat :=
  match p.order with
  | .rotate => (p.starts.get h + slot.toNat) % p.channels
  | .mirror => p.starts.get h ^^^ (slot.toNat % p.channels)

/-- A head in UP is handed its TUNE for the slot that starts (R42 step 2). -/
def State.tuneHead (s : State) (h : HeadNo) : State :=
  if (s.head h).link = .up then
    s.handFrame h (.tune (s.pages.air.channel h s.clock.slot) s.clock.superframe s.clock.slot)
  else s

/-- A head in UP is handed a copy of the BEACON (R43). -/
def State.beaconHead (s : State) (h : HeadNo) : State :=
  if (s.head h).link = .up then s.handFrame h (.beacon s.clock.superframe s.hcq.orders) else s

/-- A slot start (R42): late acknowledgements out, a TUNE to each head in UP, at slot 0 a BEACON after it. -/
def State.slotStart (s : State) : State :=
  let s1 := allHeads.foldl State.tuneHead (allHeads.foldl State.purgeAcks s)
  if s1.clock.slot = 0 then allHeads.foldl State.beaconHead s1 else s1

/-- The Slot Clock one slot later (R39): from 7 the index becomes 0 and the superframe number is incremented. -/
def SlotClock.advance (c : SlotClock) : SlotClock :=
  { c with slot := c.slot + 1, superframe := if c.slot = 7 then c.superframe + 1 else c.superframe }

/-- SLOT_TIMER_EXPIRY (R39): the next slot starts and the timer is armed again. A stopped timer does not expire. -/
def execSlotTimerExpiry (s : State) : Host.Outcome State Fault Refusal :=
  if s.clock.slotTimer.isSome then
    .next ({ s with clock := { s.clock.advance with slotTimer := some s.pages.air.slotLength } }).slotStart
  else .next s

/-- HEAD_FRAME_SEND (R44): with the link free, the frame at the head of the FIFO leaves it and is sent. -/
def execHeadFrameSend (h : HeadNo) (s : State) : Host.Outcome State Fault Refusal :=
  match (s.head h).sending, (s.head h).txFifo with
  | none, f :: rest => .next (s.modifyHead h fun v => { v with txFifo := rest, sending := some ⟨f, f.wire⟩ })
  | _, _ => .next s

/-- HEAD_TRANSMISSION_COMPLETE (R44): the frame being sent reaches its end, and the link falls free. -/
def execHeadTransmissionComplete (h : HeadNo) (s : State) : Host.Outcome State Fault Refusal :=
  .next (s.modifyHead h fun v => { v with sending := none })

/-! ## Head health (R28 to R31) -/

/-- A head record is raised with no zone, no address and no detector kind (R29, R149). -/
def State.raiseHead (s : State) (body : EventBody) : State := s.raise body none none none

/-- Jam detection with one busy level (R31): five in a row at or above the threshold set the flag, five below it clear
it. -/
def State.jamCheck (s : State) (h : HeadNo) (busy : Nat) : State :=
  let v := s.head h
  let crowded := decide (s.pages.air.jamThreshold ≤ min busy 100)
  if crowded = v.jam then s.modifyHead h fun v => { v with jamRun := 0 }
  else if v.jamRun + 1 < 5 then s.modifyHead h fun v => { v with jamRun := v.jamRun + 1 }
  else (s.modifyHead h fun v => { v with jamRun := 0, jam := !v.jam }).raiseHead
    (if v.jam then .headClear h else .headJammed h)

/-- A good HEAD_STATUS (R29): the flag and the counts, HEAD_UP from DOWN or LOST, then jam detection. -/
def State.takeStatus (s : State) (h : HeadNo) (busy : Nat) : State :=
  let before := (s.head h).link
  let s1 := s.modifyHead h fun v =>
    { v with link := .up, statusSeen := true, missed := 0,
             counters := { v.counters with statuses := inc16 v.counters.statuses } }
  (if before = .up then s1 else s1.raiseHead (.headUp h)).jamCheck h busy

/-- A head whose missed count has reached 3 becomes LOST, with HEAD_LOST (R30). -/
def State.loseHead (s : State) (h : HeadNo) : State :=
  (s.modifyHead h fun v => { v with link := .lost }).raiseHead (.headLost h)

/-- Whether a head in UP has a missed count of 3 (R30). -/
def State.headDue (s : State) (h : HeadNo) : Bool := (s.head h).link == .up && decide (3 ≤ (s.head h).missed)

/-- The heartbeat check of one head at a tick (R30). -/
def State.heartbeat (s : State) (h : HeadNo) : State :=
  let s1 := s.modifyHead h fun v =>
    { v with missed := if v.link = .up ∧ ¬ v.statusSeen then v.missed + 1 else v.missed, statusSeen := false }
  if s1.headDue h then s1.loseHead h else s1

/-- HEAD_LOST (R30): a head whose missed count has reached 3 becomes LOST. -/
def execHeadLost (h : HeadNo) (s : State) : Host.Outcome State Fault Refusal :=
  if s.headDue h then .next (s.loseHead h) else .next s

/-! ## Admission (R34 to R36) -/

/-- A change of a head's counters. -/
def State.countHead (s : State) (h : HeadNo) (f : HeadCounters → HeadCounters) : State :=
  s.modifyHead h fun v => { v with counters := f v.counters }

/-- A frame that passed the checks of R34 is admitted to its lane, or dropped for want of room (R35, R36). -/
def State.placeFrame (s : State) (h : HeadNo) (f : RadioFrame) : State :=
  let lane : LaneFrame := ⟨f, h, s.clock.stamp⟩
  if f.urgent then
    if 0 < s.intake.freeBlocks then
      { s with intake := { s.intake with freeBlocks := s.intake.freeBlocks - 1,
                                         urgentLane := s.intake.urgentLane ++ [lane] } }.countHead h
        fun c => { c with admitted := inc16 c.admitted }
    else s.countHead h fun c => { c with poolFull := inc16 c.poolFull }
  else if Config.poolReserve < s.intake.freeBlocks then
    { s with intake := { s.intake with freeBlocks := s.intake.freeBlocks - 1,
                                       normalLane := s.intake.normalLane ++ [lane] } }.countHead h
      fun c => { c with admitted := inc16 c.admitted }
  else s.countHead h fun c => { c with poolFull := inc16 c.poolFull }

/-- A good RADIO_FRAME checked for mode, kind, hop count and length, then placed (R34). -/
def State.takeRadio (s : State) (h : HeadNo) (f : RadioFrame) : State :=
  if s.mode = .loading then s.countHead h fun c => { c with notRunning := inc16 c.notRunning }
  else match FrameKind.ofCode f.kind with
    | none => s.countHead h fun c => { c with unknownKind := inc16 c.unknownKind }
    | some k =>
      if 3 < f.hop.toNat then s.countHead h fun c => { c with hopLimit := inc16 c.hopLimit }
      else if f.payload.length ≠ k.payloadLength then s.countHead h fun c => { c with length := inc16 c.length }
      else s.placeFrame h f

/-- The part with the receiver of a head link as some bytes left it (R187). -/
def State.setHeadRx (s : State) (h : HeadNo) (rx : HeadReceiver) : State := s.modifyHead h fun v => { v with rx := rx }

/-- RADIO_FRAME (R28, R34): bytes that end one good RADIO_FRAME at head h's receiver. Bytes that do not are no such
event (log 3). -/
def execRadioFrame (h : HeadNo) (bytes : List Byte) (s : State) : Host.Outcome State Fault Refusal :=
  match (s.head h).rx.feed bytes with
  | (rx, [.radio f]) => .next ((s.setHeadRx h rx).takeRadio h f)
  | _ => .next s

/-- HEAD_STATUS (R28, R29): bytes that end one good HEAD_STATUS at head h's receiver. -/
def execHeadStatus (h : HeadNo) (bytes : List Byte) (s : State) : Host.Outcome State Fault Refusal :=
  match (s.head h).rx.feed bytes with
  | (rx, [.status busy]) => .next ((s.setHeadRx h rx).takeStatus h busy.toNat)
  | _ => .next s

/-- HEAD_LINK_DISCARD (R28, R187): bytes that make head h's receiver discard one frame. -/
def execHeadLinkDiscard (h : HeadNo) (bytes : List Byte) (s : State) : Host.Outcome State Fault Refusal :=
  match (s.head h).rx.feed bytes with
  | (rx, [.discard]) =>
    .next ((s.setHeadRx h rx).countHead h fun c => { c with linkError := inc16 c.linkError })
  | _ => .next s

/-! ## Emptying lanes and FIFOs (R32, R37) -/

/-- HLI's part of a HEAD_RESET (R32): the head's frames out of the lanes, its FIFO emptied with HCQ told, its state
reset. The receiver and a frame being sent stand (R33). -/
def State.resetHead (s : State) (h : HeadNo) : State :=
  let urgent := s.intake.urgentLane.filter (fun f => f.head != h)
  let normal := s.intake.normalLane.filter (fun f => f.head != h)
  let freed := (s.intake.urgentLane.length - urgent.length) + (s.intake.normalLane.length - normal.length)
  let s1 := { s with intake := ⟨s.intake.freeBlocks + freed, urgent, normal⟩ }
  let s2 := (acksOf (s.head h).txFifo).foldl State.tellNotSent s1
  s2.modifyHead h fun v => { Head.powerOn with rx := v.rx, sending := v.sending }

/-- A head's transmit FIFO is emptied at STOP, HCQ told of each held command (R37, R46). -/
def State.emptyFifo (s : State) (h : HeadNo) : State :=
  (acksOf (s.head h).txFifo).foldl State.tellNotSent (s.modifyHead h fun v => { v with txFifo := [] })

/-- At STOP the lanes and the transmit FIFOs are emptied and the blocks freed (R37). -/
def State.emptyLanes (s : State) : State :=
  let i := s.intake
  allHeads.foldl State.emptyFifo
    { s with intake := ⟨i.freeBlocks + i.urgentLane.length + i.normalLane.length, [], []⟩ }

/-- A head after RESTART (R33, R37): as at power-on, but for its receiver and a frame being sent. -/
def Head.restarted (v : Head) : Head := { Head.powerOn with rx := v.rx, sending := v.sending }

end Sys2Proof.Machine
end

