-- ==== Sys2Proof/Machine/Levels.lean ====
section
/-! DEFINITION. The Level Processor (section 4): channels, the smoke baseline, effective thresholds, levels with
hysteresis, drift and band reporting, all on the record a completion step has been granted. -/

namespace Sys2Proof.Machine

/-- A detector record granted to a completion step, with the rest of the part as the step has left it so far (R10).
The record is written back to its index when the step ends. -/
structure Work where
  st  : State
  det : DetectorRecord

/-- A record raised for the granted detector carries its zone, address and kind (R149). -/
def Work.raise (w : Work) (body : EventBody) : Work :=
  { w with st := w.st.raise body (some w.det.zone) (some w.det.address) (some w.det.kind) }

/-- What a new frame's payload hands on (R63): nothing for a CHECK, a reading or two, a call state, a sounder's
pattern; or a mismatch of kind or value. -/
inductive Content where
  | nothing
  | smoke (r : Nat)
  | heat (r : Nat)
  | both (smoke heat : Nat)
  | call (operated : Bool)
  | pattern (p : Nat)
  | mismatch
deriving DecidableEq, Repr

/-- The content of a frame for a record of a kind (R63). -/
def contentOf (kind : DetectorKind) (f : RadioFrame) : Content :=
  let b0 := (byteAt f.payload 0).toNat
  match FrameKind.ofCode f.kind, kind with
  | some .check, _ => .nothing
  | some .reading, .smoke => .smoke b0
  | some .reading, .heat => .heat b0
  | some .dualReading, .multi => .both b0 (byteAt f.payload 1).toNat
  | some .callState, .callpoint => if b0 = 0 then .call false else if b0 = 1 then .call true else .mismatch
  | some .sounderState, .sounder => if b0 ≤ 7 then .pattern b0 else .mismatch
  | _, _ => .mismatch

/-! ## Channels (R74 to R80) -/

/-- The rounded baseline b of a baseline B (R75). -/
def rounded (baseline : Nat) : Nat := (baseline + 8) / 16

/-- The compensated value of a smoke reading (R75). -/
def compensated (baseline r : Nat) : Nat := r - rounded baseline

/-- The baseline a smoke reading is classified against: the one held, or 16 × min(r, P) when it is unset (R74). -/
def baselineFor (held : Option Nat) (r pre : Nat) : Nat := held.getD (16 * min r pre)

/-- The step of a baseline toward 16 × r (R76): δ over 2 to the power k truncated toward zero, and at least one
sixteenth when δ is not 0. -/
def baselineStep (baseline r shift : Nat) : Int :=
  let delta : Int := 16 * (r : Int) - baseline
  let step := delta.tdiv (2 ^ shift : Nat)
  if delta ≠ 0 ∧ step = 0 then delta.sign else step

/-- The baseline after a reading that updates it (R76). -/
def steppedBaseline (baseline r shift : Nat) : Nat := ((baseline : Int) + baselineStep baseline r shift).toNat

/-- The effective alarm threshold A' under an offset (R77). -/
def ThresholdSet.alarmWith (t : ThresholdSet) (offset : Nat) : Nat := min (t.alarm + offset) 250

/-- The effective pre-alarm threshold P' under an offset, kept below A' (R77). -/
def ThresholdSet.preWith (t : ThresholdSet) (offset : Nat) : Nat :=
  let p := min (t.pre + offset) 249
  if t.alarmWith offset ≤ p then t.alarmWith offset - 1 else p

/-- The level of a channel with value c under thresholds P', A' and hysteresis H, from the current level (R79). -/
def channelLevel (c pre alarm hyst : Nat) (current : Level) : Level :=
  if alarm ≤ c ∨ (current = .alarm ∧ alarm - hyst ≤ c) then .alarm
  else if pre ≤ c ∨ (current ≠ .normal ∧ pre - hyst ≤ c) then .pre
  else .normal

/-- A channel classified by a threshold set and an offset (R77, R79). -/
def ThresholdSet.classify (t : ThresholdSet) (offset c : Nat) (current : Level) : Level :=
  channelLevel c (t.preWith offset) (t.alarmWith offset) t.hyst current

/-- The higher of two levels (R72, R80). -/
def Level.max : Level → Level → Level
  | .alarm, _ => .alarm
  | _, .alarm => .alarm
  | .pre, _ => .pre
  | _, .pre => .pre
  | .normal, .normal => .normal

/-- The service offset LVP takes from a zone (R77). -/
def Zone.smokeOffset (z : Zone) : Nat := if z.service then z.offset else 0

/-! ## One reading -/

/-- What a reading of a record works out before anything is raised: the new level, the values DETECTOR_STATE carries,
the smoke channel's new baseline and drift limit, and the reported value with its report settings. -/
structure Reading where
  level  : Level
  smoke  : Option Nat
  other  : Option Nat
  drift  : Option (Nat × Nat)
  report : Option (ReportSet × Nat)

/-- The baseline after a smoke reading has been classified: stepped when the new and the current level are NORMAL, else
as it stood (R76). -/
def baselineAfter (baseline r shift : Nat) (current new : Level) : Nat :=
  if current = .normal ∧ new = .normal then steppedBaseline baseline r shift else baseline

/-- A smoke detector's reading (R72, R74 to R79). -/
def smokeReading (p : PageLevels) (held : Option Nat) (offset : Nat) (current : Level) (r : Nat) : Reading :=
  let b := baselineFor held r p.smoke.pre
  let c := compensated b r
  let new := p.smoke.classify offset c current
  { level := new, smoke := some c, other := none,
    drift := some (baselineAfter b r p.smokeDrift.shift current new, p.smokeDrift.limit),
    report := some (p.smokeReport, c) }

/-- A heat detector's reading: c = r, no offset, no baseline (R72). -/
def heatReading (p : PageLevels) (current : Level) (r : Nat) : Reading :=
  { level := p.heat.classify 0 r current, smoke := none, other := some r, drift := none,
    report := some (p.heatReport, r) }

/-- A multi-sensor detector's two readings: the higher level; baseline, drift and report on the smoke channel (R80). -/
def multiReading (p : PageLevels) (held : Option Nat) (offset : Nat) (current : Level) (r heat : Nat) : Reading :=
  let b := baselineFor held r p.multiSmoke.pre
  let c := compensated b r
  let new := (p.multiSmoke.classify offset c current).max (p.multiHeat.classify 0 heat current)
  { level := new, smoke := some c, other := some heat,
    drift := some (baselineAfter b r p.multiDrift.shift current new, p.multiDrift.limit),
    report := some (p.multiReport, c) }

/-- A call point's state as a reading (R83): operated is 1 and released 0 in the detail (R63, R189). -/
def callReading (operated : Bool) : Reading :=
  { level := if operated then .alarm else .normal, smoke := none, other := some operated.toNat, drift := none,
    report := none }

/-- The reading a content is for LVP, if it is one (R63, R71, R72). -/
def State.readingOf (s : State) (d : DetectorRecord) (content : Content) : Option Reading :=
  let z := s.zone d.zone
  let current := d.currentLevel z.epoch
  match content with
  | .smoke r => some (smokeReading s.pages.levels d.baseline z.smokeOffset current r)
  | .heat r => some (heatReading s.pages.levels current r)
  | .both r h => some (multiReading s.pages.levels d.baseline z.smokeOffset current r h)
  | .call operated => some (callReading operated)
  | .nothing | .pattern _ | .mismatch => none

/-- The drift check on a smoke channel's baseline (R84), which is written first (R76). -/
def Work.checkDrift (w : Work) (baseline limit : Nat) : Work :=
  let w1 : Work := { w with det := { w.det with baseline := some baseline } }
  let b := rounded baseline
  if ¬ w.det.driftFault ∧ limit < b then
    ({ w1 with det := { w1.det with driftFault := true } } : Work).raise (.driftLimit b limit)
  else if w.det.driftFault ∧ b ≤ limit - 4 then
    ({ w1 with det := { w1.det with driftFault := false } } : Work).raise (.driftCleared b limit)
  else w1

/-- The drift check of a reading that has a smoke channel (R84). -/
def Work.driftOf (w : Work) : Option (Nat × Nat) → Work
  | none => w
  | some (baseline, limit) => w.checkDrift baseline limit

/-- A level transition is handed on (R81): the context closes, DETECTOR_STATE, then ZU unless the record is in test. -/
def Work.transition (w : Work) (before : Level) (r : Reading) : Work :=
  let w1 : Work := { w with st := w.st.closeContext .transition w.det.address }
  let w2 := w1.raise (.detectorState before r.level r.smoke r.other w.det.test)
  if w.det.test then w2
  else { w2 with st := w2.st.zoneTransition w.det.zone w.det.address w.det.kind before r.level }

/-- A transition, or an ALARM that stays ALARM, is told (R81, R82). -/
def Work.handOn (w : Work) (before : Level) (r : Reading) : Work :=
  if r.level ≠ before then w.transition before r
  else if before = .alarm ∧ ¬ w.det.test then
    { w with st := w.st.zoneStaysAlarm w.det.zone w.det.address w.det.kind }
  else w

/-- Whether a value is reported under a report set (R85). -/
def ReportSet.reports (p : ReportSet) (last : Option Nat) (v : Nat) : Bool :=
  match p.mode with
  | .off => false
  | .all => true
  | .band =>
    match last with
    | none => true
    | some l => decide (p.delta ≤ max v l - min v l)

/-- Band reporting (R85): a reported value goes to EVU and becomes the last reported value. -/
def Work.reportValue (w : Work) (seq : SeqNo) : Option (ReportSet × Nat) → Work
  | none => w
  | some (p, v) =>
    if p.reports w.det.lastReported v then
      { st := { w.st with evu := w.st.evu.report w.st.now w.det.address w.det.zone w.det.kind seq v },
        det := { w.det with lastReported := some v } }
    else w

/-- LVP's work for one reading of an enabled record, after the reading has been classified (R86 steps 4 to 8). -/
def Work.applyReading (w : Work) (seq : SeqNo) (r : Reading) : Work :=
  let epoch := (w.st.zone w.det.zone).epoch
  let before := w.det.currentLevel epoch
  let w1 : Work := { w with det := { w.det with level := r.level, levelEpoch := epoch } }
  ((w1.driftOf r.drift).handOn before r).reportValue seq r.report

/-- LVP acts on a content that is a reading of an enabled record; for any other it does nothing (R71). -/
def Work.level (w : Work) (seq : SeqNo) (content : Content) : Work :=
  if w.det.enabled then
    match w.st.readingOf w.det content with
    | none => w
    | some r => w.applyReading seq r
  else w

end Sys2Proof.Machine
end

