-- ==== Sys2Proof/Machine/Table.lean ====
section
/-! DEFINITION. The Detector Table Unit (section 1): buckets and chains, the free list, the records the table commands
build, and the notices a removal sends. -/

namespace Sys2Proof.Machine

/-! ## Buckets, chains and lookups (R4 to R6) -/

/-- The bucket index of an address under B buckets (R4). -/
def bucketIndex (a : Address) (buckets : Nat) : Nat :=
  ((a.extractLsb' 0 8).toNat + 3 * (a.extractLsb' 8 8).toNat + 7 * (a.extractLsb' 16 8).toNat) % buckets

/-- The chain of a bucket, its record indices in order (R5). -/
def Dtu.chainAt (d : Dtu) (bucket : Nat) : List Nat := d.chains.getD bucket []

/-- What a bucket holds: the index of the first record of its chain, or none for "empty" (R5). -/
def Dtu.bucketHead (d : Dtu) (bucket : Nat) : Option Nat := (d.chainAt bucket).head?

/-- The index after `i` in a chain, or none for "end". -/
def nextIn (i : Nat) : List Nat → Option Nat
  | [] => none
  | j :: rest => if j = i then rest.head? else nextIn i rest

/-- The next field of the record at an index (R5). -/
def Dtu.nextOf (d : Dtu) (i : Nat) : Option Nat := d.chains.findSome? (nextIn i)

/-- What a lookup yields (R6): the record's index, its position in its chain, and the index of the record before it,
none when it is first. -/
structure Lookup where
  index    : Nat
  position : Nat
  before   : Option Nat
deriving DecidableEq, Repr

/-- A walk of a chain from a position, behind a record or none: what it yields for the first record of the address
(R6). -/
def Dtu.walk (d : Dtu) (a : Address) (position : Nat) (before : Option Nat) : List Nat → Option Lookup
  | [] => none
  | i :: rest =>
    if (d.recordAt i).any (fun r => r.address == a) then some ⟨i, position, before⟩
    else d.walk a (position + 1) (some i) rest

/-- The bucket of an address under the split in force. -/
def State.bucketOf (s : State) (a : Address) : Nat := bucketIndex a s.buckets

/-- A lookup of an address, none when it is not enrolled: its bucket's chain is walked from the first record (R6). -/
def State.lookup (s : State) (a : Address) : Option Lookup :=
  s.dtu.walk a 1 none (s.dtu.chainAt (s.bucketOf a))

/-- The record a lookup finds, with its index and its chain position. -/
def State.findRecord (s : State) (a : Address) : Option (Nat × Nat × DetectorRecord) :=
  (s.lookup a).bind fun l => (s.dtu.recordAt l.index).map fun r => (l.index, l.position, r)

/-- Change the DTU's state. -/
def State.setDtu (s : State) (d : Dtu) : State := { s with dtu := d }

/-- Write the record of an index. -/
def State.putRecord (s : State) (i : Nat) (r : DetectorRecord) : State := s.setDtu (s.dtu.putRecord i (some r))

/-! ## Records taken from the free list (R12, R13, R16) -/

/-- The configuration a command gives, stored (R12). -/
structure Configuration where
  address : Address
  kind    : DetectorKind
  zone    : ZoneNo
  key     : Key
  period  : Nat
  misses  : Nat
deriving DecidableEq, Repr

/-- The configuration ENROL or AMEND gives after the checks of R15: none is INVALID. -/
def Configuration.ofArgs (a : EnrolArgs) : Option Configuration :=
  if reservedAddress a.address then none
  else match DetectorKind.ofCode a.kind, zoneOf a.zone with
    | some k, some z =>
      some { address := a.address, kind := k, zone := z, key := a.key,
             period := storedPeriod a.period.toNat, misses := storedMisses a.misses.toNat }
    | _, _ => none

/-- OK, or ADJUSTED when P or M was stored otherwise than as given (R15, R16). -/
def enrolSuccess (a : EnrolArgs) : Result :=
  if storedPeriod a.period.toNat = a.period.toNat ∧ storedMisses a.misses.toNat = a.misses.toNat then .ok
  else .adjusted

/-- The configuration a record holds. -/
def DetectorRecord.configuration (r : DetectorRecord) : Configuration :=
  { address := r.address, kind := r.kind, zone := r.zone, key := r.key, period := r.period, misses := r.misses }

/-- A record with its enrolment values (R13), its level stamped with the epoch of its zone. -/
def Configuration.enrolled (c : Configuration) (now grace : Nat) (zoneEpoch : BitVec 8) : DetectorRecord :=
  { address := c.address, kind := c.kind, zone := c.zone, key := c.key, period := c.period, misses := c.misses,
    enabled := true, test := false, collision := false, lastSequence := none, path := none, weakCount := 0,
    failureRun := 0, presence := .awaited, deadline := clockAdd now (grace + c.period * c.misses),
    battery := .ok, tamper := .closed, baseline := none, driftFault := false,
    level := .normal, levelEpoch := zoneEpoch, lastReported := none, sounderPattern := 0, mismatchRun := 0 }

/-- The record a configuration is enrolled as now. -/
def State.enrolledRecord (s : State) (c : Configuration) : DetectorRecord :=
  c.enrolled s.now s.pages.timing.grace (s.zone c.zone).epoch

/-- A record joins the end of a bucket's chain at the index at the front of the free list, whose epoch advances
(R5, R7, R16). -/
def Dtu.join (d : Dtu) (bucket i : Nat) (rest : List Nat) (r : DetectorRecord) : Dtu :=
  let chain := d.chainAt bucket ++ [i]
  { slots := d.slots.set i ⟨d.epochAt i + 1, some r⟩, chains := d.chains.set bucket chain,
    freeList := rest, maxChain := max d.maxChain chain.length }

/-- A record leaves its chain and its index returns to the front of the free list, its epoch unchanged (R7, R21). -/
def Dtu.leave (d : Dtu) (bucket i : Nat) : Dtu :=
  { d with slots := d.slots.set i ⟨d.epochAt i, none⟩,
           chains := d.chains.set bucket ((d.chainAt bucket).filter (fun j => j != i)),
           freeList := i :: d.freeList }

/-- The move of an AMEND from index i to the free index n, at the same place of the chain (R19). -/
def Dtu.move (d : Dtu) (bucket i n : Nat) (rest : List Nat) (r : DetectorRecord) : Dtu :=
  { d with slots := (d.slots.set i ⟨d.epochAt i, none⟩).set n ⟨d.epochAt n + 1, some r⟩,
           chains := d.chains.set bucket ((d.chainAt bucket).map (fun j => if j = i then n else j)),
           freeList := i :: rest }

/-- The table emptied with its epochs kept and the free list rebuilt (R24). -/
def Dtu.cleared (d : Dtu) : Dtu :=
  { slots := d.slots.map (fun sl => ⟨sl.epoch, none⟩), chains := d.chains.map (fun _ => []),
    freeList := List.range d.slots.length, maxChain := 0 }

/-- The record an AMEND with fresh start clear builds (R20): runtime fields carried, but for what a change of kind, a
change of zone and the collision flag's clearing replace. -/
def DetectorRecord.amended (old : DetectorRecord) (c : Configuration) (zoneEpoch : BitVec 8) : DetectorRecord :=
  let kindKept := c.kind = old.kind
  let zoneKept := c.zone = old.zone
  { old with
    address := c.address, kind := c.kind, zone := c.zone, key := c.key, period := c.period, misses := c.misses,
    collision := false,
    baseline := if kindKept then old.baseline else none,
    driftFault := if kindKept then old.driftFault else false,
    lastReported := if kindKept then old.lastReported else none,
    sounderPattern := if kindKept then old.sounderPattern else 0,
    mismatchRun := if kindKept then old.mismatchRun else 0,
    level := if zoneKept then old.level else .normal,
    levelEpoch := if zoneKept then old.levelEpoch else zoneEpoch }

/-- The record an AMEND builds for a present record (R20); the enabled flag is the old record's. -/
def State.amendedRecord (s : State) (old : DetectorRecord) (c : Configuration) (freshStart : Bool) : DetectorRecord :=
  if freshStart then { s.enrolledRecord c with enabled := old.enabled }
  else old.amended c (s.zone c.zone).epoch

/-- A record after RESTART (R14): configuration, collision and enabled kept, every other runtime field at its RESTART
value. -/
def DetectorRecord.restarted (r : DetectorRecord) (grace : Nat) : DetectorRecord :=
  { r.configuration.enrolled 0 grace 0 with enabled := r.enabled, collision := r.collision }

/-! ## Removal (R22, R131) -/

/-- The missing count loses a removed record that was MISSING (R131). -/
def State.uncountMissing (s : State) (r : DetectorRecord) : State :=
  if r.presence = .missing then { s with su := { s.su with missing := s.su.missing - 1 } } else s

/-- A removal notice to ZU and EVU (R22): the count of the record's zone if it was counted, then the context of its
address. -/
def State.noticeZoneAndEvents (s : State) (r : DetectorRecord) : State :=
  let s1 := if r.counted (s.zone r.zone).epoch then s.zoneDecrement r.zone r.address none else s
  s1.closeContext .notice r.address

/-- The removal notices of WITHDRAW, CLEAR_TABLE and page 3 writes, in order ZU, EVU, HCQ (R22). -/
def State.removalNotices (s : State) (r : DetectorRecord) : State :=
  (s.noticeZoneAndEvents r).withdrawHeld r.address r.zone

/-- One of the records that CLEAR_TABLE or a page 3 write removes. -/
def State.removeOne (s : State) (r : DetectorRecord) : State := (s.uncountMissing r).removalNotices r

/-- The chained records in ascending record index. -/
def Dtu.records (d : Dtu) : List DetectorRecord := d.slots.filterMap Slot.record

/-- The notices and the missing count of every record's removal, in ascending record index (R2, R22, R24). -/
def State.removeAll (s : State) : State := s.dtu.records.foldl State.removeOne s

end Sys2Proof.Machine
end

