-- ==== Sys2Proof/Machine/Supervision.lean ====
section
/-! DEFINITION. The Supervision Unit (section 6): the seconds clock and tick, presence, battery and tamper, the sweep and
its visits; and the timers of EVU that the tick counts (R161, R164). -/

namespace Sys2Proof.Machine

/-! ## A new frame at SU (R121 to R123) -/

/-- The deadline of a record is set to now + P × M (R26, R121). -/
def DetectorRecord.refreshed (r : DetectorRecord) (now : Nat) : DetectorRecord :=
  { r with deadline := clockAdd now r.allowance }

/-- Presence and deadline at a new frame of an enabled record (R121). -/
def Work.refreshPresence (w : Work) : Work :=
  let old := w.det.deadline
  let w1 : Work := { w with det := { w.det.refreshed w.st.now with presence := .present } }
  if w.det.presence = .missing then
    ({ w1 with st := { w1.st with su := { w1.st.su with missing := w1.st.su.missing - 1 } } } : Work).raise
      (.detectorPresent old)
  else w1

/-- The battery flag of a new frame of an enabled record (R122). -/
def Work.checkBattery (w : Work) (low : Bool) : Work :=
  match w.det.battery, low with
  | .ok, true => ({ w with det := { w.det with battery := .low } } : Work).raise .batteryLow
  | .low, false => ({ w with det := { w.det with battery := .ok } } : Work).raise .batteryOk
  | .ok, false => w
  | .low, true => w

/-- The tamper flag of a new frame of an enabled record (R122). -/
def Work.checkTamper (w : Work) (isOpen : Bool) : Work :=
  match w.det.tamper, isOpen with
  | .closed, true => ({ w with det := { w.det with tamper := .opened } } : Work).raise .tamperOpen
  | .opened, false => ({ w with det := { w.det with tamper := .closed } } : Work).raise .tamperClosed
  | .closed, false => w
  | .opened, true => w

/-- SU's part of a new frame (R121 to R123): a disabled record has its deadline refreshed and nothing else. -/
def Work.supervise (w : Work) (f : RadioFrame) : Work :=
  if w.det.enabled then (w.refreshPresence.checkBattery f.batteryLow).checkTamper f.tamperOpen
  else { w with det := w.det.refreshed w.st.now }

/-! ## The sweep (R124 to R128) -/

/-- A sweep starts at index 0 (R124, R125). -/
def Su.startSweep (u : Su) : Su := { u with sweep := some 0, sweepsStarted := inc32 u.sweepsStarted }

/-- A running sweep is abandoned (R128, R130). -/
def Su.abandonSweep (u : Su) : Su :=
  match u.sweep with
  | none => u
  | some _ => { u with sweep := none, sweepsAbandoned := inc32 u.sweepsAbandoned }

/-- The sweep timer's expiry (R124): a sweep starts, or an overlap is counted; the timer is armed again. -/
def State.sweepExpiry (s : State) : State :=
  let u := match s.su.sweep with
    | none => s.su.startSweep
    | some _ => { s.su with overlaps := inc32 s.su.overlaps }
  { s with su := { u with sweepTimer := some s.pages.timing.sweep } }

/-- A page 2 write in RUNNING (R128): a running sweep is abandoned, a new one starts, the timer is armed. -/
def State.restartSweep (s : State) : State :=
  { s with su := { s.su.abandonSweep.startSweep with sweepTimer := some s.pages.timing.sweep } }

/-- SWEEP_TIMER_EXPIRY (R124), when the sweep timer has reached 0. -/
def execSweepTimerExpiry (s : State) : Host.Outcome State Fault Refusal :=
  if s.su.sweepTimer = some 0 then .next s.sweepExpiry else .next s

/-- Whether a visit marks a record MISSING (R126). -/
def DetectorRecord.overdue (r : DetectorRecord) (now : Nat) : Bool :=
  r.enabled && r.presence != .missing && decide (r.deadline ≤ now)

/-- A visit marks an overdue record MISSING, with DETECTOR_MISSING (R126, R131). -/
def State.markMissing (s : State) (i : Nat) (r : DetectorRecord) : State :=
  ({ s with dtu := s.dtu.putRecord i (some { r with presence := .missing }),
            su := { s.su with missing := s.su.missing + 1 } }).raise
    (.detectorMissing r.presence r.deadline r.allowance) (some r.zone) (some r.address) (some r.kind)

/-- A visit to an index (R126). -/
def State.visit (s : State) (i : Nat) : State :=
  match s.dtu.recordAt i with
  | none => s
  | some r => if r.overdue s.now then s.markMissing i r else s

/-- The sweep's position advances; at T the sweep ends (R125). -/
def State.advanceSweep (s : State) (i : Nat) : State :=
  if i + 1 < s.tableSize then { s with su := { s.su with sweep := some (i + 1) } }
  else { s with su := { s.su with sweep := none, sweepsCompleted := inc32 s.su.sweepsCompleted } }

/-- Whether FIU has a request waiting at DTU (R9, R47). -/
def FiuState.waits : FiuState → Bool
  | .idle => false
  | .lookingUp _ => true
  | .checking _ _ _ _ => false
  | .completing _ _ _ _ => true

/-- Whether MEX has a request waiting at DTU (R9, R175). -/
def State.mexWaits (s : State) : Bool :=
  match s.mex.state with
  | .executing p => (parseCommand p).any Command.atDtu
  | .idle => false
  | .restarting => false

/-- VISIT_REQUEST (R9, R11, R126): granted when neither FIU nor MEX has a request waiting. -/
def execVisitRequest (s : State) : Host.Outcome State Fault Refusal :=
  match s.su.sweep with
  | none => .next s
  | some i => if s.fiu.state.waits || s.mexWaits then .next s else .next ((s.visit i).advanceSweep i)

/-! ## START's re-arming (R129) -/

/-- A record's deadline at START (R129). -/
def DetectorRecord.rearmed (r : DetectorRecord) (now grace : Nat) : DetectorRecord :=
  if r.enabled then
    match r.presence with
    | .present => r.refreshed now
    | .awaited => { r with deadline := clockAdd now (grace + r.allowance) }
    | .missing => r
  else r

/-- Change every chained record, the indices, epochs and chains kept. -/
def Dtu.mapRecords (d : Dtu) (f : DetectorRecord → DetectorRecord) : Dtu :=
  { d with slots := d.slots.map (fun sl => { sl with record := sl.record.map f }) }

/-! ## EVU's timers (R161, R164) -/

/-- The flush timer's expiry: every open context closes and the timer is armed again (R161). -/
def State.flushExpiry (s : State) : State :=
  let s1 := s.closeContexts .flush
  { s1 with evu := { s1.evu with flushTimer := s1.pages.timing.flush } }

/-- The summary timer's expiry: a ZONE_SUMMARY is built into the slot and the timer is armed again (R164, R165). -/
def State.summaryExpiry (s : State) : State :=
  { s with evu := { s.evu.placeSummary s.zoneSummary with summaryTimer := s.pages.timing.summary } }

/-- FLUSH_EXPIRY (R161), when the flush timer has reached 0. -/
def execFlushExpiry (s : State) : Host.Outcome State Fault Refusal :=
  if s.evu.flushTimer = 0 then .next s.flushExpiry else .next s

/-- SUMMARY_EXPIRY (R164), when the summary timer has reached 0. -/
def execSummaryExpiry (s : State) : Host.Outcome State Fault Refusal :=
  if s.evu.summaryTimer = 0 then .next s.summaryExpiry else .next s

/-! ## The seconds tick (R118) -/

/-- A sweep timer's expiry that a tick brought about and that has not been taken, is taken (R124; log 10). -/
def State.takeDueSweep (s : State) : State := if s.su.sweepTimer = some 0 then s.sweepExpiry else s

/-- Expiries that a tick brought about and that have not been taken are taken before the next tick, and before a write
that arms their timers anew (R124, R161, R164; log 10). -/
def State.takeDueExpiries (s : State) : State :=
  let s1 := s.takeDueSweep
  let s2 := if s1.evu.flushTimer = 0 then s1.flushExpiry else s1
  if s2.evu.summaryTimer = 0 then s2.summaryExpiry else s2

/-- SU's part of the tick (R118, R124): the clock advances and holds at its maximum; the sweep timer counts down. -/
def State.advanceClock (s : State) : State :=
  { s with su := { s.su with clock := clockAdd s.su.clock 1, sweepTimer := s.su.sweepTimer.map (fun n => n - 1) } }

/-- EVU's part of the tick: the flush and summary timers count down (R161, R164). -/
def State.countEvuTimers (s : State) : State :=
  { s with evu := { s.evu with flushTimer := s.evu.flushTimer - 1, summaryTimer := s.evu.summaryTimer - 1 } }

/-- The tick delivered to HLI, ZU, HCQ and EVU in turn, after the clock has been advanced (R118; log 9). -/
def State.deliverTick (s : State) : State :=
  (allZones.foldl State.lapseIfReached (allHeads.foldl State.heartbeat s)).expireHeld.countEvuTimers

/-- SECONDS_TICK (R118). -/
def execSecondsTick (s : State) : Host.Outcome State Fault Refusal :=
  .next s.takeDueExpiries.advanceClock.deliverTick

/-- VERIFY_WINDOW_LAPSE (R103): an enabled zone in VERIFY whose deadline has been reached lapses. -/
def execVerifyWindowLapse (z : ZoneNo) (s : State) : Host.Outcome State Fault Refusal :=
  if s.windowReached z then .next (s.lapseZone z .expiry) else .next s

/-- The entry of a target and number whose expiry deadline has been reached (R142). -/
def State.expiredEntry (s : State) (target : Address) (number : Byte) : Option HeldEntry :=
  s.hcq.entries.find? (fun e => e.target == target && e.number == number && e.expiredAt s.now)

/-- One expired entry leaves the queue (R142). -/
def State.dropEntry (s : State) (e : HeldEntry) : State :=
  { s with hcq := { s.hcq with entries := s.hcq.entries.erase e } }

/-- HELD_COMMAND_EXPIRY (R142): an entry whose deadline has been reached is removed with COMMAND_EXPIRED. -/
def execHeldCommandExpiry (target : Address) (number : Byte) (s : State) : Host.Outcome State Fault Refusal :=
  match s.expiredEntry target number with
  | none => .next s
  | some e => .next ((s.dropEntry e).raiseExpired e)

end Sys2Proof.Machine
end

