-- ==== Sys2Proof/Machine/Intake.lean ====
section
/-! DEFINITION. The Frame Intake Unit (section 3): taking frames from the lanes, lookup, the integrity check, and the
completion step with its classification, dispatch and acknowledgement. -/

namespace Sys2Proof.Machine

/-! ## The four stages (R47 to R51) -/

/-- A change of FIU's counters. -/
def State.countFiu (s : State) (f : FiuCounters → FiuCounters) : State :=
  { s with fiu := { s.fiu with counters := f s.fiu.counters } }

/-- FIU enters a state. -/
def State.setFiu (s : State) (st : FiuState) : State := { s with fiu := { s.fiu with state := st } }

/-- The frame FIU holds is done with: its pool block is freed and FIU is IDLE (R49, R53, R67). -/
def State.releaseFrame (s : State) : State :=
  { s with intake := { s.intake with freeBlocks := s.intake.freeBlocks + 1 },
           fiu := { s.fiu with state := .idle } }

/-- FIU takes the head of the urgent lane if it holds any, else of the normal lane (R48). -/
def State.takeFrame (s : State) : State :=
  match s.intake.urgentLane, s.intake.normalLane with
  | f :: rest, _ =>
    ({ s with intake := { s.intake with urgentLane := rest } }.setFiu (.lookingUp f)).countFiu
      fun c => { c with urgentTaken := inc32 c.urgentTaken }
  | [], f :: rest =>
    ({ s with intake := { s.intake with normalLane := rest } }.setFiu (.lookingUp f)).countFiu
      fun c => { c with normalTaken := inc32 c.normalTaken }
  | [], [] => s

/-- FRAME_TAKE (R48): an IDLE FIU takes a frame and presents its lookup request. -/
def execFrameTake (s : State) : Host.Outcome State Fault Refusal :=
  match s.fiu.state with
  | .idle => .next s.takeFrame
  | .lookingUp _ | .checking _ _ _ _ | .completing _ _ _ _ => .next s

/-- The answer to FIU's lookup (R49): the frame dropped as unknown, or index, epoch and key captured and the check
begun. -/
def State.answerLookup (s : State) (f : LaneFrame) : State :=
  match s.findRecord f.frame.address with
  | none => (s.countFiu fun c => { c with unknown := inc32 c.unknown }).releaseFrame
  | some (i, _, r) => s.setFiu (.checking f i (s.dtu.epochAt i) r.key)

/-- LOOKUP_REQUEST (R49): DTU grants FIU's lookup, before any other request (R9). -/
def execLookupRequest (s : State) : Host.Outcome State Fault Refusal :=
  match s.fiu.state with
  | .lookingUp f => .next (s.answerLookup f)
  | .idle | .checking _ _ _ _ | .completing _ _ _ _ => .next s

/-- Whether a frame carries the tag the integrity unit computes with a key (R50). -/
def RadioFrame.tagPasses (f : RadioFrame) (key : Key) : Bool := Config.wendrunTag key f.covered == f.tag

/-- INTEGRITY_CHECK_DONE (R51): the check completes and FIU presents its completion request. -/
def execIntegrityCheckDone (s : State) : Host.Outcome State Fault Refusal :=
  match s.fiu.state with
  | .checking f i epoch key => .next (s.setFiu (.completing f i epoch (f.frame.tagPasses key)))
  | .idle | .lookingUp _ | .completing _ _ _ _ => .next s

/-! ## Classification, path and signal (R54 to R62) -/

/-- The classes of R57. -/
inductive SequenceClass where
  | new
  | repeated
  | stale
deriving DecidableEq, Repr

/-- A sequence classified against the last accepted one, modulo 4096 (R57). -/
def classifySequence (s : SeqNo) (last : Option SeqNo) : SequenceClass :=
  match last with
  | none => .new
  | some l =>
    if s = l then .repeated
    else if (s - l).toNat ≤ 2047 then .new
    else .stale

/-- The path of a frame's copy (R60): the first relay is absent with hop count 0. -/
def LaneFrame.path (f : LaneFrame) : Path :=
  { head := f.head, relay := if f.frame.hop = 0 then none else some f.frame.relay, hop := f.frame.hop.toNat,
    signal := f.frame.signalDbm }

/-- Whether a path is better than another (R60). -/
def Path.better (p q : Path) : Bool := decide (p.hop < q.hop ∨ (p.hop = q.hop ∧ q.signal < p.signal))

/-- The weak count and the signal records of a new frame (R62). -/
def Work.weigh (w : Work) (p : Path) : Work :=
  let margin := w.st.pages.air.signalMargin
  if p.signal < margin then
    let w1 : Work := { w with det := { w.det with weakCount := min (w.det.weakCount + 1) 8 } }
    if w.det.weakCount = 3 then w1.raise (.lowSignal p.signal p.hop) else w1
  else
    let w1 : Work := { w with det := { w.det with weakCount := 0 } }
    if 4 ≤ w.det.weakCount then w1.raise (.signalOk p.signal p.hop) else w1

/-- A failing tag on a confirmed record (R54). -/
def Work.forged (w : Work) (f : LaneFrame) : Work :=
  let w1 : Work := { w with det := { w.det with failureRun := min (w.det.failureRun + 1) 3 } }
  if w.det.failureRun = 2 then w1.raise (.integrityFault f.head f.frame.hop.toNat) else w1

/-- A passing tag on a confirmed record ends a run of failures (R56). -/
def Work.passed (w : Work) : Work :=
  let w1 : Work := { w with det := { w.det with failureRun := 0 } }
  if w.det.failureRun = 3 then w1.raise .integrityOk else w1

/-! ## HCQ within a completion (R140, R141, R147) -/

/-- The effect of a completed command on the record (R141). -/
def Work.completeCommand (w : Work) (e : HeldEntry) : Work :=
  let epoch := (w.st.zone w.det.zone).epoch
  match e.code with
  | .testEnter =>
    let w1 : Work := { w with det := { w.det.levelNormal epoch with test := true } }
    if w.det.counted epoch then
      { w1 with st := w1.st.zoneDecrement w.det.zone w.det.address (some w.det.kind) }
    else w1
  | .testExit =>
    if w.det.test then { w with det := { w.det.levelNormal epoch with test := false } } else w
  | .setPeriod =>
    { w with det := { w.det with period := e.argument.toNat }.refreshed w.st.now }
  | .locate => w
  | .sounderPattern => w

/-- The queue without its SENT entry for an address. -/
def Hcq.removeSent (q : Hcq) (a : Address) : Hcq := { q with entries := q.entries.eraseP (fun e => e.sentTo a) }

/-- The done number equals the SENT entry's (R140): it is removed with COMMAND_DONE, and takes effect. -/
def Work.echoDone (w : Work) (e : HeldEntry) : Work :=
  let q := w.st.hcq.removeSent e.target
  let w1 : Work :=
    { w with st := { w.st with hcq := { q with counters := { q.counters with done := inc32 q.counters.done } } } }
  (w1.raise (.commandDone e.attachment e.attempts)).completeCommand e

/-- The done number differs (R140): an attempt is counted and the entry waits again, or fails at the limit. -/
def Work.echoMissed (w : Work) (e : HeldEntry) : Work :=
  let n := e.attempts + 1
  if w.st.pages.timing.attemptLimit ≤ n then
    let q := w.st.hcq.removeSent e.target
    ({ w with st := { w.st with hcq :=
        { q with counters := { q.counters with failedNoEcho := inc32 q.counters.failedNoEcho } } } } : Work).raise
      (.commandFailed .noEcho e.attachment none n)
  else
    { w with st := { w.st with hcq := { w.st.hcq with
        entries := modifyFirst (fun x => x.sentTo e.target) (fun x => { x with state := .waiting, attempts := n })
          w.st.hcq.entries } } }

/-- The echo judgement of a new frame (R140). -/
def Work.judgeEcho (w : Work) (done : Byte) : Work :=
  match w.st.hcq.sentEntry w.det.address with
  | none => w
  | some e => if done = e.number then w.echoDone e else w.echoMissed e

/-- The sounder check of a reported pattern (R147). -/
def Work.sounderCheck (w : Work) (p : Nat) : Work :=
  let expected := w.st.hcq.expectedPattern w.det.zone
  let w1 : Work := { w with det := { w.det with sounderPattern := p } }
  if p = expected then
    let w2 : Work := { w1 with det := { w1.det with mismatchRun := 0 } }
    if w.det.mismatchRun = 2 then w2.raise (.sounderMatch p expected) else w2
  else
    let w2 : Work := { w1 with det := { w1.det with mismatchRun := min (w.det.mismatchRun + 1) 2 } }
    if w.det.mismatchRun = 1 then w2.raise (.sounderMismatch p expected) else w2

/-- A SOUNDER_STATE pattern handed on gets its check; nothing else does (R64, R147). -/
def Work.checkPattern (w : Work) (content : Content) : Work :=
  match content with
  | .pattern p => w.sounderCheck p
  | .nothing | .smoke _ | .heat _ | .both _ _ | .call _ | .mismatch => w

/-! ## Acknowledgement (R66, R67) -/

/-- The acknowledgement of a frame: HCQ's attachment, the counter, the hand-off to HLI (R66, R67, R138). -/
def Work.acknowledge (w : Work) (f : LaneFrame) : Work :=
  let held := w.st.hcq.attachment w.det.address
  let s1 := { w.st with hcq := w.st.hcq.attach w.det.address }
  let s2 := s1.countFiu fun c => { c with acknowledgements := inc32 c.acknowledgements }
  { w with st := s2.handAck f.head f.stamp w.det.address f.frame.sequence held }

/-! ## The three classes (R58 to R65) -/

/-- A stale frame (R58). -/
def Work.handleStale (w : Work) : Work :=
  { w with st := w.st.countFiu fun c => { c with stale := inc32 c.stale } }

/-- A better path of a repeat replaces the record's (R59, R60). -/
def Work.improvePath (w : Work) (p : Path) : Work :=
  if w.det.path.any (fun q => p.better q) then { w with det := { w.det with path := some p } } else w

/-- A repeat (R59): its path, and an acknowledgement when its retry count is above 0. -/
def Work.handleRepeat (w : Work) (f : LaneFrame) : Work :=
  let w1 : Work := { w with st := w.st.countFiu fun c => { c with repeated := inc32 c.repeated } }
  let w2 := w1.improvePath f.path
  if f.frame.retry = 0 then w2 else w2.acknowledge f

/-- A frame whose kind or payload value does not suit its record is counted (R63). -/
def Work.countMismatch (w : Work) (content : Content) : Work :=
  if content = .mismatch then { w with st := w.st.countFiu fun c => { c with kindMismatch := inc32 c.kindMismatch } }
  else w

/-- The sequence, path and counter of a new frame (R61). -/
def Work.accept (w : Work) (f : LaneFrame) : Work :=
  { st := w.st.countFiu fun c => { c with new := inc32 c.new },
    det := { w.det with lastSequence := some f.frame.sequence, path := some f.path } }

/-- The dispatch of a new frame: SU, echo handling, LVP, sounder check (R64). -/
def Work.dispatch (w : Work) (f : LaneFrame) (content : Content) : Work :=
  (((w.supervise f.frame).judgeEcho f.frame.done).level f.frame.sequence content).checkPattern content

/-- A new frame (R61 to R67). -/
def Work.handleNew (w : Work) (f : LaneFrame) : Work :=
  let content := contentOf w.det.kind f.frame
  ((((w.accept f).weigh f.path).countMismatch content).dispatch f content).acknowledge f

/-- A frame with a passing tag on a confirmed record (R56, R57). -/
def Work.handlePassing (w : Work) (f : LaneFrame) : Work :=
  match classifySequence f.frame.sequence w.det.lastSequence with
  | .stale => w.passed.handleStale
  | .repeated => w.passed.handleRepeat f
  | .new => w.passed.handleNew f

/-- A frame with a failing tag on a confirmed record (R54). -/
def Work.handleForged (w : Work) (f : LaneFrame) : Work :=
  ({ w with st := w.st.countFiu fun c => { c with integrityFailure := inc32 c.integrityFailure } } : Work).forged f

/-- The record of an index, when it is confirmed: the index is chained and its epoch is the captured one (R8). -/
def Dtu.confirmed (d : Dtu) (i : Nat) (epoch : BitVec 8) : Option DetectorRecord :=
  if d.epochAt i = epoch then d.recordAt i else none

/-- The work on a confirmed record, its record written back to its index (R10). -/
def State.onRecord (s : State) (i : Nat) (r : DetectorRecord) (f : Work → Work) : State :=
  let w := f { st := s, det := r }
  w.st.putRecord i w.det

/-- What a completion does to the part, before the frame's block is freed (R53). -/
def State.decideFrame (s : State) (f : LaneFrame) (i : Nat) (epoch : BitVec 8) (tagPassed : Bool) : State :=
  match tagPassed, s.dtu.confirmed i epoch with
  | false, none => s.countFiu fun c => { c with integrityFailure := inc32 c.integrityFailure }
  | false, some r => s.onRecord i r fun w => w.handleForged f
  | true, none => s.countFiu fun c => { c with moved := inc32 c.moved }
  | true, some r => s.onRecord i r fun w => w.handlePassing f

/-- COMPLETION_REQUEST (R53): the whole of a checked frame's effect, then its block freed and FIU IDLE. -/
def execCompletionRequest (s : State) : Host.Outcome State Fault Refusal :=
  match s.fiu.state with
  | .completing f i epoch tagPassed => .next (s.decideFrame f i epoch tagPassed).releaseFrame
  | .idle | .lookingUp _ | .checking _ _ _ _ => .next s

/-- The frame FIU holds is discarded at STOP (R52), its block freed and counted as abandoned. -/
def State.abandonFrame (s : State) : State :=
  match s.fiu.state with
  | .idle => s
  | .lookingUp _ | .checking _ _ _ _ | .completing _ _ _ _ =>
    (s.countFiu fun c => { c with abandoned := inc32 c.abandoned }).releaseFrame

end Sys2Proof.Machine
end

