-- ==== Sys2Proof/Machine/Replies.lean ====
section
/-! DEFINITION. MEX's handling of a command (section 9): taking commands from the FIFO, the gate and the reply every
command goes through, and the report of STATUS_QUERY. -/

namespace Sys2Proof.Machine

/-! ## Taking commands and replying (R173, R174) -/

/-- MEX takes the command at the head of the FIFO when it is IDLE and the reply slot is empty (R173). -/
def State.mexTake (s : State) : State :=
  match s.mex.state, s.evu.replySlot, s.pli.fifo with
  | .idle, none, p :: rest =>
    { s with pli := { s.pli with fifo := rest },
             mex := { state := .executing p, commandsTaken := inc32 s.mex.commandsTaken } }
  | _, _, _ => s

/-- What a command's step leaves: the part, the result code and the reply data. -/
structure Answer where
  state  : State
  result : Result
  data   : List Byte

/-- A refusal, or an answer that changes nothing. -/
def State.answer (s : State) (r : Result) (data : List Byte) : Answer := { state := s, result := r, data := data }

/-- The payload of the command MEX executes (R173). -/
def State.executing (s : State) : List Byte :=
  match s.mex.state with
  | .executing p => p
  | .idle => []
  | .restarting => []

/-- Whether a command may take effect: MEX is executing it, and where it is a request at DTU no request of FIU waits
there (R9, R173, R175; log 4, log 12). -/
def State.mayExecute (s : State) (c : Command) : Bool :=
  (match s.mex.state with
    | .executing p => parseCommand p == some c
    | .idle => false
    | .restarting => false)
  && !(c.atDtu && s.fiu.state.waits)

/-- The reply of an answer: the tag of the command as received, its code, the result and the data (R174). -/
def Answer.reply (a : Answer) (tag code : Byte) : Reply := { tag := tag, code := code, result := a.result, data := a.data }

/-- The reply is placed in the reply slot, after the records the command raised, and MEX leaves EXECUTING (R173, R174). -/
def Answer.place (a : Answer) (tag code : Byte) (after : MexState) : State :=
  { a.state with evu := a.state.evu.placeReply (a.reply tag code), mex := { a.state.mex with state := after } }

/-- A management command's step: its body gives the effect and the answer, and the reply is placed (R173, R174). -/
def State.runCommand (s : State) (c : Command) (body : State → Answer) : Host.Outcome State Fault Refusal :=
  if s.mayExecute c then .next ((body s).place (byteAt s.executing 0) c.code .idle) else .next s

/-- A byte of the command payload, or one the manual does not state when the payload is too short for it (log 6). -/
def State.echoByte (s : State) (payload : List Byte) (i : Nat) : Byte :=
  payload.getD i (Config.freeByte (s.freeIndex + i))

/-- UNKNOWN_COMMAND (R174): a payload that names no command is refused with INVALID, its tag and code echoed. -/
def execUnknownCommand (payload : List Byte) (s : State) : Host.Outcome State Fault Refusal :=
  if s.mex.state = .executing payload ∧ parseCommand payload = none then
    .next ((({ s with freeIndex := s.freeIndex + 2 } : State).answer .invalid []).place
      (s.echoByte payload 0) (s.echoByte payload 1) .idle)
  else .next s

/-! ## The report of STATUS_QUERY (R184, R189) -/

/-- MEX's and PLI's part of the report. -/
def State.reportMex (s : State) : List Byte :=
  [s.mode.code, boolByte s.pages.airLoaded, boolByte s.pages.levelsLoaded, boolByte s.pages.timingLoaded,
    boolByte s.pages.memoryLoaded] ++ byte1 s.pli.fifo.length ++ byte2 s.pli.badFrames ++ byte2 s.pli.overflows
    ++ byte4 s.mex.commandsTaken

/-- DTU's part (R27). -/
def State.reportDtu (s : State) : List Byte :=
  byte2 s.tableSize ++ byte2 s.buckets ++ byte2 s.dtu.chained ++ byte2 s.dtu.freeList.length ++ byte2 s.dtu.maxChain
    ++ byte1 s.pages.memory.advice

/-- A head's part: link state, missed count, jam flag, then the counters in the order of R38 (R189). -/
def Head.report (v : Head) : List Byte :=
  [v.link.code] ++ byte1 v.missed ++ [boolByte v.jam]
    ++ [v.counters.linkError, v.counters.statuses, v.counters.notRunning, v.counters.unknownKind, v.counters.hopLimit,
        v.counters.length, v.counters.poolFull, v.counters.admitted, v.counters.late, v.counters.overrun].flatMap byte2

/-- HLI's part (R38), the urgent lane's length before the normal lane's (log 19). -/
def State.reportHli (s : State) : List Byte :=
  allHeads.flatMap (fun h => (s.head h).report) ++ byte2 s.intake.freeBlocks ++ byte2 s.poolSize
    ++ byte2 s.intake.urgentLane.length ++ byte2 s.intake.normalLane.length

/-- FIU's part: its counters, then its state (R70; log 19). -/
def State.reportFiu (s : State) : List Byte :=
  let c := s.fiu.counters
  [c.urgentTaken, c.normalTaken, c.unknown, c.integrityFailure, c.moved, c.stale, c.repeated, c.new, c.kindMismatch,
    c.acknowledgements, c.abandoned].flatMap byte4 ++ [s.fiu.state.code]

/-- SU's part (R133). -/
def State.reportSu (s : State) : List Byte :=
  byte4 s.su.clock ++ byte2OrFF s.su.sweep ++ byte2OrFF s.su.sweepTimer ++ byte2 s.su.missing
    ++ [s.su.sweepsStarted, s.su.sweepsCompleted, s.su.sweepsAbandoned, s.su.overlaps].flatMap byte4

/-- The number of held entries in a state. -/
def Hcq.countState (q : Hcq) (st : HeldState) : Nat := q.entries.countP (fun e => e.state == st)

/-- HCQ's part (R148). -/
def State.reportHcq (s : State) : List Byte :=
  let c := s.hcq.counters
  byte1 s.hcq.entries.length ++ byte1 (s.hcq.countState .waiting) ++ byte1 (s.hcq.countState .sent)
    ++ [s.hcq.nextNumber] ++ byte1 s.hcq.orders.length
    ++ [c.entered, c.attached, c.reverted, c.done, c.failedNoEcho, c.failedWithdrawn, c.expired].flatMap byte4

/-- EVU's counters in the order of R170. -/
def EvuCounters.report (c : EvuCounters) : List Byte :=
  [c.takenAlarm, c.takenFault, c.takenStatus, c.takenLevel, c.suppressed, c.classRaised, c.urgentClosings,
    c.droppedFault, c.droppedStatus, c.droppedLevel, c.contextsOpened,
    c.closedCount, c.closedGap, c.closedTransition, c.closedNotice, c.closedEviction, c.closedFlush, c.closedAlarm,
    c.closedUrgent, c.closedStop, c.summariesBuilt, c.summariesReplaced,
    c.sentAlarm, c.sentReply, c.sentSummary, c.sentFault, c.sentStatus, c.sentLevel].flatMap byte4

/-- EVU's part: its counters, then its queues, the summary slot, the open contexts and the timers (R170; log 19). -/
def State.reportEvu (s : State) : List Byte :=
  let e := s.evu
  e.counters.report ++ byte1 e.alarmQueue.length ++ byte1 e.faultQueue.length ++ byte1 e.faultLoss
    ++ byte1 e.statusQueue.length ++ byte1 e.statusLoss ++ byte1 e.levelQueue.length ++ byte1 e.levelLoss
    ++ [boolByte e.summarySlot.isSome] ++ byte1 e.contexts.length ++ byte2 e.flushTimer ++ byte2 e.summaryTimer

/-- The reply data of STATUS_QUERY, block by block in the order of R184. -/
def State.statusReport (s : State) : List Byte :=
  s.reportMex ++ s.reportDtu ++ s.reportHli ++ s.reportFiu ++ s.reportSu ++ s.reportHcq ++ s.reportEvu

end Sys2Proof.Machine
end

