-- ==== Sys2Proof/Machine/PartCommands.lean ====
section
/-! DEFINITION. The settings pages and the commands that act on the part as a whole (section 9): PAGE_WRITE, PAGE_READ,
START, STOP, RESTART and STATUS_QUERY. -/

namespace Sys2Proof.Machine

/-! ## PAGE_WRITE and PAGE_READ (R181 to R183) -/

/-- OK, or ADJUSTED when a page is stored otherwise than as given (R181). -/
def storedResult {α : Type} [DecidableEq α] (given stored : α) : Result := if stored = given then .ok else .adjusted

/-- Change the settings pages. -/
def State.setPages (s : State) (p : Pages) : State := { s with pages := p }

/-- The outcomes of a PAGE_WRITE of page 0 (R40, R181). -/
def State.writeAir (a : AirArgs) (s : State) : Answer :=
  if s.mode = .running then s.answer .wrongMode []
  else match PageAir.store a with
    | none => s.answer .invalid []
    | some p =>
      (s.setPages { s.pages with air := p, airLoaded := true }).answer (storedResult a p.toArgs)
        (byte1 0 ++ airBytes p.toArgs)

/-- PAGE_WRITE of page 0 (R40). -/
def execPageWriteAir (a : AirArgs) (s : State) : Host.Outcome State Fault Refusal :=
  s.runCommand (.pageWriteAir a) (State.writeAir a)

/-- The outcomes of a PAGE_WRITE of page 1 (R73, R181). -/
def State.writeLevels (a : LevelsArgs) (s : State) : Answer :=
  match PageLevels.store a with
  | none => s.answer .invalid []
  | some p =>
    (s.setPages { s.pages with levels := p, levelsLoaded := true }).answer (storedResult a p.toArgs)
      (byte1 1 ++ levelsBytes p.toArgs)

/-- PAGE_WRITE of page 1 (R73). -/
def execPageWriteLevels (a : LevelsArgs) (s : State) : Host.Outcome State Fault Refusal :=
  s.runCommand (.pageWriteLevels a) (State.writeLevels a)

/-- The flush and summary timers are armed with the periods of page 2 (R161, R164). -/
def State.armEvuTimers (s : State) : State :=
  { s with evu := { s.evu with flushTimer := s.pages.timing.flush, summaryTimer := s.pages.timing.summary } }

/-- The effect of a page 2 write (R119, R128, R137, R161, R164, R181). An expiry that the last tick brought about is
taken first, under the old periods, so that arming a timer anew loses none (log 10). -/
def State.storeTiming (s : State) (p : PageTiming) : State :=
  let s0 := s.takeDueExpiries
  let s1 := (s0.setPages { s0.pages with timing := p, timingLoaded := true }).armEvuTimers
  if s1.mode = .running then s1.restartSweep else s1

/-- The outcome of a PAGE_WRITE of page 2 (R119, R181). -/
def State.writeTiming (a : TimingArgs) (s : State) : Answer :=
  let p := PageTiming.store a
  (s.storeTiming p).answer (storedResult a p.toArgs) (byte1 2 ++ timingBytes p.toArgs)

/-- PAGE_WRITE of page 2 (R119). -/
def execPageWriteTiming (a : TimingArgs) (s : State) : Host.Outcome State Fault Refusal :=
  s.runCommand (.pageWriteTiming a) (State.writeTiming a)

/-- The effect of a page 3 write (R2): every record removed with its notices, then the new split with an empty table and
an empty pool. -/
def State.storeMemory (s : State) (p : PageMemory) : State :=
  let s1 := s.removeAll
  { s1 with dtu := .empty p.tableSize, intake := .empty p.tableSize,
            pages := { s1.pages with memory := p, memoryLoaded := true } }

/-- The outcomes of a PAGE_WRITE of page 3 (R2, R181). -/
def State.writeMemory (a : MemoryArgs) (s : State) : Answer :=
  if s.mode = .running then s.answer .wrongMode []
  else
    let p := PageMemory.store a
    (s.storeMemory p).answer (storedResult a p.toArgs) (byte1 3 ++ memoryBytes p.toArgs)

/-- PAGE_WRITE of page 3 (R2). -/
def execPageWriteMemory (a : MemoryArgs) (s : State) : Host.Outcome State Fault Refusal :=
  s.runCommand (.pageWriteMemory a) (State.writeMemory a)

/-- The loaded flag and the body of a page as stored, none for page 4 or more (R183). -/
def Pages.read (p : Pages) (page : Byte) : Option (Bool × List Byte) :=
  match page.toNat with
  | 0 => some (p.airLoaded, airBytes p.air.toArgs)
  | 1 => some (p.levelsLoaded, levelsBytes p.levels.toArgs)
  | 2 => some (p.timingLoaded, timingBytes p.timing.toArgs)
  | 3 => some (p.memoryLoaded, memoryBytes p.memory.toArgs)
  | _ => none

/-- PAGE_READ (R183). -/
def execPageRead (page : Byte) (s : State) : Host.Outcome State Fault Refusal :=
  s.runCommand (.pageRead page) fun s =>
    match s.pages.read page with
    | none => s.answer .invalid []
    | some (loaded, body) => s.answer .ok ([page, boolByte loaded] ++ body)

/-! ## START, STOP, RESTART (R177 to R179) -/

/-- The numbers of the pages not loaded, ascending (R177). -/
def Pages.missing (p : Pages) : List Byte :=
  (if p.airLoaded then [] else [0]) ++ (if p.levelsLoaded then [] else [1]) ++ (if p.timingLoaded then [] else [2])
    ++ (if p.memoryLoaded then [] else [3])

/-- The effect of an accepted START (R177, R129, R124, R39). -/
def State.startUp (s : State) : State :=
  State.slotStart
    { s with mode := .running,
             dtu := s.dtu.mapRecords fun r => r.rearmed s.now s.pages.timing.grace,
             su := { s.su with sweepTimer := some s.pages.timing.sweep },
             clock := { slot := 0, superframe := 0, slotTimer := some s.pages.air.slotLength } }

/-- START's outcomes (R177). PAGES_MISSING carries a count and page numbers of one byte each (log 28). -/
def State.startPart (s : State) : Answer :=
  if s.mode = .running then s.answer .wrongMode []
  else if s.pages.missing ≠ [] then s.answer .pagesMissing (byte1 s.pages.missing.length ++ s.pages.missing)
  else s.startUp.answer .ok []

/-- START (R177). -/
def execStart (s : State) : Host.Outcome State Fault Refusal := s.runCommand .start State.startPart

/-- The timers and the sweep at STOP (R178 steps 4 and 5). -/
def State.stopTimers (s : State) : State :=
  { s with clock := { s.clock with slotTimer := none }, su := { s.su.abandonSweep with sweepTimer := none } }

/-- The effect of an accepted STOP, in the order of R178, after a sweep timer's expiry that the last tick brought about
(log 10). -/
def State.shutDown (s : State) : State :=
  allZones.foldl State.lapseAtStop
    (((({ s.takeDueSweep with mode := .loading } : State).abandonFrame.emptyLanes).stopTimers).closeContexts .stop)

/-- STOP's outcomes (R178). -/
def State.stopPart (s : State) : Answer :=
  if s.mode = .loading then s.answer .wrongMode [] else s.shutDown.answer .ok []

/-- STOP (R178). -/
def execStop (s : State) : Host.Outcome State Fault Refusal := s.runCommand .stop State.stopPart

/-- RESTART (R179): the reply is placed and MEX is RESTARTING until the reply is granted the link. -/
def execRestart (s : State) : Host.Outcome State Fault Refusal :=
  if s.mayExecute .restart then
    .next ((s.answer .ok []).place (byteAt s.executing 0) Command.restart.code .restarting)
  else .next s

/-- STATUS_QUERY (R184). -/
def execStatusQuery (s : State) : Host.Outcome State Fault Refusal :=
  s.runCommand .statusQuery fun s => s.answer .ok s.statusReport

/-! ## The RESTART clear (R180) -/

/-- Every block at its RESTART values (R180): the records (R14), heads (R33, R37, R38), pool and lanes (R37), Slot Clock
(R39), FIU (R52), zones (R91, R92), SU (R132), HCQ (R134), EVU (R169) with the reply on the link, PLI and MEX. -/
def State.restartClear (s : State) : State :=
  { mode := .loading, pages := s.pages,
    dtu := s.dtu.mapRecords fun r => r.restarted s.pages.timing.grace,
    heads := mapVector Head.restarted s.heads, intake := .empty s.tableSize, clock := .stopped, fiu := .cleared,
    zones := mapVector Zone.restarted s.zones, su := .cleared, hcq := .cleared,
    evu := .cleared s.evu.filters s.pages.timing s.evu.tx,
    pli := { s.pli with fifo := [], badFrames := 0, overflows := 0 }, mex := .cleared,
    pending := s.pending, freeIndex := s.freeIndex }

end Sys2Proof.Machine
end

