-- ==== Sys2Proof/Machine/PanelLink.lean ====
section
/-! DEFINITION. The panel link's events: MANAGEMENT frames and bad frames (R171, R172), the arbiter's grant with the
RESTART clear (R166, R180), the end of a transmission (R167); and power-on reset (R185). -/

namespace Sys2Proof.Machine

/-- A good MANAGEMENT frame joins the management FIFO, or is discarded as an overflow (R172). -/
def Pli.offer (p : Pli) (payload : List Byte) : Pli :=
  if p.fifo.length < Config.managementDepth then { p with fifo := p.fifo ++ [payload] }
  else { p with overflows := inc16 p.overflows }

/-- MANAGEMENT_FRAME (R171, R172): bytes that end one good MANAGEMENT frame; MEX takes it at once when it can (R173). -/
def execManagementFrame (bytes : List Byte) (s : State) : Host.Outcome State Fault Refusal :=
  match s.pli.rx.feed bytes with
  | (rx, [.management payload]) => .next ({ s with pli := { s.pli with rx := rx }.offer payload } : State).mexTake
  | _ => .next s

/-- BAD_PANEL_FRAME (R171): bytes that make PLI discard one frame. -/
def execBadPanelFrame (bytes : List Byte) (s : State) : Host.Outcome State Fault Refusal :=
  match s.pli.rx.feed bytes with
  | (rx, [.bad]) => .next { s with pli := { s.pli with rx := rx, badFrames := inc16 s.pli.badFrames } }
  | _ => .next s

/-! ## The arbiter (R166, R167) -/

/-- MEX is told of its reply's grant (R167, R173, R179): in RESTARTING it makes the clear, else it takes its next
command. -/
def State.mexTold (s : State) : State :=
  match s.mex.state with
  | .restarting => s.restartClear
  | .idle | .executing _ => s.mexTake

/-- The arbiter's grant with the link idle: ALARM, reply, summary, FAULT, STATUS, LEVEL (R166). -/
def State.grant (s : State) : State :=
  match s.evu.replyChosen with
  | some r => ({ s with evu := s.evu.grantReply r } : State).mexTold
  | none => { s with evu := s.evu.grantDue }

/-- PANEL_GRANT (R166), with the link idle. -/
def execPanelGrant (s : State) : Host.Outcome State Fault Refusal :=
  if s.evu.tx.isSome then .next s else .next s.grant

/-- The zone of a ZONE_ALARM record frame (R167). -/
def PanelFrame.alarmZone : PanelFrame → Option ZoneNo
  | .record r => if r.body.kind = .zoneAlarm then r.zone else none
  | .reply _ => none
  | .summary _ => none

/-- ZU is told that a zone's ZONE_ALARM has been sent (R107, R167). -/
def State.alarmSent (s : State) : Option ZoneNo → State
  | none => s
  | some z => s.modifyZone z fun v => { v with alarmUnsent := false }

/-- TRANSMISSION_COMPLETE (R167): the frame is counted by source, and ZU told of a ZONE_ALARM; the link falls free. -/
def execTransmissionComplete (s : State) : Host.Outcome State Fault Refusal :=
  match s.evu.tx with
  | none => .next s
  | some t =>
    .next (({ s with evu := { s.evu with tx := none, counters := s.evu.counters.countSent t.source } } :
      State).alarmSent t.frame.alarmZone)

/-- POWER_ON_RESET (R185): every block at its power-on values. The model's queue of waiting commands and its counter of
free values are not the part's and stand (log 25). -/
def execPowerOnReset (s : State) : Host.Outcome State Fault Refusal :=
  .next { State.reset with pending := s.pending, freeIndex := s.freeIndex }

end Sys2Proof.Machine
end

