-- ==== Sys2Proof/Machine/TableCommands.lean ====
section
/-! DEFINITION. The table commands (section 1.6): ENROL, AMEND, WITHDRAW, LOOKUP, CLEAR_TABLE, DETECTOR_DISABLE and
DETECTOR_ENABLE. -/

namespace Sys2Proof.Machine

/-! ## ENROL and AMEND (R15 to R20) -/

/-- The data of a successful ENROL or AMEND (R16, R19, R189). -/
def State.enrolData (s : State) (c : Configuration) (index position : Nat) : List Byte :=
  addressBytes c.address ++ byte2 index ++ [s.dtu.epochAt index] ++ byte2 position
    ++ [flagByte [decide (s.pages.memory.advice < position)]] ++ byte2 c.period ++ byte1 c.misses

/-- The present record against the configuration given (R16): UNCHANGED when all five values are equal, else CONFLICT
with the collision flag set. -/
def State.enrolPresent (s : State) (c : Configuration) (i : Nat) (r : DetectorRecord) : Answer :=
  if r.configuration = c then s.answer .unchanged (addressBytes c.address)
  else (s.putRecord i { r with collision := true }).answer .conflict (addressBytes c.address ++ byte2 i)

/-- The enrolment of an absent address (R16): TABLE_FULL, or the index at the front of the free list is taken. -/
def State.enrolAbsent (s : State) (c : Configuration) (success : Result) : Answer :=
  match s.dtu.freeList with
  | [] => s.answer .tableFull (addressBytes c.address)
  | i :: rest =>
    let bucket := s.bucketOf c.address
    let s1 := s.setDtu (s.dtu.join bucket i rest (s.enrolledRecord c))
    s1.answer success (s1.enrolData c i (s1.dtu.chainAt bucket).length)

/-- The outcomes of ENROL (R15, R16). -/
def State.enrol (a : EnrolArgs) (s : State) : Answer :=
  match Configuration.ofArgs a with
  | none => s.answer .invalid (addressBytes a.address)
  | some c =>
    match s.findRecord c.address with
    | some (i, _, r) => s.enrolPresent c i r
    | none => s.enrolAbsent c (enrolSuccess a)

/-- ENROL (R16). -/
def execEnrol (a : EnrolArgs) (s : State) : Host.Outcome State Fault Refusal :=
  s.runCommand (.enrol a) (State.enrol a)

/-- Whether an AMEND sends the removal notices of ZU and EVU (R20, R22). -/
def amendNotifies (old : DetectorRecord) (c : Configuration) (freshStart : Bool) : Bool :=
  freshStart || decide (c.zone ≠ old.zone)

/-- The missing count at an AMEND: fresh start of a MISSING record decrements it (R131). -/
def State.amendMissing (s : State) (old : DetectorRecord) (freshStart : Bool) : State :=
  if freshStart then s.uncountMissing old else s

/-- The move of an AMEND of a present record (R19, R20, R22), with the index at the front of the free list. -/
def State.amendMove (s : State) (c : Configuration) (freshStart : Bool) (i : Nat) (old : DetectorRecord)
    (n : Nat) (rest : List Nat) : State :=
  let s1 := (s.setDtu (s.dtu.move (s.bucketOf c.address) i n rest (s.amendedRecord old c freshStart))).amendMissing
    old freshStart
  if amendNotifies old c freshStart then s1.noticeZoneAndEvents old else s1

/-- AMEND of a present record (R18, R19). -/
def State.amendPresent (s : State) (c : Configuration) (freshStart : Bool) (success : Result) (i position : Nat)
    (old : DetectorRecord) : Answer :=
  match s.dtu.freeList with
  | [] => s.answer .tableFull (addressBytes c.address)
  | n :: rest =>
    let s1 := s.amendMove c freshStart i old n rest
    s1.answer success (s1.enrolData c n position)

/-- The outcomes of AMEND (R15, R18). -/
def State.amend (a : EnrolArgs) (freshStart : Bool) (s : State) : Answer :=
  match Configuration.ofArgs a with
  | none => s.answer .invalid (addressBytes a.address)
  | some c =>
    match s.findRecord c.address with
    | some (i, position, r) => s.amendPresent c freshStart (enrolSuccess a) i position r
    | none => s.enrolAbsent c (enrolSuccess a)

/-- AMEND (R18 to R20). -/
def execAmend (a : EnrolArgs) (freshStart : Bool) (s : State) : Host.Outcome State Fault Refusal :=
  s.runCommand (.amend a freshStart) (State.amend a freshStart)

/-! ## Commands that name an address (R15) -/

/-- A command on the record of an address (R15, R21, R23, R25, R26): INVALID for a reserved address, ABSENT for one that
is not enrolled. -/
def State.onAddress (s : State) (a : Address) (f : Nat → Nat → DetectorRecord → Answer) : Answer :=
  if reservedAddress a then s.answer .invalid (addressBytes a)
  else match s.findRecord a with
    | none => s.answer .absent (addressBytes a)
    | some (i, position, r) => f i position r

/-- WITHDRAW's effect on a present record (R21, R22, R131). -/
def State.withdrawRecord (s : State) (i : Nat) (r : DetectorRecord) : State :=
  ((s.setDtu (s.dtu.leave (s.bucketOf r.address) i)).uncountMissing r).removalNotices r

/-- WITHDRAW (R21). -/
def execWithdraw (a : Address) (s : State) : Host.Outcome State Fault Refusal :=
  s.runCommand (.withdraw a) fun s => s.onAddress a fun i _ r =>
    (s.withdrawRecord i r).answer .ok (addressBytes a)

/-- The path of a LOOKUP reply: head FFh and three zero fields when it is absent (R189). -/
def pathBytes : Option Path → List Byte
  | none => [0xFF, 0, 0, 0, 0, 0]
  | some p => byte1 p.head.val ++ addressOrZero p.relay ++ byte1 p.hop ++ [signedByte p.signal]

/-- The held-command state of a LOOKUP reply (R148, R189). -/
def Hcq.lookupBytes (q : Hcq) (a : Address) : List Byte :=
  byte1 (q.entries.countP (fun e => e.target == a)) ++
    match q.sentEntry a with
    | none => [0, 0, 0]
    | some e => [e.number, e.code.code] ++ byte1 e.attempts

/-- The 41 bytes of a LOOKUP reply (R23, R189). -/
def State.lookupData (s : State) (i position : Nat) (r : DetectorRecord) : List Byte :=
  addressBytes r.address ++ byte2 i ++ [s.dtu.epochAt i] ++ byte2 position
    ++ [r.kind.code, zoneByte r.zone] ++ byte2 r.period ++ byte1 r.misses ++ [r.flags]
    ++ byte2OrFF (r.lastSequence.map BitVec.toNat) ++ pathBytes r.path ++ byte1 r.weakCount ++ byte1 r.failureRun
    ++ [r.presence.code] ++ byte4 r.deadline ++ byte2OrFF r.baseline ++ [r.level.code, r.levelEpoch]
    ++ byte2OrFF r.lastReported ++ byte1 r.sounderPattern ++ byte1 r.mismatchRun ++ s.hcq.lookupBytes r.address

/-- LOOKUP (R23). -/
def execLookup (a : Address) (s : State) : Host.Outcome State Fault Refusal :=
  s.runCommand (.lookup a) fun s => s.onAddress a fun i position r => s.answer .ok (s.lookupData i position r)

/-- CLEAR_TABLE's effect and answer (R15, R24, R131). -/
def State.clearTable (s : State) : Answer :=
  match s.mode with
  | .running => s.answer .wrongMode (byte2 0)
  | .loading =>
    let s1 := s.removeAll
    (s1.setDtu s1.dtu.cleared).answer .ok (byte2 s.dtu.chained)

/-- CLEAR_TABLE (R24). -/
def execClearTable (s : State) : Host.Outcome State Fault Refusal :=
  s.runCommand .clearTable State.clearTable

/-- DETECTOR_DISABLE of an enabled record (R25): disabled, at NORMAL, and out of its zone's count if it was counted. -/
def State.disableRecord (s : State) (i : Nat) (r : DetectorRecord) : State :=
  let epoch := (s.zone r.zone).epoch
  let s1 := s.putRecord i { r.levelNormal epoch with enabled := false }
  if r.counted epoch then s1.zoneDecrement r.zone r.address (some r.kind) else s1

/-- DETECTOR_DISABLE (R25). -/
def execDetectorDisable (a : Address) (s : State) : Host.Outcome State Fault Refusal :=
  s.runCommand (.detectorDisable a) fun s => s.onAddress a fun i _ r =>
    if r.enabled then (s.disableRecord i r).answer .ok (addressBytes a)
    else s.answer .unchanged (addressBytes a)

/-- DETECTOR_ENABLE (R26): enabled, with a deadline of now + P × M. -/
def execDetectorEnable (a : Address) (s : State) : Host.Outcome State Fault Refusal :=
  s.runCommand (.detectorEnable a) fun s => s.onAddress a fun i _ r =>
    if r.enabled then s.answer .unchanged (addressBytes a)
    else (s.putRecord i { r.refreshed s.now with enabled := true }).answer .ok (addressBytes a)

end Sys2Proof.Machine
end

