-- ==== Sys2Proof/Machine/ZoneCommands.lean ====
section
/-! DEFINITION. HEAD_RESET (section 2), the zone commands (section 5.6), COMMAND and GROUP_ORDER (section 7) and
FILTER_SET (section 8). -/

namespace Sys2Proof.Machine

/-- HEAD_RESET (R32): a head number of 4 or more is refused with INVALID. -/
def execHeadReset (head : Byte) (s : State) : Host.Outcome State Fault Refusal :=
  s.runCommand (.headReset head) fun s =>
    match headOf head with
    | none => s.answer .invalid []
    | some h => (s.resetHead h).answer .ok []

/-! ## Zone commands (R108 to R114) -/

/-- An answer that carries a zone's record as it stands after the command (R108). -/
def State.zoneAnswer (s : State) (z : ZoneNo) (r : Result) : Answer := s.answer r ((s.zone z).bytes z)

/-- A zone command on a zone of 0 to 63; any other number is refused with INVALID and no data (R108). -/
def State.onZone (s : State) (zone : Byte) (f : ZoneNo → Answer) : Answer :=
  match zoneOf zone with
  | none => s.answer .invalid []
  | some z => f z

/-- The verify window as stored (R109). -/
def storedWindow (w : Nat) : Nat := clamp 10 300 w

/-- The service offset as stored (R109). -/
def storedOffset (n : Nat) : Nat := clamp 0 64 n

/-- The partner as stored: a zone's own number is stored as none (R109). -/
def storedPartner (z : ZoneNo) (p : Option ZoneNo) : Option ZoneNo := if p = some z then none else p

/-- A zone with the configuration of a ZONE_SET (R109). -/
def Zone.configured (v : Zone) (z : ZoneNo) (mode : ZoneMode) (partner : Option ZoneNo) (a : ZoneSetArgs) : Zone :=
  { v with mode := mode, window := storedWindow a.window.toNat, partner := storedPartner z partner,
           offset := storedOffset a.offset.toNat }

/-- Whether ZONE_SET stored a value otherwise than as given (R109). -/
def zoneSetReplaced (a : ZoneSetArgs) (z : ZoneNo) (partner : Option ZoneNo) : Bool :=
  storedWindow a.window.toNat != a.window.toNat || storedOffset a.offset.toNat != a.offset.toNat
    || storedPartner z partner != partner

/-- ZONE_SET's outcomes (R108, R109). -/
def State.zoneSet (a : ZoneSetArgs) (s : State) : Answer :=
  s.onZone a.zone fun z =>
    match ZoneMode.ofCode a.mode, partnerOf a.partner with
    | some mode, some partner =>
      let v := (s.zone z).configured z mode partner a
      if v = s.zone z then s.zoneAnswer z .unchanged
      else (s.setZone z v).zoneAnswer z (if zoneSetReplaced a z partner then .adjusted else .ok)
    | _, _ => s.zoneAnswer z .invalid

/-- ZONE_SET (R109). -/
def execZoneSet (a : ZoneSetArgs) (s : State) : Host.Outcome State Fault Refusal :=
  s.runCommand (.zoneSet a) (State.zoneSet a)

/-- ZONE_SERVICE's outcomes (R108, R110). -/
def State.zoneService (zone service : Byte) (s : State) : Answer :=
  s.onZone zone fun z =>
    match serviceOf service with
    | none => s.zoneAnswer z .invalid
    | some b =>
      if (s.zone z).service = b then s.zoneAnswer z .unchanged
      else (s.modifyZone z fun v => { v with service := b }).zoneAnswer z .ok

/-- ZONE_SERVICE (R110). -/
def execZoneService (zone service : Byte) (s : State) : Host.Outcome State Fault Refusal :=
  s.runCommand (.zoneService zone service) (State.zoneService zone service)

/-- The write of R112: a record of the zone whose raised level carries the zone's new epoch falls to NORMAL. -/
def DetectorRecord.epochWrapped (r : DetectorRecord) (z : ZoneNo) (epoch : BitVec 8) : DetectorRecord :=
  if r.zone = z ∧ r.level ≠ .normal ∧ r.levelEpoch = epoch then r.levelNormal epoch else r

/-- A zone after an accepted ZONE_RESET (R111). -/
def Zone.wasReset (v : Zone) : Zone :=
  { v with state := .quiet, first := none, deadline := none, epoch := v.epoch + 1, raised := 0 }

/-- The effect of an accepted ZONE_RESET (R111, R112). -/
def State.resetZone (s : State) (z : ZoneNo) : State :=
  let s1 := s.modifyZone z Zone.wasReset
  s1.setDtu (s1.dtu.mapRecords fun r => r.epochWrapped z (s1.zone z).epoch)

/-- ZONE_RESET's outcomes (R107, R108, R111). -/
def State.zoneReset (zone : Byte) (s : State) : Answer :=
  s.onZone zone fun z =>
    if (s.zone z).alarmUnsent then s.zoneAnswer z .notDelivered
    else (s.resetZone z).zoneAnswer z .ok

/-- ZONE_RESET (R111). -/
def execZoneReset (zone : Byte) (s : State) : Host.Outcome State Fault Refusal :=
  s.runCommand (.zoneReset zone) (State.zoneReset zone)

/-- ZONE_DISABLE's outcomes (R108, R113). -/
def State.zoneDisable (zone : Byte) (s : State) : Answer :=
  s.onZone zone fun z =>
    if (s.zone z).state = .alarm then s.zoneAnswer z .alarmLatched
    else if ¬ (s.zone z).enabled then s.zoneAnswer z .unchanged
    else (s.modifyZone z fun v => { v.leaveVerify .quiet with enabled := false }).zoneAnswer z .ok

/-- ZONE_DISABLE (R113). -/
def execZoneDisable (zone : Byte) (s : State) : Host.Outcome State Fault Refusal :=
  s.runCommand (.zoneDisable zone) (State.zoneDisable zone)

/-- The effect of ZONE_ENABLE on a disabled zone (R114): PRE with ZONE_PRE when its count is above 0, else QUIET. -/
def State.enableZone (s : State) (z : ZoneNo) : State :=
  let v := s.zone z
  if 0 < v.raised then
    (s.setZone z { v with enabled := true, state := .pre }).raise (.zonePre v.raised) (some z) none none
  else s.setZone z { v with enabled := true }

/-- ZONE_ENABLE's outcomes (R108, R114). -/
def State.zoneEnable (zone : Byte) (s : State) : Answer :=
  s.onZone zone fun z =>
    if (s.zone z).enabled then s.zoneAnswer z .unchanged else (s.enableZone z).zoneAnswer z .ok

/-- ZONE_ENABLE (R114). -/
def execZoneEnable (zone : Byte) (s : State) : Host.Outcome State Fault Refusal :=
  s.runCommand (.zoneEnable zone) (State.zoneEnable zone)

/-! ## COMMAND (R135, R136) -/

/-- The entry a COMMAND makes (R136). -/
def State.newEntry (s : State) (a : Address) (code : HeldCode) (stored : BitVec 16) : HeldEntry :=
  { target := a, code := code, argument := stored, number := s.hcq.nextNumber, state := .waiting, attempts := 0,
    expiry := clockAdd s.now s.pages.timing.lifetime }

/-- The queue with an entry at its tail, the counter advanced (R136, R148). -/
def State.enterHeld (s : State) (e : HeldEntry) : State :=
  { s with hcq := { s.hcq with entries := s.hcq.entries ++ [e], nextNumber := nextCommandNumber s.hcq.nextNumber,
                               counters := { s.hcq.counters with entered := inc32 s.hcq.counters.entered } } }

/-- COMMAND for a code and an argument that stand (R136 steps 4 to 6). -/
def State.commandFor (s : State) (a : Address) (code : HeldCode) (argument stored : BitVec 16) : Answer :=
  match s.findRecord a with
  | none => s.answer .absent []
  | some (_, _, r) =>
    if ¬ code.suits r.kind then s.answer .invalid []
    else if Config.heldMax ≤ s.hcq.entries.length then s.answer .queueFull []
    else
      let e := s.newEntry a code stored
      (s.enterHeld e).answer (if argumentReplaced code argument stored then .adjusted else .ok)
        (e.number :: byte2 e.argument.toNat)

/-- COMMAND's checks and outcomes (R136). -/
def State.command (a : Address) (held : Byte) (argument : BitVec 16) (s : State) : Answer :=
  if s.mode = .loading then s.answer .wrongMode []
  else if reservedAddress a then s.answer .invalid []
  else match HeldCode.ofCode held with
    | none => s.answer .invalid []
    | some code =>
      match storedArgument code argument with
      | none => s.answer .invalid []
      | some stored => s.commandFor a code argument stored

/-- COMMAND (R136). -/
def execCommand (a : Address) (held : Byte) (argument : BitVec 16) (s : State) : Host.Outcome State Fault Refusal :=
  s.runCommand (.command a held argument) (State.command a held argument)

/-! ## GROUP_ORDER (R145, R146) -/

/-- An answer that carries the group order table as it stands (R146). -/
def State.ordersAnswer (s : State) (r : Result) : Answer := s.answer r (ordersBytes s.hcq.orders)

/-- Change the group order table. -/
def State.setOrders (s : State) (orders : List GroupEntry) : State := { s with hcq := { s.hcq with orders := orders } }

/-- GROUP_ORDER with a valid scope and a stored pattern (R146); `success` is OK or ADJUSTED. -/
def State.placeOrder (s : State) (scope : Scope) (pattern : Nat) (success : Result) : Answer :=
  let orders := s.hcq.orders
  match orders.find? (fun g => g.scope == scope) with
  | some g =>
    if pattern = 0 then (s.setOrders (orders.filter (fun g => g.scope != scope))).ordersAnswer .ok
    else if g.pattern = pattern then s.ordersAnswer .unchanged
    else (s.setOrders (modifyFirst (fun g => g.scope == scope) (fun g => { g with pattern := pattern }) orders)).ordersAnswer
      success
  | none =>
    if pattern = 0 then s.ordersAnswer .unchanged
    else if orders.length < Config.ordersMax then (s.setOrders (orders ++ [⟨scope, pattern⟩])).ordersAnswer success
    else s.ordersAnswer .queueFull

/-- GROUP_ORDER's outcomes (R146): a pattern above 7 is stored as 7. -/
def State.groupOrder (scope pattern : Byte) (s : State) : Answer :=
  if s.mode = .loading then s.ordersAnswer .wrongMode
  else match Scope.ofCode scope with
    | none => s.ordersAnswer .invalid
    | some sc => s.placeOrder sc (min pattern.toNat 7) (if 7 < pattern.toNat then .adjusted else .ok)

/-- GROUP_ORDER (R146). -/
def execGroupOrder (scope pattern : Byte) (s : State) : Host.Outcome State Fault Refusal :=
  s.runCommand (.groupOrder scope pattern) (State.groupOrder scope pattern)

/-! ## FILTER_SET (R156) -/

/-- A cared field as stored: none when it is not cared for; `none` outside means its value names no possible thing. -/
def caredField {α : Type} (care : Bool) (value : Option α) : Option (Option α) :=
  if care then value.map some else some none

/-- The address a filter may care for (R152). -/
def filterAddressOf (a : Address) : Option Address := if reservedAddress a then none else some a

/-- The priority as stored (R156). -/
def storedPriority (p : Nat) : Nat := clamp 1 7 p

/-- The filter a FILTER_SET stores, none where a value names no possible thing (R156). -/
def Filter.store (a : FilterArgs) : Option Filter :=
  match raiseClassOf a.raiseClass, caredField a.careEvent (filterKindOf a.eventKind),
    caredField a.careKind (DetectorKind.ofCode a.detKind), caredField a.careZone (zoneOf a.zone),
    caredField a.careAddress (filterAddressOf a.address) with
  | some rc, some ek, some dk, some z, some ad =>
    some { enable := a.enable, eventKind := ek, detKind := dk, zone := z, address := ad,
           priority := storedPriority a.priority.toNat, raiseClass := rc, suppress := a.suppress, urgent := a.urgent }
  | _, _, _, _, _ => none

/-- The filter index a byte names; 16 or more names none (R156). -/
def filterIndexOf (b : Byte) : Option (Fin 16) := if h : b.toNat < 16 then some ⟨b.toNat, h⟩ else none

/-- An answer that carries the index and the filter as stored (R156, R189). -/
def State.filterAnswer (s : State) (i : Fin 16) (r : Result) : Answer :=
  s.answer r (byte1 i.val ++ (s.evu.filters.get i).bytes)

/-- Write one filter. -/
def State.setFilter (s : State) (i : Fin 16) (f : Filter) : State :=
  { s with evu := { s.evu with filters := s.evu.filters.set i f } }

/-- FILTER_SET's outcomes (R156). -/
def State.filterSet (a : FilterArgs) (s : State) : Answer :=
  match filterIndexOf a.index with
  | none => s.answer .invalid []
  | some i =>
    match Filter.store a with
    | none => s.filterAnswer i .invalid
    | some f =>
      if f = s.evu.filters.get i then s.filterAnswer i .unchanged
      else (s.setFilter i f).filterAnswer i
        (if storedPriority a.priority.toNat = a.priority.toNat then .ok else .adjusted)

/-- FILTER_SET (R156). -/
def execFilterSet (a : FilterArgs) (s : State) : Host.Outcome State Fault Refusal :=
  s.runCommand (.filterSet a) (State.filterSet a)

end Sys2Proof.Machine
end

