-- ==== Sys2Proof/Machine/Dispatch.lean ====
section
/-! DEFINITION. One arm per constructor of `Instr`: the meaning of each row of opcode_table.json. -/

namespace Sys2Proof.Machine

def exec (i : Instr) (s : State) : Host.Outcome State Fault Refusal :=
  match i with
  | .powerOnReset => Sys2Proof.Machine.execPowerOnReset s
  | .radioFrame h bytes => Sys2Proof.Machine.execRadioFrame h bytes s
  | .headStatus h bytes => Sys2Proof.Machine.execHeadStatus h bytes s
  | .headLinkDiscard h bytes => Sys2Proof.Machine.execHeadLinkDiscard h bytes s
  | .headFrameSend h => Sys2Proof.Machine.execHeadFrameSend h s
  | .secondsTick => Sys2Proof.Machine.execSecondsTick s
  | .headLost h => Sys2Proof.Machine.execHeadLost h s
  | .verifyWindowLapse z => Sys2Proof.Machine.execVerifyWindowLapse z s
  | .heldCommandExpiry target number => Sys2Proof.Machine.execHeldCommandExpiry target number s
  | .flushExpiry => Sys2Proof.Machine.execFlushExpiry s
  | .summaryExpiry => Sys2Proof.Machine.execSummaryExpiry s
  | .sweepTimerExpiry => Sys2Proof.Machine.execSweepTimerExpiry s
  | .slotTimerExpiry => Sys2Proof.Machine.execSlotTimerExpiry s
  | .frameTake => Sys2Proof.Machine.execFrameTake s
  | .lookupRequest => Sys2Proof.Machine.execLookupRequest s
  | .integrityCheckDone => Sys2Proof.Machine.execIntegrityCheckDone s
  | .completionRequest => Sys2Proof.Machine.execCompletionRequest s
  | .visitRequest => Sys2Proof.Machine.execVisitRequest s
  | .panelGrant => Sys2Proof.Machine.execPanelGrant s
  | .transmissionComplete => Sys2Proof.Machine.execTransmissionComplete s
  | .managementFrame bytes => Sys2Proof.Machine.execManagementFrame bytes s
  | .badPanelFrame bytes => Sys2Proof.Machine.execBadPanelFrame bytes s
  | .unknownCommand payload => Sys2Proof.Machine.execUnknownCommand payload s
  | .enrol a => Sys2Proof.Machine.execEnrol a s
  | .amend a freshStart => Sys2Proof.Machine.execAmend a freshStart s
  | .withdraw address => Sys2Proof.Machine.execWithdraw address s
  | .lookup address => Sys2Proof.Machine.execLookup address s
  | .clearTable => Sys2Proof.Machine.execClearTable s
  | .detectorDisable address => Sys2Proof.Machine.execDetectorDisable address s
  | .detectorEnable address => Sys2Proof.Machine.execDetectorEnable address s
  | .headReset head => Sys2Proof.Machine.execHeadReset head s
  | .zoneSet a => Sys2Proof.Machine.execZoneSet a s
  | .zoneService zone service => Sys2Proof.Machine.execZoneService zone service s
  | .zoneReset zone => Sys2Proof.Machine.execZoneReset zone s
  | .zoneDisable zone => Sys2Proof.Machine.execZoneDisable zone s
  | .zoneEnable zone => Sys2Proof.Machine.execZoneEnable zone s
  | .command address held argument => Sys2Proof.Machine.execCommand address held argument s
  | .groupOrder scope pattern => Sys2Proof.Machine.execGroupOrder scope pattern s
  | .filterSet a => Sys2Proof.Machine.execFilterSet a s
  | .pageWriteAir a => Sys2Proof.Machine.execPageWriteAir a s
  | .pageWriteLevels a => Sys2Proof.Machine.execPageWriteLevels a s
  | .pageWriteTiming a => Sys2Proof.Machine.execPageWriteTiming a s
  | .pageWriteMemory a => Sys2Proof.Machine.execPageWriteMemory a s
  | .pageRead page => Sys2Proof.Machine.execPageRead page s
  | .start => Sys2Proof.Machine.execStart s
  | .stop => Sys2Proof.Machine.execStop s
  | .restart => Sys2Proof.Machine.execRestart s
  | .statusQuery => Sys2Proof.Machine.execStatusQuery s
  | .headTransmissionComplete h => Sys2Proof.Machine.execHeadTransmissionComplete h s

end Sys2Proof.Machine
end

