-- ==== Sys2Proof/Machine/Step.lean ====
section
/-! DEFINITION. One step of the part: the command or event at the front of the queue takes effect. -/

namespace Sys2Proof.Machine

/-- A step: the command at the front of the queue is taken and executed with the queue's rest; on an empty queue the
block idles (log 1). -/
def step (s : State) : Host.Outcome State Fault Refusal :=
  match s.pending with
  | [] => .next s
  | c :: rest => exec c { s with pending := rest }

/-- The part with the command a word spells at the front of its queue, unchanged where the word spells none. No row of
the table gives bits, so no word spells one. -/
def State.withFetchWord (s : State) (nbits w : Nat) : State :=
  match decodeTableWord nbits w with
  | none => s
  | some c => { s with pending := c :: s.pending }

end Sys2Proof.Machine
end

