-- ==== Sys2Proof/Safety.lean ====
section
/-! DEFINITION. What safety means for this part: a step never stops it, and the properties of a state that every step
keeps. -/

namespace Sys2Proof.Machine

/-- An outcome that is a next state, of which a property holds. -/
def Leads (o : Host.Outcome State Fault Refusal) (p : State → Prop) : Prop := ∃ t, o = .next t ∧ p t

/-- MEX executes a command whose payload begins with a tag, and no request of FIU stands before it at DTU where the
command is a request there (R9, R173, R175). -/
def Ready (s : State) (c : Command) (tag : Byte) : Prop :=
  (∃ rest, s.mex.state = .executing (tag :: rest) ∧ parseCommand (tag :: rest) = some c)
    ∧ (c.atDtu = true → s.fiu.state.waits = false)

/-- The part with a reply placed in the reply slot and MEX IDLE again (R173, R174). -/
def State.replied (s : State) (tag code : Byte) (r : Result) (data : List Byte) : State :=
  { s with evu := s.evu.placeReply { tag := tag, code := code, result := r, data := data },
           mex := { s.mex with state := .idle } }

/-- Of the heads, head h holds v and every other head is as before. -/
def HeadBecomes (s t : State) (h : HeadNo) (v : Head) : Prop :=
  t.head h = v ∧ ∀ k : HeadNo, k ≠ h → t.head k = s.head k

/-- Of the zones, zone z is v and every other zone is as before. -/
def ZoneBecomes (s t : State) (z : ZoneNo) (v : Zone) : Prop :=
  t.zone z = v ∧ ∀ y : ZoneNo, y ≠ z → t.zone y = s.zone y

/-- EVU after it has taken records one after another, each with a body, a zone, an address and a detector kind. -/
def State.evuAfter (s : State)
    (records : List (EventBody × Option ZoneNo × Option Address × Option DetectorKind)) : Evu :=
  records.foldl (fun e r => e.take s.now (s.eventRecord r.1 r.2.1 r.2.2.1 r.2.2.2)) s.evu

/-- EVU once the grant that was due on its idle link has been made, in the arbiter's order ALARM, summary, FAULT, STATUS,
LEVEL, the bytes built now (R163, R166, R189; log 11). Nothing is granted on a busy link, nor while a reply is the choice:
when no ALARM record waits, or the choice had fallen on the reply before those that wait had joined. -/
def Evu.granted (e : Evu) : Evu :=
  let sends (x : Evu) (source : Source) (f : PanelFrame) : Evu := { x with tx := some ⟨source, f, f.wire⟩ }
  if e.tx.isSome = true ∨ (e.replySlot.isSome = true ∧ (e.replyFirst = true ∨ e.alarmQueue = [])) then e
  else match e.alarmQueue with
    | r :: rest => sends { e with alarmQueue := rest } .alarm (.record { r with lostBefore := 0 })
    | [] => match e.summarySlot with
      | some z => sends { e with summarySlot := none } .summary (.summary z)
      | none => match e.faultQueue with
        | r :: rest =>
          sends { e with faultQueue := rest, faultLoss := 0 } .fault (.record { r with lostBefore := e.faultLoss })
        | [] => match e.statusQueue with
          | r :: rest =>
            sends { e with statusQueue := rest, statusLoss := 0 } .status (.record { r with lostBefore := e.statusLoss })
          | [] => match e.levelQueue with
            | r :: rest =>
              sends { e with levelQueue := rest, levelLoss := 0 } .level (.record { r with lostBefore := e.levelLoss })
            | [] => e

/-- EVU, e before it, after a ZONE_SUMMARY of the part as it stands has been built into the summary slot, after a grant
that was due; one that still waits there is replaced, and the summary timer is armed again (R164, R165; log 11). -/
def State.summaryBuilt (s : State) (e : Evu) : Evu :=
  let g := e.granted
  { g with
    summarySlot := some {
      time := s.su.clock, mode := s.mode, missing := s.su.missing,
      heads := allHeads.map (fun h => ((s.head h).link, (s.head h).jam)),
      zones := allZones.map (fun z => ((s.zone z).state, (s.zone z).enabled, (s.zone z).service)) },
    counters := { g.counters with
      summariesBuilt := min (g.counters.summariesBuilt + 1) 4294967295,
      summariesReplaced := if g.summarySlot.isSome then min (g.counters.summariesReplaced + 1) 4294967295
        else g.counters.summariesReplaced },
    summaryTimer := s.pages.timing.summary }

/-- The part once every timer expiry that a tick has brought about and that has not been taken is taken, under the
periods that stand: a sweep starts or an overlap is counted, every context closes, a summary is built (R124, R161, R164;
their order is the model's, log 10). -/
def State.expiriesTaken (s : State) : State :=
  let flushed : Evu := if s.evu.flushTimer = 0 then
    { s.evu.closeAll s.su.clock .flush with flushTimer := s.pages.timing.flush } else s.evu
  { s with
    su := if s.su.sweepTimer = some 0 then { s.su with
        sweepTimer := some s.pages.timing.sweep,
        sweep := if s.su.sweep.isSome then s.su.sweep else some 0,
        sweepsStarted := if s.su.sweep.isSome then s.su.sweepsStarted else min (s.su.sweepsStarted + 1) 4294967295,
        overlaps := if s.su.sweep.isSome then min (s.su.overlaps + 1) 4294967295 else s.su.overlaps }
      else s.su,
    evu := if s.evu.summaryTimer = 0 then s.summaryBuilt flushed else flushed }

/-- A count that holds at a maximum, after some more. -/
def countedUp (max n more : Nat) : Nat := if more = 0 then n else min (n + more) max

/-- EVU after an open context has closed (R159): it has left the list, is counted by the cause, and its LEVEL_SUMMARY has
been taken as any record. -/
def Evu.closes (e : Evu) (now : Nat) (c : Context) (cause : CloseCause) : Evu :=
  Evu.take { e with
      contexts := e.contexts.filter (fun d => d.address != c.address), counters := e.counters.countClosed cause } now
    { body := .levelSummary c.openedAt c.first c.last c.count c.least c.greatest c.value cause,
      cls := .level, time := now, zone := some c.zone, address := some c.address, kind := some c.kind, lostBefore := 0 }

/-- EVU after a zone's entry into ALARM (R105): every context closed, then the ZONE_ALARM with its cause, the mode and the
first detector of the zone, the partner and the raised count. v is the zone before the entry, its count adjusted. -/
def State.alarmTold (s : State) (z : ZoneNo) (v : Zone) (a : Address) (k : DetectorKind) (cause : AlarmCause)
    (partner : Option ZoneNo) (e : Evu) : Evu :=
  (e.closeAll s.now .alarm).take s.now
    (s.eventRecord (.zoneAlarm cause v.mode v.first partner v.raised) (some z) (some a) (some k))

/-- What the removal of a record does outside the table, from s to t (R22, R95, R131, R143): a MISSING record leaves the
missing count; a counted one leaves its zone's raised count, with the fall of an enabled PRE zone to QUIET and ZONE_QUIET;
then its context closes; then its held entries are removed in queue order, each with COMMAND_FAILED. -/
def Removed (s t : State) (r : DetectorRecord) : Prop :=
  let v := s.zone r.zone
  let falls := v.raised ≤ 1 ∧ v.enabled = true ∧ v.state = .pre
  let held := s.hcq.entries.filter fun e => e.target == r.address
  let noticed : Evu := (s.evuAfter (if r.counted v.epoch = true ∧ falls then
    [(.zoneQuiet, some r.zone, some r.address, none)] else [])).closeFor s.now .notice r.address
  (r.counted v.epoch = true → ZoneBecomes s t r.zone
      { v with raised := v.raised - 1, state := if falls then .quiet else v.state })
    ∧ (r.counted v.epoch = false → t.zones = s.zones)
    ∧ t.su = { s.su with missing := if r.presence = .missing then s.su.missing - 1 else s.su.missing }
    ∧ t.hcq = { s.hcq with
        entries := s.hcq.entries.filter fun e => e.target != r.address,
        counters := { s.hcq.counters with
          failedWithdrawn := countedUp 4294967295 s.hcq.counters.failedWithdrawn held.length } }
    ∧ t.evu = State.evuAfter { s with evu := noticed } (held.map fun e =>
        (.commandFailed .withdrawn ⟨e.number, e.code, e.argument⟩ (some e.state) e.attempts,
          some r.zone, some r.address, none))
    ∧ t = { s with zones := t.zones, su := t.su, hcq := t.hcq, evu := t.evu }

/-- HCQ after it has been told, one after another, of acknowledgements that were not sent (R46, R139). -/
def Hcq.toldNotSent (q : Hcq) (acks : List (Address × Option Attachment)) : Hcq :=
  acks.foldl (fun q a => match a.2 with
    | none => q
    | some c => q.notSent a.1 c.number) q

/-- What an acknowledgement to an address carries (R138), the queue once it is attached, and the queue once the
acknowledgement has turned out not to be sent (R139): the SENT entry again; else the oldest waiting entry, which becomes
SENT and, not sent, waits again; else nothing. -/
def Attaches (q : Hcq) (a : Address) (held : Option Attachment) (attached back : Hcq) : Prop :=
  let free (l : List HeldEntry) (st : HeldState) : Prop := ∀ y ∈ l, ¬ (y.target = a ∧ y.state = st)
  (∃ before x after, q.entries = before ++ x :: after ∧ x.target = a ∧ x.state = .sent ∧ free before .sent
      ∧ held = some ⟨x.number, x.code, x.argument⟩ ∧ attached = q
      ∧ back = { q with entries := before ++ { x with state := .waiting } :: after,
                        counters := { q.counters with reverted := min (q.counters.reverted + 1) 4294967295 } })
    ∨ (∃ before x after, q.entries = before ++ x :: after ∧ x.target = a ∧ x.state = .waiting
      ∧ free q.entries .sent ∧ free before .waiting ∧ held = some ⟨x.number, x.code, x.argument⟩
      ∧ attached = { q with entries := before ++ { x with state := .sent } :: after,
                            counters := { q.counters with attached := min (q.counters.attached + 1) 4294967295 } }
      ∧ back = { q with counters := { q.counters with attached := min (q.counters.attached + 1) 4294967295,
                                                      reverted := min (q.counters.reverted + 1) 4294967295 } })
    ∨ (free q.entries .sent ∧ free q.entries .waiting ∧ held = none ∧ attached = q ∧ back = q)

/-- The acknowledgement of frame f of address a, with HCQ's queue q before it, takes the part's heads and HCQ from what
they are in s to what they are in t (R44, R45, R138, R139): in the frame's own slot it joins the receiving head's FIFO, a
full FIFO refuses it and counts an overrun, and in any other slot it is discarded and counted as late. -/
def Acknowledged (q : Hcq) (s t : State) (f : LaneFrame) (a : Address) : Prop :=
  ∃ held attached back, Attaches q a held attached back ∧
    let v := s.head f.head
    let current := f.stamp = BitVec.ofNat 16 (s.clock.superframe.toNat * 8 + s.clock.slot.toNat)
    let ack := HeadFrame.ack a f.frame.sequence s.clock.superframe s.clock.slot held
    (current → v.txFifo.length < 16 →
      HeadBecomes s t f.head { v with txFifo := v.txFifo ++ [ack] } ∧ t.hcq = attached)
    ∧ (current → 16 ≤ v.txFifo.length →
      HeadBecomes s t f.head { v with counters := { v.counters with overrun := min (v.counters.overrun + 1) 65535 } }
        ∧ t.hcq = back)
    ∧ (¬ current →
      HeadBecomes s t f.head { v with counters := { v.counters with late := min (v.counters.late + 1) 65535 } }
        ∧ t.hcq = back)

/-- A property of states is kept by every step. -/
def KeptByEveryStep (inv : State → Prop) : Prop := ∀ s t : State, inv s → step s = .next t → inv t

/-- A zone as R91 and R92 have it: VERIFY has a first detector and a window deadline, a value of the seconds clock
(R118), and no other state has either; a disabled zone is QUIET; no zone is its own partner; the verify window is 10 to
300 s and the service offset 0 to 64. -/
def Zone.Sound (z : ZoneNo) (v : Zone) : Prop :=
  (v.state = .verify → v.first.isSome ∧ ∃ d, v.deadline = some d ∧ d ≤ 4294967295)
    ∧ (v.state ≠ .verify → v.first = none ∧ v.deadline = none)
    ∧ (v.enabled = false → v.state = .quiet)
    ∧ v.partner ≠ some z ∧ 10 ≤ v.window ∧ v.window ≤ 300 ∧ v.offset ≤ 64

/-- Every zone is as R91 and R92 have it. -/
def ZonesSound (s : State) : Prop := ∀ z : ZoneNo, (s.zone z).Sound z

/-- Whether a ZONE_ALARM of a zone is on the panel link. -/
def Evu.alarmOnLink (e : Evu) (z : ZoneNo) : Bool := e.tx.any fun t => t.frame.alarmZone == some z

/-- The ZONE_ALARM records of a zone that wait in the ALARM queue or are on the link. -/
def Evu.alarmsOf (e : Evu) (z : ZoneNo) : Nat :=
  e.alarmQueue.countP (fun r => r.zone == some z) + (e.alarmOnLink z).toNat

/-- The ALARM queue holds ZONE_ALARM records of a zone, the other queues hold none, and no filter raises a record to ALARM
(R150, R152, R162). -/
def Evu.AlarmsApart (e : Evu) : Prop :=
  (∀ r ∈ e.alarmQueue, r.body.kind = .zoneAlarm ∧ r.zone.isSome)
    ∧ (∀ r ∈ e.faultQueue ++ e.statusQueue ++ e.levelQueue, r.body.kind ≠ .zoneAlarm)
    ∧ ∀ i : Fin 16, (e.filters.get i).raiseClass ≠ some .alarm

/-- A zone has one ZONE_ALARM waiting or on the link when its unsent flag is set, and then it is enabled and in ALARM; else
it has none (R107, R113). -/
def AlarmsTracked (s : State) : Prop :=
  s.evu.AlarmsApart ∧ ∀ z : ZoneNo, s.evu.alarmsOf z = (s.zone z).alarmUnsent.toNat
    ∧ ((s.zone z).alarmUnsent = true → (s.zone z).state = .alarm ∧ (s.zone z).enabled = true)

/-- Every queue and list holds at most its depth: ALARM, FAULT, STATUS and LEVEL queues (R162), open contexts (R157),
held entries (R134), group orders (R145), management FIFO (R172), transmit FIFOs (R44). What bounds the ALARM queue is
that its records are tracked. -/
def WithinDepths (s : State) : Prop :=
  AlarmsTracked s ∧ s.evu.alarmQueue.length ≤ 64
    ∧ s.evu.faultQueue.length ≤ 48 ∧ s.evu.statusQueue.length ≤ 48 ∧ s.evu.levelQueue.length ≤ 96
    ∧ s.evu.contexts.length ≤ 16 ∧ s.hcq.entries.length ≤ 64 ∧ s.hcq.orders.length ≤ 8 ∧ s.pli.fifo.length ≤ 4
    ∧ ∀ h : HeadNo, (s.head h).txFifo.length ≤ 16

/-- No two held entries are SENT for one target, and every command number, the next one too, is 1 to 255 (R134, R136); no
two group orders have one scope, and every pattern is 1 to 7 (R145). -/
def Hcq.Distinct (q : Hcq) : Prop :=
  q.entries.Pairwise (fun x y => ¬ (x.target = y.target ∧ x.state = .sent ∧ y.state = .sent))
    ∧ q.nextNumber ≠ 0 ∧ (∀ x ∈ q.entries, x.number ≠ 0)
    ∧ q.orders.Pairwise (fun g h => g.scope ≠ h.scope) ∧ ∀ g ∈ q.orders, 1 ≤ g.pattern ∧ g.pattern ≤ 7

/-- No two open contexts are of one detector, and each has gathered 1 to 15 values: at its sixteenth it closes in the same
step (R157, R158). -/
def Evu.ContextsDistinct (e : Evu) : Prop :=
  e.contexts.Pairwise (fun c d => c.address ≠ d.address) ∧ ∀ c ∈ e.contexts, 1 ≤ c.count ∧ c.count ≤ 15

/-- The held entries, the group orders and the open contexts are as R134, R145 and R157 have them. -/
def ListsDistinct (s : State) : Prop := s.hcq.Distinct ∧ s.evu.ContextsDistinct

/-- The number of frames FIU holds, 0 or 1 (R47). -/
def FiuState.held : FiuState → Nat
  | .idle => 0
  | .lookingUp _ => 1
  | .checking _ _ _ _ => 1
  | .completing _ _ _ _ => 1

/-- Every pool block is free, in a lane or with FIU's frame (R35, R36, R48); in LOADING no frame is held (R37, R47). -/
def PoolConserved (s : State) : Prop :=
  s.intake.freeBlocks + s.intake.urgentLane.length + s.intake.normalLane.length + s.fiu.state.held = s.poolSize
    ∧ (s.mode = .loading → s.intake.urgentLane = [] ∧ s.intake.normalLane = [] ∧ s.fiu.state = .idle)

/-- The free list holds exactly the free record indices, each once; there are T indices (R1, R7). -/
def FreeListExact (s : State) : Prop :=
  s.dtu.slots.length = s.tableSize ∧ s.dtu.freeList.Nodup
    ∧ ∀ i, i ∈ s.dtu.freeList ↔ i < s.tableSize ∧ s.dtu.recordAt i = none

/-- Each bucket's chain holds exactly the indices of the records whose addresses fall in the bucket, each once; there are
B chains, and no address is in two records (R1, R5, R7). -/
def ChainsExact (s : State) : Prop :=
  (s.tableSize = 256 ∨ s.tableSize = 512 ∨ s.tableSize = 1024) ∧ s.dtu.chains.length = s.buckets
    ∧ (∀ b, (s.dtu.chainAt b).Nodup)
    ∧ (∀ b i, i ∈ s.dtu.chainAt b ↔ ∃ r, s.dtu.recordAt i = some r ∧ s.bucketOf r.address = b)
    ∧ ∀ i j r q, s.dtu.recordAt i = some r → s.dtu.recordAt j = some q → r.address = q.address → i = j

/-- The missing count is the number of chained records whose presence is MISSING (R131). -/
def MissingCountExact (s : State) : Prop :=
  s.su.missing = s.dtu.records.countP (fun r => r.presence == .missing)

/-- Each zone's raised count is the number of its counted records (R94), and a disabled record's level is NORMAL
(R25). -/
def RaisedCountExact (s : State) : Prop :=
  (∀ z : ZoneNo, (s.zone z).raised =
      s.dtu.records.countP (fun r => decide (r.zone = z) && r.counted (s.zone z).epoch))
    ∧ ∀ r ∈ s.dtu.records, r.enabled = false → r.level = .normal

/-- The table's free list and the counts the part keeps of its records are exact. -/
def CountsExact (s : State) : Prop := FreeListExact s ∧ MissingCountExact s ∧ RaisedCountExact s

/-- The table's free list and chains and the counts the part keeps of its records are exact. -/
def TableExact (s : State) : Prop := CountsExact s ∧ ChainsExact s

end Sys2Proof.Machine
end

