-- ==== Sys2Proof/Certificates/Slice0/Obligations.lean ====
section
/-! DEFINITION. The statements for the provers, from the manual's numbered rules. Each completion statement gives the
next state of its commands from hypotheses on the state and the operands alone. A received frame's row carries its bytes
(log 3); a management command's row acts when MEX is executing it and no request of FIU stands before it (`Ready`;
log 4, log 12); a reply is placed after a grant that was due (log 11). These forms are the model's. -/

open Sys2Proof Sys2Proof.Machine

/-! ## The step -/

/-- A step runs the command at the front of the queue on the part with the queue's rest; on an empty queue the block
idles. The queue is the model's (log 1). -/
def Obligations.FrontCommandRuns : Prop :=
  (∀ (c : Instr) (rest : List Instr) (s : State),
    step { s with pending := c :: rest } = exec c { s with pending := rest })
  ∧ ∀ s : State, s.pending = [] → step s = .next s

/-- No command or event stops the part: it discards and counts, or replies with a result code. That there is no stop is
deduced: the manual names none (log 23, DEDUCED). -/
def Obligations.NoCommandStops : Prop := ∀ (c : Instr) (s : State), ∃ t, exec c s = .next t

/-- POWER_ON_RESET leaves the values the manual gives for it, all of them, from every state. The queue and the counter
of free values are the model's own and stand (log 25); the arbiter's choice of a reply (log 11) is the model's own too.
-/
def Obligations.PowerOnResetValues : Prop :=
  (∀ s : State, exec .powerOnReset s = .next
    { mode := .loading,
      pages := {
        air := { channels := 4, order := .rotate, starts := #v[0, 1, 2, 3], slotLength := 250, jamThreshold := 80,
                 signalMargin := -90 },
        levels := {
          smoke := ⟨20, 45, 3⟩, heat := ⟨55, 70, 2⟩, multiSmoke := ⟨20, 45, 3⟩, multiHeat := ⟨55, 70, 2⟩,
          smokeDrift := ⟨80, 6⟩, multiDrift := ⟨80, 6⟩,
          smokeReport := ⟨.band, 8⟩, heatReport := ⟨.band, 4⟩, multiReport := ⟨.band, 8⟩ },
        timing := { flush := 60, summary := 10, sweep := 2, grace := 300, lifetime := 600, attemptLimit := 3 },
        memory := { tableSize := 512, advice := 8 },
        airLoaded := false, levelsLoaded := false, timingLoaded := false, memoryLoaded := false },
      dtu := { slots := List.replicate 512 ⟨0, none⟩, chains := List.replicate 128 [], freeList := List.range 512,
               maxChain := 0 },
      heads := Vector.replicate 4 {
        link := .down, statusSeen := false, missed := 0, jam := false, jamRun := 0,
        counters := ⟨0, 0, 0, 0, 0, 0, 0, 0, 0, 0⟩, rx := .ignoring, txFifo := [], sending := none },
      intake := { freeBlocks := 1536, urgentLane := [], normalLane := [] },
      clock := { slot := 0, superframe := 0, slotTimer := none },
      fiu := { state := .idle, counters := ⟨0, 0, 0, 0, 0, 0, 0, 0, 0, 0, 0⟩ },
      zones := Vector.replicate 64 {
        mode := .direct, window := 30, partner := none, offset := 0, service := false, enabled := true, state := .quiet,
        raised := 0, epoch := 0, first := none, deadline := none, alarmUnsent := false },
      su := { clock := 0, sweepTimer := none, sweep := none, missing := 0, sweepsStarted := 0, sweepsCompleted := 0,
              sweepsAbandoned := 0, overlaps := 0 },
      hcq := { entries := [], nextNumber := 1, orders := [], counters := ⟨0, 0, 0, 0, 0, 0, 0⟩ },
      evu := {
        filters := Vector.replicate 16 {
          enable := false, eventKind := none, detKind := none, zone := none, address := none, priority := 1,
          raiseClass := none, suppress := false, urgent := false },
        contexts := [], alarmQueue := [], faultQueue := [], statusQueue := [], levelQueue := [], faultLoss := 0,
        statusLoss := 0, levelLoss := 0, summarySlot := none, replySlot := none, replyFirst := false, tx := none,
        flushTimer := 60, summaryTimer := 10,
        counters := ⟨0, 0, 0, 0, 0, 0, 0, 0, 0, 0, 0, 0, 0, 0, 0, 0, 0, 0, 0, 0, 0, 0, 0, 0, 0, 0, 0, 0⟩ },
      pli := { rx := .hunting, fifo := [], badFrames := 0, overflows := 0 },
      mex := { state := .idle, commandsTaken := 0 },
      pending := s.pending, freeIndex := s.freeIndex })
  ∧ (∀ s : State, exec .powerOnReset s = .next { State.reset with pending := s.pending, freeIndex := s.freeIndex })
  ∧ State.reset.pending = []

/-! ## Head links and admission (section 2) -/

/-- A good RADIO_FRAME that passes the checks and finds room is admitted to its lane with its stamp. The lane and the
room follow the frame's urgent flag, bit 0 of its flags byte. -/
def Obligations.RadioFrameAdmitted : Prop :=
  (∀ (s : State) (h : HeadNo) (bytes : List Byte) (rx : HeadReceiver) (f : RadioFrame) (k : FrameKind),
    (s.head h).rx.feed bytes = (rx, [.radio f]) → s.mode = .running → FrameKind.ofCode f.kind = some k →
    f.hop.toNat ≤ 3 → f.payload.length = k.payloadLength →
    (if f.urgent then 0 < s.intake.freeBlocks else 32 < s.intake.freeBlocks) →
    let lane : LaneFrame := ⟨f, h, BitVec.ofNat 16 (s.clock.superframe.toNat * 8 + s.clock.slot.toNat)⟩
    ∃ t, exec (.radioFrame h bytes) s = .next t
      ∧ t.intake = { freeBlocks := s.intake.freeBlocks - 1,
                     urgentLane := if f.urgent then s.intake.urgentLane ++ [lane] else s.intake.urgentLane,
                     normalLane := if f.urgent then s.intake.normalLane else s.intake.normalLane ++ [lane] }
      ∧ HeadBecomes s t h { s.head h with
          rx := rx, counters := { (s.head h).counters with admitted := min ((s.head h).counters.admitted + 1) 65535 } }
      ∧ t = { s with heads := t.heads, intake := t.intake })
  ∧ ∀ f : RadioFrame, f.urgent = f.flags.getLsbD 0

/-- A good RADIO_FRAME that is not admitted is counted by the first check that fails and changes nothing else. The frame
kinds with their codes and payload lengths are those of R34's table. -/
def Obligations.RadioFrameNotAdmitted : Prop :=
  (∀ (s : State) (h : HeadNo) (bytes : List Byte) (rx : HeadReceiver) (f : RadioFrame),
    (s.head h).rx.feed bytes = (rx, [.radio f]) →
    let c := (s.head h).counters
    let roomless := if f.urgent then s.intake.freeBlocks = 0 else s.intake.freeBlocks ≤ 32
    let badLength := ∀ k, FrameKind.ofCode f.kind = some k → f.payload.length ≠ k.payloadLength
    (s.mode = .loading ∨ FrameKind.ofCode f.kind = none ∨ 3 < f.hop.toNat ∨ badLength ∨ roomless) →
    ∃ t c', exec (.radioFrame h bytes) s = .next t
      ∧ HeadBecomes s t h { s.head h with rx := rx, counters := c' }
      ∧ (s.mode = .loading → c' = { c with notRunning := min (c.notRunning + 1) 65535 })
      ∧ (s.mode = .running → FrameKind.ofCode f.kind = none →
          c' = { c with unknownKind := min (c.unknownKind + 1) 65535 })
      ∧ (s.mode = .running → FrameKind.ofCode f.kind ≠ none → 3 < f.hop.toNat →
          c' = { c with hopLimit := min (c.hopLimit + 1) 65535 })
      ∧ (s.mode = .running → FrameKind.ofCode f.kind ≠ none → f.hop.toNat ≤ 3 → badLength →
          c' = { c with length := min (c.length + 1) 65535 })
      ∧ (s.mode = .running → FrameKind.ofCode f.kind ≠ none → f.hop.toNat ≤ 3 → ¬ badLength →
          c' = { c with poolFull := min (c.poolFull + 1) 65535 })
      ∧ t = { s with heads := t.heads })
  ∧ (∀ b : Byte, FrameKind.ofCode b = if b = 0 then some .check else if b = 1 then some .reading
      else if b = 2 then some .dualReading else if b = 3 then some .callState
      else if b = 4 then some .sounderState else none)
  ∧ [FrameKind.check, .reading, .dualReading, .callState, .sounderState].map FrameKind.payloadLength = [0, 1, 2, 1, 1]

/-- A good HEAD_STATUS makes the head UP and is judged for jamming; its records are HEAD_UP from DOWN or LOST, and
HEAD_JAMMED or HEAD_CLEAR at the fifth status in a row. -/
def Obligations.HeadStatusTaken : Prop :=
  ∀ (s : State) (h : HeadNo) (bytes : List Byte) (rx : HeadReceiver) (busy : Byte),
    (s.head h).rx.feed bytes = (rx, [.status busy]) →
    let v := s.head h
    let above := decide (s.pages.air.jamThreshold ≤ min busy.toNat 100)
    let flips := above ≠ v.jam ∧ 5 ≤ v.jamRun + 1
    ∃ t, exec (.headStatus h bytes) s = .next t
      ∧ HeadBecomes s t h { v with
          link := .up, statusSeen := true, missed := 0, rx := rx,
          jam := if flips then !v.jam else v.jam,
          jamRun := if above = v.jam then 0 else if 5 ≤ v.jamRun + 1 then 0 else v.jamRun + 1,
          counters := { v.counters with statuses := min (v.counters.statuses + 1) 65535 } }
      ∧ t.evu = s.evuAfter
          ((if v.link = .up then [] else [(EventBody.headUp h, none, none, none)])
            ++ (if flips then [(if v.jam then EventBody.headClear h else EventBody.headJammed h, none, none, none)]
                else []))
      ∧ t = { s with heads := t.heads, evu := t.evu }

/-- A discarded head link frame increments the head's link error counter, and a discarded panel frame the bad-frame
count; neither has any other effect. Which bytes are a frame and which a discard: the check is the one of R186; an
ignoring head receiver ends a frame of R187 at its end marker as the RADIO_FRAME or HEAD_STATUS its bytes spell, and
discards a wrong length, check, type or escape, a 41st byte, and the bytes collected when a start marker comes within a
frame; a hunting panel receiver counts off the bytes the length names and discards a length outside 1 to 1024, a wrong
check and a type that is not MANAGEMENT (R171, R188). -/
def Obligations.DiscardedFramesCounted : Prop :=
  (∀ (s : State) (h : HeadNo) (bytes : List Byte) (rx : HeadReceiver),
    (s.head h).rx.feed bytes = (rx, [.discard]) →
    ∃ t, exec (.headLinkDiscard h bytes) s = .next t
      ∧ HeadBecomes s t h { s.head h with rx := rx, counters :=
          { (s.head h).counters with linkError := min ((s.head h).counters.linkError + 1) 65535 } }
      ∧ t = { s with heads := t.heads })
  ∧ (∀ (s : State) (bytes : List Byte) (rx : PanelReceiver), s.pli.rx.feed bytes = (rx, [.bad]) →
    exec (.badPanelFrame bytes) s = .next { s with
      pli := { s.pli with rx := rx, badFrames := min (s.pli.badFrames + 1) 65535 } })
  ∧ (∀ bs : List Byte,
    let bits := bs.flatMap fun b => [7, 6, 5, 4, 3, 2, 1, 0].map fun i => b.getLsbD i
    let c : BitVec 16 := bits.foldl (fun r b => if r.getLsbD 15 != b then (r <<< 1) ^^^ 0x1021 else r <<< 1) 0xFFFF
    checkBytes bs = [c.extractLsb' 8 8, c.extractLsb' 0 8])
  ∧ (∀ (n : Nat) (a : Address), byte1 n = [BitVec.ofNat 8 n]
    ∧ byte2 n = [BitVec.ofNat 8 (n / 256), BitVec.ofNat 8 n]
    ∧ byte4 n = [BitVec.ofNat 8 (n / 16777216), BitVec.ofNat 8 (n / 65536), BitVec.ofNat 8 (n / 256), BitVec.ofNat 8 n]
    ∧ addressBytes a = [a.extractLsb' 16 8, a.extractLsb' 8 8, a.extractLsb' 0 8])
  ∧ (∀ (rx : HeadReceiver) (bs cs : List Byte),
    rx.feed (bs ++ cs) = (((rx.feed bs).1.feed cs).1, (rx.feed bs).2 ++ ((rx.feed bs).1.feed cs).2))
  ∧ (∀ bs : List Byte, (∀ b ∈ bs, b ≠ 0xC0) → HeadReceiver.ignoring.feed bs = (.ignoring, []))
  ∧ (∀ body : List Byte,
    let line := body.flatMap fun b => if b = 0xC0 ∨ b = 0xC1 ∨ b = 0xC2 then [0xC2, b - 0x40] else [b]
    let fed (bs : List Byte) := HeadReceiver.ignoring.feed (0xC0 :: (line ++ bs))
    (body.length ≤ 40 → fed [] = (.collecting body false, [])
      ∧ fed [0xC0] = (.collecting [] false, [.discard]) ∧ fed [0xC2, 0xC0] = (.collecting [] false, [.discard])
      ∧ ∀ b, b ≠ 0xC0 → b ≠ 0x80 → b ≠ 0x81 → b ≠ 0x82 → fed [0xC2, b] = (.ignoring, [.discard]))
    ∧ (body.length = 41 → fed [] = (.ignoring, [.discard]))
    ∧ (body.length < 4 → fed [0xC1] = (.ignoring, [.discard]))
    ∧ ∀ (n type : Byte) (payload c : List Byte), body = n :: type :: (payload ++ c) → c.length = 2 →
      payload.length ≤ 36 →
      let ends (v : HeadReceipt) : Prop := fed [0xC1] = (.ignoring, [v])
      let good := n.toNat = payload.length + 1 ∧ c = checkBytes (n :: type :: payload)
      (¬ good → ends .discard) ∧ (good → type ≠ 1 → type ≠ 2 → ends .discard)
      ∧ (good → type = 1 → payload.length < 18 ∨ 20 < payload.length → ends .discard)
      ∧ (good → type = 1 → ∀ f : RadioFrame, f.payload.length ≤ 2 →
        payload = addressBytes f.address ++ [f.kind] ++ byte2 (f.sequence.toNat * 16 + f.retry.toNat)
          ++ [f.flags, f.done] ++ byte4 f.tag.toNat ++ [f.hop] ++ addressBytes f.relay ++ [f.channel, f.signal]
          ++ f.payload →
        ends (.radio f))
      ∧ (good → type = 2 → payload.length ≠ 1 → ends .discard)
      ∧ ∀ busy, good → type = 2 → payload = [busy] → ends (.status busy))
  ∧ (∀ (rx : PanelReceiver) (bs cs : List Byte),
    rx.feed (bs ++ cs) = (((rx.feed bs).1.feed cs).1, (rx.feed bs).2 ++ ((rx.feed bs).1.feed cs).2))
  ∧ (∀ bs : List Byte, (∀ b ∈ bs, b ≠ 0xA5) → PanelReceiver.hunting.feed bs = (.hunting, []))
  ∧ ∀ hi lo : Byte,
    let n := hi.toNat * 256 + lo.toNat
    let fed (bs : List Byte) := PanelReceiver.hunting.feed (0xA5 :: hi :: lo :: bs)
    (n = 0 ∨ 1024 < n → fed [] = (.hunting, [.bad]))
    ∧ (1 ≤ n → n ≤ 1024 →
      (∀ bs, bs.length < n + 2 → fed bs = (.receiving (hi :: lo :: bs), []))
      ∧ ∀ (type : Byte) (payload c : List Byte), payload.length + 1 = n → c.length = 2 →
        fed (type :: (payload ++ c)) = (.hunting,
          [if c = checkBytes (hi :: lo :: type :: payload) ∧ type = 1 then .management payload else .bad]))

/-- With the link free, the frame at the head of the transmit FIFO leaves it and is sent; at the end of a transmission
the link falls free. That the beginning is a step of its own is the model's choice (log 21). The bytes sent are those of
the layouts of TUNE, BEACON and ACK. -/
def Obligations.HeadLinkSends : Prop :=
  (∀ (s : State) (h : HeadNo) (f : HeadFrame) (rest : List HeadFrame),
    (s.head h).sending = none → (s.head h).txFifo = f :: rest →
    ∃ t, exec (.headFrameSend h) s = .next t
      ∧ HeadBecomes s t h { s.head h with txFifo := rest, sending := some { frame := f, wire := f.wire } }
      ∧ t = { s with heads := t.heads })
  ∧ (∀ (s : State) (h : HeadNo) (x : HeadTransmission), (s.head h).sending = some x →
    ∃ t, exec (.headTransmissionComplete h) s = .next t
      ∧ HeadBecomes s t h { s.head h with sending := none } ∧ t = { s with heads := t.heads })
  ∧ ∀ (channel : Nat) (superframe : BitVec 16) (slot : BitVec 3) (orders : List GroupEntry) (a : Address) (q : SeqNo)
      (x : Attachment),
    let sent (type : Byte) (payload : List Byte) : List Byte :=
      let body := byte1 (payload.length + 1) ++ type :: payload
      0xC0 :: ((body ++ checkBytes body).flatMap (fun b =>
        if b = 0xC0 ∨ b = 0xC1 ∨ b = 0xC2 then [0xC2, b - 0x40] else [b]) ++ [0xC1])
    let scope (g : GroupEntry) : Byte := match g.scope with
      | .all => 0xFF
      | .zone z => BitVec.ofNat 8 z.val
    let code : Byte := match x.code with
      | .sounderPattern => 1
      | .locate => 2
      | .testEnter => 3
      | .testExit => 4
      | .setPeriod => 5
    let acked := addressBytes a ++ byte2 q.toNat ++ byte2 superframe.toNat ++ byte1 slot.toNat
    (HeadFrame.tune channel superframe slot).wire
      = sent 0x11 (byte1 channel ++ byte2 superframe.toNat ++ byte1 slot.toNat)
    ∧ (HeadFrame.beacon superframe orders).wire = sent 0x12 (byte2 superframe.toNat ++ byte1 orders.length
        ++ orders.flatMap fun g => scope g :: byte1 g.pattern)
    ∧ (HeadFrame.ack a q superframe slot (some x)).wire
      = sent 0x13 (acked ++ [x.number, code] ++ byte2 x.argument.toNat)
    ∧ (HeadFrame.ack a q superframe slot none).wire = sent 0x13 (acked ++ [0, 0, 0, 0])

/-- The channels of ROTATE and MIRROR in a slot, and that heads with equal starts are accepted and not reported. -/
def Obligations.SlotChannels : Prop :=
  (∀ (p : PageAir) (h k : HeadNo) (i : BitVec 3),
    (p.order = .rotate → p.channel h i = (p.starts.get h + i.toNat) % p.channels)
    ∧ (p.order = .mirror → p.channel h i = (p.starts.get h).xor (i.toNat % p.channels))
    ∧ (p.order = .rotate → 0 < p.channels → p.channel h i < p.channels)
    ∧ (p.order = .mirror → p.channels = 2 ∨ p.channels = 4 ∨ p.channels = 8 → p.starts.get h < p.channels →
        p.channel h i < p.channels)
    ∧ (p.starts.get h = p.starts.get k → p.channel h i = p.channel k i)
    ∧ (p.order = .rotate → p.channels = 3 →
        (List.finRange 8).map (fun j => p.channel h (BitVec.ofNat 3 j.val))
          = [0, 1, 2, 0, 1, 2, 0, 1].map (fun o => (p.starts.get h + o) % 3)))
  ∧ ∀ (s : State) (tag : Byte) (a : AirArgs), Ready s (.pageWriteAir a) tag → s.mode = .loading →
    AirOrder.ofCode a.order ≠ none →
    ∃ p r data, exec (.pageWriteAir a) s = .next (State.replied
        { s with pages := { s.pages with air := p, airLoaded := true } } tag 0x40 r data)
      ∧ p.channels = max 2 (min a.channels.toNat 8)
      ∧ ∀ h : HeadNo, p.starts.get h = (a.starts.get h).toNat % p.channels

/-- SLOT_TIMER_EXPIRY starts the next slot: waiting acknowledgements leave each FIFO and are counted as late, each head
in UP is handed its TUNE and at slot 0 the BEACON, which a full FIFO refuses and counts as overrun, and the timer is
armed again. HCQ is told of each held command that was not sent: its SENT entry waits again, its attempts unchanged. The
acknowledgements of a FIFO are those frames that are neither TUNE nor BEACON, in order, each with its address and its
held command. -/
def Obligations.SlotTimerStartsSlot : Prop :=
  (∀ s : State, s.clock.slotTimer.isSome →
    let slot := s.clock.slot + 1
    let superframe := if s.clock.slot = 7 then s.clock.superframe + 1 else s.clock.superframe
    ∃ t, exec .slotTimerExpiry s = .next t
      ∧ t.clock = { slot := slot, superframe := superframe, slotTimer := some s.pages.air.slotLength }
      ∧ t = { s with heads := t.heads, hcq := t.hcq, clock := t.clock }
      ∧ t.hcq = s.hcq.toldNotSent (allHeads.flatMap fun h => acksOf (s.head h).txFifo)
      ∧ t.hcq.orders = s.hcq.orders
      ∧ ∀ h : HeadNo,
          let v := s.head h
          let kept := v.txFifo.filter (fun f => f.ack?.isNone)
          let c := v.counters
          let late := countedUp 65535 c.late (acksOf v.txFifo).length
          let handed := [HeadFrame.tune (s.pages.air.channel h slot) superframe slot]
            ++ (if slot = 0 then [.beacon superframe s.hcq.orders] else [])
          (v.link ≠ .up → t.head h = { v with txFifo := kept, counters := { c with late := late } })
          ∧ (v.link = .up → t.head h = { v with
              txFifo := kept ++ handed.take (16 - kept.length),
              counters := { c with
                late := late, overrun := countedUp 65535 c.overrun (handed.length - (16 - kept.length)) } }))
  ∧ (∀ f : HeadFrame, f.ack? = match f with
      | .ack a _ _ _ held => some (a, held)
      | .tune _ _ _ => none
      | .beacon _ _ => none)
  ∧ (∀ fifo : List HeadFrame, acksOf fifo = fifo.flatMap fun f => match f with
      | .ack a _ _ _ held => [(a, held)]
      | .tune _ _ _ => []
      | .beacon _ _ => [])
  ∧ ∀ (q : Hcq) (a : Address) (n : Byte),
    ((∀ y ∈ q.entries, ¬ (y.target = a ∧ y.number = n ∧ y.state = .sent)) → q.notSent a n = q)
    ∧ ∀ before x after, q.entries = before ++ x :: after → x.target = a → x.number = n → x.state = .sent →
      (∀ y ∈ before, ¬ (y.target = a ∧ y.number = n ∧ y.state = .sent)) →
      q.notSent a n = { q with
        entries := before ++ { x with state := .waiting } :: after,
        counters := { q.counters with reverted := min (q.counters.reverted + 1) 4294967295 } }

/-! ## The seconds tick and what it times (sections 5 to 8) -/

/-- SECONDS_TICK advances the clock and the timers, makes the heartbeat checks, lapses the zones whose window deadline
is reached and removes the held entries that have expired, each with its record. It is stated where no timer's expiry is
outstanding; where one is, the tick is that of the part once every outstanding expiry is taken (log 10), the periods
being 1 or more as every stored page 2 has them. The order of the blocks is the model's (log 9). -/
def Obligations.SecondsTickDelivered : Prop :=
  (∀ s : State, s.su.sweepTimer ≠ some 0 → s.evu.flushTimer ≠ 0 → s.evu.summaryTimer ≠ 0 →
    let now := min (s.su.clock + 1) 4294967295
    let lost := allHeads.filter fun h => decide ((s.head h).link = .up
      ∧ 3 ≤ if (s.head h).statusSeen = false then (s.head h).missed + 1 else (s.head h).missed)
    let lapsing := allZones.filter fun z => decide ((s.zone z).enabled = true ∧ (s.zone z).state = .verify
      ∧ (s.zone z).deadline.any (fun d => decide (d ≤ now)) = true)
    let expired := s.hcq.entries.filter fun e => decide (e.expiry ≤ now)
    let raised : Evu := State.evuAfter { s with su := { s.su with clock := now } }
      (lost.map (fun h => (.headLost h, none, none, none))
        ++ lapsing.map (fun z =>
          (.zoneLapse .expiry (if 0 < (s.zone z).raised then .pre else .quiet) (s.zone z).raised,
            some z, (s.zone z).first, none))
        ++ expired.map (fun e =>
          (.commandExpired ⟨e.number, e.code, e.argument⟩ e.state e.attempts, none, some e.target, none)))
    ∃ t, exec .secondsTick s = .next t
      ∧ t.su = { s.su with clock := now, sweepTimer := s.su.sweepTimer.map (fun n => n - 1) }
      ∧ t.evu.flushTimer = s.evu.flushTimer - 1 ∧ t.evu.summaryTimer = s.evu.summaryTimer - 1
      ∧ t.hcq.entries = s.hcq.entries.filter (fun e => decide (now < e.expiry))
      ∧ t.hcq = { s.hcq with
          entries := t.hcq.entries,
          counters := { s.hcq.counters with
            expired := countedUp 4294967295 s.hcq.counters.expired expired.length } }
      ∧ t.evu = { raised with flushTimer := s.evu.flushTimer - 1, summaryTimer := s.evu.summaryTimer - 1 }
      ∧ (∀ h : HeadNo,
          let v := s.head h
          let missed := if v.link = .up ∧ v.statusSeen = false then v.missed + 1 else v.missed
          t.head h = { v with missed := missed, statusSeen := false,
                              link := if v.link = .up ∧ 3 ≤ missed then .lost else v.link })
      ∧ (∀ z : ZoneNo,
          let v := s.zone z
          (∀ d, v.enabled = true → v.state = .verify → v.deadline = some d → d ≤ now →
            t.zone z = { v with state := if 0 < v.raised then .pre else .quiet, first := none, deadline := none })
          ∧ ((v.enabled = false ∨ v.state ≠ .verify ∨ v.deadline = none ∨ ∃ d, v.deadline = some d ∧ now < d) →
            t.zone z = v))
      ∧ t = { s with heads := t.heads, zones := t.zones, su := t.su, hcq := t.hcq, evu := t.evu })
  ∧ ∀ s : State, 0 < s.pages.timing.sweep → 0 < s.pages.timing.flush → 0 < s.pages.timing.summary →
    let u := s.expiriesTaken
    exec .secondsTick s = exec .secondsTick u
      ∧ u.su.sweepTimer ≠ some 0 ∧ u.evu.flushTimer ≠ 0 ∧ u.evu.summaryTimer ≠ 0

/-- HEAD_LOST, VERIFY_WINDOW_LAPSE and HELD_COMMAND_EXPIRY with their condition standing: a head in UP whose missed
count has reached 3 becomes LOST; a zone whose window deadline is reached falls to PRE or QUIET; an expired entry leaves
the queue. Each raises its record. The rows for one head, zone or entry stand beside the tick by the model's choice (log
9). -/
def Obligations.DueEventsTaken : Prop :=
  (∀ (s : State) (h : HeadNo), (s.head h).link = .up → 3 ≤ (s.head h).missed →
    ∃ t, exec (.headLost h) s = .next t
      ∧ HeadBecomes s t h { s.head h with link := .lost }
      ∧ t.evu = s.evuAfter [(.headLost h, none, none, none)]
      ∧ t = { s with heads := t.heads, evu := t.evu })
  ∧ (∀ (s : State) (z : ZoneNo) (d : Nat), (s.zone z).enabled = true → (s.zone z).state = .verify →
    (s.zone z).deadline = some d → d ≤ s.su.clock →
    let v := s.zone z
    let fallen := if 0 < v.raised then ZoneState.pre else ZoneState.quiet
    ∃ t, exec (.verifyWindowLapse z) s = .next t
      ∧ ZoneBecomes s t z { v with state := fallen, first := none, deadline := none }
      ∧ t.evu = s.evuAfter [(.zoneLapse .expiry fallen v.raised, some z, v.first, none)]
      ∧ t = { s with zones := t.zones, evu := t.evu })
  ∧ ∀ (s : State) (before after : List HeldEntry) (e : HeldEntry), s.hcq.entries = before ++ e :: after →
    e.expiry ≤ s.su.clock →
    (∀ x ∈ before, ¬ (x.target = e.target ∧ x.number = e.number ∧ x.expiry ≤ s.su.clock)) →
    ∃ t, exec (.heldCommandExpiry e.target e.number) s = .next t
      ∧ t.hcq = { s.hcq with
          entries := before ++ after,
          counters := { s.hcq.counters with expired := min (s.hcq.counters.expired + 1) 4294967295 } }
      ∧ t.evu = s.evuAfter
          [(.commandExpired ⟨e.number, e.code, e.argument⟩ e.state e.attempts, none, some e.target, none)]
      ∧ t = { s with hcq := t.hcq, evu := t.evu }

/-- FLUSH_EXPIRY closes every open context with cause FLUSH, as O26 says how; SUMMARY_EXPIRY builds a ZONE_SUMMARY of
the part as it stands into the summary slot, replacing one that still waits there, and leaves the rest of EVU but for a
grant that was due; SWEEP_TIMER_EXPIRY starts a sweep or counts an overlap. Each arms its timer again. That an expiry is
a step of its own is the model's choice (log 10), and so is that a summary whose grant was due on the idle link is
granted it first (log 11). -/
def Obligations.TimersExpire : Prop :=
  (∀ s : State, s.evu.flushTimer = 0 →
    ∃ t, exec .flushExpiry s = .next t ∧ t.evu.contexts = [] ∧ t.evu.flushTimer = s.pages.timing.flush
      ∧ t.evu = { s.evu.closeAll s.su.clock .flush with flushTimer := s.pages.timing.flush }
      ∧ t.evu.filters = s.evu.filters ∧ t.evu.replySlot = s.evu.replySlot
      ∧ (t.evu.summarySlot = s.evu.summarySlot ∨ s.evu.tx = none ∧ t.evu.summarySlot = none)
      ∧ t.evu.summaryTimer = s.evu.summaryTimer ∧ t = { s with evu := t.evu })
  ∧ (∀ s : State, s.evu.summaryTimer = 0 →
    ∃ t, exec .summaryExpiry s = .next t
      ∧ t.evu.summarySlot = some
          { time := s.su.clock, mode := s.mode, missing := s.su.missing,
            heads := allHeads.map (fun h => ((s.head h).link, (s.head h).jam)),
            zones := allZones.map (fun z => ((s.zone z).state, (s.zone z).enabled, (s.zone z).service)) }
      ∧ t.evu.counters.summariesBuilt = min (s.evu.counters.summariesBuilt + 1) 4294967295
      ∧ t.evu.counters.summariesReplaced =
          (if s.evu.summarySlot.isSome ∧ (s.evu.tx.isSome ∨ s.evu.replySlot.isSome ∨ s.evu.alarmQueue ≠ []) then
            min (s.evu.counters.summariesReplaced + 1) 4294967295
           else s.evu.counters.summariesReplaced)
      ∧ t.evu.summaryTimer = s.pages.timing.summary ∧ t.evu.flushTimer = s.evu.flushTimer
      ∧ t.evu.contexts = s.evu.contexts ∧ t.evu.filters = s.evu.filters
      ∧ t = { s with evu := s.summaryBuilt s.evu })
  ∧ ∀ s : State, s.su.sweepTimer = some 0 →
    (s.su.sweep = none → exec .sweepTimerExpiry s = .next { s with su := { s.su with
        sweep := some 0, sweepsStarted := min (s.su.sweepsStarted + 1) 4294967295,
        sweepTimer := some s.pages.timing.sweep } })
    ∧ ∀ i, s.su.sweep = some i → exec .sweepTimerExpiry s = .next { s with su := { s.su with
        overlaps := min (s.su.overlaps + 1) 4294967295, sweepTimer := some s.pages.timing.sweep } }

/-- VISIT_REQUEST with no request of FIU or MEX waiting marks an enabled, overdue, AWAITED or PRESENT record MISSING
with DETECTOR_MISSING, leaves every other record, and advances the sweep; while such a request waits it is not granted.
FIU has one waiting in LOOKING_UP and in COMPLETING, MEX while it executes a command that R175 takes at DTU. How the
arbiter of DTU is kept is the model's choice (log 12). -/
def Obligations.VisitMarksMissing : Prop :=
  (∀ (s : State) (i : Nat), s.su.sweep = some i → s.fiu.state.waits = false → s.mexWaits = false →
    let sweeping (missing : Nat) : Su := { s.su with
      missing := missing,
      sweep := if i + 1 < s.pages.memory.tableSize then some (i + 1) else none,
      sweepsCompleted := if i + 1 < s.pages.memory.tableSize then s.su.sweepsCompleted
        else min (s.su.sweepsCompleted + 1) 4294967295 }
    (∀ r, s.dtu.recordAt i = some r → r.enabled = true → r.presence ≠ .missing → r.deadline ≤ s.su.clock →
      exec .visitRequest s = .next { s with
        dtu := s.dtu.putRecord i (some { r with presence := .missing }), su := sweeping (s.su.missing + 1),
        evu := s.evuAfter [(.detectorMissing r.presence r.deadline (r.period * r.misses), some r.zone, some r.address,
          some r.kind)] })
    ∧ ((s.dtu.recordAt i = none ∨ ∃ r, s.dtu.recordAt i = some r
          ∧ (r.enabled = false ∨ r.presence = .missing ∨ s.su.clock < r.deadline)) →
      exec .visitRequest s = .next { s with su := sweeping s.su.missing }))
  ∧ (∀ s : State, s.fiu.state.waits = true ∨ s.mexWaits = true → exec .visitRequest s = .next s)
  ∧ (∀ x : FiuState, x.waits = true ↔ (∃ f, x = .lookingUp f) ∨ ∃ f i e passed, x = .completing f i e passed)
  ∧ (∀ s : State, s.mexWaits = true ↔ ∃ p c, s.mex.state = .executing p ∧ parseCommand p = some c ∧ c.atDtu = true)
  ∧ ∀ c : Command, c.atDtu = match c with
      | .enrol _ => true
      | .amend _ _ => true
      | .withdraw _ => true
      | .lookup _ => true
      | .clearTable => true
      | .detectorDisable _ => true
      | .detectorEnable _ => true
      | .zoneReset _ => true
      | .command _ _ _ => true
      | .pageWriteMemory _ => true
      | .start => true
      | .statusQuery => true
      | _ => false

/-! ## Frame intake (section 3) -/

/-- FRAME_TAKE serves the urgent lane before the normal lane. -/
def Obligations.FrameTakeOrder : Prop :=
  ∀ (s : State) (f : LaneFrame) (rest : List LaneFrame), s.fiu.state = .idle →
    (s.intake.urgentLane = f :: rest → exec .frameTake s = .next { s with
        intake := { s.intake with urgentLane := rest },
        fiu := { state := .lookingUp f, counters :=
          { s.fiu.counters with urgentTaken := min (s.fiu.counters.urgentTaken + 1) 4294967295 } } })
    ∧ (s.intake.urgentLane = [] → s.intake.normalLane = f :: rest → exec .frameTake s = .next { s with
        intake := { s.intake with normalLane := rest },
        fiu := { state := .lookingUp f, counters :=
          { s.fiu.counters with normalTaken := min (s.fiu.counters.normalTaken + 1) 4294967295 } } })

/-- LOOKUP_REQUEST drops a frame whose address is not enrolled, or captures the record's index, epoch and key. -/
def Obligations.LookupRequestAnswered : Prop :=
  ∀ (s : State) (f : LaneFrame), s.fiu.state = .lookingUp f →
    (s.findRecord f.frame.address = none → exec .lookupRequest s = .next { s with
        intake := { s.intake with freeBlocks := s.intake.freeBlocks + 1 },
        fiu := { state := .idle, counters :=
          { s.fiu.counters with unknown := min (s.fiu.counters.unknown + 1) 4294967295 } } })
    ∧ ∀ i p r, s.findRecord f.frame.address = some (i, p, r) → exec .lookupRequest s = .next { s with
        fiu := { s.fiu with state := .checking f i (s.dtu.epochAt i) r.key } }

/-- INTEGRITY_CHECK_DONE compares the frame's tag with the tag function's value for the captured key and the covered
bytes. The function is uninterpreted (log 8), and the verdict is held until the completion (log 26). -/
def Obligations.IntegrityCheckVerdict : Prop :=
  ∀ (s : State) (f : LaneFrame) (i : Nat) (e : BitVec 8) (key : Key), s.fiu.state = .checking f i e key →
    let r := f.frame
    let word := r.sequence.toNat * 16 + r.retry.toNat
    let covered : List Byte :=
      [r.address.extractLsb' 16 8, r.address.extractLsb' 8 8, r.address.extractLsb' 0 8, r.kind,
        BitVec.ofNat 8 (word / 256), BitVec.ofNat 8 word, r.flags, r.done] ++ r.payload
    exec .integrityCheckDone s = .next { s with
      fiu := { s.fiu with state := .completing f i e (Config.wendrunTag key covered == r.tag) } }

/-- The outcome of a completion by the order of R53: each case increments its own counter, FIU is IDLE and the frame's
block is free. A frame whose record is not confirmed has no other effect, be its tag good (moved) or not: nothing is
acknowledged and no record, zone or unit changes. A repeat ends a run of failures, replaces the record's path by a
better one, and is acknowledged when its retry count is above 0; nothing else of the record changes. -/
def Obligations.CompletionOutcome : Prop :=
  (∀ (s : State) (f : LaneFrame) (i : Nat) (e : BitVec 8) (passed : Bool), s.fiu.state = .completing f i e passed →
    let confirmed := decide (s.dtu.epochAt i = e) && (s.dtu.recordAt i).isSome
    let last := (s.dtu.recordAt i).bind DetectorRecord.lastSequence
    let d := (last.map fun l => (f.frame.sequence - l).toNat).getD 1
    let c := s.fiu.counters
    let count (b : Bool) (n : Nat) := if b then min (n + 1) 4294967295 else n
    ∃ t, exec .completionRequest s = .next t ∧ t.fiu.state = .idle
      ∧ t.intake = { s.intake with freeBlocks := s.intake.freeBlocks + 1 }
      ∧ t.fiu.counters.integrityFailure = count (!passed) c.integrityFailure
      ∧ t.fiu.counters.moved = count (passed && !confirmed) c.moved
      ∧ t.fiu.counters.stale = count (passed && confirmed && decide (2048 ≤ d)) c.stale
      ∧ t.fiu.counters.repeated = count (passed && confirmed && decide (d = 0)) c.repeated
      ∧ t.fiu.counters.new = count (passed && confirmed && decide (1 ≤ d) && decide (d ≤ 2047)) c.new
      ∧ t.mode = s.mode ∧ t.pages = s.pages ∧ t.clock = s.clock ∧ t.pli = s.pli ∧ t.mex = s.mex
      ∧ t.dtu.chains = s.dtu.chains ∧ t.dtu.freeList = s.dtu.freeList
      ∧ ∀ j, j ≠ i → t.dtu.recordAt j = s.dtu.recordAt j)
  ∧ (∀ (s : State) (f : LaneFrame) (i : Nat) (e : BitVec 8), s.dtu.epochAt i ≠ e ∨ s.dtu.recordAt i = none →
    let c := s.fiu.counters
    let dropped (counters : FiuCounters) : State := { s with
      intake := { s.intake with freeBlocks := s.intake.freeBlocks + 1 }, fiu := { state := .idle, counters := counters } }
    (s.fiu.state = .completing f i e true → exec .completionRequest s = .next
      (dropped { c with moved := min (c.moved + 1) 4294967295 }))
    ∧ (s.fiu.state = .completing f i e false → exec .completionRequest s = .next
      (dropped { c with integrityFailure := min (c.integrityFailure + 1) 4294967295 })))
  ∧ ∀ (s : State) (f : LaneFrame) (i : Nat) (e : BitVec 8) (r : DetectorRecord),
    s.fiu.state = .completing f i e true → s.dtu.epochAt i = e → s.dtu.recordAt i = some r →
    r.lastSequence = some f.frame.sequence →
    let p : Path := { head := f.head, relay := if f.frame.hop.toNat = 0 then none else some f.frame.relay,
                      hop := f.frame.hop.toNat, signal := max (-127) (min f.frame.signal.toInt 0) }
    let path := match r.path with
      | none => none
      | some q => if p.hop < q.hop ∨ (p.hop = q.hop ∧ q.signal < p.signal) then some p else some q
    let c := { s.fiu.counters with repeated := min (s.fiu.counters.repeated + 1) 4294967295 }
    let repeated : State := { s with
      dtu := s.dtu.putRecord i (some { r with failureRun := 0, path := path }),
      intake := { s.intake with freeBlocks := s.intake.freeBlocks + 1 },
      fiu := { state := .idle, counters := c },
      evu := s.evuAfter (if r.failureRun = 3 then [(.integrityOk, some r.zone, some r.address, some r.kind)] else []) }
    (f.frame.retry = 0 → exec .completionRequest s = .next repeated)
    ∧ (f.frame.retry ≠ 0 → ∃ t, exec .completionRequest s = .next t
        ∧ Acknowledged s.hcq s t f r.address
        ∧ t = { repeated with
            heads := t.heads, hcq := t.hcq,
            fiu := { state := .idle, counters :=
              { c with acknowledgements := min (c.acknowledgements + 1) 4294967295 } } })

/-- A new frame: its sequence and path are stored, the weak count follows the signal margin, and SU makes an enabled
record PRESENT with a deadline of now + P × M and the frame's battery and tamper flags. The echo judgement of a SENT
held command completes it (TEST_ENTER, TEST_EXIT and SET_PERIOD write the record), or counts an attempt; a SOUNDER's
reported pattern gets its check. A reading or call state of an enabled record is classified against the record's current
level: the level is written with the zone's epoch, the baseline and the drift fault are updated with DRIFT_LIMIT or
DRIFT_CLEARED, a transition closes the context, raises DETECTOR_STATE and reaches ZU, an ALARM that stays is told to ZU,
and a value that the report mode selects goes to EVU and becomes the last reported value. A frame whose kind or payload
does not suit its record is counted as a kind mismatch, and a frame with no reading for LVP changes none of these
fields. The records stand in the order of R65. That LOW_SIGNAL and SIGNAL_OK carry the signal strength taken into -127
to 0 is deduced (log 20, DEDUCED). -/
def Obligations.NewFrameWritesRecord : Prop :=
  ∀ (s : State) (f : LaneFrame) (i : Nat) (e : BitVec 8) (r : DetectorRecord),
    s.fiu.state = .completing f i e true → s.dtu.epochAt i = e → s.dtu.recordAt i = some r →
    (∀ l, r.lastSequence = some l → 1 ≤ (f.frame.sequence - l).toNat ∧ (f.frame.sequence - l).toNat ≤ 2047) →
    let signal := max (-127) (min f.frame.signal.toInt 0)
    let hop := f.frame.hop.toNat
    let weak := decide (signal < s.pages.air.signalMargin)
    let low := f.frame.flags.getLsbD 1
    let isOpen := f.frame.flags.getLsbD 2
    let v := s.zone r.zone
    let sent := s.hcq.entries.find? fun x => x.target == r.address && x.state == .sent
    let completes (code : HeldCode) := sent.any fun x => f.frame.done == x.number && x.code == code
    let period := match sent with
      | none => r.period
      | some x => if f.frame.done = x.number ∧ x.code = .setPeriod then x.argument.toNat else r.period
    let reported := (f.frame.payload.headD 0).toNat
    let second := (f.frame.payload.getD 1 0).toNat
    let judged := r.kind = .sounder ∧ f.frame.kind = 4 ∧ reported ≤ 7
    let expected := (s.hcq.orders.filter fun g => g.scope == .all || g.scope == .zone r.zone).foldl
      (fun m g => max m g.pattern) 0
    let uncounts := completes .testEnter = true ∧ r.counted v.epoch = true
    let falls := v.raised ≤ 1 ∧ v.enabled = true ∧ v.state = .pre
    let test := if completes .testEnter then true else if completes .testExit then false else r.test
    let boundary := completes .testEnter = true ∨ (completes .testExit = true ∧ r.test = true)
    let before : Level := if boundary then .normal else if r.levelEpoch = v.epoch then r.level else .normal
    let S := if v.service then v.offset else 0
    let reading : Option Reading :=
      if r.enabled = false then none
      else match r.kind with
        | .smoke =>
          if f.frame.kind = 1 then some (smokeReading s.pages.levels r.baseline S before reported) else none
        | .heat => if f.frame.kind = 1 then some (heatReading s.pages.levels before reported) else none
        | .multi =>
          if f.frame.kind = 2 then some (multiReading s.pages.levels r.baseline S before reported second) else none
        | .callpoint => if f.frame.kind = 3 ∧ reported ≤ 1 then some (callReading (decide (reported = 1))) else none
        | .sounder => none
        | .relay => none
    let suits : Prop := f.frame.kind = 0 ∨ match r.kind with
      | .smoke => f.frame.kind = 1
      | .heat => f.frame.kind = 1
      | .multi => f.frame.kind = 2
      | .callpoint => f.frame.kind = 3 ∧ reported ≤ 1
      | .sounder => f.frame.kind = 4 ∧ reported ≤ 7
      | .relay => False
    let raises (l : List EventBody) : Evu := s.evuAfter (l.map fun b => (b, some r.zone, some r.address, some r.kind))
    let early : List EventBody :=
      (if r.failureRun = 3 then [.integrityOk] else [])
        ++ (if weak then (if r.weakCount = 3 then [.lowSignal signal hop] else [])
            else if 4 ≤ r.weakCount then [.signalOk signal hop] else [])
        ++ (if r.enabled then
              (if r.presence = .missing then [.detectorPresent r.deadline] else [])
                ++ (if low ∧ r.battery = .ok then [.batteryLow] else [])
                ++ (if ¬ low ∧ r.battery = .low then [.batteryOk] else [])
                ++ (if isOpen ∧ r.tamper = .closed then [.tamperOpen] else [])
                ++ (if ¬ isOpen ∧ r.tamper = .opened then [.tamperClosed] else [])
            else [])
        ++ (match sent with
            | none => []
            | some x =>
              let a : Attachment := ⟨x.number, x.code, x.argument⟩
              if f.frame.done = x.number then [.commandDone a x.attempts]
              else if s.pages.timing.attemptLimit ≤ x.attempts + 1 then
                [.commandFailed .noEcho a none (x.attempts + 1)]
              else [])
        ++ (if uncounts ∧ falls then [.zoneQuiet] else [])
    let records : List EventBody := early
        ++ (if judged then
              (if reported = expected then (if r.mismatchRun = 2 then [.sounderMatch reported expected] else [])
               else if r.mismatchRun = 1 then [.sounderMismatch reported expected] else [])
            else [])
    ∃ t r', exec .completionRequest s = .next t ∧ t.dtu.recordAt i = some r'
      ∧ r'.lastSequence = some f.frame.sequence
      ∧ r'.path = some { head := f.head, relay := if hop = 0 then none else some f.frame.relay, hop := hop,
                         signal := signal }
      ∧ r'.weakCount = (if weak then min (r.weakCount + 1) 8 else 0)
      ∧ r'.failureRun = 0 ∧ r'.period = period ∧ r'.deadline = min (s.su.clock + period * r.misses) 4294967295
      ∧ r'.presence = (if r.enabled then .present else r.presence)
      ∧ r'.battery = (if r.enabled then (if low then .low else .ok) else r.battery)
      ∧ r'.tamper = (if r.enabled then (if isOpen then .opened else .closed) else r.tamper)
      ∧ r'.test = test
      ∧ r'.sounderPattern = (if judged then reported else r.sounderPattern)
      ∧ r'.mismatchRun = (if judged then (if reported = expected then 0 else min (r.mismatchRun + 1) 2)
          else r.mismatchRun)
      ∧ r'.address = r.address ∧ r'.kind = r.kind ∧ r'.zone = r.zone ∧ r'.key = r.key ∧ r'.misses = r.misses
      ∧ r'.enabled = r.enabled ∧ r'.collision = r.collision
      ∧ t.su = { s.su with missing :=
          if r.enabled ∧ r.presence = .missing then s.su.missing - 1 else s.su.missing }
      ∧ t.intake = { s.intake with freeBlocks := s.intake.freeBlocks + 1 }
      ∧ t.fiu.state = .idle
      ∧ (suits → t.fiu.counters = { s.fiu.counters with
          new := min (s.fiu.counters.new + 1) 4294967295,
          acknowledgements := min (s.fiu.counters.acknowledgements + 1) 4294967295 })
      ∧ (¬ suits → t.fiu.counters = { s.fiu.counters with
          new := min (s.fiu.counters.new + 1) 4294967295,
          kindMismatch := min (s.fiu.counters.kindMismatch + 1) 4294967295,
          acknowledgements := min (s.fiu.counters.acknowledgements + 1) 4294967295 })
      ∧ (reading = none →
          (boundary → r'.level = .normal ∧ r'.levelEpoch = v.epoch)
          ∧ (¬ boundary → r'.level = r.level ∧ r'.levelEpoch = r.levelEpoch)
          ∧ r'.baseline = r.baseline ∧ r'.driftFault = r.driftFault ∧ r'.lastReported = r.lastReported
          ∧ t.evu = raises records
          ∧ (¬ uncounts → t.zones = s.zones)
          ∧ (uncounts → ZoneBecomes s t r.zone
              { v with raised := v.raised - 1, state := if falls then .quiet else v.state }))
      ∧ (∀ x, reading = some x →
          let drifted : List EventBody := match x.drift with
            | none => []
            | some (B, D) =>
              if r.driftFault = false ∧ D < (B + 8) / 16 then [.driftLimit ((B + 8) / 16) D]
              else if r.driftFault = true ∧ (B + 8) / 16 ≤ D - 4 then [.driftCleared ((B + 8) / 16) D]
              else []
          let told : Option Nat := match x.report with
            | none => none
            | some (p, n) =>
              if p.mode = .all ∨ (p.mode = .band ∧ ∀ l ∈ r.lastReported, p.delta ≤ max n l - min n l) then some n
              else none
          r'.level = x.level ∧ r'.levelEpoch = v.epoch
          ∧ r'.baseline = (match x.drift with
              | none => r.baseline
              | some (B, _) => some B)
          ∧ r'.driftFault = (match x.drift with
              | none => r.driftFault
              | some (B, D) => if D < (B + 8) / 16 then true else if (B + 8) / 16 ≤ D - 4 then false else r.driftFault)
          ∧ r'.lastReported = (if told.isSome then told else r.lastReported)
          ∧ ∃ u w : State,
              u = { s with
                zones := u.zones,
                evu := if x.level = before then raises (early ++ drifted)
                  else ((raises (early ++ drifted)).closeFor s.now .transition r.address).take s.now
                    (s.eventRecord (.detectorState before x.level x.smoke x.other test) (some r.zone) (some r.address)
                      (some r.kind)) }
              ∧ (¬ uncounts → u.zones = s.zones)
              ∧ (uncounts → ZoneBecomes s u r.zone
                  { v with raised := v.raised - 1, state := if falls then .quiet else v.state })
              ∧ (test = true → w = u)
              ∧ (test = false → x.level ≠ before → w = u.zoneTransition r.zone r.address r.kind before x.level)
              ∧ (test = false → x.level = before → before = .alarm → w = u.zoneStaysAlarm r.zone r.address r.kind)
              ∧ (test = false → x.level = before → before ≠ .alarm → w = u)
              ∧ t.zones = w.zones
              ∧ t.evu = (match told with
                  | none => w.evu
                  | some n => w.evu.report s.now r.address r.zone r.kind f.frame.sequence n))
      ∧ t = { s with
          dtu := s.dtu.putRecord i (some r'), heads := t.heads, intake := t.intake, fiu := t.fiu, zones := t.zones,
          su := t.su, hcq := t.hcq, evu := t.evu }

/-- A new frame is acknowledged, with HCQ's queue as the echo judgement has left it: a SENT entry whose number is the
frame's done number is removed, one whose number is not waits again with an attempt more, or is removed at the attempt
limit. The acknowledgement carries the SENT entry of the address or else its oldest waiting one, which becomes SENT;
late or refused by a full FIFO it is counted, and the entry waits again. -/
def Obligations.NewFrameAcknowledged : Prop :=
  ∀ (s : State) (f : LaneFrame) (i : Nat) (e : BitVec 8) (r : DetectorRecord),
    s.fiu.state = .completing f i e true → s.dtu.epochAt i = e → s.dtu.recordAt i = some r →
    (∀ l, r.lastSequence = some l → 1 ≤ (f.frame.sequence - l).toNat ∧ (f.frame.sequence - l).toNat ≤ 2047) →
    let q := s.hcq
    let c := q.counters
    ∃ t, exec .completionRequest s = .next t
      ∧ t.fiu.counters.acknowledgements = min (s.fiu.counters.acknowledgements + 1) 4294967295
      ∧ ((∀ y ∈ q.entries, ¬ (y.target = r.address ∧ y.state = .sent)) → Acknowledged q s t f r.address)
      ∧ ∀ before x after, q.entries = before ++ x :: after → x.target = r.address → x.state = .sent →
        (∀ y ∈ before, ¬ (y.target = r.address ∧ y.state = .sent)) →
        (f.frame.done = x.number → Acknowledged { q with
            entries := before ++ after, counters := { c with done := min (c.done + 1) 4294967295 } }
          s t f r.address)
        ∧ (f.frame.done ≠ x.number → s.pages.timing.attemptLimit ≤ x.attempts + 1 → Acknowledged { q with
            entries := before ++ after, counters := { c with failedNoEcho := min (c.failedNoEcho + 1) 4294967295 } }
          s t f r.address)
        ∧ (f.frame.done ≠ x.number → x.attempts + 1 < s.pages.timing.attemptLimit → Acknowledged { q with
            entries := before ++ { x with state := .waiting, attempts := x.attempts + 1 } :: after }
          s t f r.address)

/-- A failing tag on a confirmed record increments its failure run, holding at 3, and raises INTEGRITY_FAULT from 2 to
3. A stale frame with a passing tag clears the failure run, with INTEGRITY_OK from 3. Nothing else of the record or of
the part's other blocks changes, and no acknowledgement is composed. -/
def Obligations.DroppedFrameEffects : Prop :=
  ∀ (s : State) (f : LaneFrame) (i : Nat) (e : BitVec 8) (r : DetectorRecord), s.dtu.epochAt i = e →
    s.dtu.recordAt i = some r →
    let raised (b : Bool) (body : EventBody) := s.evuAfter (if b then
      [(body, some r.zone, some r.address, some r.kind)] else [])
    let intake : Intake := { s.intake with freeBlocks := s.intake.freeBlocks + 1 }
    (s.fiu.state = .completing f i e false → exec .completionRequest s = .next { s with
      dtu := s.dtu.putRecord i (some { r with failureRun := min (r.failureRun + 1) 3 }), intake := intake,
      fiu := { state := .idle, counters :=
        { s.fiu.counters with integrityFailure := min (s.fiu.counters.integrityFailure + 1) 4294967295 } },
      evu := raised (r.failureRun == 2) (.integrityFault f.head f.frame.hop.toNat) })
    ∧ ∀ l, s.fiu.state = .completing f i e true → r.lastSequence = some l →
      2048 ≤ (f.frame.sequence - l).toNat → exec .completionRequest s = .next { s with
        dtu := s.dtu.putRecord i (some { r with failureRun := 0 }), intake := intake,
        fiu := { state := .idle, counters :=
          { s.fiu.counters with stale := min (s.fiu.counters.stale + 1) 4294967295 } },
        evu := raised (r.failureRun == 3) .integrityOk }

/-! ## Level processing and zones (sections 4 and 5) -/

/-- The effective thresholds of a channel, and which channels they serve; the level of a channel under them, with its
hysteresis; and what a reading of each kind comes to. The current level is the stored one where its stamp is the zone's
epoch, else NORMAL. -/
def Obligations.EffectiveThresholds : Prop :=
  (∀ (s : State) (d : DetectorRecord) (r h : Nat),
    let z := s.zone d.zone
    let S := if z.service then z.offset else 0
    s.readingOf d (.smoke r) = some (smokeReading s.pages.levels d.baseline S (d.currentLevel z.epoch) r)
    ∧ s.readingOf d (.both r h) = some (multiReading s.pages.levels d.baseline S (d.currentLevel z.epoch) r h)
    ∧ s.readingOf d (.heat h) = some (heatReading s.pages.levels (d.currentLevel z.epoch) h))
  ∧ (∀ (t : ThresholdSet) (S : Nat),
      t.alarmWith S = min (t.alarm + S) 250
      ∧ t.preWith S = (if min (t.pre + S) 249 ≥ min (t.alarm + S) 250 then min (t.alarm + S) 250 - 1
          else min (t.pre + S) 249)
      ∧ (t.alarm ≤ 250 → t.alarm ≤ t.alarmWith S) ∧ t.alarmWith S ≤ 250
      ∧ (2 ≤ t.alarm → t.preWith S < t.alarmWith S)
      ∧ (t.pre < t.alarm → t.alarm ≤ 250 → t.preWith 0 = t.pre ∧ t.alarmWith 0 = t.alarm))
  ∧ (∀ (c P A H : Nat) (current : Level),
      (channelLevel c P A H current = .alarm ↔ A ≤ c ∨ (current = .alarm ∧ A - H ≤ c))
      ∧ (channelLevel c P A H current = .pre ↔ ¬ (A ≤ c ∨ (current = .alarm ∧ A - H ≤ c))
          ∧ (P ≤ c ∨ ((current = .pre ∨ current = .alarm) ∧ P - H ≤ c)))
      ∧ (channelLevel c P A H current = .normal ↔ ¬ (A ≤ c ∨ (current = .alarm ∧ A - H ≤ c))
          ∧ ¬ (P ≤ c ∨ ((current = .pre ∨ current = .alarm) ∧ P - H ≤ c)))
      ∧ (A ≤ H → channelLevel c P A H .alarm = .alarm)
      ∧ (P ≤ H → c < A → channelLevel c P A H .pre = .pre))
  ∧ (∀ H : Nat, (⟨240, 245, H⟩ : ThresholdSet).preWith 20 = 249 ∧ (⟨240, 245, H⟩ : ThresholdSet).alarmWith 20 = 250)
  ∧ (∀ (p : PageLevels) (c : Level) (r : Nat),
      (heatReading p c r).level = channelLevel r (p.heat.preWith 0) (p.heat.alarmWith 0) p.heat.hyst c)
  ∧ (∀ (p : PageLevels) (b : Option Nat) (S : Nat) (c : Level) (r h : Nat),
      (smokeReading p b S c r).level =
          channelLevel (compensated (baselineFor b r p.smoke.pre) r) (p.smoke.preWith S) (p.smoke.alarmWith S)
            p.smoke.hyst c
      ∧ (multiReading p b S c r h).level = Level.max
          (channelLevel (compensated (baselineFor b r p.multiSmoke.pre) r) (p.multiSmoke.preWith S)
            (p.multiSmoke.alarmWith S) p.multiSmoke.hyst c)
          (channelLevel h (p.multiHeat.preWith 0) (p.multiHeat.alarmWith 0) p.multiHeat.hyst c)
      ∧ (smokeReading p b S c r).smoke = some (compensated (baselineFor b r p.smoke.pre) r)
      ∧ (multiReading p b S c r h).smoke = some (compensated (baselineFor b r p.multiSmoke.pre) r)
      ∧ (c = .normal → (smokeReading p b S c r).level = .normal → (smokeReading p b S c r).drift =
          some (steppedBaseline (baselineFor b r p.smoke.pre) r p.smokeDrift.shift, p.smokeDrift.limit))
      ∧ (c = .normal → (multiReading p b S c r h).level = .normal → (multiReading p b S c r h).drift =
          some (steppedBaseline (baselineFor b r p.multiSmoke.pre) r p.multiDrift.shift, p.multiDrift.limit)))
  ∧ (∀ (p : PageLevels) (held : Option Nat) (S : Nat) (c : Level) (r h : Nat),
      let B (P : Nat) := held.getD (16 * min r P)
      let smoke := compensated (B p.smoke.pre) r
      let multi := compensated (B p.multiSmoke.pre) r
      let stepped (B k : Nat) (new : Level) := if c = .normal ∧ new = .normal then steppedBaseline B r k else B
      smokeReading p held S c r =
        { level := channelLevel smoke (p.smoke.preWith S) (p.smoke.alarmWith S) p.smoke.hyst c,
          smoke := some smoke, other := none,
          drift := some (stepped (B p.smoke.pre) p.smokeDrift.shift (smokeReading p held S c r).level,
            p.smokeDrift.limit),
          report := some (p.smokeReport, smoke) }
      ∧ heatReading p c r =
        { level := channelLevel r (p.heat.preWith 0) (p.heat.alarmWith 0) p.heat.hyst c, smoke := none,
          other := some r, drift := none, report := some (p.heatReport, r) }
      ∧ multiReading p held S c r h =
        { level := Level.max
            (channelLevel multi (p.multiSmoke.preWith S) (p.multiSmoke.alarmWith S) p.multiSmoke.hyst c)
            (channelLevel h (p.multiHeat.preWith 0) (p.multiHeat.alarmWith 0) p.multiHeat.hyst c),
          smoke := some multi, other := some h,
          drift := some (stepped (B p.multiSmoke.pre) p.multiDrift.shift (multiReading p held S c r h).level,
            p.multiDrift.limit),
          report := some (p.multiReport, multi) })
  ∧ (∀ b : Bool, callReading b =
      { level := if b then .alarm else .normal, smoke := none, other := some (if b then 1 else 0), drift := none,
        report := none })
  ∧ (∀ l m : Level, (Level.max l m = .alarm ↔ l = .alarm ∨ m = .alarm)
      ∧ (Level.max l m = .normal ↔ l = .normal ∧ m = .normal))
  ∧ (∀ (p : PageLevels) (s : State) (d : DetectorRecord) (b : Bool),
      State.readingOf { s with pages := { s.pages with levels := p } } d (.call b) = s.readingOf d (.call b))
  ∧ (∀ (s : State) (d : DetectorRecord) (b : Bool), s.readingOf d (.call b) = some (callReading b))
  ∧ ∀ (d : DetectorRecord) (epoch : BitVec 8), d.currentLevel epoch = if d.levelEpoch = epoch then d.level else .normal

/-- The rounded baseline and the compensated value of a smoke reading, worked out from the baseline as it stands before
the update. The baseline is updated only when the new and the current level are NORMAL, by the step of R76: the
difference over 2 to the power k truncated toward zero, and at least one sixteenth while there is a difference; the
record takes the baseline a reading gives. The step never overshoots: a baseline and a reading in range give a baseline
in range, between the old one and 16 times the reading. -/
def Obligations.SmokeBaseline : Prop :=
  (∀ b r : Nat, rounded b = (b + 8) / 16 ∧ (b ≤ 4080 → rounded b ≤ 255)
    ∧ compensated b r = (if r < rounded b then 0 else r - rounded b) ∧ (r ≤ 255 → compensated b r ≤ 255))
  ∧ rounded 568 = 36
  ∧ (∀ (s : State) (d : DetectorRecord) (b r h : Nat), d.baseline = some b →
    (∃ x, s.readingOf d (.smoke r) = some x ∧ x.smoke = some (compensated b r))
    ∧ ∃ x, s.readingOf d (.both r h) = some x ∧ x.smoke = some (compensated b r))
  ∧ (∀ (b r k : Nat),
      let d : Int := 16 * (r : Int) - b
      let step : Int := if d = 0 then 0
        else if d.natAbs < 2 ^ k then (if 0 < d then 1 else -1)
        else if 0 < d then (d.natAbs / 2 ^ k : Nat) else -(d.natAbs / 2 ^ k : Nat)
      (steppedBaseline b r k : Int) = b + step)
  ∧ steppedBaseline 560 41 6 = 561 ∧ steppedBaseline 561 36 6 = 562 ∧ steppedBaseline 562 30 6 = 561
  ∧ (∀ (p : PageLevels) (held : Option Nat) (S : Nat) (c : Level) (r h : Nat),
      let smoke := held.getD (16 * min r p.smoke.pre)
      let multi := held.getD (16 * min r p.multiSmoke.pre)
      (smokeReading p held S c r).drift = some
        (if (smokeReading p held S c r).level = .normal ∧ c = .normal then steppedBaseline smoke r p.smokeDrift.shift
         else smoke, p.smokeDrift.limit)
      ∧ (multiReading p held S c r h).drift = some
        (if (multiReading p held S c r h).level = .normal ∧ c = .normal then
          steppedBaseline multi r p.multiDrift.shift else multi, p.multiDrift.limit))
  ∧ (∀ (w : Work) (q : SeqNo) (x : Reading) (b limit : Nat), x.drift = some (b, limit) →
    (w.applyReading q x).det.baseline = some b)
  ∧ ∀ (b r k : Nat), b ≤ 4080 → r ≤ 255 → 2 ≤ k →
    let b' := steppedBaseline b r k
    b' ≤ 4080 ∧ (b ≤ 16 * r → b ≤ b' ∧ b' ≤ 16 * r ∧ (b < 16 * r → b < b'))
      ∧ (16 * r ≤ b → b' ≤ b ∧ 16 * r ≤ b' ∧ (16 * r < b → b' < b))

/-- What a transition does to the detector's zone, and to EVU: the raised count, and the state by the level after, the
zone's mode and state, and whether the detector is a call point, with ZONE_QUIET, ZONE_PRE, ZONE_VERIFY or ZONE_ALARM;
then each zone in VERIFY that names this one as its partner enters ALARM, in ascending number, with its ZONE_ALARM. And
what the notice that a detector stays ALARM does: it confirms a PERSIST zone that waits for that detector, and nothing
else. The operations serve COMPLETION_REQUEST (O19). That a call point's ALARM in a DIRECT zone has the cause CALLPOINT
is the model's choice (log 17). -/
def Obligations.ZoneTransitionOutcome : Prop :=
  (∀ (s : State) (z : ZoneNo) (a : Address) (k : DetectorKind) (before : Level),
    let v := s.zone z
    let up := if before = .normal then v.raised + 1 else v.raised
    let t (l : Level) : State := s.zoneTransition z a k before l
    let after (l : Level) : Zone := (t l).zone z
    let alarm : Zone := { v with raised := up, state := .alarm, first := none, deadline := none, alarmUnsent := true }
    let verify : Zone := { v with raised := up, state := .verify, first := some a,
                                  deadline := some (min (s.su.clock + v.window) 4294967295) }
    let tells (l : List EventBody) : Evu := s.evuAfter (l.map fun b => (b, some z, some a, some k))
    let cause : Option AlarmCause :=
      if v.state = .alarm then none
      else if k = .callpoint then some .callpoint
      else if v.mode = .direct then some .direct
      else if v.state ≠ .verify then none
      else if v.first ≠ some a then some .second
      else if v.mode = .persist then some .persisted
      else none
    let own : Evu := match cause with
      | some c => s.alarmTold z { v with raised := up } a k c none s.evu
      | none => tells (if v.state = .quiet ∨ v.state = .pre then
          [.zoneVerify v.mode (min (s.su.clock + v.window) 4294967295)] else [])
    let confirms (y : ZoneNo) : Prop :=
      y ≠ z ∧ (s.zone y).enabled = true ∧ (s.zone y).state = .verify ∧ (s.zone y).partner = some z
    after .normal = { v with raised := v.raised - 1,
                             state := if v.raised - 1 = 0 ∧ v.enabled ∧ v.state = .pre then .quiet else v.state }
    ∧ after .pre = { v with raised := up, state := if v.enabled ∧ v.state = .quiet then .pre else v.state }
    ∧ (v.enabled = false ∨ v.state = .alarm → after .alarm = { v with raised := up })
    ∧ (v.enabled = true → v.state ≠ .alarm → k = .callpoint ∨ v.mode = .direct → after .alarm = alarm)
    ∧ (v.enabled = true → v.state = .quiet ∨ v.state = .pre → k ≠ .callpoint → v.mode ≠ .direct →
        after .alarm = verify)
    ∧ (v.enabled = true → v.state = .verify → k ≠ .callpoint → v.mode = .persist → after .alarm = alarm)
    ∧ (v.enabled = true → v.state = .verify → k ≠ .callpoint → v.mode = .coincidence →
        after .alarm = if v.first = some a then { v with raised := up } else alarm)
    ∧ (t .normal).evu = tells (if v.raised - 1 = 0 ∧ v.enabled ∧ v.state = .pre then [.zoneQuiet] else [])
    ∧ (t .pre).evu = tells (if v.enabled ∧ v.state = .quiet then [.zonePre up] else [])
    ∧ (v.enabled = false → (t .alarm).evu = s.evu)
    ∧ (v.enabled = true → (t .alarm).evu = (allZones.filter fun y => decide (confirms y)).foldl
        (fun e y => s.alarmTold y (s.zone y) a k .partner (some z) e) own)
    ∧ (∀ l y, y ≠ z → ¬ (l = .alarm ∧ v.enabled = true ∧ confirms y) → (t l).zone y = s.zone y)
    ∧ (∀ y, v.enabled = true → confirms y → (t .alarm).zone y =
        { s.zone y with state := .alarm, first := none, deadline := none, alarmUnsent := true })
    ∧ ∀ l, t l = { s with zones := (t l).zones, evu := (t l).evu })
  ∧ ∀ (s : State) (z : ZoneNo) (a : Address) (k : DetectorKind),
    let v := s.zone z
    let t := s.zoneStaysAlarm z a k
    let confirmed := v.enabled = true ∧ v.mode = .persist ∧ v.state = .verify ∧ v.first = some a
    (confirmed → ZoneBecomes s t z { v with state := .alarm, first := none, deadline := none, alarmUnsent := true }
      ∧ t.evu = s.alarmTold z v a k .persisted none s.evu ∧ t = { s with zones := t.zones, evu := t.evu })
    ∧ (¬ confirmed → t = s)

/-- A new CALL_STATE frame that says operated, from an enabled call point at NORMAL that is not in test: its zone, when
enabled and not in ALARM, enters ALARM, with the zones that wait for it as partner; every context is closed and the
record is at ALARM. The LEVEL_SUMMARY of each closing and the ZONE_ALARM records are stated in O19, O24 and O26. -/
def Obligations.CallPointRaisesAlarm : Prop :=
  ∀ (s : State) (f : LaneFrame) (i : Nat) (e : BitVec 8) (r : DetectorRecord),
    s.fiu.state = .completing f i e true → s.dtu.epochAt i = e → s.dtu.recordAt i = some r →
    (∀ l, r.lastSequence = some l → 1 ≤ (f.frame.sequence - l).toNat ∧ (f.frame.sequence - l).toNat ≤ 2047) →
    (∀ x ∈ s.hcq.entries, ¬ (x.target = r.address ∧ x.state = .sent)) →
    r.kind = .callpoint → r.enabled = true → r.test = false →
    r.level = .normal ∨ r.levelEpoch ≠ (s.zone r.zone).epoch → f.frame.kind = 3 → f.frame.payload = [1] →
    (s.zone r.zone).enabled = true → (s.zone r.zone).state ≠ .alarm →
    let v := s.zone r.zone
    ∃ t r', exec .completionRequest s = .next t ∧ t.dtu.recordAt i = some r' ∧ r'.level = .alarm
      ∧ r'.levelEpoch = v.epoch ∧ t.evu.contexts = []
      ∧ t.zone r.zone = { v with raised := v.raised + 1, state := .alarm, first := none, deadline := none,
                                 alarmUnsent := true }
      ∧ ∀ y, y ≠ r.zone →
          t.zone y = (if (s.zone y).enabled ∧ (s.zone y).state = .verify ∧ (s.zone y).partner = some r.zone then
            { s.zone y with state := .alarm, first := none, deadline := none, alarmUnsent := true }
          else s.zone y)

/-! ## Event records and the panel link (sections 8 and 9) -/

/-- What EVU does with a record other than ZONE_ALARM while no context closes: with no deciding filter it keeps its base
class; the deciding filter, of the highest priority and then the lowest index, suppresses it or raises its class; it
joins the tail of the queue of its class or, when that is full, is dropped with the loss count incremented. On an idle
link a grant that was due is made before it joins, and where a reply is due that choice stands (log 11). An urgent match
first closes every open context with cause URGENT, counted once. Where one event closes every context, they close oldest
first, and each LEVEL_SUMMARY is taken as any record. What EVU does with a reported value: it joins the context of its
detector, which closes at its sixteenth value, or opens one, after a gap has closed the old one or 16 open contexts the
oldest. The operations serve every record raised, every closing and every value reported. What a filter accepts, the
base class of each kind and the counters of what is taken and closed are spelled out. A record is raised with the base
class of its kind, the clock's value as its time and lost-before 0. -/
def Obligations.RecordTaken : Prop :=
  (∀ (e : Evu) (now : Nat) (r : EventRecord), r.body.kind ≠ .zoneAlarm →
    (∃ i : Fin 16, (e.filters.get i).accepts r = true ∧ (e.filters.get i).urgent = true) →
    (e.take now r).contexts = []
    ∧ (e.contexts ≠ [] → e.take now r = (Evu.closeAll { e with counters := { e.counters with
        urgentClosings := min (e.counters.urgentClosings + 1) 4294967295 } } now .urgent).take now r))
  ∧ (∀ (e : Evu) (now : Nat) (cause : CloseCause),
    (e.closeAll now cause).contexts = []
    ∧ e.closeAll now cause = e.contexts.foldl (fun x c => x.closes now c cause) { e with contexts := [] }
    ∧ ∀ a, ((∀ d ∈ e.contexts, d.address ≠ a) → e.closeFor now cause a = e)
      ∧ ∀ before c after, e.contexts = before ++ c :: after → c.address = a → (∀ d ∈ before, d.address ≠ a) →
        e.closeFor now cause a = e.closes now c cause)
  ∧ (∀ (e : Evu) (now : Nat) (a : Address) (z : ZoneNo) (k : DetectorKind) (seq : SeqNo) (v : Nat),
    e.contexts.length ≤ 16 →
    let taken := e.report now a z k seq v
    let opened (x : Evu) : Evu := { x with
      contexts := x.contexts ++ [{ address := a, zone := z, kind := k, openedAt := now, first := seq, last := seq,
                                   count := 1, least := v, greatest := v, value := v }],
      counters := { x.counters with contextsOpened := min (x.counters.contextsOpened + 1) 4294967295 } }
    let closed (x : Evu) (c : Context) (cause : CloseCause) : Evu := Evu.take { x with
        contexts := x.contexts.filter (fun d => d.address != c.address),
        counters := x.counters.countClosed cause } now
      { body := .levelSummary c.openedAt c.first c.last c.count c.least c.greatest c.value cause,
        cls := .level, time := now, zone := some c.zone, address := some c.address, kind := some c.kind,
        lostBefore := 0 }
    ((∀ d ∈ e.contexts, d.address ≠ a) →
      (e.contexts.length < 16 → taken = opened e)
      ∧ ∀ c rest, e.contexts = c :: rest → e.contexts.length = 16 → taken = opened (closed e c .eviction))
    ∧ ∀ before c after, e.contexts = before ++ c :: after → c.address = a → (∀ d ∈ before, d.address ≠ a) →
      let gap := (seq - c.last).toNat
      let c' := { c with last := seq, count := c.count + 1, least := min c.least v, greatest := max c.greatest v,
                         value := v }
      let appended : Evu := { e with contexts := before ++ c' :: after }
      (c.kind = k → 1 ≤ gap → gap ≤ 16 →
        (c.count ≠ 15 → taken = appended) ∧ (c.count = 15 → taken = closed appended c' .count))
      ∧ (c.kind ≠ k ∨ gap = 0 ∨ 17 ≤ gap → taken = opened (closed e c .gap)))
  ∧ (∀ (f : Filter) (r : EventRecord), f.accepts r = true ↔ f.enable = true
      ∧ (f.eventKind ≠ none ∨ f.detKind ≠ none ∨ f.zone ≠ none ∨ f.address ≠ none)
      ∧ (∀ k, f.eventKind = some k → r.body.kind = k) ∧ (∀ k, f.detKind = some k → r.kind = some k)
      ∧ (∀ z, f.zone = some z → r.zone = some z) ∧ ∀ a, f.address = some a → r.address = some a)
  ∧ (∀ k : EventKind, (k.baseClass = .alarm ↔ k = .zoneAlarm) ∧ (k.baseClass = .level ↔ k = .levelSummary)
      ∧ (k.baseClass = .fault ↔ k ∈ [.detectorMissing, .batteryLow, .tamperOpen, .driftLimit, .integrityFault,
          .lowSignal, .headLost, .headJammed, .commandFailed, .commandExpired, .sounderMismatch])
      ∧ (k.baseClass = .status ↔ k ∈ [.zonePre, .zoneVerify, .zoneLapse, .zoneQuiet, .detectorState, .detectorPresent,
          .batteryOk, .tamperClosed, .driftCleared, .integrityOk, .signalOk, .headUp, .headClear, .commandDone,
          .sounderMatch]))
  ∧ [EventClass.level, .status, .fault, .alarm].map EventClass.rank = [0, 1, 2, 3]
  ∧ (∀ (s : State) (body : EventBody) (zone : Option ZoneNo) (address : Option Address) (kind : Option DetectorKind),
      s.now = s.su.clock
      ∧ s.eventRecord body zone address kind =
        { body := body, cls := body.kind.baseClass, time := s.su.clock, zone := zone, address := address, kind := kind,
          lostBefore := 0 })
  ∧ (∀ c : EvuCounters,
      c.countTaken .alarm = { c with takenAlarm := min (c.takenAlarm + 1) 4294967295 }
      ∧ c.countTaken .fault = { c with takenFault := min (c.takenFault + 1) 4294967295 }
      ∧ c.countTaken .status = { c with takenStatus := min (c.takenStatus + 1) 4294967295 }
      ∧ c.countTaken .level = { c with takenLevel := min (c.takenLevel + 1) 4294967295 }
      ∧ c.countClosed .count = { c with closedCount := min (c.closedCount + 1) 4294967295 }
      ∧ c.countClosed .gap = { c with closedGap := min (c.closedGap + 1) 4294967295 }
      ∧ c.countClosed .transition = { c with closedTransition := min (c.closedTransition + 1) 4294967295 }
      ∧ c.countClosed .notice = { c with closedNotice := min (c.closedNotice + 1) 4294967295 }
      ∧ c.countClosed .eviction = { c with closedEviction := min (c.closedEviction + 1) 4294967295 }
      ∧ c.countClosed .flush = { c with closedFlush := min (c.closedFlush + 1) 4294967295 }
      ∧ c.countClosed .alarm = { c with closedAlarm := min (c.closedAlarm + 1) 4294967295 }
      ∧ c.countClosed .urgent = { c with closedUrgent := min (c.closedUrgent + 1) 4294967295 }
      ∧ c.countClosed .stop = { c with closedStop := min (c.closedStop + 1) 4294967295 })
  ∧ ∀ (e : Evu) (now : Nat) (r : EventRecord), r.body.kind ≠ .zoneAlarm →
    (e.contexts = [] ∨ ∀ i : Fin 16, (e.filters.get i).accepts r = true → (e.filters.get i).urgent = false) →
    let base := r.body.kind.baseClass
    let counted := e.counters.countTaken base
    let taken : Evu := { e.granted with counters := counted }
    let joins (x : Evu) (c : EventClass) : Evu :=
      let q := { r with cls := c }
      match c with
      | .alarm => { x with
          alarmQueue := x.alarmQueue ++ [q], replyFirst := x.replyFirst || (x.tx.isNone && x.replySlot.isSome) }
      | .fault =>
        if x.faultQueue.length < 48 then { x with faultQueue := x.faultQueue ++ [q] }
        else { x with faultLoss := min (x.faultLoss + 1) 255, counters :=
          { x.counters with droppedFault := min (x.counters.droppedFault + 1) 4294967295 } }
      | .status =>
        if x.statusQueue.length < 48 then { x with statusQueue := x.statusQueue ++ [q] }
        else { x with statusLoss := min (x.statusLoss + 1) 255, counters :=
          { x.counters with droppedStatus := min (x.counters.droppedStatus + 1) 4294967295 } }
      | .level =>
        if x.levelQueue.length < 96 then { x with levelQueue := x.levelQueue ++ [q] }
        else { x with levelLoss := min (x.levelLoss + 1) 255, counters :=
          { x.counters with droppedLevel := min (x.counters.droppedLevel + 1) 4294967295 } }
    let acting (i : Fin 16) : Prop := (e.filters.get i).accepts r = true
      ∧ ((e.filters.get i).raiseClass ≠ none ∨ (e.filters.get i).suppress = true)
    ((∀ i, ¬ acting i) → e.take now r = joins taken base)
    ∧ ∀ i, acting i →
      (∀ j, acting j → (e.filters.get j).priority < (e.filters.get i).priority
        ∨ ((e.filters.get j).priority = (e.filters.get i).priority ∧ i ≤ j)) →
      let f := e.filters.get i
      let raised : Evu := { taken with counters :=
        { counted with classRaised := min (counted.classRaised + 1) 4294967295 } }
      (f.suppress = true → base = .status ∨ base = .level → e.take now r = { e with counters :=
          { counted with suppressed := min (counted.suppressed + 1) 4294967295 } })
      ∧ (f.suppress = false ∨ base = .fault →
        (∀ c, f.raiseClass = some c → base.rank < c.rank → e.take now r = joins raised c)
        ∧ ((f.raiseClass = none ∨ ∃ c, f.raiseClass = some c ∧ c.rank ≤ base.rank) →
          e.take now r = joins taken base))

/-- PANEL_GRANT with the link idle sends the first source that holds a frame, in the order ALARM, reply, summary, FAULT,
STATUS, LEVEL; a record leaves its queue with the queue's loss count, which becomes 0. At the reply's grant an IDLE MEX
takes its next command. With nothing waiting, or the link busy, the grant changes nothing. A ZONE_ALARM that joins while
the link is idle overtakes no frame that waits there: a summary or record gets the link first, and a reply stays the
arbiter's choice. A reply placed waits after a grant that was due. The bytes of each frame are those of R189's layouts.
That a grant is a step of its own, and how the choice is kept until it, is the model's choice (log 11). The kind byte of
a RECORD is the code (O48) of the kind of its body, which is the event that raised it. -/
def Obligations.PanelGrantOrder : Prop :=
  (∀ s : State, s.evu.tx = none →
    let e := s.evu
    (∀ r rest, e.alarmQueue = r :: rest → e.replySlot = none ∨ e.replyFirst = false →
      let f := PanelFrame.record { r with lostBefore := 0 }
      exec .panelGrant s = .next { s with evu := { e with alarmQueue := rest, tx := some ⟨.alarm, f, f.wire⟩ } })
    ∧ (∀ r, e.alarmQueue = [] ∨ e.replyFirst = true → e.replySlot = some r →
      let f := PanelFrame.reply r
      let sent : State :=
        { s with evu := { e with replySlot := none, replyFirst := false, tx := some ⟨.reply, f, f.wire⟩ } }
      ((s.mex.state = .idle ∧ s.pli.fifo = []) ∨ (∃ q, s.mex.state = .executing q) → exec .panelGrant s = .next sent)
      ∧ ∀ p rest, s.mex.state = .idle → s.pli.fifo = p :: rest → exec .panelGrant s = .next { sent with
          pli := { s.pli with fifo := rest },
          mex := { state := .executing p, commandsTaken := min (s.mex.commandsTaken + 1) 4294967295 } })
    ∧ (∀ z, e.alarmQueue = [] → e.replySlot = none → e.summarySlot = some z →
      let f := PanelFrame.summary z
      exec .panelGrant s = .next { s with evu := { e with summarySlot := none, tx := some ⟨.summary, f, f.wire⟩ } })
    ∧ (e.alarmQueue = [] → e.replySlot = none → e.summarySlot = none →
      (∀ r rest, e.faultQueue = r :: rest →
        let f := PanelFrame.record { r with lostBefore := e.faultLoss }
        exec .panelGrant s = .next { s with evu :=
          { e with faultQueue := rest, faultLoss := 0, tx := some ⟨.fault, f, f.wire⟩ } })
      ∧ (∀ r rest, e.faultQueue = [] → e.statusQueue = r :: rest →
        let f := PanelFrame.record { r with lostBefore := e.statusLoss }
        exec .panelGrant s = .next { s with evu :=
          { e with statusQueue := rest, statusLoss := 0, tx := some ⟨.status, f, f.wire⟩ } })
      ∧ (∀ r rest, e.faultQueue = [] → e.statusQueue = [] → e.levelQueue = r :: rest →
        let f := PanelFrame.record { r with lostBefore := e.levelLoss }
        exec .panelGrant s = .next { s with evu :=
          { e with levelQueue := rest, levelLoss := 0, tx := some ⟨.level, f, f.wire⟩ } })
      ∧ (e.faultQueue = [] → e.statusQueue = [] → e.levelQueue = [] → exec .panelGrant s = .next s))
    ∧ ∀ (now : Nat) (r : EventRecord), r.body.kind = .zoneAlarm → e.alarmQueue = [] →
      let joined (x : Evu) : Evu := { x with
        alarmQueue := [{ r with cls := .alarm }],
        counters := { e.counters with takenAlarm := min (e.counters.takenAlarm + 1) 4294967295 } }
      (∀ p, e.replySlot = some p → e.take now r = joined { e with replyFirst := true })
      ∧ (∀ z, e.replySlot = none → e.summarySlot = some z →
        let f := PanelFrame.summary z
        e.take now r = joined { e with summarySlot := none, tx := some ⟨.summary, f, f.wire⟩ })
      ∧ (∀ x rest, e.replySlot = none → e.summarySlot = none → e.faultQueue = x :: rest →
        let f := PanelFrame.record { x with lostBefore := e.faultLoss }
        e.take now r = joined { e with faultQueue := rest, faultLoss := 0, tx := some ⟨.fault, f, f.wire⟩ })
      ∧ (∀ x rest, e.replySlot = none → e.summarySlot = none → e.faultQueue = [] → e.statusQueue = x :: rest →
        let f := PanelFrame.record { x with lostBefore := e.statusLoss }
        e.take now r = joined { e with statusQueue := rest, statusLoss := 0, tx := some ⟨.status, f, f.wire⟩ })
      ∧ (∀ x rest, e.replySlot = none → e.summarySlot = none → e.faultQueue = [] → e.statusQueue = [] →
        e.levelQueue = x :: rest →
        let f := PanelFrame.record { x with lostBefore := e.levelLoss }
        e.take now r = joined { e with levelQueue := rest, levelLoss := 0, tx := some ⟨.level, f, f.wire⟩ })
      ∧ (e.replySlot = none → e.summarySlot = none → e.faultQueue = [] → e.statusQueue = [] → e.levelQueue = [] →
        e.take now r = joined e))
  ∧ (∀ s : State, s.evu.tx ≠ none → exec .panelGrant s = .next s)
  ∧ (∀ (e : Evu) (now : Nat) (r : EventRecord), r.body.kind = .zoneAlarm →
      let counters := { e.counters with takenAlarm := min (e.counters.takenAlarm + 1) 4294967295 }
      (e.tx ≠ none → e.take now r =
        { e with alarmQueue := e.alarmQueue ++ [{ r with cls := .alarm }], counters := counters })
      ∧ ∀ x rest, e.tx = none → e.alarmQueue = x :: rest →
        let f := PanelFrame.record { x with lostBefore := 0 }
        (e.replySlot = none ∨ e.replyFirst = false → e.take now r = { e with
          alarmQueue := rest ++ [{ r with cls := .alarm }], tx := some ⟨.alarm, f, f.wire⟩, counters := counters })
        ∧ (e.replySlot ≠ none → e.replyFirst = true → e.take now r =
          { e with alarmQueue := e.alarmQueue ++ [{ r with cls := .alarm }], counters := counters }))
  ∧ (∀ (e : Evu) (r : Reply), e.placeReply r = { e.granted with replySlot := some r })
  ∧ (∀ b : EventBody, b.kind = match b with
      | .zoneAlarm _ _ _ _ _ => .zoneAlarm
      | .detectorMissing _ _ _ => .detectorMissing
      | .batteryLow => .batteryLow
      | .tamperOpen => .tamperOpen
      | .driftLimit _ _ => .driftLimit
      | .integrityFault _ _ => .integrityFault
      | .lowSignal _ _ => .lowSignal
      | .headLost _ => .headLost
      | .headJammed _ => .headJammed
      | .commandFailed _ _ _ _ => .commandFailed
      | .commandExpired _ _ _ => .commandExpired
      | .sounderMismatch _ _ => .sounderMismatch
      | .zonePre _ => .zonePre
      | .zoneVerify _ _ => .zoneVerify
      | .zoneLapse _ _ _ => .zoneLapse
      | .zoneQuiet => .zoneQuiet
      | .detectorState _ _ _ _ _ => .detectorState
      | .detectorPresent _ => .detectorPresent
      | .batteryOk => .batteryOk
      | .tamperClosed => .tamperClosed
      | .driftCleared _ _ => .driftCleared
      | .integrityOk => .integrityOk
      | .signalOk _ _ => .signalOk
      | .headUp _ => .headUp
      | .headClear _ => .headClear
      | .commandDone _ _ => .commandDone
      | .sounderMatch _ _ => .sounderMatch
      | .levelSummary _ _ _ _ _ _ _ _ => .levelSummary)
  ∧ ∀ (r : EventRecord) (p : Reply) (z : ZoneSummary),
    let sent (type : Byte) (payload : List Byte) : List Byte :=
      let body := byte2 (payload.length + 1) ++ type :: payload
      0xA5 :: (body ++ checkBytes body)
    let zoneOr (n : Byte) (o : Option ZoneNo) : Byte := (o.map fun y => BitVec.ofNat 8 y.val).getD n
    let level (l : Level) : Byte := match l with
      | .normal => 0
      | .pre => 1
      | .alarm => 2
    let state (v : ZoneState) : Byte := match v with
      | .quiet => 0
      | .pre => 1
      | .verify => 2
      | .alarm => 3
    let mode (m : ZoneMode) : Byte := match m with
      | .direct => 0
      | .persist => 1
      | .coincidence => 2
    let presence (q : Presence) : Byte := match q with
      | .awaited => 0
      | .present => 1
      | .missing => 2
    let link (l : LinkState) : Byte := match l with
      | .down => 0
      | .up => 1
      | .lost => 2
    let removal (st : Option HeldState) : Byte := match st with
      | some .waiting => 0
      | some .sent => 1
      | none => 0xFF
    let held (x : Attachment) (st : Option HeldState) (attempts : Nat) (cause : Byte) : List Byte :=
      [x.number, x.code.code] ++ byte2 x.argument.toNat ++ [removal st] ++ byte1 attempts ++ [cause]
    let detail : List Byte := match r.body with
      | .detectorState before after smoke other test => [level before, level after] ++ byte2 (smoke.getD 0xFFFF)
          ++ byte2 (other.getD 0xFFFF) ++ [if test then 1 else 0]
      | .zoneAlarm cause m first partner raised =>
        [match cause with
          | .callpoint => 1
          | .direct => 2
          | .persisted => 3
          | .second => 4
          | .partner => 5, mode m] ++ addressBytes (first.getD 0) ++ [zoneOr 0xFF partner] ++ byte2 raised
      | .zonePre raised => byte2 raised
      | .zoneVerify m deadline => mode m :: byte4 deadline
      | .zoneLapse cause fallen raised => [if cause = .expiry then 1 else 2, state fallen] ++ byte2 raised
      | .detectorMissing before deadline allowance => presence before :: byte4 deadline ++ byte2 allowance
      | .detectorPresent deadline => byte4 deadline
      | .driftLimit b limit => byte1 b ++ byte1 limit
      | .driftCleared b limit => byte1 b ++ byte1 limit
      | .integrityFault head hop => byte1 head.val ++ byte1 hop
      | .lowSignal signal hop => BitVec.ofInt 8 signal :: byte1 hop
      | .signalOk signal hop => BitVec.ofInt 8 signal :: byte1 hop
      | .headUp head => byte1 head.val
      | .headLost head => byte1 head.val
      | .headJammed head => byte1 head.val
      | .headClear head => byte1 head.val
      | .commandDone x attempts => held x none attempts 0
      | .commandFailed cause x st attempts => held x st attempts (if cause = .noEcho then 1 else 2)
      | .commandExpired x st attempts => held x (some st) attempts 0
      | .sounderMismatch reported expected => byte1 reported ++ byte1 expected
      | .sounderMatch reported expected => byte1 reported ++ byte1 expected
      | .levelSummary openedAt first last count least greatest value cause =>
        byte4 openedAt ++ byte2 first.toNat ++ byte2 last.toNat ++ byte1 count ++ byte1 least ++ byte1 greatest
          ++ byte1 value ++ [match cause with
            | .count => 1
            | .gap => 2
            | .transition => 3
            | .notice => 4
            | .eviction => 5
            | .flush => 6
            | .alarm => 7
            | .urgent => 8
            | .stop => 9]
      | .zoneQuiet => []
      | .batteryLow => []
      | .batteryOk => []
      | .tamperOpen => []
      | .tamperClosed => []
      | .integrityOk => []
    let cls : Byte := match r.cls with
      | .alarm => 1
      | .fault => 2
      | .status => 3
      | .level => 4
    let result : Byte := match p.result with
      | .ok => 0
      | .adjusted => 1
      | .unchanged => 2
      | .conflict => 3
      | .absent => 4
      | .tableFull => 5
      | .queueFull => 6
      | .invalid => 7
      | .wrongMode => 8
      | .notDelivered => 9
      | .alarmLatched => 10
      | .pagesMissing => 11
    (PanelFrame.record r).wire = sent 0x81 ([r.body.kind.code, cls] ++ byte4 r.time
        ++ byte1 (r.zone.isSome.toNat + 2 * r.address.isSome.toNat + 4 * r.kind.isSome.toNat) ++ [zoneOr 0 r.zone]
        ++ addressBytes (r.address.getD 0) ++ [(r.kind.map DetectorKind.code).getD 0] ++ byte1 r.lostBefore
        ++ byte1 detail.length ++ detail)
    ∧ (PanelFrame.reply p).wire = sent 0x82 ([p.tag, p.code, result] ++ p.data)
    ∧ (PanelFrame.summary z).wire = sent 0x83 (byte4 z.time ++ [if z.mode = .running then 1 else 0] ++ byte2 z.missing
        ++ z.heads.map (fun v => link v.1 + if v.2 then 4 else 0)
        ++ z.zones.map fun v => state v.1 + (if v.2.1 then 4 else 0) + if v.2.2 then 8 else 0)

/-- RESTART places its reply and leaves MEX in RESTARTING, and nothing else changes yet. The grant of that reply makes
the clear while the reply is on the link: the settings pages, the records' configuration with their places in the table,
the filters and the zones' configuration are kept, and everything else takes its RESTART value. A receiver, a frame
being sent to a head, the model's queue (log 1) and its counter of free values (log 6) stand. That the reply is granted
with ALARM records waiting when it was due before they joined (`replyFirst`, the model's own field) is the model's
choice (log 11, DESIGN CHOICE). -/
def Obligations.RestartClearsAtGrant : Prop :=
  (∀ (s : State) (tag : Byte), Ready s .restart tag →
    exec .restart s = .next { s with
      evu := s.evu.placeReply { tag := tag, code := 0x52, result := .ok, data := [] },
      mex := { s.mex with state := .restarting } })
  ∧ ∀ (s : State) (r : Reply), s.evu.tx = none → s.evu.alarmQueue = [] ∨ s.evu.replyFirst = true →
    s.evu.replySlot = some r → s.mex.state = .restarting →
    ∃ t, exec .panelGrant s = .next t
      ∧ t = {
          mode := .loading, pages := s.pages,
          dtu := { slots := t.dtu.slots, chains := s.dtu.chains, freeList := s.dtu.freeList,
                   maxChain := s.dtu.maxChain },
          heads := t.heads,
          intake := { freeBlocks := 2048 - s.pages.memory.tableSize, urgentLane := [], normalLane := [] },
          clock := { slot := 0, superframe := 0, slotTimer := none },
          fiu := { state := .idle, counters := ⟨0, 0, 0, 0, 0, 0, 0, 0, 0, 0, 0⟩ },
          zones := t.zones,
          su := { clock := 0, sweepTimer := none, sweep := none, missing := 0, sweepsStarted := 0,
                  sweepsCompleted := 0, sweepsAbandoned := 0, overlaps := 0 },
          hcq := { entries := [], nextNumber := 1, orders := [], counters := ⟨0, 0, 0, 0, 0, 0, 0⟩ },
          evu := {
            filters := s.evu.filters, contexts := [], alarmQueue := [], faultQueue := [], statusQueue := [],
            levelQueue := [], faultLoss := 0, statusLoss := 0, levelLoss := 0, summarySlot := none,
            replySlot := none, replyFirst := false, tx := some ⟨.reply, .reply r, (PanelFrame.reply r).wire⟩,
            flushTimer := s.pages.timing.flush, summaryTimer := s.pages.timing.summary,
            counters := ⟨0, 0, 0, 0, 0, 0, 0, 0, 0, 0, 0, 0, 0, 0, 0, 0, 0, 0, 0, 0, 0, 0, 0, 0, 0, 0, 0, 0⟩ },
          pli := { rx := s.pli.rx, fifo := [], badFrames := 0, overflows := 0 },
          mex := { state := .idle, commandsTaken := 0 },
          pending := s.pending, freeIndex := s.freeIndex }
      ∧ t.dtu.slots.length = s.dtu.slots.length
      ∧ (∀ i, t.dtu.epochAt i = s.dtu.epochAt i)
      ∧ (∀ i, t.dtu.recordAt i = (s.dtu.recordAt i).map fun d =>
          { d with test := false, lastSequence := none, path := none, weakCount := 0, failureRun := 0,
                   presence := .awaited, deadline := min (s.pages.timing.grace + d.period * d.misses) 4294967295,
                   battery := .ok, tamper := .closed, baseline := none, driftFault := false, level := .normal,
                   levelEpoch := 0, lastReported := none, sounderPattern := 0, mismatchRun := 0 })
      ∧ (∀ h : HeadNo, t.head h = {
          link := .down, statusSeen := false, missed := 0, jam := false, jamRun := 0,
          counters := ⟨0, 0, 0, 0, 0, 0, 0, 0, 0, 0⟩, rx := (s.head h).rx, txFifo := [],
          sending := (s.head h).sending })
      ∧ ∀ z : ZoneNo, t.zone z = { s.zone z with
          service := false, state := .quiet, raised := 0, epoch := 0, first := none, deadline := none,
          alarmUnsent := false }

/-- TRANSMISSION_COMPLETE frees the link and counts the frame by its source; for a ZONE_ALARM record its zone's unsent
flag becomes no, for any other frame no zone changes. -/
def Obligations.TransmissionCompletes : Prop :=
  (∀ (s : State) (x : PanelTransmission), s.evu.tx = some x →
    ∃ t, exec .transmissionComplete s = .next t ∧ t.evu.tx = none
      ∧ t.evu = { s.evu with tx := none, counters := t.evu.counters }
      ∧ t.evu.counters = s.evu.counters.countSent x.source
      ∧ (∀ r z, x.frame = .record r → r.body.kind = .zoneAlarm → r.zone = some z →
          ZoneBecomes s t z { s.zone z with alarmUnsent := false })
      ∧ ((∀ r, x.frame = .record r → r.body.kind ≠ .zoneAlarm) → t.zones = s.zones)
      ∧ t = { s with zones := t.zones, evu := t.evu })
  ∧ ∀ c : EvuCounters,
      c.countSent .alarm = { c with sentAlarm := min (c.sentAlarm + 1) 4294967295 }
      ∧ c.countSent .reply = { c with sentReply := min (c.sentReply + 1) 4294967295 }
      ∧ c.countSent .summary = { c with sentSummary := min (c.sentSummary + 1) 4294967295 }
      ∧ c.countSent .fault = { c with sentFault := min (c.sentFault + 1) 4294967295 }
      ∧ c.countSent .status = { c with sentStatus := min (c.sentStatus + 1) 4294967295 }
      ∧ c.countSent .level = { c with sentLevel := min (c.sentLevel + 1) 4294967295 }

/-- A good MANAGEMENT frame: MEX takes it at once when it is IDLE with nothing queued and the reply slot empty; else it
joins the FIFO behind fewer than four, and behind four it is discarded and counted as an overflow. -/
def Obligations.ManagementFrameTaken : Prop :=
  ∀ (s : State) (bytes payload : List Byte) (rx : PanelReceiver),
    s.pli.rx.feed bytes = (rx, [.management payload]) →
    (s.mex.state = .idle → s.evu.replySlot = none → s.pli.fifo = [] →
      exec (.managementFrame bytes) s = .next { s with
        pli := { s.pli with rx := rx },
        mex := { state := .executing payload, commandsTaken := min (s.mex.commandsTaken + 1) 4294967295 } })
    ∧ ((s.mex.state ≠ .idle ∨ s.evu.replySlot ≠ none) → s.pli.fifo.length < 4 →
      exec (.managementFrame bytes) s = .next { s with pli := { s.pli with rx := rx, fifo := s.pli.fifo ++ [payload] } })
    ∧ ((s.mex.state ≠ .idle ∨ s.evu.replySlot ≠ none) → 4 ≤ s.pli.fifo.length →
      exec (.managementFrame bytes) s = .next { s with
        pli := { s.pli with rx := rx, overflows := min (s.pli.overflows + 1) 65535 } })

/-- A command whose code or length names no command is refused with INVALID and no data, its tag and code echoed, and so
is a PAGE_WRITE of a page of 4 or more; that this one is executed here is deduced (log 5, DEDUCED). A payload of fewer
than two bytes is refused in the same way: a byte it lacks is echoed as some byte, which is the model's free value (log
6, DESIGN CHOICE), and so is the counter of free values. Which command a payload names, and with which arguments, is
R188's table: the tag, the code and the arguments in their order. -/
def Obligations.UnknownCommandRefused : Prop :=
  (∀ (s : State) (tag code : Byte) (args : List Byte), s.mex.state = .executing (tag :: code :: args) →
    parseCommand (tag :: code :: args) = none →
    exec (.unknownCommand (tag :: code :: args)) s =
      .next (State.replied { s with freeIndex := s.freeIndex + 2 } tag code .invalid []))
  ∧ (∀ s : State, s.mex.state = .executing [] → ∃ tag code, exec (.unknownCommand []) s =
      .next (State.replied { s with freeIndex := s.freeIndex + 2 } tag code .invalid []))
  ∧ (∀ (s : State) (tag : Byte), s.mex.state = .executing [tag] → ∃ code, exec (.unknownCommand [tag]) s =
      .next (State.replied { s with freeIndex := s.freeIndex + 2 } tag code .invalid []))
  ∧ (∀ (tag page : Byte) (args : List Byte), 4 ≤ page.toNat → parseCommand (tag :: 0x40 :: page :: args) = none)
  ∧ (∀ (tag code : Byte) (args : List Byte), parseCommand (tag :: code :: args) ≠ none ↔
      (code.toNat, args.length) ∈ [(0x01, 24), (0x02, 25), (0x03, 3), (0x04, 3), (0x05, 0), (0x06, 3), (0x07, 3),
        (0x08, 1), (0x10, 6), (0x11, 2), (0x12, 1), (0x13, 1), (0x14, 1), (0x20, 6), (0x21, 2), (0x30, 11), (0x41, 1),
        (0x50, 0), (0x51, 0), (0x52, 0), (0x53, 0)]
      ∨ code = 0x40 ∧ (args.head?.map BitVec.toNat, args.length) ∈ [(some 0, 11), (some 1, 23), (some 2, 10),
        (some 3, 4)])
  ∧ ∀ (tag b0 b1 b2 b3 b4 b5 b6 b7 b8 b9 b10 : Byte) (key : List Byte),
    let parses (p : List Byte) (c : Command) : Prop := parseCommand (tag :: p) = some c
    let big : Key := BitVec.ofNat 128 (key.foldl (fun n b => n * 256 + b.toNat) 0)
    let enrolment : EnrolArgs :=
      { address := b0 ++ b1 ++ b2, kind := b3, zone := b4, key := big, period := b5 ++ b6, misses := b7 }
    (key.length = 16 → parses ([0x01, b0, b1, b2, b3, b4] ++ key ++ [b5, b6, b7]) (.enrol enrolment)
      ∧ parses ([0x02, b0, b1, b2, b3, b4] ++ key ++ [b5, b6, b7, b8]) (.amend enrolment (b8.getLsbD 0)))
    ∧ parses [0x03, b0, b1, b2] (.withdraw (b0 ++ b1 ++ b2)) ∧ parses [0x04, b0, b1, b2] (.lookup (b0 ++ b1 ++ b2))
    ∧ parses [0x05] .clearTable ∧ parses [0x06, b0, b1, b2] (.detectorDisable (b0 ++ b1 ++ b2))
    ∧ parses [0x07, b0, b1, b2] (.detectorEnable (b0 ++ b1 ++ b2)) ∧ parses [0x08, b0] (.headReset b0)
    ∧ parses [0x10, b0, b1, b2, b3, b4, b5]
        (.zoneSet { zone := b0, mode := b1, window := b2 ++ b3, partner := b4, offset := b5 })
    ∧ parses [0x11, b0, b1] (.zoneService b0 b1) ∧ parses [0x12, b0] (.zoneReset b0)
    ∧ parses [0x13, b0] (.zoneDisable b0) ∧ parses [0x14, b0] (.zoneEnable b0)
    ∧ parses [0x20, b0, b1, b2, b3, b4, b5] (.command (b0 ++ b1 ++ b2) b3 (b4 ++ b5))
    ∧ parses [0x21, b0, b1] (.groupOrder b0 b1)
    ∧ parses [0x30, b0, b1, b2, b3, b4, b5, b6, b7, b8, b9, b10] (.filterSet
        { index := b0, enable := b1.getLsbD 0, careEvent := b1.getLsbD 1, careKind := b1.getLsbD 2,
          careZone := b1.getLsbD 3, careAddress := b1.getLsbD 4, eventKind := b2, detKind := b3, zone := b4,
          address := b5 ++ b6 ++ b7, priority := b8, raiseClass := b9, suppress := b10.getLsbD 0,
          urgent := b10.getLsbD 1 })
    ∧ parses [0x40, 0, b0, b1, b2, b3, b4, b5, b6, b7, b8, b9] (.pageWriteAir
        { channels := b0, order := b1, starts := #v[b2, b3, b4, b5], slotLength := b6 ++ b7, jam := b8, margin := b9 })
    ∧ (∀ c : Nat → Byte, parses (0x40 :: 1 :: (List.range 22).map c) (.pageWriteLevels
        { smoke := ⟨c 0, c 1, c 2⟩, heat := ⟨c 3, c 4, c 5⟩, multiSmoke := ⟨c 6, c 7, c 8⟩,
          multiHeat := ⟨c 9, c 10, c 11⟩, smokeDrift := ⟨c 12, c 13⟩, multiDrift := ⟨c 14, c 15⟩,
          smokeReport := ⟨c 16, c 17⟩, heatReport := ⟨c 18, c 19⟩, multiReport := ⟨c 20, c 21⟩ }))
    ∧ parses [0x40, 2, b0, b1, b2, b3, b4, b5, b6, b7, b8] (.pageWriteTiming
        { flush := b0 ++ b1, summary := b2, sweep := b3, grace := b4 ++ b5, lifetime := b6 ++ b7, attempts := b8 })
    ∧ parses [0x40, 3, b0, b1, b2] (.pageWriteMemory { tableSize := b0 ++ b1, advice := b2 })
    ∧ parses [0x41, b0] (.pageRead b0) ∧ parses [0x50] .start ∧ parses [0x51] .stop ∧ parses [0x52] .restart
    ∧ parses [0x53] .statusQuery

/-! ## Table commands (section 1) -/

/-- ENROL, and AMEND, of an absent address with a free record: the index at the front of the free list is taken, its
epoch advances, the record takes its enrolment values and joins the end of its chain; the reply carries the address, the
index, its epoch, the chain position, the flag LONG_CHAIN and the stored P and M. -/
def Obligations.EnrolTakesFreeRecord : Prop :=
  ∀ (s : State) (tag : Byte) (a : EnrolArgs) (k : DetectorKind) (z : ZoneNo) (i : Nat) (rest : List Nat),
    a.address ≠ 0 → a.address ≠ 0xFFFFFF → DetectorKind.ofCode a.kind = some k → zoneOf a.zone = some z →
    s.findRecord a.address = none → s.dtu.freeList = i :: rest →
    let p := max 20 (min a.period.toNat 600) / 10 * 10
    let m := max 1 (min a.misses.toNat 4)
    let record : DetectorRecord :=
      { address := a.address, kind := k, zone := z, key := a.key, period := p, misses := m, enabled := true,
        test := false, collision := false, lastSequence := none, path := none, weakCount := 0, failureRun := 0,
        presence := .awaited, deadline := min (s.su.clock + (s.pages.timing.grace + p * m)) 4294967295,
        battery := .ok, tamper := .closed, baseline := none, driftFault := false, level := .normal,
        levelEpoch := (s.zone z).epoch, lastReported := none, sounderPattern := 0, mismatchRun := 0 }
    let bucket := ((a.address.toNat % 256) + 3 * (a.address.toNat / 256 % 256) + 7 * (a.address.toNat / 65536))
      % (s.pages.memory.tableSize / 4)
    let chain := s.dtu.chains.getD bucket [] ++ [i]
    let enrolled : State := { s with dtu := {
      slots := s.dtu.slots.set i ⟨s.dtu.epochAt i + 1, some record⟩, chains := s.dtu.chains.set bucket chain,
      freeList := rest, maxChain := max s.dtu.maxChain chain.length } }
    let result := if p = a.period.toNat ∧ m = a.misses.toNat then Result.ok else Result.adjusted
    let full := addressBytes a.address ++ byte2 i ++ [s.dtu.epochAt i + 1] ++ byte2 chain.length
      ++ [if s.pages.memory.advice < chain.length then 1 else 0] ++ byte2 p ++ byte1 m
    let standing := i < s.dtu.slots.length ∧ bucket < s.dtu.chains.length
    (Ready s (.enrol a) tag → ∃ data, exec (.enrol a) s = .next (enrolled.replied tag 0x01 result data)
      ∧ (standing → data = full))
    ∧ ∀ fresh, Ready s (.amend a fresh) tag →
      ∃ data, exec (.amend a fresh) s = .next (enrolled.replied tag 0x02 result data) ∧ (standing → data = full)

/-- ENROL and AMEND are refused with INVALID for a reserved address, a kind code that names no kind or a zone of 64 or
more, and with TABLE_FULL when they need a free record and none is left; neither changes anything. The reply data are
read from the layouts (log 18). The kind codes and zone numbers are those of R188 and R108. -/
def Obligations.EnrolRefused : Prop :=
  (∀ (s : State) (tag : Byte) (a : EnrolArgs) (fresh : Bool),
    let invalid := a.address = 0 ∨ a.address = 0xFFFFFF ∨ DetectorKind.ofCode a.kind = none ∨ 64 ≤ a.zone.toNat
    (Ready s (.enrol a) tag →
      (invalid → exec (.enrol a) s = .next (s.replied tag 0x01 .invalid (addressBytes a.address)))
      ∧ (¬ invalid → s.findRecord a.address = none → s.dtu.freeList = [] →
        exec (.enrol a) s = .next (s.replied tag 0x01 .tableFull (addressBytes a.address))))
    ∧ (Ready s (.amend a fresh) tag →
      (invalid → exec (.amend a fresh) s = .next (s.replied tag 0x02 .invalid (addressBytes a.address)))
      ∧ (¬ invalid → s.dtu.freeList = [] →
        exec (.amend a fresh) s = .next (s.replied tag 0x02 .tableFull (addressBytes a.address)))))
  ∧ (∀ b : Byte, DetectorKind.ofCode b = if b = 1 then some .smoke else if b = 2 then some .heat
      else if b = 3 then some .multi else if b = 4 then some .callpoint else if b = 5 then some .sounder
      else if b = 6 then some .relay else none)
  ∧ ∀ b : Byte, (∀ z : ZoneNo, zoneOf b = some z ↔ b.toNat = z.val) ∧ (zoneOf b = none ↔ 64 ≤ b.toNat)

/-- ENROL of a present address: UNCHANGED with nothing changed when kind, zone, key, P and M are those stored, else
CONFLICT with the collision flag set. The data of the UNCHANGED reply are read from the layouts (log 18). -/
def Obligations.EnrolPresentAnswered : Prop :=
  ∀ (s : State) (tag : Byte) (a : EnrolArgs) (k : DetectorKind) (z : ZoneNo) (i q : Nat) (r : DetectorRecord),
    Ready s (.enrol a) tag → a.address ≠ 0 → a.address ≠ 0xFFFFFF → DetectorKind.ofCode a.kind = some k →
    zoneOf a.zone = some z → s.findRecord a.address = some (i, q, r) →
    let p := max 20 (min a.period.toNat 600) / 10 * 10
    let m := max 1 (min a.misses.toNat 4)
    let same := r.kind = k ∧ r.zone = z ∧ r.key = a.key ∧ r.period = p ∧ r.misses = m
    (same → exec (.enrol a) s = .next (s.replied tag 0x01 .unchanged (addressBytes a.address)))
    ∧ (¬ same → exec (.enrol a) s = .next (State.replied
        { s with dtu := s.dtu.putRecord i (some { r with collision := true }) } tag 0x01 .conflict
        (addressBytes a.address ++ byte2 i)))

/-- AMEND of a present record moves it to the index at the front of the free list, at its place in its chain, and
returns the old index to the front with its epoch unchanged. Fresh start gives the new record its enrolment values but
for the enabled flag; without it the runtime fields are carried, but for what a change of kind or of zone and the
collision flag's clearing replace. A change of zone or a fresh start sends the notices to ZU and EVU, none to HCQ, and
a fresh start lowers the missing count of a MISSING record. -/
def Obligations.AmendMovesRecord : Prop :=
  ∀ (s : State) (tag : Byte) (a : EnrolArgs) (fresh : Bool) (k : DetectorKind) (z : ZoneNo) (i q n : Nat)
    (rest : List Nat) (r : DetectorRecord),
    Ready s (.amend a fresh) tag → a.address ≠ 0 → a.address ≠ 0xFFFFFF → DetectorKind.ofCode a.kind = some k →
    zoneOf a.zone = some z → s.findRecord a.address = some (i, q, r) → s.dtu.freeList = n :: rest → n ≠ i →
    n < s.dtu.slots.length →
    let p := max 20 (min a.period.toNat 600) / 10 * 10
    let m := max 1 (min a.misses.toNat 4)
    let v := s.zone r.zone
    let r' : DetectorRecord :=
      if fresh then
        { address := a.address, kind := k, zone := z, key := a.key, period := p, misses := m, enabled := r.enabled,
          test := false, collision := false, lastSequence := none, path := none, weakCount := 0, failureRun := 0,
          presence := .awaited, deadline := min (s.su.clock + (s.pages.timing.grace + p * m)) 4294967295,
          battery := .ok, tamper := .closed, baseline := none, driftFault := false, level := .normal,
          levelEpoch := (s.zone z).epoch, lastReported := none, sounderPattern := 0, mismatchRun := 0 }
      else
        { r with
          kind := k, zone := z, key := a.key, period := p, misses := m, collision := false,
          baseline := if k = r.kind then r.baseline else none,
          driftFault := if k = r.kind then r.driftFault else false,
          lastReported := if k = r.kind then r.lastReported else none,
          sounderPattern := if k = r.kind then r.sounderPattern else 0,
          mismatchRun := if k = r.kind then r.mismatchRun else 0,
          level := if z = r.zone then r.level else .normal,
          levelEpoch := if z = r.zone then r.levelEpoch else (s.zone z).epoch }
    let bucket := ((a.address.toNat % 256) + 3 * (a.address.toNat / 256 % 256) + 7 * (a.address.toNat / 65536))
      % (s.pages.memory.tableSize / 4)
    let moved : State := { s with
      dtu := {
        slots := (s.dtu.slots.set i ⟨s.dtu.epochAt i, none⟩).set n ⟨s.dtu.epochAt n + 1, some r'⟩,
        chains := s.dtu.chains.set bucket ((s.dtu.chains.getD bucket []).map fun j => if j = i then n else j),
        freeList := i :: rest, maxChain := s.dtu.maxChain },
      su := { s.su with missing := if fresh ∧ r.presence = .missing then s.su.missing - 1 else s.su.missing } }
    let result := if p = a.period.toNat ∧ m = a.misses.toNat then Result.ok else Result.adjusted
    let data := addressBytes a.address ++ byte2 n ++ [s.dtu.epochAt n + 1] ++ byte2 q
      ++ [if s.pages.memory.advice < q then 1 else 0] ++ byte2 p ++ byte1 m
    let falls := v.raised ≤ 1 ∧ v.enabled = true ∧ v.state = .pre
    (fresh = false → r.zone = z → exec (.amend a fresh) s = .next (moved.replied tag 0x02 result data))
    ∧ (fresh = true ∨ r.zone ≠ z → ∃ t, exec (.amend a fresh) s = .next (State.replied t tag 0x02 result data)
        ∧ t = { moved with zones := t.zones, evu := t.evu }
        ∧ (r.counted v.epoch = false → t.zones = s.zones ∧ t.evu = s.evu.closeFor s.su.clock .notice a.address)
        ∧ (r.counted v.epoch = true →
            ZoneBecomes s t r.zone { v with raised := v.raised - 1, state := if falls then .quiet else v.state }
            ∧ t.evu = (s.evuAfter (if falls then [(.zoneQuiet, some r.zone, some a.address, none)] else [])).closeFor
                s.su.clock .notice a.address)
        ∧ ∀ c ∈ t.evu.contexts, c.address ≠ a.address)

/-- WITHDRAW of a present record takes it out of its chain, frees its index at the front of the free list, sends the
notices to ZU, EVU and HCQ, with ZONE_QUIET, the LEVEL_SUMMARY of its context and a COMMAND_FAILED for each held entry,
and lowers the missing count of a MISSING record. The removal of one record by CLEAR_TABLE or a page 3 write (O39, O51)
sends the same notices. A record is counted in its zone when it is enabled, not in test, and at PRE or ALARM under the
zone's epoch. -/
def Obligations.WithdrawRemovesRecord : Prop :=
  (∀ (s : State) (tag : Byte) (a : Address) (i q : Nat) (r : DetectorRecord),
    Ready s (.withdraw a) tag → a ≠ 0 → a ≠ 0xFFFFFF → s.findRecord a = some (i, q, r) →
    let bucket := ((a.toNat % 256) + 3 * (a.toNat / 256 % 256) + 7 * (a.toNat / 65536))
      % (s.pages.memory.tableSize / 4)
    let v := s.zone r.zone
    ∃ t, exec (.withdraw a) s = .next (State.replied t tag 0x03 .ok (addressBytes a))
      ∧ t.dtu = { slots := s.dtu.slots.set i ⟨s.dtu.epochAt i, none⟩,
                  chains := s.dtu.chains.set bucket ((s.dtu.chains.getD bucket []).filter fun j => j != i),
                  freeList := i :: s.dtu.freeList, maxChain := s.dtu.maxChain }
      ∧ t.dtu.recordAt i = none ∧ t.dtu.epochAt i = s.dtu.epochAt i
      ∧ (∀ j, j ≠ i → t.dtu.recordAt j = s.dtu.recordAt j ∧ t.dtu.epochAt j = s.dtu.epochAt j)
      ∧ (∀ e ∈ t.hcq.entries, e.target ≠ a) ∧ t.hcq.entries = s.hcq.entries.filter (fun e => e.target != a)
      ∧ (∀ c ∈ t.evu.contexts, c.address ≠ a)
      ∧ t.su = { s.su with missing := if r.presence = .missing then s.su.missing - 1 else s.su.missing }
      ∧ (r.counted v.epoch = true → t.zone r.zone = { v with
          raised := v.raised - 1,
          state := if v.raised ≤ 1 ∧ v.enabled = true ∧ v.state = .pre then .quiet else v.state })
      ∧ (r.counted v.epoch = false → t.zone r.zone = v)
      ∧ (∀ y, y ≠ r.zone → t.zone y = s.zone y)
      ∧ r.address = a ∧ Removed s { t with dtu := s.dtu } r
      ∧ t = { s with dtu := t.dtu, zones := t.zones, su := t.su, hcq := t.hcq, evu := t.evu })
  ∧ (∀ (s : State) (r : DetectorRecord), Removed s (s.removeOne r) r)
  ∧ ∀ (r : DetectorRecord) (epoch : BitVec 8), r.counted epoch = true ↔
      r.enabled = true ∧ r.test = false ∧ r.levelEpoch = epoch ∧ r.level ≠ .normal

/-- A lookup of an enrolled address yields the record's index, its position in its bucket's chain and the index of the
record before it, and LOOKUP reports the record in the 41 bytes of its layout, with the held entries for its address and
the SENT one among them, and changes no state but the reply's. An address is not enrolled when no record of its bucket's
chain has it. -/
def Obligations.LookupReports : Prop :=
  (∀ (s : State) (tag : Byte) (a : Address) (i q : Nat) (r : DetectorRecord),
    s.findRecord a = some (i, q, r) →
    let bucket := ((a.toNat % 256) + 3 * (a.toNat / 256 % 256) + 7 * (a.toNat / 65536))
      % (s.pages.memory.tableSize / 4)
    (∃ before after, s.dtu.chains.getD bucket [] = before ++ i :: after ∧ q = before.length + 1
      ∧ s.lookup a = some { index := i, position := q, before := before.getLast? }
      ∧ ∀ j ∈ before, ∀ x, s.dtu.recordAt j = some x → x.address ≠ a)
    ∧ s.dtu.recordAt i = some r ∧ r.address = a
    ∧ (Ready s (.lookup a) tag → a ≠ 0 → a ≠ 0xFFFFFF →
      exec (.lookup a) s = .next (s.replied tag 0x04 .ok (s.lookupData i q r)) ∧ (s.lookupData i q r).length = 41)
    ∧ s.lookupData i q r =
      (let kind : Byte := match r.kind with
        | .smoke => 1
        | .heat => 2
        | .multi => 3
        | .callpoint => 4
        | .sounder => 5
        | .relay => 6
      let flags := r.enabled.toNat + 2 * (if r.key = 0 then 0 else 1) + 4 * r.collision.toNat + 8 * r.test.toNat
        + 16 * (if r.battery = .low then 1 else 0) + 32 * (if r.tamper = .opened then 1 else 0) + 64 * r.driftFault.toNat
      let path := match r.path with
        | none => [0xFF, 0, 0, 0, 0, 0]
        | some p => byte1 p.head.val ++ addressBytes (p.relay.getD 0) ++ byte1 p.hop ++ [BitVec.ofInt 8 p.signal]
      let presence : Byte := match r.presence with
        | .awaited => 0
        | .present => 1
        | .missing => 2
      let level : Byte := match r.level with
        | .normal => 0
        | .pre => 1
        | .alarm => 2
      let sent : List Byte :=
        match s.hcq.entries.find? fun x => decide (x.target = r.address ∧ x.state = .sent) with
        | none => [0, 0, 0]
        | some x => [x.number, match x.code with
            | .sounderPattern => 1
            | .locate => 2
            | .testEnter => 3
            | .testExit => 4
            | .setPeriod => 5] ++ byte1 x.attempts
      addressBytes r.address ++ byte2 i ++ [s.dtu.epochAt i] ++ byte2 q ++ [kind, BitVec.ofNat 8 r.zone.val]
        ++ byte2 r.period ++ byte1 r.misses ++ byte1 flags ++ byte2 ((r.lastSequence.map BitVec.toNat).getD 0xFFFF)
        ++ path ++ byte1 r.weakCount ++ byte1 r.failureRun ++ [presence] ++ byte4 r.deadline
        ++ byte2 (r.baseline.getD 0xFFFF) ++ [level, r.levelEpoch] ++ byte2 (r.lastReported.getD 0xFFFF)
        ++ byte1 r.sounderPattern ++ byte1 r.mismatchRun
        ++ byte1 (s.hcq.entries.filter fun x => decide (x.target = r.address)).length ++ sent))
  ∧ ∀ (s : State) (a : Address),
    let bucket := ((a.toNat % 256) + 3 * (a.toNat / 256 % 256) + 7 * (a.toNat / 65536))
      % (s.pages.memory.tableSize / 4)
    (s.findRecord a = none ↔ ∀ j ∈ s.dtu.chains.getD bucket [], ∀ x, s.dtu.recordAt j = some x → x.address ≠ a)
    ∧ (s.lookup a = none ↔ s.findRecord a = none)

/-- A table command that names a reserved address is refused with INVALID, and one whose address is not enrolled replies
ABSENT. A zone command on a zone number of 64 or more is refused with INVALID and no data. None changes anything else.
-/
def Obligations.AddressOrZoneRefused : Prop :=
  (∀ (s : State) (tag : Byte) (a : Address),
    let refuses (c : Instr) (cmd : Command) (code : Byte) : Prop := Ready s cmd tag →
      ((a = 0 ∨ a = 0xFFFFFF) → exec c s = .next (s.replied tag code .invalid (addressBytes a)))
      ∧ (a ≠ 0 → a ≠ 0xFFFFFF → s.findRecord a = none → exec c s = .next (s.replied tag code .absent (addressBytes a)))
    refuses (.withdraw a) (.withdraw a) 0x03 ∧ refuses (.lookup a) (.lookup a) 0x04
      ∧ refuses (.detectorDisable a) (.detectorDisable a) 0x06 ∧ refuses (.detectorEnable a) (.detectorEnable a) 0x07)
  ∧ ∀ (s : State) (tag b x : Byte) (a : ZoneSetArgs), 64 ≤ b.toNat → a.zone = b →
    (Ready s (.zoneSet a) tag → exec (.zoneSet a) s = .next (s.replied tag 0x10 .invalid []))
    ∧ (Ready s (.zoneService b x) tag → exec (.zoneService b x) s = .next (s.replied tag 0x11 .invalid []))
    ∧ (Ready s (.zoneReset b) tag → exec (.zoneReset b) s = .next (s.replied tag 0x12 .invalid []))
    ∧ (Ready s (.zoneDisable b) tag → exec (.zoneDisable b) s = .next (s.replied tag 0x13 .invalid []))
    ∧ (Ready s (.zoneEnable b) tag → exec (.zoneEnable b) s = .next (s.replied tag 0x14 .invalid []))

/-- CLEAR_TABLE: in LOADING every record is removed, every epoch kept, the free list rebuilt and every removed address's
held entries and contexts gone, with the missing count and the zones' counts lowered and the notices of each removal
sent in ascending record index; in RUNNING it is refused with WRONG_MODE, with a count of 0 (log 18). -/
def Obligations.ClearTableEmpties : Prop :=
  ∀ (s : State) (tag : Byte), Ready s .clearTable tag →
    (s.mode = .loading → ∃ t, exec .clearTable s = .next (State.replied t tag 0x05 .ok (byte2 s.dtu.chained))
      ∧ (∀ i, t.dtu.recordAt i = none ∧ t.dtu.epochAt i = s.dtu.epochAt i)
      ∧ t.dtu.freeList = List.range s.dtu.slots.length ∧ t.dtu.maxChain = 0
      ∧ (∀ b, t.dtu.chains.getD b [] = [])
      ∧ t.hcq.entries = s.hcq.entries.filter (fun e => s.dtu.records.all (fun r => r.address != e.target))
      ∧ (∀ c ∈ t.evu.contexts, ∀ r ∈ s.dtu.records, c.address ≠ r.address)
      ∧ t.su.missing = s.su.missing - s.dtu.records.countP (fun r => r.presence == .missing)
      ∧ (∀ z : ZoneNo, (t.zone z).raised = (s.zone z).raised
          - s.dtu.records.countP (fun r => decide (r.zone = z) && r.counted (s.zone z).epoch))
      ∧ (let u := s.dtu.records.foldl State.removeOne s
        t.zones = u.zones ∧ t.su = u.su ∧ t.hcq = u.hcq ∧ t.evu = u.evu)
      ∧ t = { s with dtu := t.dtu, zones := t.zones, su := t.su, hcq := t.hcq, evu := t.evu })
    ∧ (s.mode = .running → exec .clearTable s = .next (s.replied tag 0x05 .wrongMode (byte2 0)))

/-- DETECTOR_DISABLE and DETECTOR_ENABLE of a present record, and UNCHANGED where the flag already has the value. The
disabling of a counted record lowers its zone's count, and an enabled PRE zone falls to QUIET at 0, with ZONE_QUIET. -/
def Obligations.DetectorDisableEnable : Prop :=
  ∀ (s : State) (tag : Byte) (a : Address) (i q : Nat) (r : DetectorRecord), a ≠ 0 → a ≠ 0xFFFFFF →
    s.findRecord a = some (i, q, r) →
    let v := s.zone r.zone
    let epoch := (s.zone r.zone).epoch
    let falls := v.raised ≤ 1 ∧ v.enabled = true ∧ v.state = .pre
    let disabled := { r with enabled := false, level := .normal, levelEpoch := epoch }
    let enabled := { r with enabled := true, deadline := min (s.su.clock + r.period * r.misses) 4294967295 }
    (Ready s (.detectorDisable a) tag →
      (r.enabled = false → exec (.detectorDisable a) s = .next (s.replied tag 0x06 .unchanged (addressBytes a)))
      ∧ (r.enabled = true → ∃ t, exec (.detectorDisable a) s = .next (State.replied t tag 0x06 .ok (addressBytes a))
          ∧ t = { s with dtu := s.dtu.putRecord i (some disabled), zones := t.zones, evu := t.evu }
          ∧ (t.zone r.zone).raised = (s.zone r.zone).raised - (if r.counted epoch then 1 else 0)
          ∧ (∀ y, y ≠ r.zone → t.zone y = s.zone y)
          ∧ (r.counted epoch = true →
              ZoneBecomes s t r.zone { v with raised := v.raised - 1, state := if falls then .quiet else v.state }
              ∧ t.evu = s.evuAfter (if falls then [(.zoneQuiet, some r.zone, some a, some r.kind)] else []))
          ∧ (r.counted epoch = false → t.zones = s.zones ∧ t.evu = s.evu)))
    ∧ (Ready s (.detectorEnable a) tag →
      (r.enabled = true → exec (.detectorEnable a) s = .next (s.replied tag 0x07 .unchanged (addressBytes a)))
      ∧ (r.enabled = false → exec (.detectorEnable a) s = .next (State.replied
          { s with dtu := s.dtu.putRecord i (some enabled) } tag 0x07 .ok (addressBytes a))))

/-! ## Head and zone commands (sections 2 and 5) -/

/-- HEAD_RESET frees the head's frames in the lanes, empties its FIFO and makes it DOWN with every count 0; its receiver
and a frame being sent stand. HCQ is told of each held command the FIFO held, whose SENT entry waits again. A head
number of 4 or more is INVALID. -/
def Obligations.HeadResetClears : Prop :=
  ∀ (s : State) (tag b : Byte), Ready s (.headReset b) tag →
    (4 ≤ b.toNat → exec (.headReset b) s = .next (s.replied tag 0x08 .invalid []))
    ∧ ∀ h : HeadNo, b.toNat = h.val →
      ∃ t, exec (.headReset b) s = .next (State.replied t tag 0x08 .ok [])
        ∧ HeadBecomes s t h {
            link := .down, statusSeen := false, missed := 0, jam := false, jamRun := 0,
            counters := ⟨0, 0, 0, 0, 0, 0, 0, 0, 0, 0⟩, rx := (s.head h).rx, txFifo := [],
            sending := (s.head h).sending }
        ∧ t.intake.urgentLane = s.intake.urgentLane.filter (fun f => f.head != h)
        ∧ t.intake.normalLane = s.intake.normalLane.filter (fun f => f.head != h)
        ∧ t.intake.freeBlocks + t.intake.urgentLane.length + t.intake.normalLane.length
            = s.intake.freeBlocks + s.intake.urgentLane.length + s.intake.normalLane.length
        ∧ t.hcq = s.hcq.toldNotSent (acksOf (s.head h).txFifo)
        ∧ t = { s with heads := t.heads, intake := t.intake, hcq := t.hcq }

/-- ZONE_SET stores the configuration clamped; UNCHANGED when the stored values equal those held; INVALID for a mode or
a partner that names nothing. ZONE_SERVICE with a code that names neither on nor off is INVALID. The codes and the 18
bytes of a zone record are those of the layouts (R188, R189). -/
def Obligations.ZoneSetStores : Prop :=
  (∀ (s : State) (tag : Byte) (a : ZoneSetArgs) (z : ZoneNo), zoneOf a.zone = some z →
    (∀ m p, Ready s (.zoneSet a) tag → ZoneMode.ofCode a.mode = some m → partnerOf a.partner = some p →
      let w := max 10 (min a.window.toNat 300)
      let o := min a.offset.toNat 64
      let p' := if p = some z then none else p
      let v := { s.zone z with mode := m, window := w, partner := p', offset := o }
      (v = s.zone z → exec (.zoneSet a) s = .next (s.replied tag 0x10 .unchanged (v.bytes z)))
      ∧ (v ≠ s.zone z → ∃ t, exec (.zoneSet a) s = .next (State.replied t tag 0x10
            (if w = a.window.toNat ∧ o = a.offset.toNat ∧ p' = p then .ok else .adjusted) (v.bytes z))
          ∧ ZoneBecomes s t z v ∧ t = { s with zones := t.zones }))
    ∧ (Ready s (.zoneSet a) tag → (ZoneMode.ofCode a.mode = none ∨ partnerOf a.partner = none) →
      exec (.zoneSet a) s = .next (s.replied tag 0x10 .invalid ((s.zone z).bytes z)))
    ∧ ∀ x, Ready s (.zoneService a.zone x) tag → serviceOf x = none →
      exec (.zoneService a.zone x) s = .next (s.replied tag 0x11 .invalid ((s.zone z).bytes z)))
  ∧ (∀ b : Byte,
      (ZoneMode.ofCode b = if b = 0 then some .direct else if b = 1 then some .persist
        else if b = 2 then some .coincidence else none)
      ∧ (serviceOf b = if b = 0 then some false else if b = 1 then some true else none)
      ∧ (partnerOf b = some none ↔ b = 0xFF) ∧ (∀ z : ZoneNo, partnerOf b = some (some z) ↔ b.toNat = z.val)
      ∧ (partnerOf b = none ↔ b ≠ 0xFF ∧ 64 ≤ b.toNat))
  ∧ ∀ (v : Zone) (z : ZoneNo), v.bytes z =
      (let mode : Byte := match v.mode with
        | .direct => 0
        | .persist => 1
        | .coincidence => 2
      let state : Byte := match v.state with
        | .quiet => 0
        | .pre => 1
        | .verify => 2
        | .alarm => 3
      let partner : Byte := match v.partner with
        | none => 0xFF
        | some y => BitVec.ofNat 8 y.val
      [BitVec.ofNat 8 z.val, mode] ++ byte2 v.window ++ [partner] ++ byte1 v.offset
        ++ byte1 (v.service.toNat + 2 * v.enabled.toNat + 4 * v.alarmUnsent.toNat) ++ [state] ++ byte2 v.raised
        ++ [v.epoch] ++ addressBytes (v.first.getD 0) ++ byte4 (v.deadline.getD 0))

/-- ZONE_SERVICE sets the service flag, UNCHANGED where it already has the value. ZONE_DISABLE: ALARM_LATCHED in ALARM,
UNCHANGED when disabled, else disabled and QUIET with its count kept. ZONE_ENABLE: UNCHANGED when enabled, else enabled,
and PRE with ZONE_PRE when its count is above 0. -/
def Obligations.ZoneFlagsSet : Prop :=
  ∀ (s : State) (tag b : Byte) (z : ZoneNo), zoneOf b = some z →
    let v := s.zone z
    let serving (f : Bool) := { v with service := f }
    let disabled := { v with enabled := false, state := .quiet, first := none, deadline := none }
    let enabled := { v with enabled := true, state := if 0 < v.raised then .pre else v.state }
    (∀ x f, Ready s (.zoneService b x) tag → serviceOf x = some f →
      (v.service = f → exec (.zoneService b x) s = .next (s.replied tag 0x11 .unchanged (v.bytes z)))
      ∧ (v.service ≠ f →
        ∃ t, exec (.zoneService b x) s = .next (State.replied t tag 0x11 .ok ((serving f).bytes z))
          ∧ ZoneBecomes s t z (serving f) ∧ t = { s with zones := t.zones }))
    ∧ (Ready s (.zoneDisable b) tag →
      (v.state = .alarm → exec (.zoneDisable b) s = .next (s.replied tag 0x13 .alarmLatched (v.bytes z)))
      ∧ (v.state ≠ .alarm → v.enabled = false →
        exec (.zoneDisable b) s = .next (s.replied tag 0x13 .unchanged (v.bytes z)))
      ∧ (v.state ≠ .alarm → v.enabled = true →
        ∃ t, exec (.zoneDisable b) s = .next (State.replied t tag 0x13 .ok (disabled.bytes z))
          ∧ ZoneBecomes s t z disabled ∧ t = { s with zones := t.zones }))
    ∧ (Ready s (.zoneEnable b) tag →
      (v.enabled = true → exec (.zoneEnable b) s = .next (s.replied tag 0x14 .unchanged (v.bytes z)))
      ∧ (v.enabled = false →
        ∃ t, exec (.zoneEnable b) s = .next (State.replied t tag 0x14 .ok (enabled.bytes z))
          ∧ ZoneBecomes s t z enabled
          ∧ t.evu = s.evuAfter (if 0 < v.raised then [(.zonePre v.raised, some z, none, none)] else [])
          ∧ t = { s with zones := t.zones, evu := t.evu }))

/-- ZONE_RESET is refused while the zone's alarm record is unsent; else the zone is QUIET with epoch advanced and count
0, and a record whose raised level carries the new epoch falls to NORMAL. -/
def Obligations.ZoneResetClears : Prop :=
  ∀ (s : State) (tag b : Byte) (z : ZoneNo), Ready s (.zoneReset b) tag → zoneOf b = some z →
    let epoch := (s.zone z).epoch + 1
    let v := { s.zone z with state := .quiet, first := none, deadline := none, epoch := epoch, raised := 0 }
    ((s.zone z).alarmUnsent = true →
      exec (.zoneReset b) s = .next (s.replied tag 0x12 .notDelivered ((s.zone z).bytes z)))
    ∧ ((s.zone z).alarmUnsent = false →
      ∃ t, exec (.zoneReset b) s = .next (State.replied t tag 0x12 .ok (v.bytes z))
        ∧ ZoneBecomes s t z v
        ∧ (∀ i r, s.dtu.recordAt i = some r →
            (r.zone = z ∧ r.level ≠ .normal ∧ r.levelEpoch = epoch →
              t.dtu.recordAt i = some { r with level := .normal })
            ∧ (¬ (r.zone = z ∧ r.level ≠ .normal ∧ r.levelEpoch = epoch) → t.dtu.recordAt i = some r))
        ∧ t.dtu.chains = s.dtu.chains ∧ t.dtu.freeList = s.dtu.freeList ∧ t.dtu.maxChain = s.dtu.maxChain
        ∧ (∀ i, t.dtu.epochAt i = s.dtu.epochAt i)
        ∧ t = { s with dtu := t.dtu, zones := t.zones })

/-! ## Held commands, group orders, filters (sections 7 and 8) -/

/-- COMMAND in RUNNING for an enrolled detector that it suits, with room in the queue, is entered at the tail with the
counter's number. A pattern above 7 is stored as 7 and a period as at enrolment, and a LOCATE argument is 0 or 1; the
commands, their codes and the kinds they suit are those of R135's table. The argument of TEST_ENTER and TEST_EXIT is
left open, and no replacement of it is reported (log 7). -/
def Obligations.CommandEntered : Prop :=
  (∀ (s : State) (tag b : Byte) (a : Address) (x stored : BitVec 16) (code : HeldCode) (i q : Nat) (r : DetectorRecord),
    Ready s (.command a b x) tag → s.mode = .running → a ≠ 0 → a ≠ 0xFFFFFF → HeldCode.ofCode b = some code →
    storedArgument code x = some stored → s.findRecord a = some (i, q, r) → code.suits r.kind = true →
    s.hcq.entries.length < 64 →
    let n := s.hcq.nextNumber
    let entry : HeldEntry :=
      { target := a, code := code, argument := stored, number := n, state := .waiting, attempts := 0,
        expiry := min (s.su.clock + s.pages.timing.lifetime) 4294967295 }
    exec (.command a b x) s = .next (State.replied { s with hcq := { s.hcq with
        entries := s.hcq.entries ++ [entry],
        nextNumber := if n = 255 then 1 else n + 1,
        counters := { s.hcq.counters with entered := min (s.hcq.counters.entered + 1) 4294967295 } } }
      tag 0x20 (if argumentReplaced code x stored then .adjusted else .ok) (n :: byte2 stored.toNat)))
  ∧ (∀ b : Byte, HeldCode.ofCode b = if b = 1 then some .sounderPattern else if b = 2 then some .locate
      else if b = 3 then some .testEnter else if b = 4 then some .testExit else if b = 5 then some .setPeriod else none)
  ∧ (∀ x y : BitVec 16,
      storedArgument .sounderPattern x = some (if 7 < x.toNat then 7 else x)
      ∧ storedArgument .locate x = (if x = 0 ∨ x = 1 then some x else none)
      ∧ (∃ p, storedArgument .setPeriod x = some p ∧ p.toNat = max 20 (min x.toNat 600) / 10 * 10)
      ∧ (storedArgument .testEnter x).isSome = true ∧ (storedArgument .testExit x).isSome = true
      ∧ argumentReplaced .testEnter x y = false ∧ argumentReplaced .testExit x y = false
      ∧ ∀ c, c = .sounderPattern ∨ c = .locate ∨ c = .setPeriod → (argumentReplaced c x y = true ↔ y ≠ x))
  ∧ ∀ k : DetectorKind,
      let senses := k = .smoke ∨ k = .heat ∨ k = .multi ∨ k = .callpoint
      (HeldCode.sounderPattern.suits k = true ↔ k = .sounder) ∧ (HeldCode.locate.suits k = true ↔ k ≠ .relay)
      ∧ (HeldCode.testEnter.suits k = true ↔ senses) ∧ (HeldCode.testExit.suits k = true ↔ senses)
      ∧ HeldCode.setPeriod.suits k = true

/-- COMMAND's refusals in the order of R136: WRONG_MODE, INVALID, ABSENT, INVALID for an unsuited kind, QUEUE_FULL. A
refused COMMAND uses no number and enters nothing. -/
def Obligations.CommandRefused : Prop :=
  ∀ (s : State) (tag b : Byte) (a : Address) (x : BitVec 16), Ready s (.command a b x) tag →
    let refused (r : Result) : Prop := exec (.command a b x) s = .next (s.replied tag 0x20 r [])
    (s.mode = .loading → refused .wrongMode)
    ∧ (s.mode = .running → a = 0 ∨ a = 0xFFFFFF → refused .invalid)
    ∧ (s.mode = .running → HeldCode.ofCode b = none → refused .invalid)
    ∧ (s.mode = .running → HeldCode.ofCode b = some .locate → 1 < x.toNat → refused .invalid)
    ∧ ∀ code y, s.mode = .running → a ≠ 0 → a ≠ 0xFFFFFF → HeldCode.ofCode b = some code →
        storedArgument code x = some y →
        (s.findRecord a = none → refused .absent)
        ∧ ∀ i q r, s.findRecord a = some (i, q, r) →
          (code.suits r.kind = false → refused .invalid)
          ∧ (code.suits r.kind = true → 64 ≤ s.hcq.entries.length → refused .queueFull)

/-- GROUP_ORDER: WRONG_MODE in LOADING, INVALID for a scope that names nothing, else the outcomes of R146's table; the
reply carries the table as it stands after, a refusal's too (log 18): the entry count, then each entry's scope and
pattern. -/
def Obligations.GroupOrderChangesTable : Prop :=
  (∀ (s : State) (tag b x : Byte), Ready s (.groupOrder b x) tag →
    let p := min x.toNat 7
    let result := if 7 < x.toNat then Result.adjusted else Result.ok
    let answers (orders : List GroupEntry) (r : Result) : Prop :=
      exec (.groupOrder b x) s = .next (State.replied { s with hcq := { s.hcq with orders := orders } } tag 0x21 r
        (ordersBytes orders))
    (s.mode = .loading → answers s.hcq.orders .wrongMode)
    ∧ (s.mode = .running → Scope.ofCode b = none → answers s.hcq.orders .invalid)
    ∧ ∀ sc, s.mode = .running → Scope.ofCode b = some sc →
      (∀ before g after, s.hcq.orders = before ++ g :: after → g.scope = sc → (∀ y ∈ before, y.scope ≠ sc) →
        (∀ y ∈ after, y.scope ≠ sc) →
        (p = 0 → answers (before ++ after) .ok)
        ∧ (p ≠ 0 → g.pattern = p → answers s.hcq.orders .unchanged)
        ∧ (p ≠ 0 → g.pattern ≠ p → answers (before ++ ⟨sc, p⟩ :: after) result))
      ∧ ((∀ g ∈ s.hcq.orders, g.scope ≠ sc) →
        (p = 0 → answers s.hcq.orders .unchanged)
        ∧ (p ≠ 0 → s.hcq.orders.length < 8 → answers (s.hcq.orders ++ [⟨sc, p⟩]) result)
        ∧ (p ≠ 0 → 8 ≤ s.hcq.orders.length → answers s.hcq.orders .queueFull)))
  ∧ (∀ b : Byte, (Scope.ofCode b = some .all ↔ b = 0xFF)
      ∧ (∀ z : ZoneNo, Scope.ofCode b = some (.zone z) ↔ b.toNat = z.val)
      ∧ (Scope.ofCode b = none ↔ b ≠ 0xFF ∧ 64 ≤ b.toNat))
  ∧ ∀ orders : List GroupEntry, ordersBytes orders = byte1 orders.length ++ orders.flatMap fun g =>
      (match g.scope with
        | .all => 0xFF
        | .zone z => BitVec.ofNat 8 z.val) :: byte1 g.pattern

/-- FILTER_SET writes one filter whole and no other; UNCHANGED when the stored filter equals the one held; INVALID for
an index of 16 or more, with no data, and for a value that names no possible thing. A field that is not cared for is not
checked and is stored as none, which reads as 0; the priority is clamped to 1 to 7. The reply carries the index and the
ten stored bytes. -/
def Obligations.FilterSetWrites : Prop :=
  (∀ (s : State) (tag : Byte) (a : FilterArgs), Ready s (.filterSet a) tag →
    (16 ≤ a.index.toNat → exec (.filterSet a) s = .next (s.replied tag 0x30 .invalid []))
    ∧ ∀ i : Fin 16, a.index.toNat = i.val →
      (Filter.store a = none →
        exec (.filterSet a) s = .next (s.replied tag 0x30 .invalid (byte1 i.val ++ (s.evu.filters.get i).bytes)))
      ∧ ∀ f, Filter.store a = some f →
        (f = s.evu.filters.get i →
          exec (.filterSet a) s = .next (s.replied tag 0x30 .unchanged (byte1 i.val ++ f.bytes)))
        ∧ (f ≠ s.evu.filters.get i →
          ∃ t, exec (.filterSet a) s = .next (State.replied t tag 0x30
              (if 1 ≤ a.priority.toNat ∧ a.priority.toNat ≤ 7 then .ok else .adjusted) (byte1 i.val ++ f.bytes))
            ∧ t.evu.filters.get i = f ∧ (∀ j, j ≠ i → t.evu.filters.get j = s.evu.filters.get j)
            ∧ t = { s with evu := { s.evu with filters := t.evu.filters } }))
  ∧ (∀ a : FilterArgs,
      let impossible := (a.raiseClass ≠ 0 ∧ a.raiseClass ≠ 2 ∧ a.raiseClass ≠ 3)
        ∨ (a.careEvent = true ∧ filterKindOf a.eventKind = none)
        ∨ (a.careKind = true ∧ (a.detKind = 0 ∨ 6 < a.detKind.toNat))
        ∨ (a.careZone = true ∧ 64 ≤ a.zone.toNat)
        ∨ (a.careAddress = true ∧ (a.address = 0 ∨ a.address = 0xFFFFFF))
      (impossible → Filter.store a = none)
      ∧ (¬ impossible → ∃ f, Filter.store a = some f
          ∧ f = { enable := a.enable,
                  eventKind := if a.careEvent then filterKindOf a.eventKind else none,
                  detKind := f.detKind, zone := f.zone,
                  address := if a.careAddress then some a.address else none,
                  priority := max 1 (min a.priority.toNat 7),
                  raiseClass := if a.raiseClass = 2 then some .fault else if a.raiseClass = 3 then some .status
                    else none,
                  suppress := a.suppress, urgent := a.urgent }
          ∧ (f.detKind.map DetectorKind.code = if a.careKind then some a.detKind else none)
          ∧ (f.zone.map fun z => z.val) = if a.careZone then some a.zone.toNat else none))
  ∧ (∀ b : Byte,
      (filterKindOf b = none ↔ ¬ (0x10 ≤ b.toNat ∧ b.toNat ≤ 0x1A ∨ 0x20 ≤ b.toNat ∧ b.toNat ≤ 0x2E ∨ b = 0x30))
      ∧ (∀ k, filterKindOf b = some k → k.code = b ∧ k ≠ .zoneAlarm))
  ∧ ([.zoneAlarm, .detectorMissing, .batteryLow, .tamperOpen, .driftLimit, .integrityFault, .lowSignal, .headLost,
      .headJammed, .commandFailed, .commandExpired, .sounderMismatch].map EventKind.code
        = [0x01, 0x10, 0x11, 0x12, 0x13, 0x14, 0x15, 0x16, 0x17, 0x18, 0x19, 0x1A])
  ∧ ([.zonePre, .zoneVerify, .zoneLapse, .zoneQuiet, .detectorState, .detectorPresent, .batteryOk, .tamperClosed,
      .driftCleared, .integrityOk, .signalOk, .headUp, .headClear, .commandDone, .sounderMatch, .levelSummary].map
        EventKind.code
        = [0x20, 0x21, 0x22, 0x23, 0x24, 0x25, 0x26, 0x27, 0x28, 0x29, 0x2A, 0x2B, 0x2C, 0x2D, 0x2E, 0x30])
  ∧ [.smoke, .heat, .multi, .callpoint, .sounder, .relay].map DetectorKind.code = [1, 2, 3, 4, 5, 6]
  ∧ ∀ f : Filter,
      let raise : Byte := match f.raiseClass with
        | none => 0
        | some .alarm => 1
        | some .fault => 2
        | some .status => 3
        | some .level => 4
      f.bytes = byte1 (f.enable.toNat + 2 * f.eventKind.isSome.toNat + 4 * f.detKind.isSome.toNat + 8 * f.zone.isSome.toNat
          + 16 * f.address.isSome.toNat)
        ++ [(f.eventKind.map EventKind.code).getD 0, (f.detKind.map DetectorKind.code).getD 0,
            (f.zone.map fun z => BitVec.ofNat 8 z.val).getD 0]
        ++ addressBytes (f.address.getD 0) ++ byte1 f.priority
        ++ [raise] ++ byte1 (f.suppress.toNat + 2 * f.urgent.toNat)

/-! ## Pages and modes (section 9) -/

/-- PAGE_WRITE of pages 0 and 1: an accepted write stores the page, marks it loaded and changes nothing else; page 0 is
refused with WRONG_MODE in RUNNING, and a code that names nothing is refused with INVALID. Page 0 is stored with N
clamped first, the head starts reduced by it, MIRROR kept only with N of 2, 4 or 8, and the slot length rounded down;
page 1 with each number clamped, and then a P not below its A stored as A - 1. -/
def Obligations.PageWriteAirLevels : Prop :=
  (∀ (s : State) (tag : Byte),
    (∀ a : AirArgs, Ready s (.pageWriteAir a) tag →
      (s.mode = .running → exec (.pageWriteAir a) s = .next (s.replied tag 0x40 .wrongMode []))
      ∧ (s.mode = .loading → PageAir.store a = none →
          exec (.pageWriteAir a) s = .next (s.replied tag 0x40 .invalid []))
      ∧ ∀ p, s.mode = .loading → PageAir.store a = some p →
          exec (.pageWriteAir a) s = .next (State.replied
            { s with pages := { s.pages with air := p, airLoaded := true } } tag 0x40
            (if p.toArgs = a then .ok else .adjusted) (0 :: airBytes p.toArgs)))
    ∧ ∀ a : LevelsArgs, Ready s (.pageWriteLevels a) tag →
      (PageLevels.store a = none → exec (.pageWriteLevels a) s = .next (s.replied tag 0x40 .invalid []))
      ∧ ∀ p, PageLevels.store a = some p →
          exec (.pageWriteLevels a) s = .next (State.replied
            { s with pages := { s.pages with levels := p, levelsLoaded := true } } tag 0x40
            (if p.toArgs = a then .ok else .adjusted) (1 :: levelsBytes p.toArgs)))
  ∧ (∀ a : AirArgs,
      let n := max 2 (min a.channels.toNat 8)
      (a.order ≠ 0 ∧ a.order ≠ 1 → PageAir.store a = none)
      ∧ (a.order = 0 ∨ a.order = 1 → PageAir.store a = some
          { channels := n, order := if a.order = 1 ∧ (n = 2 ∨ n = 4 ∨ n = 8) then .mirror else .rotate,
            starts := #v[(a.starts.get 0).toNat % n, (a.starts.get 1).toNat % n, (a.starts.get 2).toNat % n,
              (a.starts.get 3).toNat % n],
            slotLength := max 100 (min a.slotLength.toNat 500) / 25 * 25,
            jamThreshold := max 50 (min a.jam.toNat 100),
            signalMargin := max (-100) (min a.margin.toInt (-60)) }))
  ∧ (∀ a : LevelsArgs,
      let thresholds (t : ThresholdArgs) : ThresholdSet :=
        let P := max 1 (min t.pre.toNat 254)
        let A := max 2 (min t.alarm.toNat 250)
        { pre := if A ≤ P then A - 1 else P, alarm := A, hyst := min t.hyst.toNat 15 }
      let drift (d : DriftArgs) : DriftSet :=
        { limit := max 10 (min d.limit.toNat 200), shift := max 2 (min d.shift.toNat 10) }
      let report (r : ReportArgs) : ReportSet :=
        { mode := if r.mode = 0 then .off else if r.mode = 1 then .band else .all,
          delta := max 1 (min r.delta.toNat 64) }
      let named := a.smokeReport.mode.toNat ≤ 2 ∧ a.heatReport.mode.toNat ≤ 2 ∧ a.multiReport.mode.toNat ≤ 2
      (¬ named → PageLevels.store a = none)
      ∧ (named → PageLevels.store a = some
          { smoke := thresholds a.smoke, heat := thresholds a.heat, multiSmoke := thresholds a.multiSmoke,
            multiHeat := thresholds a.multiHeat, smokeDrift := drift a.smokeDrift, multiDrift := drift a.multiDrift,
            smokeReport := report a.smokeReport, heatReport := report a.heatReport,
            multiReport := report a.multiReport }))
  ∧ ThresholdSet.store ⟨60, 40, 0⟩ = ⟨39, 40, 0⟩ ∧ ThresholdSet.store ⟨254, 250, 0⟩ = ⟨249, 250, 0⟩

/-- PAGE_WRITE of page 2 stores the page, arms EVU's timers and, in RUNNING, starts the sweep afresh. An expiry that a
tick has brought about is not lost to it: it is taken first, under the old periods (the model's choice of its place, log
10), so a flush that was due closes every context and a summary that was due is built, and nothing else of EVU and SU
changes before the timers are armed. -/
def Obligations.PageWriteTimingArms : Prop :=
  ∀ (s : State) (tag : Byte) (a : TimingArgs), Ready s (.pageWriteTiming a) tag →
    let p : PageTiming :=
      { flush := max 5 (min a.flush.toNat 300), summary := max 2 (min a.summary.toNat 60),
        sweep := max 1 (min a.sweep.toNat 10), grace := min a.grace.toNat 3600,
        lifetime := max 30 (min a.lifetime.toNat 3600), attemptLimit := max 1 (min a.attempts.toNat 8) }
    let result := if p.toArgs = a then Result.ok else Result.adjusted
    ∃ u, u = s.expiriesTaken
      ∧ (s.evu.flushTimer ≠ 0 → s.evu.summaryTimer ≠ 0 → u.evu = s.evu)
      ∧ (s.evu.flushTimer = 0 → s.evu.summaryTimer ≠ 0 →
          u.evu = { s.evu.closeAll s.su.clock .flush with flushTimer := s.pages.timing.flush })
      ∧ (s.su.sweepTimer ≠ some 0 → s.evu.flushTimer ≠ 0 → s.evu.summaryTimer ≠ 0 → u = s)
      ∧ (s.su.sweepTimer ≠ some 0 → u.su = s.su)
      ∧ (s.su.sweepTimer = some 0 → u.su = { s.su with
          sweepTimer := some s.pages.timing.sweep,
          sweep := if s.su.sweep.isSome then s.su.sweep else some 0,
          sweepsStarted := if s.su.sweep.isSome then s.su.sweepsStarted else min (s.su.sweepsStarted + 1) 4294967295,
          overlaps := if s.su.sweep.isSome then min (s.su.overlaps + 1) 4294967295 else s.su.overlaps })
      ∧ (s.evu.flushTimer = 0 → u.evu.contexts = []) ∧ (s.evu.flushTimer ≠ 0 → u.evu.contexts = s.evu.contexts)
      ∧ (s.evu.summaryTimer = 0 → u.evu.summarySlot = some
          { time := s.su.clock, mode := s.mode, missing := s.su.missing,
            heads := allHeads.map (fun h => ((s.head h).link, (s.head h).jam)),
            zones := allZones.map (fun z => ((s.zone z).state, (s.zone z).enabled, (s.zone z).service)) })
      ∧ u = { s with su := u.su, evu := u.evu }
      ∧ (let stored : State := { u with
          pages := { s.pages with timing := p, timingLoaded := true },
          evu := { u.evu with flushTimer := p.flush, summaryTimer := p.summary } }
        (s.mode = .loading →
          exec (.pageWriteTiming a) s = .next (stored.replied tag 0x40 result (2 :: timingBytes p.toArgs)))
        ∧ (s.mode = .running →
          exec (.pageWriteTiming a) s = .next (State.replied { stored with su := { u.su with
              sweepTimer := some p.sweep, sweep := some 0,
              sweepsStarted := min (u.su.sweepsStarted + 1) 4294967295,
              sweepsAbandoned := if u.su.sweep.isSome then min (u.su.sweepsAbandoned + 1) 4294967295
                else u.su.sweepsAbandoned } }
            tag 0x40 result (2 :: timingBytes p.toArgs))))

/-- PAGE_WRITE of page 3 in LOADING sets the split and leaves an empty table and an empty pool; the held entries and the
missing count of the removed records are gone, with the notices of each removal in ascending record index. In RUNNING it
is refused with WRONG_MODE. That the lanes are empty after it rests on log 24. -/
def Obligations.PageWriteMemoryEmpties : Prop :=
  ∀ (s : State) (tag : Byte) (a : MemoryArgs), Ready s (.pageWriteMemory a) tag →
    let size := a.tableSize.toNat
    let T := if size ≤ 384 then 256 else if size ≤ 768 then 512 else 1024
    let L := max 1 (min a.advice.toNat 16)
    (s.mode = .running → exec (.pageWriteMemory a) s = .next (s.replied tag 0x40 .wrongMode []))
    ∧ (s.mode = .loading → ∃ t, exec (.pageWriteMemory a) s = .next (State.replied t tag 0x40
          (if T = size ∧ L = a.advice.toNat then .ok else .adjusted) (3 :: memoryBytes (PageMemory.toArgs ⟨T, L⟩)))
        ∧ t.pages = { s.pages with memory := { tableSize := T, advice := L }, memoryLoaded := true }
        ∧ t.dtu = { slots := List.replicate T ⟨0, none⟩, chains := List.replicate (T / 4) [],
                    freeList := List.range T, maxChain := 0 }
        ∧ t.intake = { freeBlocks := 2048 - T, urgentLane := [], normalLane := [] }
        ∧ t.hcq.entries = s.hcq.entries.filter (fun e => s.dtu.records.all (fun r => r.address != e.target))
        ∧ t.su.missing = s.su.missing - s.dtu.records.countP (fun r => r.presence == .missing)
        ∧ (let u := s.dtu.records.foldl State.removeOne s
          t.zones = u.zones ∧ t.su = u.su ∧ t.hcq = u.hcq ∧ t.evu = u.evu)
        ∧ t = { s with
            pages := t.pages, dtu := t.dtu, intake := t.intake, zones := t.zones, su := t.su, hcq := t.hcq,
            evu := t.evu })

/-- PAGE_READ returns a page with its loaded flag, in both modes, and changes no state but the reply's; the bodies carry
the stored values in the order and the widths of R188. A page and its
flag change at POWER_ON_RESET and at a PAGE_WRITE of that page alone, so one never written reads back as power-on left
it. The stored values against which O49 and O50 judge ADJUSTED are in the widths of the arguments. -/
def Obligations.PageReadReturns : Prop :=
  (∀ (s : State) (tag b : Byte), Ready s (.pageRead b) tag →
    let reads (n : Nat) (loaded : Bool) (body : List Byte) : Prop :=
      b.toNat = n → exec (.pageRead b) s =
        .next (s.replied tag 0x41 .ok (BitVec.ofNat 8 n :: (if loaded then 1 else 0) :: body))
    (4 ≤ b.toNat → exec (.pageRead b) s = .next (s.replied tag 0x41 .invalid []))
    ∧ reads 0 s.pages.airLoaded (airBytes s.pages.air.toArgs)
    ∧ reads 1 s.pages.levelsLoaded (levelsBytes s.pages.levels.toArgs)
    ∧ reads 2 s.pages.timingLoaded (timingBytes s.pages.timing.toArgs)
    ∧ reads 3 s.pages.memoryLoaded (memoryBytes s.pages.memory.toArgs))
  ∧ (∀ (c : Instr) (s t : State), exec c s = .next t →
    (c = .powerOnReset → t.pages = State.reset.pages)
    ∧ (c ≠ .powerOnReset →
      ((∀ a, c ≠ .pageWriteAir a) → t.pages.air = s.pages.air ∧ t.pages.airLoaded = s.pages.airLoaded)
      ∧ ((∀ a, c ≠ .pageWriteLevels a) →
          t.pages.levels = s.pages.levels ∧ t.pages.levelsLoaded = s.pages.levelsLoaded)
      ∧ ((∀ a, c ≠ .pageWriteTiming a) →
          t.pages.timing = s.pages.timing ∧ t.pages.timingLoaded = s.pages.timingLoaded)
      ∧ ((∀ a, c ≠ .pageWriteMemory a) →
          t.pages.memory = s.pages.memory ∧ t.pages.memoryLoaded = s.pages.memoryLoaded)))
  ∧ State.reset.pages.read 0 = some (false, [4, 0, 0, 1, 2, 3, 0, 250, 80, 0xA6])
  ∧ State.reset.pages.read 1 = some (false, [20, 45, 3, 55, 70, 2, 20, 45, 3, 55, 70, 2, 80, 6, 80, 6, 1, 8, 1, 4, 1, 8])
  ∧ State.reset.pages.read 2 = some (false, [0, 60, 10, 2, 1, 44, 2, 88, 3])
  ∧ State.reset.pages.read 3 = some (false, [2, 0, 8])
  ∧ ∀ p : Pages,
      let set (t : ThresholdSet) : List Byte := byte1 t.pre ++ byte1 t.alarm ++ byte1 t.hyst
      let drift (d : DriftSet) : List Byte := byte1 d.limit ++ byte1 d.shift
      let report (r : ReportSet) : List Byte := (match r.mode with
        | .off => 0
        | .band => 1
        | .all => 2) :: byte1 r.delta
      airBytes p.air.toArgs = byte1 p.air.channels ++ [if p.air.order = .rotate then 0 else 1]
        ++ allHeads.flatMap (fun h => byte1 (p.air.starts.get h)) ++ byte2 p.air.slotLength ++ byte1 p.air.jamThreshold
        ++ [BitVec.ofInt 8 p.air.signalMargin]
      ∧ levelsBytes p.levels.toArgs = set p.levels.smoke ++ set p.levels.heat ++ set p.levels.multiSmoke
        ++ set p.levels.multiHeat ++ drift p.levels.smokeDrift ++ drift p.levels.multiDrift
        ++ report p.levels.smokeReport ++ report p.levels.heatReport ++ report p.levels.multiReport
      ∧ timingBytes p.timing.toArgs = byte2 p.timing.flush ++ byte1 p.timing.summary ++ byte1 p.timing.sweep
        ++ byte2 p.timing.grace ++ byte2 p.timing.lifetime ++ byte1 p.timing.attemptLimit
      ∧ memoryBytes p.memory.toArgs = byte2 p.memory.tableSize ++ byte1 p.memory.advice
      ∧ p.air.toArgs =
        { channels := BitVec.ofNat 8 p.air.channels, order := if p.air.order = .rotate then 0 else 1,
          starts := #v[BitVec.ofNat 8 (p.air.starts.get 0), BitVec.ofNat 8 (p.air.starts.get 1),
            BitVec.ofNat 8 (p.air.starts.get 2), BitVec.ofNat 8 (p.air.starts.get 3)],
          slotLength := BitVec.ofNat 16 p.air.slotLength, jam := BitVec.ofNat 8 p.air.jamThreshold,
          margin := BitVec.ofInt 8 p.air.signalMargin }
      ∧ (let set (t : ThresholdSet) : ThresholdArgs :=
          { pre := BitVec.ofNat 8 t.pre, alarm := BitVec.ofNat 8 t.alarm, hyst := BitVec.ofNat 8 t.hyst }
        let drift (d : DriftSet) : DriftArgs := { limit := BitVec.ofNat 8 d.limit, shift := BitVec.ofNat 8 d.shift }
        let report (r : ReportSet) : ReportArgs :=
          { mode := match r.mode with
              | .off => 0
              | .band => 1
              | .all => 2,
            delta := BitVec.ofNat 8 r.delta }
        p.levels.toArgs =
          { smoke := set p.levels.smoke, heat := set p.levels.heat, multiSmoke := set p.levels.multiSmoke,
            multiHeat := set p.levels.multiHeat, smokeDrift := drift p.levels.smokeDrift,
            multiDrift := drift p.levels.multiDrift, smokeReport := report p.levels.smokeReport,
            heatReport := report p.levels.heatReport, multiReport := report p.levels.multiReport })
      ∧ p.timing.toArgs =
        { flush := BitVec.ofNat 16 p.timing.flush, summary := BitVec.ofNat 8 p.timing.summary,
          sweep := BitVec.ofNat 8 p.timing.sweep, grace := BitVec.ofNat 16 p.timing.grace,
          lifetime := BitVec.ofNat 16 p.timing.lifetime, attempts := BitVec.ofNat 8 p.timing.attemptLimit }
      ∧ p.memory.toArgs =
        { tableSize := BitVec.ofNat 16 p.memory.tableSize, advice := BitVec.ofNat 8 p.memory.advice }

/-- START in LOADING with all pages loaded: RUNNING, deadlines of enabled AWAITED and PRESENT records set afresh, the
sweep timer armed, the Slot Clock at superframe 0, slot 0, and that slot's start made: what waits in the FIFOs stays, an
acknowledgement among it is removed as late with HCQ told, and each head in UP is handed its TUNE and the BEACON, which
a full FIFO refuses and counts. WRONG_MODE in RUNNING; PAGES_MISSING with the pages listed, a byte each behind their
count (widths: log 28). -/
def Obligations.StartOpensPart : Prop :=
  ∀ (s : State) (tag : Byte), Ready s .start tag →
    let p := s.pages
    let allLoaded := p.airLoaded && p.levelsLoaded && p.timingLoaded && p.memoryLoaded
    (s.mode = .running → exec .start s = .next (s.replied tag 0x50 .wrongMode []))
    ∧ (s.mode = .loading → allLoaded = false →
      let missing := (if p.airLoaded then [] else [(0 : Byte)]) ++ (if p.levelsLoaded then [] else [1])
        ++ (if p.timingLoaded then [] else [2]) ++ (if p.memoryLoaded then [] else [3])
      exec .start s = .next (s.replied tag 0x50 .pagesMissing (BitVec.ofNat 8 missing.length :: missing)))
    ∧ (s.mode = .loading → allLoaded = true →
      ∃ t, exec .start s = .next (State.replied t tag 0x50 .ok [])
        ∧ t.mode = .running ∧ t.su = { s.su with sweepTimer := some p.timing.sweep }
        ∧ t.clock = { slot := 0, superframe := 0, slotTimer := some p.air.slotLength }
        ∧ (∀ i, t.dtu.recordAt i = (s.dtu.recordAt i).map fun r =>
            if r.enabled then
              match r.presence with
              | .present => { r with deadline := min (s.su.clock + r.period * r.misses) 4294967295 }
              | .awaited =>
                { r with deadline := min (s.su.clock + (p.timing.grace + r.period * r.misses)) 4294967295 }
              | .missing => r
            else r)
        ∧ t.dtu.chains = s.dtu.chains ∧ t.dtu.freeList = s.dtu.freeList ∧ t.dtu.maxChain = s.dtu.maxChain
        ∧ t.dtu.slots.length = s.dtu.slots.length ∧ (∀ i, t.dtu.epochAt i = s.dtu.epochAt i)
        ∧ (∀ h : HeadNo, (s.head h).link = .up → (s.head h).txFifo = [] →
            (t.head h).txFifo = [.tune (p.air.channel h 0) 0 0, .beacon 0 s.hcq.orders])
        ∧ t.hcq = s.hcq.toldNotSent (allHeads.flatMap fun h => acksOf (s.head h).txFifo)
        ∧ (∀ h : HeadNo,
            let v := s.head h
            let kept := v.txFifo.filter (fun f => f.ack?.isNone)
            let late := countedUp 65535 v.counters.late (acksOf v.txFifo).length
            let handed := [HeadFrame.tune (p.air.channel h 0) 0 0, .beacon 0 s.hcq.orders]
            (v.link ≠ .up → t.head h = { v with txFifo := kept, counters := { v.counters with late := late } })
            ∧ (v.link = .up → t.head h = { v with
                txFifo := kept ++ handed.take (16 - kept.length),
                counters := { v.counters with
                  late := late,
                  overrun := countedUp 65535 v.counters.overrun (handed.length - (16 - kept.length)) } }))
        ∧ t = { s with mode := t.mode, dtu := t.dtu, su := t.su, clock := t.clock, heads := t.heads, hcq := t.hcq })

/-- STOP in RUNNING: LOADING, no frame in FIU, lanes or transmit FIFOs, their blocks free, timers stopped, every context
closed with cause STOP, and every enabled zone in VERIFY lapsed with its ZONE_LAPSE; WRONG_MODE in LOADING. A frame that
FIU held is counted as abandoned, and no other counter of FIU changes. HCQ is told of each held command the FIFOs held,
whose SENT entry waits again. A sweep timer's expiry that a tick has brought about is taken first (the model's choice of
its place, log 10). -/
def Obligations.StopClosesPart : Prop :=
  ∀ (s : State) (tag : Byte), Ready s .stop tag →
    (s.mode = .loading → exec .stop s = .next (s.replied tag 0x51 .wrongMode []))
    ∧ (s.mode = .running → ∃ t, exec .stop s = .next (State.replied t tag 0x51 .ok [])
      ∧ t.mode = .loading ∧ t.fiu.state = .idle
      ∧ (s.fiu.state = .idle → t.fiu = s.fiu)
      ∧ (s.fiu.state ≠ .idle → t.fiu = { state := .idle, counters :=
          { s.fiu.counters with abandoned := min (s.fiu.counters.abandoned + 1) 4294967295 } })
      ∧ t.intake = { freeBlocks := s.intake.freeBlocks + s.intake.urgentLane.length + s.intake.normalLane.length
                       + s.fiu.state.held, urgentLane := [], normalLane := [] }
      ∧ (∀ h : HeadNo, t.head h = { s.head h with txFifo := [] })
      ∧ t.clock = { s.clock with slotTimer := none } ∧ t.su.sweepTimer = none ∧ t.su.sweep = none
      ∧ t.su.clock = s.su.clock ∧ t.su.missing = s.su.missing ∧ t.su.sweepsCompleted = s.su.sweepsCompleted
      ∧ t.su.sweepsStarted = (if s.su.sweepTimer = some 0 ∧ s.su.sweep = none then
          min (s.su.sweepsStarted + 1) 4294967295 else s.su.sweepsStarted)
      ∧ t.su.overlaps = (if s.su.sweepTimer = some 0 ∧ s.su.sweep.isSome then min (s.su.overlaps + 1) 4294967295
          else s.su.overlaps)
      ∧ t.su.sweepsAbandoned = (if s.su.sweepTimer = some 0 ∨ s.su.sweep.isSome then
          min (s.su.sweepsAbandoned + 1) 4294967295 else s.su.sweepsAbandoned)
      ∧ t.evu.contexts = []
      ∧ t.evu = State.evuAfter { s with evu := s.evu.closeAll s.su.clock .stop }
          ((allZones.filter fun z => decide ((s.zone z).enabled = true ∧ (s.zone z).state = .verify)).map fun z =>
            (.zoneLapse .stop (if 0 < (s.zone z).raised then .pre else .quiet) (s.zone z).raised,
              some z, (s.zone z).first, none))
      ∧ (∀ z : ZoneNo, t.zone z =
          if (s.zone z).enabled ∧ (s.zone z).state = .verify then
            { s.zone z with state := if 0 < (s.zone z).raised then .pre else .quiet, first := none, deadline := none }
          else s.zone z)
      ∧ t.hcq = s.hcq.toldNotSent (allHeads.flatMap fun h => acksOf (s.head h).txFifo)
      ∧ t.hcq.orders = s.hcq.orders ∧ t.hcq.entries.map HeldEntry.number = s.hcq.entries.map HeldEntry.number
      ∧ t = { s with
          mode := t.mode, heads := t.heads, intake := t.intake, clock := t.clock, fiu := t.fiu, zones := t.zones,
          su := t.su, hcq := t.hcq, evu := t.evu })

/-- STATUS_QUERY reports and changes no state but the reply's: the items of MEX and PLI, DTU, HLI, FIU, SU, HCQ and EVU
in R184's order, each in the order of its owning rule and with the widths of R189, 354 bytes. That the items of FIU and
EVU and the two lane lengths stand as here is the model's choice (log 19, DESIGN CHOICE). -/
def Obligations.StatusQueryReports : Prop :=
  ∀ (s : State) (tag : Byte), Ready s .statusQuery tag →
    let flag (b : Bool) : Byte := if b then 1 else 0
    let mode : Byte := if s.mode = .loading then 0 else 1
    let mex := [mode, flag s.pages.airLoaded, flag s.pages.levelsLoaded, flag s.pages.timingLoaded,
        flag s.pages.memoryLoaded]
      ++ byte1 s.pli.fifo.length ++ byte2 s.pli.badFrames ++ byte2 s.pli.overflows ++ byte4 s.mex.commandsTaken
    let dtu := byte2 s.pages.memory.tableSize ++ byte2 (s.pages.memory.tableSize / 4) ++ byte2 s.dtu.chained
      ++ byte2 s.dtu.freeList.length ++ byte2 s.dtu.maxChain ++ byte1 s.pages.memory.advice
    let head (v : Head) : List Byte :=
      let c := v.counters
      let link : Byte := match v.link with
        | .down => 0
        | .up => 1
        | .lost => 2
      [link] ++ byte1 v.missed ++ [flag v.jam]
        ++ [c.linkError, c.statuses, c.notRunning, c.unknownKind, c.hopLimit, c.length, c.poolFull, c.admitted, c.late,
            c.overrun].flatMap byte2
    let hli := [0, 1, 2, 3].flatMap (fun h => head (s.head h)) ++ byte2 s.intake.freeBlocks
      ++ byte2 (2048 - s.pages.memory.tableSize) ++ byte2 s.intake.urgentLane.length ++ byte2 s.intake.normalLane.length
    let f := s.fiu.counters
    let fiuState : Byte := match s.fiu.state with
      | .idle => 0
      | .lookingUp _ => 1
      | .checking _ _ _ _ => 2
      | .completing _ _ _ _ => 3
    let fiu := [f.urgentTaken, f.normalTaken, f.unknown, f.integrityFailure, f.moved, f.stale, f.repeated, f.new,
        f.kindMismatch, f.acknowledgements, f.abandoned].flatMap byte4
      ++ [fiuState]
    let su := byte4 s.su.clock ++ byte2 (s.su.sweep.getD 0xFFFF) ++ byte2 (s.su.sweepTimer.getD 0xFFFF)
      ++ byte2 s.su.missing
      ++ [s.su.sweepsStarted, s.su.sweepsCompleted, s.su.sweepsAbandoned, s.su.overlaps].flatMap byte4
    let q := s.hcq.counters
    let among (st : HeldState) := (s.hcq.entries.filter fun x => decide (x.state = st)).length
    let hcq := byte1 s.hcq.entries.length ++ byte1 (among .waiting) ++ byte1 (among .sent) ++ [s.hcq.nextNumber]
      ++ byte1 s.hcq.orders.length
      ++ [q.entered, q.attached, q.reverted, q.done, q.failedNoEcho, q.failedWithdrawn, q.expired].flatMap byte4
    let e := s.evu
    let c := e.counters
    let evu := [c.takenAlarm, c.takenFault, c.takenStatus, c.takenLevel, c.suppressed, c.classRaised, c.urgentClosings,
        c.droppedFault, c.droppedStatus, c.droppedLevel, c.contextsOpened, c.closedCount, c.closedGap,
        c.closedTransition, c.closedNotice, c.closedEviction, c.closedFlush, c.closedAlarm, c.closedUrgent, c.closedStop,
        c.summariesBuilt, c.summariesReplaced, c.sentAlarm, c.sentReply, c.sentSummary, c.sentFault, c.sentStatus,
        c.sentLevel].flatMap byte4
      ++ byte1 e.alarmQueue.length ++ byte1 e.faultQueue.length ++ byte1 e.faultLoss ++ byte1 e.statusQueue.length
      ++ byte1 e.statusLoss ++ byte1 e.levelQueue.length ++ byte1 e.levelLoss ++ [flag e.summarySlot.isSome]
      ++ byte1 e.contexts.length ++ byte2 e.flushTimer ++ byte2 e.summaryTimer
    exec .statusQuery s = .next (s.replied tag 0x53 .ok (mex ++ dtu ++ hli ++ fiu ++ su ++ hcq ++ evu))
      ∧ (mex ++ dtu ++ hli ++ fiu ++ su ++ hcq ++ evu).length = 354
      ∧ s.dtu.chained = (s.dtu.slots.filter fun x => x.record.isSome).length

/-! ## Invariants -/

/-- Every step keeps each zone's fields in the values of R91 and R92: a zone in VERIFY has a first detector and a window
deadline of 0 to 4294967295 and a zone in any other state has neither, a disabled zone is QUIET, no zone is its own
partner, the verify window is 10 to 300 s and the service offset 0 to 64. The raised count is 0 to T wherever the counts
are exact, which O59 says every step keeps. -/
def Obligations.ZonesStaySound : Prop :=
  KeptByEveryStep ZonesSound
  ∧ ∀ s : State, CountsExact s → ∀ z : ZoneNo, (s.zone z).raised ≤ s.pages.memory.tableSize

/-- Every step keeps each queue and list within its depth: the ALARM, FAULT, STATUS and LEVEL queues, the open contexts,
the held entries, the group orders, the management FIFO and the transmit FIFOs. The ALARM queue is bounded by the zones:
each has at most one ZONE_ALARM waiting or on the link, and exactly when its unsent flag is set. Every step keeps each
list free of doubles: at most one held entry of a target is SENT, at most one group order is of a scope and at most one
open context of a detector; and command numbers are 1 to 255, patterns 1 to 7 and an open context's values 1 to 15. -/
def Obligations.DepthsStayBounded : Prop := KeptByEveryStep WithinDepths ∧ KeptByEveryStep ListsDistinct

/-- Every step keeps the number of pool blocks: free, in a lane, or with FIU's frame. -/
def Obligations.PoolStaysConserved : Prop := KeptByEveryStep PoolConserved

/-- Every step keeps the free list exact, the missing count equal to the number of MISSING records and each zone's
raised count equal to the number of its counted records; and with them each bucket's chain exactly the records whose
addresses fall in it, with no address in two records. -/
def Obligations.CountsStayExact : Prop := KeptByEveryStep CountsExact ∧ KeptByEveryStep TableExact

/-- The invariants hold after power-on reset. The words they and the other statements are put in, spelled out: the sizes
of the split, the bucket of an address, the record and the epoch of an index, a head, a zone, all of them in order, and
the zone of a ZONE_ALARM frame. -/
def Obligations.InvariantsHoldAtReset : Prop :=
  ZonesSound State.reset ∧ WithinDepths State.reset ∧ PoolConserved State.reset ∧ TableExact State.reset
    ∧ ListsDistinct State.reset
    ∧ allHeads = [0, 1, 2, 3] ∧ allZones = List.finRange 64
    ∧ (∀ s : State, s.tableSize = s.pages.memory.tableSize ∧ s.buckets = s.pages.memory.tableSize / 4
      ∧ s.poolSize = 2048 - s.pages.memory.tableSize
      ∧ (∀ a : Address, s.bucketOf a = ((a.toNat % 256) + 3 * (a.toNat / 256 % 256) + 7 * (a.toNat / 65536))
          % (s.pages.memory.tableSize / 4))
      ∧ (∀ h : HeadNo, s.head h = s.heads.get h) ∧ ∀ z : ZoneNo, s.zone z = s.zones.get z)
    ∧ (∀ d : Dtu, d.records = d.slots.filterMap (fun x => x.record)
      ∧ (∀ b, d.chainAt b = d.chains.getD b [])
      ∧ ∀ i, (d.slots.length ≤ i → d.recordAt i = none ∧ d.epochAt i = 0)
        ∧ (∀ x, d.slots[i]? = some x → d.recordAt i = x.record ∧ d.epochAt i = x.epoch)
        ∧ ∀ r, d.putRecord i r = { d with slots := d.slots.set i ⟨d.epochAt i, r⟩ })
    ∧ ∀ f : PanelFrame, f.alarmZone = match f with
      | .record r => if r.body.kind = .zoneAlarm then r.zone else none
      | .reply _ => none
      | .summary _ => none
end

