-- ==== Sys2Proof/Laws/State.lean ====
section
/-! SUPPORT. One lemma per field per update of the state, each true by rfl, and reading back heads and zones. -/

namespace Sys2Proof.Machine

@[simp] theorem State.setHead_mode (s : State) (h : HeadNo) (v : Head) : (s.setHead h v).mode = s.mode := rfl
@[simp] theorem State.setHead_pages (s : State) (h : HeadNo) (v : Head) : (s.setHead h v).pages = s.pages := rfl
@[simp] theorem State.setHead_dtu (s : State) (h : HeadNo) (v : Head) : (s.setHead h v).dtu = s.dtu := rfl
@[simp] theorem State.setHead_heads (s : State) (h : HeadNo) (v : Head) : (s.setHead h v).heads = s.heads.set h v := rfl
@[simp] theorem State.setHead_intake (s : State) (h : HeadNo) (v : Head) : (s.setHead h v).intake = s.intake := rfl
@[simp] theorem State.setHead_clock (s : State) (h : HeadNo) (v : Head) : (s.setHead h v).clock = s.clock := rfl
@[simp] theorem State.setHead_fiu (s : State) (h : HeadNo) (v : Head) : (s.setHead h v).fiu = s.fiu := rfl
@[simp] theorem State.setHead_zones (s : State) (h : HeadNo) (v : Head) : (s.setHead h v).zones = s.zones := rfl
@[simp] theorem State.setHead_su (s : State) (h : HeadNo) (v : Head) : (s.setHead h v).su = s.su := rfl
@[simp] theorem State.setHead_hcq (s : State) (h : HeadNo) (v : Head) : (s.setHead h v).hcq = s.hcq := rfl
@[simp] theorem State.setHead_evu (s : State) (h : HeadNo) (v : Head) : (s.setHead h v).evu = s.evu := rfl
@[simp] theorem State.setHead_pli (s : State) (h : HeadNo) (v : Head) : (s.setHead h v).pli = s.pli := rfl
@[simp] theorem State.setHead_mex (s : State) (h : HeadNo) (v : Head) : (s.setHead h v).mex = s.mex := rfl
@[simp] theorem State.setHead_pending (s : State) (h : HeadNo) (v : Head) : (s.setHead h v).pending = s.pending := rfl
@[simp] theorem State.setHead_freeIndex (s : State) (h : HeadNo) (v : Head) : (s.setHead h v).freeIndex = s.freeIndex := rfl

@[simp] theorem State.modifyHead_mode (s : State) (h : HeadNo) (f : Head → Head) : (s.modifyHead h f).mode = s.mode := rfl
@[simp] theorem State.modifyHead_pages (s : State) (h : HeadNo) (f : Head → Head) : (s.modifyHead h f).pages = s.pages := rfl
@[simp] theorem State.modifyHead_dtu (s : State) (h : HeadNo) (f : Head → Head) : (s.modifyHead h f).dtu = s.dtu := rfl
@[simp] theorem State.modifyHead_heads (s : State) (h : HeadNo) (f : Head → Head) : (s.modifyHead h f).heads = s.heads.set h (f (s.head h)) := rfl
@[simp] theorem State.modifyHead_intake (s : State) (h : HeadNo) (f : Head → Head) : (s.modifyHead h f).intake = s.intake := rfl
@[simp] theorem State.modifyHead_clock (s : State) (h : HeadNo) (f : Head → Head) : (s.modifyHead h f).clock = s.clock := rfl
@[simp] theorem State.modifyHead_fiu (s : State) (h : HeadNo) (f : Head → Head) : (s.modifyHead h f).fiu = s.fiu := rfl
@[simp] theorem State.modifyHead_zones (s : State) (h : HeadNo) (f : Head → Head) : (s.modifyHead h f).zones = s.zones := rfl
@[simp] theorem State.modifyHead_su (s : State) (h : HeadNo) (f : Head → Head) : (s.modifyHead h f).su = s.su := rfl
@[simp] theorem State.modifyHead_hcq (s : State) (h : HeadNo) (f : Head → Head) : (s.modifyHead h f).hcq = s.hcq := rfl
@[simp] theorem State.modifyHead_evu (s : State) (h : HeadNo) (f : Head → Head) : (s.modifyHead h f).evu = s.evu := rfl
@[simp] theorem State.modifyHead_pli (s : State) (h : HeadNo) (f : Head → Head) : (s.modifyHead h f).pli = s.pli := rfl
@[simp] theorem State.modifyHead_mex (s : State) (h : HeadNo) (f : Head → Head) : (s.modifyHead h f).mex = s.mex := rfl
@[simp] theorem State.modifyHead_pending (s : State) (h : HeadNo) (f : Head → Head) : (s.modifyHead h f).pending = s.pending := rfl
@[simp] theorem State.modifyHead_freeIndex (s : State) (h : HeadNo) (f : Head → Head) : (s.modifyHead h f).freeIndex = s.freeIndex := rfl

@[simp] theorem State.setZone_mode (s : State) (z : ZoneNo) (v : Zone) : (s.setZone z v).mode = s.mode := rfl
@[simp] theorem State.setZone_pages (s : State) (z : ZoneNo) (v : Zone) : (s.setZone z v).pages = s.pages := rfl
@[simp] theorem State.setZone_dtu (s : State) (z : ZoneNo) (v : Zone) : (s.setZone z v).dtu = s.dtu := rfl
@[simp] theorem State.setZone_heads (s : State) (z : ZoneNo) (v : Zone) : (s.setZone z v).heads = s.heads := rfl
@[simp] theorem State.setZone_intake (s : State) (z : ZoneNo) (v : Zone) : (s.setZone z v).intake = s.intake := rfl
@[simp] theorem State.setZone_clock (s : State) (z : ZoneNo) (v : Zone) : (s.setZone z v).clock = s.clock := rfl
@[simp] theorem State.setZone_fiu (s : State) (z : ZoneNo) (v : Zone) : (s.setZone z v).fiu = s.fiu := rfl
@[simp] theorem State.setZone_zones (s : State) (z : ZoneNo) (v : Zone) : (s.setZone z v).zones = s.zones.set z v := rfl
@[simp] theorem State.setZone_su (s : State) (z : ZoneNo) (v : Zone) : (s.setZone z v).su = s.su := rfl
@[simp] theorem State.setZone_hcq (s : State) (z : ZoneNo) (v : Zone) : (s.setZone z v).hcq = s.hcq := rfl
@[simp] theorem State.setZone_evu (s : State) (z : ZoneNo) (v : Zone) : (s.setZone z v).evu = s.evu := rfl
@[simp] theorem State.setZone_pli (s : State) (z : ZoneNo) (v : Zone) : (s.setZone z v).pli = s.pli := rfl
@[simp] theorem State.setZone_mex (s : State) (z : ZoneNo) (v : Zone) : (s.setZone z v).mex = s.mex := rfl
@[simp] theorem State.setZone_pending (s : State) (z : ZoneNo) (v : Zone) : (s.setZone z v).pending = s.pending := rfl
@[simp] theorem State.setZone_freeIndex (s : State) (z : ZoneNo) (v : Zone) : (s.setZone z v).freeIndex = s.freeIndex := rfl

@[simp] theorem State.modifyZone_mode (s : State) (z : ZoneNo) (f : Zone → Zone) : (s.modifyZone z f).mode = s.mode := rfl
@[simp] theorem State.modifyZone_pages (s : State) (z : ZoneNo) (f : Zone → Zone) : (s.modifyZone z f).pages = s.pages := rfl
@[simp] theorem State.modifyZone_dtu (s : State) (z : ZoneNo) (f : Zone → Zone) : (s.modifyZone z f).dtu = s.dtu := rfl
@[simp] theorem State.modifyZone_heads (s : State) (z : ZoneNo) (f : Zone → Zone) : (s.modifyZone z f).heads = s.heads := rfl
@[simp] theorem State.modifyZone_intake (s : State) (z : ZoneNo) (f : Zone → Zone) : (s.modifyZone z f).intake = s.intake := rfl
@[simp] theorem State.modifyZone_clock (s : State) (z : ZoneNo) (f : Zone → Zone) : (s.modifyZone z f).clock = s.clock := rfl
@[simp] theorem State.modifyZone_fiu (s : State) (z : ZoneNo) (f : Zone → Zone) : (s.modifyZone z f).fiu = s.fiu := rfl
@[simp] theorem State.modifyZone_zones (s : State) (z : ZoneNo) (f : Zone → Zone) : (s.modifyZone z f).zones = s.zones.set z (f (s.zone z)) := rfl
@[simp] theorem State.modifyZone_su (s : State) (z : ZoneNo) (f : Zone → Zone) : (s.modifyZone z f).su = s.su := rfl
@[simp] theorem State.modifyZone_hcq (s : State) (z : ZoneNo) (f : Zone → Zone) : (s.modifyZone z f).hcq = s.hcq := rfl
@[simp] theorem State.modifyZone_evu (s : State) (z : ZoneNo) (f : Zone → Zone) : (s.modifyZone z f).evu = s.evu := rfl
@[simp] theorem State.modifyZone_pli (s : State) (z : ZoneNo) (f : Zone → Zone) : (s.modifyZone z f).pli = s.pli := rfl
@[simp] theorem State.modifyZone_mex (s : State) (z : ZoneNo) (f : Zone → Zone) : (s.modifyZone z f).mex = s.mex := rfl
@[simp] theorem State.modifyZone_pending (s : State) (z : ZoneNo) (f : Zone → Zone) : (s.modifyZone z f).pending = s.pending := rfl
@[simp] theorem State.modifyZone_freeIndex (s : State) (z : ZoneNo) (f : Zone → Zone) : (s.modifyZone z f).freeIndex = s.freeIndex := rfl

@[simp] theorem State.setDtu_mode (s : State) (d : Dtu) : (s.setDtu d).mode = s.mode := rfl
@[simp] theorem State.setDtu_pages (s : State) (d : Dtu) : (s.setDtu d).pages = s.pages := rfl
@[simp] theorem State.setDtu_dtu (s : State) (d : Dtu) : (s.setDtu d).dtu = d := rfl
@[simp] theorem State.setDtu_heads (s : State) (d : Dtu) : (s.setDtu d).heads = s.heads := rfl
@[simp] theorem State.setDtu_intake (s : State) (d : Dtu) : (s.setDtu d).intake = s.intake := rfl
@[simp] theorem State.setDtu_clock (s : State) (d : Dtu) : (s.setDtu d).clock = s.clock := rfl
@[simp] theorem State.setDtu_fiu (s : State) (d : Dtu) : (s.setDtu d).fiu = s.fiu := rfl
@[simp] theorem State.setDtu_zones (s : State) (d : Dtu) : (s.setDtu d).zones = s.zones := rfl
@[simp] theorem State.setDtu_su (s : State) (d : Dtu) : (s.setDtu d).su = s.su := rfl
@[simp] theorem State.setDtu_hcq (s : State) (d : Dtu) : (s.setDtu d).hcq = s.hcq := rfl
@[simp] theorem State.setDtu_evu (s : State) (d : Dtu) : (s.setDtu d).evu = s.evu := rfl
@[simp] theorem State.setDtu_pli (s : State) (d : Dtu) : (s.setDtu d).pli = s.pli := rfl
@[simp] theorem State.setDtu_mex (s : State) (d : Dtu) : (s.setDtu d).mex = s.mex := rfl
@[simp] theorem State.setDtu_pending (s : State) (d : Dtu) : (s.setDtu d).pending = s.pending := rfl
@[simp] theorem State.setDtu_freeIndex (s : State) (d : Dtu) : (s.setDtu d).freeIndex = s.freeIndex := rfl

@[simp] theorem State.putRecord_mode (s : State) (i : Nat) (r : DetectorRecord) : (s.putRecord i r).mode = s.mode := rfl
@[simp] theorem State.putRecord_pages (s : State) (i : Nat) (r : DetectorRecord) : (s.putRecord i r).pages = s.pages := rfl
@[simp] theorem State.putRecord_dtu (s : State) (i : Nat) (r : DetectorRecord) : (s.putRecord i r).dtu = s.dtu.putRecord i (some r) := rfl
@[simp] theorem State.putRecord_heads (s : State) (i : Nat) (r : DetectorRecord) : (s.putRecord i r).heads = s.heads := rfl
@[simp] theorem State.putRecord_intake (s : State) (i : Nat) (r : DetectorRecord) : (s.putRecord i r).intake = s.intake := rfl
@[simp] theorem State.putRecord_clock (s : State) (i : Nat) (r : DetectorRecord) : (s.putRecord i r).clock = s.clock := rfl
@[simp] theorem State.putRecord_fiu (s : State) (i : Nat) (r : DetectorRecord) : (s.putRecord i r).fiu = s.fiu := rfl
@[simp] theorem State.putRecord_zones (s : State) (i : Nat) (r : DetectorRecord) : (s.putRecord i r).zones = s.zones := rfl
@[simp] theorem State.putRecord_su (s : State) (i : Nat) (r : DetectorRecord) : (s.putRecord i r).su = s.su := rfl
@[simp] theorem State.putRecord_hcq (s : State) (i : Nat) (r : DetectorRecord) : (s.putRecord i r).hcq = s.hcq := rfl
@[simp] theorem State.putRecord_evu (s : State) (i : Nat) (r : DetectorRecord) : (s.putRecord i r).evu = s.evu := rfl
@[simp] theorem State.putRecord_pli (s : State) (i : Nat) (r : DetectorRecord) : (s.putRecord i r).pli = s.pli := rfl
@[simp] theorem State.putRecord_mex (s : State) (i : Nat) (r : DetectorRecord) : (s.putRecord i r).mex = s.mex := rfl
@[simp] theorem State.putRecord_pending (s : State) (i : Nat) (r : DetectorRecord) : (s.putRecord i r).pending = s.pending := rfl
@[simp] theorem State.putRecord_freeIndex (s : State) (i : Nat) (r : DetectorRecord) : (s.putRecord i r).freeIndex = s.freeIndex := rfl

@[simp] theorem State.setFiu_mode (s : State) (x : FiuState) : (s.setFiu x).mode = s.mode := rfl
@[simp] theorem State.setFiu_pages (s : State) (x : FiuState) : (s.setFiu x).pages = s.pages := rfl
@[simp] theorem State.setFiu_dtu (s : State) (x : FiuState) : (s.setFiu x).dtu = s.dtu := rfl
@[simp] theorem State.setFiu_heads (s : State) (x : FiuState) : (s.setFiu x).heads = s.heads := rfl
@[simp] theorem State.setFiu_intake (s : State) (x : FiuState) : (s.setFiu x).intake = s.intake := rfl
@[simp] theorem State.setFiu_clock (s : State) (x : FiuState) : (s.setFiu x).clock = s.clock := rfl
@[simp] theorem State.setFiu_fiu (s : State) (x : FiuState) : (s.setFiu x).fiu = { s.fiu with state := x } := rfl
@[simp] theorem State.setFiu_zones (s : State) (x : FiuState) : (s.setFiu x).zones = s.zones := rfl
@[simp] theorem State.setFiu_su (s : State) (x : FiuState) : (s.setFiu x).su = s.su := rfl
@[simp] theorem State.setFiu_hcq (s : State) (x : FiuState) : (s.setFiu x).hcq = s.hcq := rfl
@[simp] theorem State.setFiu_evu (s : State) (x : FiuState) : (s.setFiu x).evu = s.evu := rfl
@[simp] theorem State.setFiu_pli (s : State) (x : FiuState) : (s.setFiu x).pli = s.pli := rfl
@[simp] theorem State.setFiu_mex (s : State) (x : FiuState) : (s.setFiu x).mex = s.mex := rfl
@[simp] theorem State.setFiu_pending (s : State) (x : FiuState) : (s.setFiu x).pending = s.pending := rfl
@[simp] theorem State.setFiu_freeIndex (s : State) (x : FiuState) : (s.setFiu x).freeIndex = s.freeIndex := rfl

@[simp] theorem State.countFiu_mode (s : State) (f : FiuCounters → FiuCounters) : (s.countFiu f).mode = s.mode := rfl
@[simp] theorem State.countFiu_pages (s : State) (f : FiuCounters → FiuCounters) : (s.countFiu f).pages = s.pages := rfl
@[simp] theorem State.countFiu_dtu (s : State) (f : FiuCounters → FiuCounters) : (s.countFiu f).dtu = s.dtu := rfl
@[simp] theorem State.countFiu_heads (s : State) (f : FiuCounters → FiuCounters) : (s.countFiu f).heads = s.heads := rfl
@[simp] theorem State.countFiu_intake (s : State) (f : FiuCounters → FiuCounters) : (s.countFiu f).intake = s.intake := rfl
@[simp] theorem State.countFiu_clock (s : State) (f : FiuCounters → FiuCounters) : (s.countFiu f).clock = s.clock := rfl
@[simp] theorem State.countFiu_fiu (s : State) (f : FiuCounters → FiuCounters) : (s.countFiu f).fiu = { s.fiu with counters := f s.fiu.counters } := rfl
@[simp] theorem State.countFiu_zones (s : State) (f : FiuCounters → FiuCounters) : (s.countFiu f).zones = s.zones := rfl
@[simp] theorem State.countFiu_su (s : State) (f : FiuCounters → FiuCounters) : (s.countFiu f).su = s.su := rfl
@[simp] theorem State.countFiu_hcq (s : State) (f : FiuCounters → FiuCounters) : (s.countFiu f).hcq = s.hcq := rfl
@[simp] theorem State.countFiu_evu (s : State) (f : FiuCounters → FiuCounters) : (s.countFiu f).evu = s.evu := rfl
@[simp] theorem State.countFiu_pli (s : State) (f : FiuCounters → FiuCounters) : (s.countFiu f).pli = s.pli := rfl
@[simp] theorem State.countFiu_mex (s : State) (f : FiuCounters → FiuCounters) : (s.countFiu f).mex = s.mex := rfl
@[simp] theorem State.countFiu_pending (s : State) (f : FiuCounters → FiuCounters) : (s.countFiu f).pending = s.pending := rfl
@[simp] theorem State.countFiu_freeIndex (s : State) (f : FiuCounters → FiuCounters) : (s.countFiu f).freeIndex = s.freeIndex := rfl

@[simp] theorem State.raise_mode (s : State) (b : EventBody) (z : Option ZoneNo) (a : Option Address) (k : Option DetectorKind) : (s.raise b z a k).mode = s.mode := rfl
@[simp] theorem State.raise_pages (s : State) (b : EventBody) (z : Option ZoneNo) (a : Option Address) (k : Option DetectorKind) : (s.raise b z a k).pages = s.pages := rfl
@[simp] theorem State.raise_dtu (s : State) (b : EventBody) (z : Option ZoneNo) (a : Option Address) (k : Option DetectorKind) : (s.raise b z a k).dtu = s.dtu := rfl
@[simp] theorem State.raise_heads (s : State) (b : EventBody) (z : Option ZoneNo) (a : Option Address) (k : Option DetectorKind) : (s.raise b z a k).heads = s.heads := rfl
@[simp] theorem State.raise_intake (s : State) (b : EventBody) (z : Option ZoneNo) (a : Option Address) (k : Option DetectorKind) : (s.raise b z a k).intake = s.intake := rfl
@[simp] theorem State.raise_clock (s : State) (b : EventBody) (z : Option ZoneNo) (a : Option Address) (k : Option DetectorKind) : (s.raise b z a k).clock = s.clock := rfl
@[simp] theorem State.raise_fiu (s : State) (b : EventBody) (z : Option ZoneNo) (a : Option Address) (k : Option DetectorKind) : (s.raise b z a k).fiu = s.fiu := rfl
@[simp] theorem State.raise_zones (s : State) (b : EventBody) (z : Option ZoneNo) (a : Option Address) (k : Option DetectorKind) : (s.raise b z a k).zones = s.zones := rfl
@[simp] theorem State.raise_su (s : State) (b : EventBody) (z : Option ZoneNo) (a : Option Address) (k : Option DetectorKind) : (s.raise b z a k).su = s.su := rfl
@[simp] theorem State.raise_hcq (s : State) (b : EventBody) (z : Option ZoneNo) (a : Option Address) (k : Option DetectorKind) : (s.raise b z a k).hcq = s.hcq := rfl
@[simp] theorem State.raise_evu (s : State) (b : EventBody) (z : Option ZoneNo) (a : Option Address) (k : Option DetectorKind) : (s.raise b z a k).evu = s.evu.take s.now (s.eventRecord b z a k) := rfl
@[simp] theorem State.raise_pli (s : State) (b : EventBody) (z : Option ZoneNo) (a : Option Address) (k : Option DetectorKind) : (s.raise b z a k).pli = s.pli := rfl
@[simp] theorem State.raise_mex (s : State) (b : EventBody) (z : Option ZoneNo) (a : Option Address) (k : Option DetectorKind) : (s.raise b z a k).mex = s.mex := rfl
@[simp] theorem State.raise_pending (s : State) (b : EventBody) (z : Option ZoneNo) (a : Option Address) (k : Option DetectorKind) : (s.raise b z a k).pending = s.pending := rfl
@[simp] theorem State.raise_freeIndex (s : State) (b : EventBody) (z : Option ZoneNo) (a : Option Address) (k : Option DetectorKind) : (s.raise b z a k).freeIndex = s.freeIndex := rfl

@[simp] theorem State.closeContexts_mode (s : State) (c : CloseCause) : (s.closeContexts c).mode = s.mode := rfl
@[simp] theorem State.closeContexts_pages (s : State) (c : CloseCause) : (s.closeContexts c).pages = s.pages := rfl
@[simp] theorem State.closeContexts_dtu (s : State) (c : CloseCause) : (s.closeContexts c).dtu = s.dtu := rfl
@[simp] theorem State.closeContexts_heads (s : State) (c : CloseCause) : (s.closeContexts c).heads = s.heads := rfl
@[simp] theorem State.closeContexts_intake (s : State) (c : CloseCause) : (s.closeContexts c).intake = s.intake := rfl
@[simp] theorem State.closeContexts_clock (s : State) (c : CloseCause) : (s.closeContexts c).clock = s.clock := rfl
@[simp] theorem State.closeContexts_fiu (s : State) (c : CloseCause) : (s.closeContexts c).fiu = s.fiu := rfl
@[simp] theorem State.closeContexts_zones (s : State) (c : CloseCause) : (s.closeContexts c).zones = s.zones := rfl
@[simp] theorem State.closeContexts_su (s : State) (c : CloseCause) : (s.closeContexts c).su = s.su := rfl
@[simp] theorem State.closeContexts_hcq (s : State) (c : CloseCause) : (s.closeContexts c).hcq = s.hcq := rfl
@[simp] theorem State.closeContexts_evu (s : State) (c : CloseCause) : (s.closeContexts c).evu = s.evu.closeAll s.now c := rfl
@[simp] theorem State.closeContexts_pli (s : State) (c : CloseCause) : (s.closeContexts c).pli = s.pli := rfl
@[simp] theorem State.closeContexts_mex (s : State) (c : CloseCause) : (s.closeContexts c).mex = s.mex := rfl
@[simp] theorem State.closeContexts_pending (s : State) (c : CloseCause) : (s.closeContexts c).pending = s.pending := rfl
@[simp] theorem State.closeContexts_freeIndex (s : State) (c : CloseCause) : (s.closeContexts c).freeIndex = s.freeIndex := rfl

@[simp] theorem State.closeContext_mode (s : State) (c : CloseCause) (a : Address) : (s.closeContext c a).mode = s.mode := rfl
@[simp] theorem State.closeContext_pages (s : State) (c : CloseCause) (a : Address) : (s.closeContext c a).pages = s.pages := rfl
@[simp] theorem State.closeContext_dtu (s : State) (c : CloseCause) (a : Address) : (s.closeContext c a).dtu = s.dtu := rfl
@[simp] theorem State.closeContext_heads (s : State) (c : CloseCause) (a : Address) : (s.closeContext c a).heads = s.heads := rfl
@[simp] theorem State.closeContext_intake (s : State) (c : CloseCause) (a : Address) : (s.closeContext c a).intake = s.intake := rfl
@[simp] theorem State.closeContext_clock (s : State) (c : CloseCause) (a : Address) : (s.closeContext c a).clock = s.clock := rfl
@[simp] theorem State.closeContext_fiu (s : State) (c : CloseCause) (a : Address) : (s.closeContext c a).fiu = s.fiu := rfl
@[simp] theorem State.closeContext_zones (s : State) (c : CloseCause) (a : Address) : (s.closeContext c a).zones = s.zones := rfl
@[simp] theorem State.closeContext_su (s : State) (c : CloseCause) (a : Address) : (s.closeContext c a).su = s.su := rfl
@[simp] theorem State.closeContext_hcq (s : State) (c : CloseCause) (a : Address) : (s.closeContext c a).hcq = s.hcq := rfl
@[simp] theorem State.closeContext_evu (s : State) (c : CloseCause) (a : Address) : (s.closeContext c a).evu = s.evu.closeFor s.now c a := rfl
@[simp] theorem State.closeContext_pli (s : State) (c : CloseCause) (a : Address) : (s.closeContext c a).pli = s.pli := rfl
@[simp] theorem State.closeContext_mex (s : State) (c : CloseCause) (a : Address) : (s.closeContext c a).mex = s.mex := rfl
@[simp] theorem State.closeContext_pending (s : State) (c : CloseCause) (a : Address) : (s.closeContext c a).pending = s.pending := rfl
@[simp] theorem State.closeContext_freeIndex (s : State) (c : CloseCause) (a : Address) : (s.closeContext c a).freeIndex = s.freeIndex := rfl

@[simp] theorem State.setPages_mode (s : State) (p : Pages) : (s.setPages p).mode = s.mode := rfl
@[simp] theorem State.setPages_pages (s : State) (p : Pages) : (s.setPages p).pages = p := rfl
@[simp] theorem State.setPages_dtu (s : State) (p : Pages) : (s.setPages p).dtu = s.dtu := rfl
@[simp] theorem State.setPages_heads (s : State) (p : Pages) : (s.setPages p).heads = s.heads := rfl
@[simp] theorem State.setPages_intake (s : State) (p : Pages) : (s.setPages p).intake = s.intake := rfl
@[simp] theorem State.setPages_clock (s : State) (p : Pages) : (s.setPages p).clock = s.clock := rfl
@[simp] theorem State.setPages_fiu (s : State) (p : Pages) : (s.setPages p).fiu = s.fiu := rfl
@[simp] theorem State.setPages_zones (s : State) (p : Pages) : (s.setPages p).zones = s.zones := rfl
@[simp] theorem State.setPages_su (s : State) (p : Pages) : (s.setPages p).su = s.su := rfl
@[simp] theorem State.setPages_hcq (s : State) (p : Pages) : (s.setPages p).hcq = s.hcq := rfl
@[simp] theorem State.setPages_evu (s : State) (p : Pages) : (s.setPages p).evu = s.evu := rfl
@[simp] theorem State.setPages_pli (s : State) (p : Pages) : (s.setPages p).pli = s.pli := rfl
@[simp] theorem State.setPages_mex (s : State) (p : Pages) : (s.setPages p).mex = s.mex := rfl
@[simp] theorem State.setPages_pending (s : State) (p : Pages) : (s.setPages p).pending = s.pending := rfl
@[simp] theorem State.setPages_freeIndex (s : State) (p : Pages) : (s.setPages p).freeIndex = s.freeIndex := rfl

@[simp] theorem State.setOrders_mode (s : State) (o : List GroupEntry) : (s.setOrders o).mode = s.mode := rfl
@[simp] theorem State.setOrders_pages (s : State) (o : List GroupEntry) : (s.setOrders o).pages = s.pages := rfl
@[simp] theorem State.setOrders_dtu (s : State) (o : List GroupEntry) : (s.setOrders o).dtu = s.dtu := rfl
@[simp] theorem State.setOrders_heads (s : State) (o : List GroupEntry) : (s.setOrders o).heads = s.heads := rfl
@[simp] theorem State.setOrders_intake (s : State) (o : List GroupEntry) : (s.setOrders o).intake = s.intake := rfl
@[simp] theorem State.setOrders_clock (s : State) (o : List GroupEntry) : (s.setOrders o).clock = s.clock := rfl
@[simp] theorem State.setOrders_fiu (s : State) (o : List GroupEntry) : (s.setOrders o).fiu = s.fiu := rfl
@[simp] theorem State.setOrders_zones (s : State) (o : List GroupEntry) : (s.setOrders o).zones = s.zones := rfl
@[simp] theorem State.setOrders_su (s : State) (o : List GroupEntry) : (s.setOrders o).su = s.su := rfl
@[simp] theorem State.setOrders_hcq (s : State) (o : List GroupEntry) : (s.setOrders o).hcq = { s.hcq with orders := o } := rfl
@[simp] theorem State.setOrders_evu (s : State) (o : List GroupEntry) : (s.setOrders o).evu = s.evu := rfl
@[simp] theorem State.setOrders_pli (s : State) (o : List GroupEntry) : (s.setOrders o).pli = s.pli := rfl
@[simp] theorem State.setOrders_mex (s : State) (o : List GroupEntry) : (s.setOrders o).mex = s.mex := rfl
@[simp] theorem State.setOrders_pending (s : State) (o : List GroupEntry) : (s.setOrders o).pending = s.pending := rfl
@[simp] theorem State.setOrders_freeIndex (s : State) (o : List GroupEntry) : (s.setOrders o).freeIndex = s.freeIndex := rfl

theorem State.head_setHead (s : State) (h k : HeadNo) (v : Head) :
    (s.setHead h v).head k = if k = h then v else s.head k := by
  simp only [State.head, State.setHead, Vector.get_eq_getElem, Vector.getElem_set, Fin.ext_iff, eq_comm]

theorem State.head_modifyHead (s : State) (h k : HeadNo) (f : Head → Head) :
    (s.modifyHead h f).head k = if k = h then f (s.head h) else s.head k := by
  simp only [State.modifyHead, State.head_setHead]

theorem State.zone_setZone (s : State) (z y : ZoneNo) (v : Zone) :
    (s.setZone z v).zone y = if y = z then v else s.zone y := by
  simp only [State.zone, State.setZone, Vector.get_eq_getElem, Vector.getElem_set, Fin.ext_iff, eq_comm]

theorem State.zone_modifyZone (s : State) (z y : ZoneNo) (f : Zone → Zone) :
    (s.modifyZone z f).zone y = if y = z then f (s.zone z) else s.zone y := by
  simp only [State.modifyZone, State.zone_setZone]

/-- Reading an element of a mapped vector. -/
theorem mapVector_get {α : Type} {n : Nat} (f : α → α) (v : Vector α n) (i : Fin n) :
    (mapVector f v).get i = f (v.get i) := by
  simp [mapVector, Vector.get_eq_getElem]

/-- Reading an element of a vector after one has been replaced. -/
theorem vector_get_set {α : Type} {n : Nat} (v : Vector α n) (i k : Fin n) (x : α) :
    (v.set i x).get k = if k = i then x else v.get k := by
  simp only [Vector.get_eq_getElem, Vector.getElem_set, Fin.ext_iff, eq_comm]

@[simp] theorem State.head_raise (s : State) (b : EventBody) (z : Option ZoneNo) (a : Option Address)
    (k : Option DetectorKind) (h : HeadNo) : (s.raise b z a k).head h = s.head h := rfl
@[simp] theorem State.zone_raise (s : State) (b : EventBody) (z : Option ZoneNo) (a : Option Address)
    (k : Option DetectorKind) (y : ZoneNo) : (s.raise b z a k).zone y = s.zone y := rfl
@[simp] theorem State.zone_modifyHead (s : State) (h : HeadNo) (f : Head → Head) (y : ZoneNo) :
    (s.modifyHead h f).zone y = s.zone y := rfl
@[simp] theorem State.head_modifyZone (s : State) (z : ZoneNo) (f : Zone → Zone) (h : HeadNo) :
    (s.modifyZone z f).head h = s.head h := rfl
@[simp] theorem State.head_setZone (s : State) (z : ZoneNo) (v : Zone) (h : HeadNo) :
    (s.setZone z v).head h = s.head h := rfl
@[simp] theorem State.zone_closeContexts (s : State) (c : CloseCause) (y : ZoneNo) :
    (s.closeContexts c).zone y = s.zone y := rfl
@[simp] theorem State.zone_closeContext (s : State) (c : CloseCause) (a : Address) (y : ZoneNo) :
    (s.closeContext c a).zone y = s.zone y := rfl

end Sys2Proof.Machine
end

