-- ==== Sys2Proof/Laws/Frames.lean ====
section
/-! SUPPORT. What each shared operation can change: one lemma per operation, of the form "the state after is the state
before with these fields replaced". -/

namespace Sys2Proof.Machine

/-! ## The forms -/

/-- Only EVU may differ. -/
def OnlyEvu (s t : State) : Prop := t = { s with evu := t.evu }

/-- Only the zones and EVU may differ. -/
def OnlyZones (s t : State) : Prop := t = { s with zones := t.zones, evu := t.evu }

/-- Only HCQ and EVU may differ. -/
def OnlyHcq (s t : State) : Prop := t = { s with hcq := t.hcq, evu := t.evu }

/-- Only the heads and HCQ may differ. -/
def OnlyHeads (s t : State) : Prop := t = { s with heads := t.heads, hcq := t.hcq }

/-- Only the zones, HCQ and EVU may differ. -/
def OnlyNotices (s t : State) : Prop := t = { s with zones := t.zones, hcq := t.hcq, evu := t.evu }

/-- Only the heads and EVU may differ. -/
def OnlyHealth (s t : State) : Prop := t = { s with heads := t.heads, evu := t.evu }

/-- Only what a completion step writes outside the record may differ: the heads, FIU, the zones, SU, HCQ and EVU. -/
def OnlyCompletion (s t : State) : Prop :=
  t = { s with heads := t.heads, fiu := t.fiu, zones := t.zones, su := t.su, hcq := t.hcq, evu := t.evu }

theorem OnlyEvu.refl (s : State) : OnlyEvu s s := rfl
theorem OnlyZones.refl (s : State) : OnlyZones s s := rfl
theorem OnlyHcq.refl (s : State) : OnlyHcq s s := rfl
theorem OnlyHeads.refl (s : State) : OnlyHeads s s := rfl
theorem OnlyNotices.refl (s : State) : OnlyNotices s s := rfl
theorem OnlyHealth.refl (s : State) : OnlyHealth s s := rfl
theorem OnlyCompletion.refl (s : State) : OnlyCompletion s s := rfl

theorem OnlyEvu.trans {s t u : State} (h : OnlyEvu s t) (k : OnlyEvu t u) : OnlyEvu s u := by
  unfold OnlyEvu at *; rw [k, h]
theorem OnlyZones.trans {s t u : State} (h : OnlyZones s t) (k : OnlyZones t u) : OnlyZones s u := by
  unfold OnlyZones at *; rw [k, h]
theorem OnlyHcq.trans {s t u : State} (h : OnlyHcq s t) (k : OnlyHcq t u) : OnlyHcq s u := by
  unfold OnlyHcq at *; rw [k, h]
theorem OnlyHeads.trans {s t u : State} (h : OnlyHeads s t) (k : OnlyHeads t u) : OnlyHeads s u := by
  unfold OnlyHeads at *; rw [k, h]
theorem OnlyNotices.trans {s t u : State} (h : OnlyNotices s t) (k : OnlyNotices t u) : OnlyNotices s u := by
  unfold OnlyNotices at *; rw [k, h]
theorem OnlyHealth.trans {s t u : State} (h : OnlyHealth s t) (k : OnlyHealth t u) : OnlyHealth s u := by
  unfold OnlyHealth at *; rw [k, h]
theorem OnlyCompletion.trans {s t u : State} (h : OnlyCompletion s t) (k : OnlyCompletion t u) :
    OnlyCompletion s u := by
  unfold OnlyCompletion at *; rw [k, h]

theorem OnlyEvu.zones {s t : State} (h : OnlyEvu s t) : OnlyZones s t := by unfold OnlyEvu OnlyZones at *; rw [h]
theorem OnlyEvu.hcq {s t : State} (h : OnlyEvu s t) : OnlyHcq s t := by unfold OnlyEvu OnlyHcq at *; rw [h]
theorem OnlyEvu.health {s t : State} (h : OnlyEvu s t) : OnlyHealth s t := by unfold OnlyEvu OnlyHealth at *; rw [h]
theorem OnlyZones.notices {s t : State} (h : OnlyZones s t) : OnlyNotices s t := by
  unfold OnlyZones OnlyNotices at *; rw [h]
theorem OnlyHcq.notices {s t : State} (h : OnlyHcq s t) : OnlyNotices s t := by
  unfold OnlyHcq OnlyNotices at *; rw [h]
theorem OnlyNotices.completion {s t : State} (h : OnlyNotices s t) : OnlyCompletion s t := by
  unfold OnlyNotices OnlyCompletion at *; rw [h]
theorem OnlyHeads.completion {s t : State} (h : OnlyHeads s t) : OnlyCompletion s t := by
  unfold OnlyHeads OnlyCompletion at *; rw [h]

/-! ## The fields each form keeps -/

theorem OnlyEvu.mode_eq {s t : State} (h : OnlyEvu s t) : t.mode = s.mode := by unfold OnlyEvu at h; rw [h]
theorem OnlyEvu.pages_eq {s t : State} (h : OnlyEvu s t) : t.pages = s.pages := by unfold OnlyEvu at h; rw [h]
theorem OnlyEvu.dtu_eq {s t : State} (h : OnlyEvu s t) : t.dtu = s.dtu := by unfold OnlyEvu at h; rw [h]
theorem OnlyEvu.heads_eq {s t : State} (h : OnlyEvu s t) : t.heads = s.heads := by unfold OnlyEvu at h; rw [h]
theorem OnlyEvu.intake_eq {s t : State} (h : OnlyEvu s t) : t.intake = s.intake := by unfold OnlyEvu at h; rw [h]
theorem OnlyEvu.clock_eq {s t : State} (h : OnlyEvu s t) : t.clock = s.clock := by unfold OnlyEvu at h; rw [h]
theorem OnlyEvu.fiu_eq {s t : State} (h : OnlyEvu s t) : t.fiu = s.fiu := by unfold OnlyEvu at h; rw [h]
theorem OnlyEvu.zones_eq {s t : State} (h : OnlyEvu s t) : t.zones = s.zones := by unfold OnlyEvu at h; rw [h]
theorem OnlyEvu.su_eq {s t : State} (h : OnlyEvu s t) : t.su = s.su := by unfold OnlyEvu at h; rw [h]
theorem OnlyEvu.hcq_eq {s t : State} (h : OnlyEvu s t) : t.hcq = s.hcq := by unfold OnlyEvu at h; rw [h]
theorem OnlyEvu.pli_eq {s t : State} (h : OnlyEvu s t) : t.pli = s.pli := by unfold OnlyEvu at h; rw [h]
theorem OnlyEvu.mex_eq {s t : State} (h : OnlyEvu s t) : t.mex = s.mex := by unfold OnlyEvu at h; rw [h]

theorem OnlyZones.mode_eq {s t : State} (h : OnlyZones s t) : t.mode = s.mode := by unfold OnlyZones at h; rw [h]
theorem OnlyZones.pages_eq {s t : State} (h : OnlyZones s t) : t.pages = s.pages := by unfold OnlyZones at h; rw [h]
theorem OnlyZones.dtu_eq {s t : State} (h : OnlyZones s t) : t.dtu = s.dtu := by unfold OnlyZones at h; rw [h]
theorem OnlyZones.heads_eq {s t : State} (h : OnlyZones s t) : t.heads = s.heads := by unfold OnlyZones at h; rw [h]
theorem OnlyZones.intake_eq {s t : State} (h : OnlyZones s t) : t.intake = s.intake := by unfold OnlyZones at h; rw [h]
theorem OnlyZones.clock_eq {s t : State} (h : OnlyZones s t) : t.clock = s.clock := by unfold OnlyZones at h; rw [h]
theorem OnlyZones.fiu_eq {s t : State} (h : OnlyZones s t) : t.fiu = s.fiu := by unfold OnlyZones at h; rw [h]
theorem OnlyZones.su_eq {s t : State} (h : OnlyZones s t) : t.su = s.su := by unfold OnlyZones at h; rw [h]
theorem OnlyZones.hcq_eq {s t : State} (h : OnlyZones s t) : t.hcq = s.hcq := by unfold OnlyZones at h; rw [h]
theorem OnlyZones.pli_eq {s t : State} (h : OnlyZones s t) : t.pli = s.pli := by unfold OnlyZones at h; rw [h]
theorem OnlyZones.mex_eq {s t : State} (h : OnlyZones s t) : t.mex = s.mex := by unfold OnlyZones at h; rw [h]

theorem OnlyHcq.mode_eq {s t : State} (h : OnlyHcq s t) : t.mode = s.mode := by unfold OnlyHcq at h; rw [h]
theorem OnlyHcq.pages_eq {s t : State} (h : OnlyHcq s t) : t.pages = s.pages := by unfold OnlyHcq at h; rw [h]
theorem OnlyHcq.dtu_eq {s t : State} (h : OnlyHcq s t) : t.dtu = s.dtu := by unfold OnlyHcq at h; rw [h]
theorem OnlyHcq.heads_eq {s t : State} (h : OnlyHcq s t) : t.heads = s.heads := by unfold OnlyHcq at h; rw [h]
theorem OnlyHcq.intake_eq {s t : State} (h : OnlyHcq s t) : t.intake = s.intake := by unfold OnlyHcq at h; rw [h]
theorem OnlyHcq.clock_eq {s t : State} (h : OnlyHcq s t) : t.clock = s.clock := by unfold OnlyHcq at h; rw [h]
theorem OnlyHcq.fiu_eq {s t : State} (h : OnlyHcq s t) : t.fiu = s.fiu := by unfold OnlyHcq at h; rw [h]
theorem OnlyHcq.zones_eq {s t : State} (h : OnlyHcq s t) : t.zones = s.zones := by unfold OnlyHcq at h; rw [h]
theorem OnlyHcq.su_eq {s t : State} (h : OnlyHcq s t) : t.su = s.su := by unfold OnlyHcq at h; rw [h]
theorem OnlyHcq.pli_eq {s t : State} (h : OnlyHcq s t) : t.pli = s.pli := by unfold OnlyHcq at h; rw [h]
theorem OnlyHcq.mex_eq {s t : State} (h : OnlyHcq s t) : t.mex = s.mex := by unfold OnlyHcq at h; rw [h]

theorem OnlyHeads.mode_eq {s t : State} (h : OnlyHeads s t) : t.mode = s.mode := by unfold OnlyHeads at h; rw [h]
theorem OnlyHeads.pages_eq {s t : State} (h : OnlyHeads s t) : t.pages = s.pages := by unfold OnlyHeads at h; rw [h]
theorem OnlyHeads.dtu_eq {s t : State} (h : OnlyHeads s t) : t.dtu = s.dtu := by unfold OnlyHeads at h; rw [h]
theorem OnlyHeads.intake_eq {s t : State} (h : OnlyHeads s t) : t.intake = s.intake := by unfold OnlyHeads at h; rw [h]
theorem OnlyHeads.clock_eq {s t : State} (h : OnlyHeads s t) : t.clock = s.clock := by unfold OnlyHeads at h; rw [h]
theorem OnlyHeads.fiu_eq {s t : State} (h : OnlyHeads s t) : t.fiu = s.fiu := by unfold OnlyHeads at h; rw [h]
theorem OnlyHeads.zones_eq {s t : State} (h : OnlyHeads s t) : t.zones = s.zones := by unfold OnlyHeads at h; rw [h]
theorem OnlyHeads.su_eq {s t : State} (h : OnlyHeads s t) : t.su = s.su := by unfold OnlyHeads at h; rw [h]
theorem OnlyHeads.evu_eq {s t : State} (h : OnlyHeads s t) : t.evu = s.evu := by unfold OnlyHeads at h; rw [h]
theorem OnlyHeads.pli_eq {s t : State} (h : OnlyHeads s t) : t.pli = s.pli := by unfold OnlyHeads at h; rw [h]
theorem OnlyHeads.mex_eq {s t : State} (h : OnlyHeads s t) : t.mex = s.mex := by unfold OnlyHeads at h; rw [h]

theorem OnlyNotices.mode_eq {s t : State} (h : OnlyNotices s t) : t.mode = s.mode := by unfold OnlyNotices at h; rw [h]
theorem OnlyNotices.pages_eq {s t : State} (h : OnlyNotices s t) : t.pages = s.pages := by unfold OnlyNotices at h; rw [h]
theorem OnlyNotices.dtu_eq {s t : State} (h : OnlyNotices s t) : t.dtu = s.dtu := by unfold OnlyNotices at h; rw [h]
theorem OnlyNotices.heads_eq {s t : State} (h : OnlyNotices s t) : t.heads = s.heads := by unfold OnlyNotices at h; rw [h]
theorem OnlyNotices.intake_eq {s t : State} (h : OnlyNotices s t) : t.intake = s.intake := by unfold OnlyNotices at h; rw [h]
theorem OnlyNotices.clock_eq {s t : State} (h : OnlyNotices s t) : t.clock = s.clock := by unfold OnlyNotices at h; rw [h]
theorem OnlyNotices.fiu_eq {s t : State} (h : OnlyNotices s t) : t.fiu = s.fiu := by unfold OnlyNotices at h; rw [h]
theorem OnlyNotices.su_eq {s t : State} (h : OnlyNotices s t) : t.su = s.su := by unfold OnlyNotices at h; rw [h]
theorem OnlyNotices.pli_eq {s t : State} (h : OnlyNotices s t) : t.pli = s.pli := by unfold OnlyNotices at h; rw [h]
theorem OnlyNotices.mex_eq {s t : State} (h : OnlyNotices s t) : t.mex = s.mex := by unfold OnlyNotices at h; rw [h]

theorem OnlyHealth.mode_eq {s t : State} (h : OnlyHealth s t) : t.mode = s.mode := by unfold OnlyHealth at h; rw [h]
theorem OnlyHealth.pages_eq {s t : State} (h : OnlyHealth s t) : t.pages = s.pages := by unfold OnlyHealth at h; rw [h]
theorem OnlyHealth.dtu_eq {s t : State} (h : OnlyHealth s t) : t.dtu = s.dtu := by unfold OnlyHealth at h; rw [h]
theorem OnlyHealth.intake_eq {s t : State} (h : OnlyHealth s t) : t.intake = s.intake := by unfold OnlyHealth at h; rw [h]
theorem OnlyHealth.clock_eq {s t : State} (h : OnlyHealth s t) : t.clock = s.clock := by unfold OnlyHealth at h; rw [h]
theorem OnlyHealth.fiu_eq {s t : State} (h : OnlyHealth s t) : t.fiu = s.fiu := by unfold OnlyHealth at h; rw [h]
theorem OnlyHealth.zones_eq {s t : State} (h : OnlyHealth s t) : t.zones = s.zones := by unfold OnlyHealth at h; rw [h]
theorem OnlyHealth.su_eq {s t : State} (h : OnlyHealth s t) : t.su = s.su := by unfold OnlyHealth at h; rw [h]
theorem OnlyHealth.hcq_eq {s t : State} (h : OnlyHealth s t) : t.hcq = s.hcq := by unfold OnlyHealth at h; rw [h]
theorem OnlyHealth.pli_eq {s t : State} (h : OnlyHealth s t) : t.pli = s.pli := by unfold OnlyHealth at h; rw [h]
theorem OnlyHealth.mex_eq {s t : State} (h : OnlyHealth s t) : t.mex = s.mex := by unfold OnlyHealth at h; rw [h]

theorem OnlyCompletion.mode_eq {s t : State} (h : OnlyCompletion s t) : t.mode = s.mode := by unfold OnlyCompletion at h; rw [h]
theorem OnlyCompletion.pages_eq {s t : State} (h : OnlyCompletion s t) : t.pages = s.pages := by unfold OnlyCompletion at h; rw [h]
theorem OnlyCompletion.dtu_eq {s t : State} (h : OnlyCompletion s t) : t.dtu = s.dtu := by unfold OnlyCompletion at h; rw [h]
theorem OnlyCompletion.intake_eq {s t : State} (h : OnlyCompletion s t) : t.intake = s.intake := by unfold OnlyCompletion at h; rw [h]
theorem OnlyCompletion.clock_eq {s t : State} (h : OnlyCompletion s t) : t.clock = s.clock := by unfold OnlyCompletion at h; rw [h]
theorem OnlyCompletion.pli_eq {s t : State} (h : OnlyCompletion s t) : t.pli = s.pli := by unfold OnlyCompletion at h; rw [h]
theorem OnlyCompletion.mex_eq {s t : State} (h : OnlyCompletion s t) : t.mex = s.mex := by unfold OnlyCompletion at h; rw [h]

/-- A fold of steps each of which keeps a reflexive and transitive relation keeps it. -/
theorem foldl_rel {α : Type} (R : State → State → Prop) (hr : ∀ s, R s s)
    (ht : ∀ s t u, R s t → R t u → R s u) (f : State → α → State) (hf : ∀ s x, R s (f s x)) :
    ∀ (l : List α) (s : State), R s (l.foldl f s)
  | [], s => hr s
  | x :: l, s => ht _ _ _ (hf s x) (foldl_rel R hr ht f hf l (f s x))

/-! ## Records raised (section 8) -/

theorem State.raise_frame (s : State) (b : EventBody) (z : Option ZoneNo) (a : Option Address)
    (k : Option DetectorKind) : OnlyEvu s (s.raise b z a k) := rfl
theorem State.closeContexts_frame (s : State) (c : CloseCause) : OnlyEvu s (s.closeContexts c) := rfl
theorem State.closeContext_frame (s : State) (c : CloseCause) (a : Address) : OnlyEvu s (s.closeContext c a) := rfl

/-! ## Zones (section 5) -/

theorem State.modifyZone_frame (s : State) (z : ZoneNo) (f : Zone → Zone) : OnlyZones s (s.modifyZone z f) := rfl
theorem State.setZone_frame (s : State) (z : ZoneNo) (v : Zone) : OnlyZones s (s.setZone z v) := rfl

theorem State.zoneDecrement_frame (s : State) (z : ZoneNo) (a : Address) (k : Option DetectorKind) :
    OnlyZones s (s.zoneDecrement z a k) := by
  unfold State.zoneDecrement; dsimp only; split <;> rfl

theorem State.enterAlarm_frame (s : State) (z : ZoneNo) (a : Address) (k : DetectorKind) (c : AlarmCause)
    (p : Option ZoneNo) : OnlyZones s (s.enterAlarm z a k c p) := rfl

theorem State.enterVerify_frame (s : State) (z : ZoneNo) (a : Address) (k : DetectorKind) :
    OnlyZones s (s.enterVerify z a k) := rfl

theorem State.zoneIntoAlarm_frame (s : State) (z : ZoneNo) (a : Address) (k : DetectorKind) :
    OnlyZones s (s.zoneIntoAlarm z a k) := by
  unfold State.zoneIntoAlarm; dsimp only; repeat' split
  all_goals rfl

theorem State.confirmPartners_frame (s : State) (z : ZoneNo) (a : Address) (k : DetectorKind) :
    OnlyZones s (s.confirmPartners z a k) := by
  refine foldl_rel OnlyZones OnlyZones.refl (fun _ _ _ => OnlyZones.trans) _ ?_ _ _
  intro s y; unfold State.confirmPartner; split <;> rfl

theorem State.zoneTransition_frame (s : State) (z : ZoneNo) (a : Address) (k : DetectorKind) (b c : Level) :
    OnlyZones s (s.zoneTransition z a k b c) := by
  have hinc : OnlyZones s (if b = .normal then s.zoneIncrement z else s) := by split <;> rfl
  unfold State.zoneTransition; cases c
  · exact State.zoneDecrement_frame _ _ _ _
  · dsimp only; refine hinc.trans ?_
    generalize (if b = .normal then s.zoneIncrement z else s) = s1
    split <;> rfl
  · dsimp only; refine hinc.trans ?_
    generalize (if b = .normal then s.zoneIncrement z else s) = s1
    split
    · exact (State.zoneIntoAlarm_frame _ _ _ _).trans (State.confirmPartners_frame _ _ _ _)
    · rfl

theorem State.zoneStaysAlarm_frame (s : State) (z : ZoneNo) (a : Address) (k : DetectorKind) :
    OnlyZones s (s.zoneStaysAlarm z a k) := by
  unfold State.zoneStaysAlarm; dsimp only; split <;> rfl

theorem State.lapses_frame (s : State) (l : List ZoneNo) : OnlyZones s (l.foldl State.lapseIfReached s) := by
  refine foldl_rel OnlyZones OnlyZones.refl (fun _ _ _ => OnlyZones.trans) _ ?_ _ _
  intro s y; unfold State.lapseIfReached; split <;> rfl

theorem State.stopLapses_frame (s : State) (l : List ZoneNo) : OnlyZones s (l.foldl State.lapseAtStop s) := by
  refine foldl_rel OnlyZones OnlyZones.refl (fun _ _ _ => OnlyZones.trans) _ ?_ _ _
  intro s y; unfold State.lapseAtStop; split <;> rfl

/-! ## Held commands (section 7) -/

theorem State.raiseExpired_frame (s : State) (e : HeldEntry) : OnlyHcq s (s.raiseExpired e) := rfl

theorem State.raiseWithdrawn_frame (z : ZoneNo) (s : State) (e : HeldEntry) :
    OnlyHcq s (State.raiseWithdrawn z s e) := rfl

theorem State.expireHeld_frame (s : State) : OnlyHcq s s.expireHeld := by
  unfold State.expireHeld
  refine OnlyHcq.trans (t := { s with hcq := { s.hcq with entries := _ } }) rfl ?_
  exact foldl_rel OnlyHcq OnlyHcq.refl (fun _ _ _ => OnlyHcq.trans) _ State.raiseExpired_frame _ _

theorem State.withdrawHeld_frame (s : State) (a : Address) (z : ZoneNo) : OnlyHcq s (s.withdrawHeld a z) := by
  unfold State.withdrawHeld
  refine OnlyHcq.trans (t := { s with hcq := { s.hcq with entries := _ } }) rfl ?_
  exact foldl_rel OnlyHcq OnlyHcq.refl (fun _ _ _ => OnlyHcq.trans) _ (State.raiseWithdrawn_frame z) _ _

theorem State.notSent_frame (s : State) (a : Address) (h : Option Attachment) : OnlyHeads s (s.notSent a h) := by
  unfold State.notSent; split <;> rfl

/-! ## Heads (section 2) -/

theorem State.tellsNotSent_frame (s : State) (l : List (Address × Option Attachment)) :
    OnlyHeads s (l.foldl State.tellNotSent s) :=
  foldl_rel OnlyHeads OnlyHeads.refl (fun _ _ _ => OnlyHeads.trans) _ (fun _ _ => State.notSent_frame _ _ _) _ _

theorem State.modifyHead_frame (s : State) (h : HeadNo) (f : Head → Head) : OnlyHeads s (s.modifyHead h f) := rfl

theorem State.handFrame_frame (s : State) (h : HeadNo) (f : HeadFrame) : OnlyHeads s (s.handFrame h f) := by
  unfold State.handFrame; split
  · rfl
  · exact (State.modifyHead_frame _ _ _).trans (State.tellsNotSent_frame _ _)

theorem State.lateAck_frame (h : HeadNo) (s : State) (a : Address × Option Attachment) :
    OnlyHeads s (State.lateAck h s a) :=
  (State.modifyHead_frame _ _ _).trans (State.notSent_frame _ _ _)

theorem State.handAck_frame (s : State) (h : HeadNo) (x : SlotStamp) (a : Address) (q : SeqNo)
    (c : Option Attachment) : OnlyHeads s (s.handAck h x a q c) := by
  unfold State.handAck; split
  · exact State.handFrame_frame _ _ _
  · exact State.lateAck_frame _ _ _

theorem State.purgeAcks_frame (s : State) (h : HeadNo) : OnlyHeads s (s.purgeAcks h) :=
  (State.modifyHead_frame _ _ _).trans
    (foldl_rel OnlyHeads OnlyHeads.refl (fun _ _ _ => OnlyHeads.trans) _ (fun _ _ => State.lateAck_frame _ _ _) _ _)

/-- A slot start changes the heads and HCQ alone (R42). -/
theorem State.slotStart_frame (s : State) : OnlyHeads s s.slotStart := by
  have fold : ∀ (f : State → HeadNo → State), (∀ s h, OnlyHeads s (f s h)) → ∀ s, OnlyHeads s (allHeads.foldl f s) :=
    fun f hf s => foldl_rel OnlyHeads OnlyHeads.refl (fun _ _ _ => OnlyHeads.trans) f hf _ _
  have h1 : OnlyHeads s (allHeads.foldl State.tuneHead (allHeads.foldl State.purgeAcks s)) := by
    refine (fold _ State.purgeAcks_frame s).trans (fold _ ?_ _)
    intro s h; unfold State.tuneHead; split
    · exact State.handFrame_frame _ _ _
    · rfl
  unfold State.slotStart; dsimp only; split
  · refine h1.trans (fold _ ?_ _)
    intro s h; unfold State.beaconHead; split
    · exact State.handFrame_frame _ _ _
    · rfl
  · exact h1

theorem State.heartbeats_frame (s : State) (l : List HeadNo) : OnlyHealth s (l.foldl State.heartbeat s) := by
  refine foldl_rel OnlyHealth OnlyHealth.refl (fun _ _ _ => OnlyHealth.trans) _ ?_ _ _
  intro s y; unfold State.heartbeat; dsimp only; split <;> rfl

theorem State.jamCheck_frame (s : State) (h : HeadNo) (b : Nat) : OnlyHealth s (s.jamCheck h b) := by
  unfold State.jamCheck; dsimp only; repeat' split
  all_goals rfl

theorem State.takeStatus_frame (s : State) (h : HeadNo) (b : Nat) : OnlyHealth s (s.takeStatus h b) := by
  unfold State.takeStatus; dsimp only
  refine OnlyHealth.trans ?_ (State.jamCheck_frame _ _ _)
  split <;> rfl

/-! ## Removal (section 1) -/

theorem State.noticeZoneAndEvents_frame (s : State) (r : DetectorRecord) : OnlyZones s (s.noticeZoneAndEvents r) := by
  unfold State.noticeZoneAndEvents; dsimp only
  refine OnlyZones.trans ?_ (State.closeContext_frame _ _ _).zones
  split
  · exact State.zoneDecrement_frame _ _ _ _
  · rfl

theorem State.removalNotices_frame (s : State) (r : DetectorRecord) : OnlyNotices s (s.removalNotices r) :=
  (State.noticeZoneAndEvents_frame s r).notices.trans (State.withdrawHeld_frame _ _ _).notices

theorem State.removeAll_frame (s : State) : OnlyCompletion s s.removeAll := by
  refine foldl_rel OnlyCompletion OnlyCompletion.refl (fun _ _ _ => OnlyCompletion.trans) _ ?_ _ _
  intro s r
  refine OnlyCompletion.trans ?_ (State.removalNotices_frame _ _).completion
  unfold State.uncountMissing; split <;> rfl

/-! ## A completion step (sections 3, 4, 6, 7) -/

/-- A stage of a completion keeps everything but what a completion writes. -/
def Work.Stays (f : Work → Work) : Prop := ∀ w, OnlyCompletion w.st (f w).st

theorem Work.raise_stays (b : EventBody) : Work.Stays (fun w => w.raise b) := fun _ => rfl

theorem Work.supervise_stays (f : RadioFrame) : Work.Stays (fun w => w.supervise f) := by
  have hb : ∀ low, Work.Stays (fun w => w.checkBattery low) := by
    intro low w; dsimp only; unfold Work.checkBattery; split <;> rfl
  have ht : ∀ o, Work.Stays (fun w => w.checkTamper o) := by
    intro o w; dsimp only; unfold Work.checkTamper; split <;> rfl
  have hp : Work.Stays Work.refreshPresence := by
    intro w; unfold Work.refreshPresence; dsimp only; split <;> rfl
  intro w; dsimp only; unfold Work.supervise; split
  · exact ((hp w).trans (hb _ _)).trans (ht _ _)
  · rfl

theorem Work.judgeEcho_stays (d : Byte) : Work.Stays (fun w => w.judgeEcho d) := by
  have hc : ∀ e, Work.Stays (fun w => w.completeCommand e) := by
    intro e w; dsimp only; unfold Work.completeCommand; dsimp only; repeat' split
    · exact (State.zoneDecrement_frame _ _ _ _).notices.completion
    all_goals rfl
  intro w; dsimp only; unfold Work.judgeEcho; split
  · rfl
  · split
    · unfold Work.echoDone; dsimp only
      refine OnlyCompletion.trans ?_ (hc _ _); rfl
    · unfold Work.echoMissed; dsimp only; split <;> rfl

theorem Work.level_stays (q : SeqNo) (c : Content) : Work.Stays (fun w => w.level q c) := by
  have hd : ∀ o, Work.Stays (fun w => w.driftOf o) := by
    intro o w; dsimp only; unfold Work.driftOf; split
    · rfl
    · unfold Work.checkDrift; dsimp only; repeat' split
      all_goals rfl
  have hh : ∀ b r, Work.Stays (fun w => w.handOn b r) := by
    intro b r w; dsimp only; unfold Work.handOn; repeat' split
    · unfold Work.transition; dsimp only; split
      · rfl
      · refine OnlyCompletion.trans ?_ (State.zoneTransition_frame _ _ _ _ _ _).notices.completion; rfl
    · exact (State.zoneStaysAlarm_frame _ _ _ _).notices.completion
    · rfl
  have hr : ∀ o, Work.Stays (fun w => w.reportValue q o) := by
    intro o w; dsimp only; unfold Work.reportValue; split
    · rfl
    · split <;> rfl
  intro w; dsimp only; unfold Work.level; repeat' split
  · rfl
  · unfold Work.applyReading; dsimp only
    refine OnlyCompletion.trans ?_ (((hd _ _).trans (hh _ _ _)).trans (hr _ _)); rfl
  · rfl

theorem Work.acknowledge_stays (f : LaneFrame) : Work.Stays (fun w => w.acknowledge f) := by
  intro w; dsimp only; unfold Work.acknowledge; dsimp only
  refine OnlyCompletion.trans ?_ (State.handAck_frame _ _ _ _ _ _).completion; rfl

theorem Work.passed_stays : Work.Stays Work.passed := by
  intro w; unfold Work.passed; dsimp only; split <;> rfl

theorem Work.weigh_stays (p : Path) : Work.Stays (fun w => w.weigh p) := by
  intro w; dsimp only; unfold Work.weigh; dsimp only; repeat' split
  all_goals rfl

theorem Work.handleNew_stays (f : LaneFrame) : Work.Stays (fun w => w.handleNew f) := by
  have hs : ∀ c, Work.Stays (fun w => w.checkPattern c) := by
    intro c w; dsimp only; unfold Work.checkPattern; split
    · unfold Work.sounderCheck; dsimp only; repeat' split
      all_goals rfl
    all_goals rfl
  intro w; dsimp only; unfold Work.handleNew; dsimp only
  refine OnlyCompletion.trans ?_ (Work.acknowledge_stays f _)
  unfold Work.dispatch
  refine OnlyCompletion.trans ?_ (hs _ _)
  refine OnlyCompletion.trans ?_ (Work.level_stays _ _ _)
  refine OnlyCompletion.trans ?_ (Work.judgeEcho_stays _ _)
  refine OnlyCompletion.trans ?_ (Work.supervise_stays _ _)
  refine OnlyCompletion.trans (t := ((w.accept f).weigh f.path).st) ?_ ?_
  · exact OnlyCompletion.trans (t := (w.accept f).st) rfl (Work.weigh_stays _ _)
  · unfold Work.countMismatch; split <;> rfl

theorem Work.handlePassing_stays (f : LaneFrame) : Work.Stays (fun w => w.handlePassing f) := by
  intro w; dsimp only; unfold Work.handlePassing; split
  · exact (Work.passed_stays w).trans rfl
  · refine (Work.passed_stays w).trans ?_
    generalize w.passed = v
    have hi : OnlyCompletion v.st (({ v with st := v.st.countFiu fun c =>
        { c with repeated := inc32 c.repeated } } : Work).improvePath f.path).st := by
      unfold Work.improvePath; split <;> rfl
    unfold Work.handleRepeat; dsimp only; split
    · exact hi
    · exact hi.trans (Work.acknowledge_stays f _)
  · exact (Work.passed_stays w).trans (Work.handleNew_stays f _)

theorem Work.handleForged_stays (f : LaneFrame) : Work.Stays (fun w => w.handleForged f) := by
  intro w; dsimp only; unfold Work.handleForged Work.forged; dsimp only; split <;> rfl

/-- What deciding a frame changes: the captured record's slot, and the fields of a completion step (R10, R53). -/
theorem State.decideFrame_frame (s : State) (f : LaneFrame) (i : Nat) (e : BitVec 8) (p : Bool) :
    OnlyCompletion { s with dtu := (s.decideFrame f i e p).dtu } (s.decideFrame f i e p) := by
  have key : ∀ (r : DetectorRecord) (g : Work → Work), Work.Stays g →
      OnlyCompletion { s with dtu := (s.onRecord i r g).dtu } (s.onRecord i r g) := by
    intro r g hg
    have := hg { st := s, det := r }
    unfold OnlyCompletion at *
    unfold State.onRecord State.putRecord State.setDtu; dsimp only
    rw [this]
  unfold State.decideFrame; split
  · rfl
  · exact key _ _ (Work.handleForged_stays f)
  · rfl
  · exact key _ _ (Work.handlePassing_stays f)

end Sys2Proof.Machine
end

