-- ==== Sys2Proof/Laws/Events.lean ====
section
/-! SUPPORT. What EVU's operations can do: which of its fields they keep, what they do to the open contexts, and that
they keep every queue within its depth. -/

namespace Sys2Proof.Machine

/-- What every operation that takes or emits records does to the rest of EVU: the filters, the reply slot and the two
timers stand; the link and the summary slot stand on a busy link, and on an idle one a waiting summary may have been
granted it (R166). -/
structure Evu.Kept (e f : Evu) : Prop where
  filters : f.filters = e.filters
  replySlot : f.replySlot = e.replySlot
  flushTimer : f.flushTimer = e.flushTimer
  summaryTimer : f.summaryTimer = e.summaryTimer
  busy : e.tx.isSome → f.tx = e.tx
  summarySlot : f.summarySlot = e.summarySlot ∨ e.tx = none ∧ f.summarySlot = none

theorem Evu.Kept.refl (e : Evu) : e.Kept e := ⟨rfl, rfl, rfl, rfl, fun _ => rfl, .inl rfl⟩

/-- An operation that leaves these fields as they stand. -/
theorem Evu.Kept.of_eq {e f : Evu} (h1 : f.filters = e.filters) (h2 : f.replySlot = e.replySlot)
    (h3 : f.flushTimer = e.flushTimer) (h4 : f.summaryTimer = e.summaryTimer) (h5 : f.tx = e.tx)
    (h6 : f.summarySlot = e.summarySlot) : e.Kept f := ⟨h1, h2, h3, h4, fun _ => h5, .inl h6⟩

theorem Evu.Kept.trans {e f g : Evu} (h : e.Kept f) (k : f.Kept g) : e.Kept g := by
  refine ⟨k.filters.trans h.filters, k.replySlot.trans h.replySlot, k.flushTimer.trans h.flushTimer,
    k.summaryTimer.trans h.summaryTimer, fun hb => ?_, ?_⟩
  · have hf := h.busy hb
    exact (k.busy (by rw [hf]; exact hb)).trans hf
  · cases ht : e.tx with
    | none =>
      rcases k.summarySlot with ks | ks
      · rcases h.summarySlot with hs | hs
        · exact .inl (ks.trans hs)
        · exact .inr ⟨rfl, ks.trans hs.2⟩
      · exact .inr ⟨rfl, ks.2⟩
    | some x =>
      have hf : f.tx = some x := by rw [h.busy (by rw [ht]; rfl), ht]
      have hs : f.summarySlot = e.summarySlot := h.summarySlot.resolve_right (by simp [ht])
      exact .inl ((k.summarySlot.resolve_right (by simp [hf])).trans hs)

/-- The record queues within their depths (R162). -/
def Evu.QueuesBounded (e : Evu) : Prop :=
  e.faultQueue.length ≤ 48 ∧ e.statusQueue.length ≤ 48 ∧ e.levelQueue.length ≤ 96

/-- The record queues and the list of contexts within their depths (R157, R162). -/
def Evu.Bounded (e : Evu) : Prop := e.QueuesBounded ∧ e.contexts.length ≤ 16

/-! ## Grants -/

theorem Evu.grantQueues_kept {e : Evu} (h : e.tx = none) :
    e.Kept e.grantQueues ∧ e.grantQueues.contexts = e.contexts := by
  have idle : e.tx.isSome → ∀ f : Evu, f.tx = e.tx := by simp [h]
  unfold Evu.grantQueues
  repeat' split
  all_goals exact ⟨⟨rfl, rfl, rfl, rfl, fun k => idle k _, .inl rfl⟩, rfl⟩

/-- A busy link is granted nothing. -/
theorem Evu.grantDue_busy {e : Evu} (h : e.tx.isSome) : e.grantDue = e := by unfold Evu.grantDue; simp [h]

theorem Evu.grantDue_kept (e : Evu) : e.Kept e.grantDue ∧ e.grantDue.contexts = e.contexts := by
  unfold Evu.grantDue
  split
  · exact ⟨Evu.Kept.refl e, rfl⟩
  · next h =>
    have h : e.tx = none := by
      cases hx : e.tx with
      | none => rfl
      | some x => simp [hx] at h
    have idle : e.tx.isSome → ∀ f : Evu, f.tx = e.tx := by simp [h]
    split
    · exact ⟨⟨rfl, rfl, rfl, rfl, fun k => idle k _, .inl rfl⟩, rfl⟩
    · split
      · exact ⟨⟨rfl, rfl, rfl, rfl, fun k => idle k _, .inr ⟨h, rfl⟩⟩, rfl⟩
      · exact Evu.grantQueues_kept h

/-- The grant that is due, source by source. -/
theorem Evu.granted_eq (e : Evu) : e.granted = e.grantDue := by
  unfold Evu.granted Evu.grantDue
  by_cases h : e.tx.isSome = true ∨ (e.replySlot.isSome = true ∧ (e.replyFirst = true ∨ e.alarmQueue = []))
  · have h' : (e.tx.isSome || e.replyChosen.isSome) = true := by
      rw [Bool.or_eq_true]; rcases h with h | ⟨h1, h2⟩
      · exact .inl h
      · refine .inr ?_; unfold Evu.replyChosen
        rw [if_pos (by rcases h2 with h2 | h2 <;> simp [h2])]; exact h1
    rw [if_pos h, if_pos h']
  · have h' : ¬ (e.tx.isSome || e.replyChosen.isSome) = true := by
      rw [Bool.or_eq_true]; rintro (g | g)
      · exact h (.inl g)
      · unfold Evu.replyChosen at g
        split at g
        · rename_i c; refine h (.inr ⟨g, ?_⟩)
          rw [Bool.or_eq_true] at c
          rcases c with c | c
          · exact .inl c
          · exact .inr (List.isEmpty_iff.mp c)
        · simp at g
    rw [if_neg h, if_neg h']
    clear h h'
    unfold Evu.grantQueues
    cases e with | mk fi co aq fq sq lq fl sl ll su re rf tx ft st cs =>
    cases aq with
    | cons r rest => rfl
    | nil =>
      cases su with
      | some z => rfl
      | none =>
        cases fq with
        | cons r rest => rfl
        | nil =>
          cases sq with
          | cons r rest => rfl
          | nil => cases lq <;> rfl

/-- A grant looks at no counter. -/
theorem Evu.grantDue_counters (e : Evu) (cs : EvuCounters) :
    ({ e with counters := cs } : Evu).grantDue = { e.grantDue with counters := cs } := by
  rw [← Evu.granted_eq, ← Evu.granted_eq]
  unfold Evu.granted
  cases e with | mk fi co aq fq sq lq fl sl ll su re rf tx ft st c =>
  dsimp only
  split
  · rfl
  · cases aq with
    | cons r rest => rfl
    | nil =>
      cases su with
      | some z => rfl
      | none =>
        cases fq with
        | cons r rest => rfl
        | nil =>
          cases sq with
          | cons r rest => rfl
          | nil => cases lq <;> rfl

theorem Evu.grantQueues_bounded {e : Evu} (h : e.QueuesBounded) : e.grantQueues.QueuesBounded := by
  obtain ⟨h1, h2, h3⟩ := h
  unfold Evu.grantQueues
  split
  · next r l hq => rw [hq, List.length_cons] at h1; exact ⟨by show l.length ≤ 48; omega, h2, h3⟩
  · split
    · next r l hq => rw [hq, List.length_cons] at h2; exact ⟨h1, by show l.length ≤ 48; omega, h3⟩
    · split
      · next r l hq => rw [hq, List.length_cons] at h3; exact ⟨h1, h2, by show l.length ≤ 96; omega⟩
      · exact ⟨h1, h2, h3⟩

theorem Evu.grantDue_bounded {e : Evu} (h : e.QueuesBounded) : e.grantDue.QueuesBounded := by
  unfold Evu.grantDue
  repeat' split
  · exact h
  · exact h
  · exact h
  · exact Evu.grantQueues_bounded h

/-! ## Filters (R153, R155) -/

/-- What a filter accepts, field by field. -/
theorem Filter.accepts_iff (f : Filter) (r : EventRecord) : f.accepts r = true ↔ f.enable = true
      ∧ (f.eventKind ≠ none ∨ f.detKind ≠ none ∨ f.zone ≠ none ∨ f.address ≠ none)
      ∧ (∀ k, f.eventKind = some k → r.body.kind = k) ∧ (∀ k, f.detKind = some k → r.kind = some k)
      ∧ (∀ z, f.zone = some z → r.zone = some z) ∧ ∀ a, f.address = some a → r.address = some a := by
  have fm : ∀ {α : Type} [DecidableEq α] (c d : Option α), fieldMatches c d = true ↔ ∀ k, c = some k → d = some k := by
    intro α _ c d
    unfold fieldMatches
    cases c <;> simp
  unfold Filter.accepts
  simp only [Bool.and_eq_true, Bool.or_eq_true, fm, Option.isSome_iff_ne_none, Option.some.injEq]
  tauto

theorem deciding_before (f : Filter) : ∀ (l : List Filter) (b : Option Filter), (∀ g ∈ l, g.priority < f.priority) →
    (∀ x, b = some x → x.priority < f.priority) → ∀ x, l.foldl decidingOf b = some x → x.priority < f.priority
  | [], b, _, hb, x, hx => hb x hx
  | g :: l, b, hl, hb, x, hx => by
    refine deciding_before f l (decidingOf b g) (fun y hy => hl y (List.mem_cons_of_mem _ hy)) ?_ x hx
    intro y hy
    cases b with
    | none => cases hy; exact hl g (List.mem_cons_self ..)
    | some b =>
      simp only [decidingOf] at hy
      split at hy <;> cases hy
      · exact hl g (List.mem_cons_self ..)
      · exact hb _ rfl

theorem deciding_after (f : Filter) : ∀ (l : List Filter), (∀ g ∈ l, g.priority ≤ f.priority) →
    l.foldl decidingOf (some f) = some f
  | [], _ => rfl
  | g :: l, hl => by
    have h : decidingOf (some f) g = some f := by
      simp only [decidingOf]; rw [if_neg]; have := hl g (List.mem_cons_self ..); omega
    rw [List.foldl_cons, h]; exact deciding_after f l (fun y hy => hl y (List.mem_cons_of_mem _ hy))

theorem deciding_among (f : Filter) (l1 l2 : List Filter) (h1 : ∀ g ∈ l1, g.priority < f.priority)
    (h2 : ∀ g ∈ l2, g.priority ≤ f.priority) : (l1 ++ f :: l2).foldl decidingOf none = some f := by
  rw [List.foldl_append, List.foldl_cons]
  have : decidingOf (l1.foldl decidingOf none) f = some f := by
    cases hb : l1.foldl decidingOf none with
    | none => rfl
    | some x =>
      have := deciding_before f l1 none h1 (by intro x h; cases h) x hb
      simp only [decidingOf]; rw [if_pos this]
  rw [this]; exact deciding_after f l2 h2

/-- Of the filters that satisfy p, the one of the highest priority and then the lowest index decides (R155). -/
theorem deciding_eq (v : Vector Filter 16) (p : Filter → Bool) (i : Fin 16) (hp : p (v.get i) = true)
    (h : ∀ j, p (v.get j) = true → (v.get j).priority < (v.get i).priority
        ∨ ((v.get j).priority = (v.get i).priority ∧ i ≤ j)) :
    (v.toList.filter p).foldl decidingOf none = some (v.get i) := by
  have hl : v.toList.length = 16 := by simp
  have hi : i.val < v.toList.length := by rw [hl]; exact i.isLt
  have hg : ∀ k (hk : k < v.toList.length), v.toList[k] = v.get ⟨k, by omega⟩ := by
    intro k hk; simp [Vector.get]
  have split : v.toList = v.toList.take i.val ++ v.get i :: v.toList.drop (i.val + 1) := by
    have h2 : v.get i = v.toList[i.val] := (hg i.val hi).symm
    rw [h2, ← List.drop_eq_getElem_cons hi, List.take_append_drop]
  rw [split, List.filter_append, List.filter_cons_of_pos hp]
  apply deciding_among
  · intro g hg'
    rw [List.mem_filter] at hg'
    obtain ⟨k, hk, e⟩ := List.getElem_of_mem hg'.1
    rw [List.length_take] at hk
    rw [List.getElem_take, hg k (by omega)] at e
    subst e
    rcases h _ hg'.2 with h | ⟨_, h⟩
    · exact h
    · have : i.val ≤ k := h
      omega
  · intro g hg'
    rw [List.mem_filter] at hg'
    obtain ⟨k, hk, e⟩ := List.getElem_of_mem hg'.1
    rw [List.length_drop] at hk
    rw [List.getElem_drop, hg _ (by omega)] at e
    subst e
    rcases h _ hg'.2 with h | ⟨h, _⟩ <;> omega

/-! ## Joining a queue -/

theorem Evu.joinFault_kept (e : Evu) (r : EventRecord) :
    e.Kept (e.joinFault r) ∧ (e.joinFault r).contexts = e.contexts := by
  unfold Evu.joinFault; split <;> exact ⟨.of_eq rfl rfl rfl rfl rfl rfl, rfl⟩

theorem Evu.joinStatus_kept (e : Evu) (r : EventRecord) :
    e.Kept (e.joinStatus r) ∧ (e.joinStatus r).contexts = e.contexts := by
  unfold Evu.joinStatus; split <;> exact ⟨.of_eq rfl rfl rfl rfl rfl rfl, rfl⟩

theorem Evu.joinLevel_kept (e : Evu) (r : EventRecord) :
    e.Kept (e.joinLevel r) ∧ (e.joinLevel r).contexts = e.contexts := by
  unfold Evu.joinLevel; split <;> exact ⟨.of_eq rfl rfl rfl rfl rfl rfl, rfl⟩

theorem Evu.join_kept (e : Evu) (r : EventRecord) : e.Kept (e.join r) ∧ (e.join r).contexts = e.contexts := by
  obtain ⟨hk, hc⟩ := e.grantDue_kept
  unfold Evu.join
  split
  · exact ⟨hk.trans (.of_eq rfl rfl rfl rfl rfl rfl), hc⟩
  · exact ⟨hk.trans (e.grantDue.joinFault_kept r).1, (e.grantDue.joinFault_kept r).2.trans hc⟩
  · exact ⟨hk.trans (e.grantDue.joinStatus_kept r).1, (e.grantDue.joinStatus_kept r).2.trans hc⟩
  · exact ⟨hk.trans (e.grantDue.joinLevel_kept r).1, (e.grantDue.joinLevel_kept r).2.trans hc⟩

theorem Evu.join_bounded {e : Evu} (h : e.QueuesBounded) (r : EventRecord) : (e.join r).QueuesBounded := by
  obtain ⟨h1, h2, h3⟩ := Evu.grantDue_bounded h
  unfold Evu.join
  split
  · exact ⟨h1, h2, h3⟩
  · unfold Evu.joinFault Config.faultDepth
    split
    · refine ⟨?_, h2, h3⟩; simp only [List.length_append, List.length_singleton]; omega
    · exact ⟨h1, h2, h3⟩
  · unfold Evu.joinStatus Config.statusDepth
    split
    · refine ⟨h1, ?_, h3⟩; simp only [List.length_append, List.length_singleton]; omega
    · exact ⟨h1, h2, h3⟩
  · unfold Evu.joinLevel Config.levelDepth
    split
    · refine ⟨h1, h2, ?_⟩; simp only [List.length_append, List.length_singleton]; omega
    · exact ⟨h1, h2, h3⟩

theorem Evu.queue_kept (e : Evu) (r : EventRecord) : e.Kept (e.queue r) ∧ (e.queue r).contexts = e.contexts := by
  have counted : e.Kept (e.countTaken r) := (.of_eq rfl rfl rfl rfl rfl rfl)
  have key : ∀ (f : Evu) (q : EventRecord), e.Kept f → f.contexts = e.contexts →
      e.Kept (f.join q) ∧ (f.join q).contexts = e.contexts :=
    fun f q hk hc => ⟨hk.trans (f.join_kept q).1, (f.join_kept q).2.trans hc⟩
  unfold Evu.queue
  split
  · exact key _ _ counted rfl
  · split
    · exact ⟨counted.trans (.of_eq rfl rfl rfl rfl rfl rfl), rfl⟩
    · split
      · exact key _ _ counted rfl
      · exact key _ _ (counted.trans (.of_eq rfl rfl rfl rfl rfl rfl)) rfl

theorem Evu.queue_bounded {e : Evu} (h : e.QueuesBounded) (r : EventRecord) : (e.queue r).QueuesBounded := by
  have counted : (e.countTaken r).QueuesBounded := h
  unfold Evu.queue
  split
  · exact Evu.join_bounded counted _
  · split
    · exact h
    · split
      · exact Evu.join_bounded counted _
      · exact Evu.join_bounded (e := (e.countTaken r).raised) h _

/-! ## Closing contexts -/

theorem Evu.emits_kept (now : Nat) (c : CloseCause) (l : List Context) : ∀ e : Evu,
    e.Kept (l.foldl (Evu.emit now c) e) ∧ (l.foldl (Evu.emit now c) e).contexts = e.contexts := by
  induction l with
  | nil => exact fun e => ⟨Evu.Kept.refl e, rfl⟩
  | cons x l ih =>
    intro e
    obtain ⟨h1, h2⟩ := (e.countClosed c).queue_kept (x.summary now c)
    obtain ⟨i1, i2⟩ := ih (Evu.emit now c e x)
    have h0 : e.Kept (e.countClosed c) := .of_eq rfl rfl rfl rfl rfl rfl
    exact ⟨(h0.trans h1).trans i1, i2.trans h2⟩

theorem Evu.emits_bounded (now : Nat) (c : CloseCause) (l : List Context) : ∀ e : Evu, e.QueuesBounded →
    (l.foldl (Evu.emit now c) e).QueuesBounded := by
  induction l with
  | nil => exact fun e h => h
  | cons x l ih => exact fun e h => ih _ (Evu.queue_bounded (e := e.countClosed c) h _)

/-- Closing every context leaves none open (R159). -/
theorem Evu.closeAll_kept (e : Evu) (now : Nat) (c : CloseCause) :
    e.Kept (e.closeAll now c) ∧ (e.closeAll now c).contexts = [] := by
  obtain ⟨h1, h2⟩ := Evu.emits_kept now c e.contexts { e with contexts := [] }
  have h0 : e.Kept { e with contexts := [] } := .of_eq rfl rfl rfl rfl rfl rfl
  exact ⟨h0.trans h1, h2⟩

theorem Evu.closeAll_bounded {e : Evu} (h : e.QueuesBounded) (now : Nat) (c : CloseCause) :
    (e.closeAll now c).Bounded := by
  refine ⟨Evu.emits_bounded now c e.contexts { e with contexts := [] } h, ?_⟩
  rw [(e.closeAll_kept now c).2]; simp

theorem Evu.urgentClosing_kept (e : Evu) (now : Nat) :
    e.Kept (e.urgentClosing now) ∧ (e.urgentClosing now).contexts = [] := by
  unfold Evu.urgentClosing
  split
  · next h => exact ⟨Evu.Kept.refl e, List.isEmpty_iff.mp h⟩
  · obtain ⟨h1, h2⟩ := Evu.closeAll_kept
      { e with counters := { e.counters with urgentClosings := inc32 e.counters.urgentClosings } } now .urgent
    have h0 : e.Kept { e with counters := { e.counters with urgentClosings := inc32 e.counters.urgentClosings } } :=
      .of_eq rfl rfl rfl rfl rfl rfl
    exact ⟨h0.trans h1, h2⟩

/-- Taking a record keeps the open contexts or closes them all (R154). -/
theorem Evu.take_kept (e : Evu) (now : Nat) (r : EventRecord) :
    e.Kept (e.take now r) ∧ ((e.take now r).contexts = e.contexts ∨ (e.take now r).contexts = []) := by
  unfold Evu.take
  split
  · obtain ⟨h1, h2⟩ := e.urgentClosing_kept now
    obtain ⟨k1, k2⟩ := (e.urgentClosing now).queue_kept r
    exact ⟨h1.trans k1, .inr (k2.trans h2)⟩
  · exact ⟨(e.queue_kept r).1, .inl (e.queue_kept r).2⟩

theorem Evu.take_bounded {e : Evu} (h : e.Bounded) (now : Nat) (r : EventRecord) : (e.take now r).Bounded := by
  refine ⟨?_, ?_⟩
  · unfold Evu.take
    split
    · refine Evu.queue_bounded ?_ _
      unfold Evu.urgentClosing
      split
      · exact h.1
      · refine (Evu.closeAll_bounded ?_ now .urgent).1
        exact h.1
    · exact Evu.queue_bounded h.1 _
  · rcases (e.take_kept now r).2 with k | k <;> rw [k]
    · exact h.2
    · simp

theorem Evu.closeOne_kept (e : Evu) (now : Nat) (c : CloseCause) (x : Context) :
    e.Kept (e.closeOne now c x) ∧ ∀ y ∈ (e.closeOne now c x).contexts, y ∈ e.contexts ∧ y.address ≠ x.address := by
  have key : ∀ f : Evu, e.Kept f → f.contexts = e.contexts.filter (fun d => d.address != x.address) → ∀ r,
      e.Kept (f.take now r) ∧ ∀ y ∈ (f.take now r).contexts, y ∈ e.contexts ∧ y.address ≠ x.address := by
    intro f hk hc r
    obtain ⟨h1, h2⟩ := f.take_kept now r
    refine ⟨hk.trans h1, ?_⟩
    intro y hy
    rcases h2 with h2 | h2
    · rw [h2, hc] at hy; simpa using hy
    · rw [h2] at hy; simp at hy
  unfold Evu.closeOne
  exact key (Evu.countClosed { e with contexts := e.contexts.filter (fun d => d.address != x.address) } c)
    (.of_eq rfl rfl rfl rfl rfl rfl) rfl (x.summary now c)

theorem Evu.closeOne_bounded {e : Evu} (h : e.Bounded) (now : Nat) (c : CloseCause) (x : Context) :
    (e.closeOne now c x).Bounded := by
  have key : (Evu.countClosed { e with contexts := e.contexts.filter (fun d => d.address != x.address) } c).Bounded :=
    ⟨h.1, (List.length_filter_le _ _).trans h.2⟩
  unfold Evu.closeOne
  exact Evu.take_bounded key now (x.summary now c)

/-- A closing for an address leaves no context of it (R160). -/
theorem Evu.closeFor_kept (e : Evu) (now : Nat) (c : CloseCause) (a : Address) :
    e.Kept (e.closeFor now c a) ∧ ∀ y ∈ (e.closeFor now c a).contexts, y ∈ e.contexts ∧ y.address ≠ a := by
  unfold Evu.closeFor
  split
  · next h =>
    refine ⟨Evu.Kept.refl e, fun y hy => ⟨hy, ?_⟩⟩
    have := List.find?_eq_none.mp h y hy
    simpa using this
  · next x h =>
    have hx : x.address = a := by simpa using List.find?_some h
    rw [← hx]; exact e.closeOne_kept now c x

theorem Evu.closeFor_bounded {e : Evu} (h : e.Bounded) (now : Nat) (c : CloseCause) (a : Address) :
    (e.closeFor now c a).Bounded := by
  unfold Evu.closeFor
  split
  · exact h
  · exact Evu.closeOne_bounded h _ _ _

/-! ## Reported values (R158) -/

theorem Evu.evict_kept (e : Evu) (now : Nat) : e.Kept (e.evict now) := by
  unfold Evu.evict
  split
  · exact Evu.Kept.refl e
  · split
    · exact Evu.Kept.refl e
    · exact (e.closeOne_kept now .eviction _).1

theorem Evu.evict_bounded {e : Evu} (h : e.Bounded) (now : Nat) :
    (e.evict now).Bounded ∧ (e.evict now).contexts.length ≤ 15 := by
  unfold Evu.evict Config.contextMax
  split
  · exact ⟨h, by omega⟩
  · split
    · next hc => exact ⟨h, by simp [hc]⟩
    · next x l hc =>
      refine ⟨Evu.closeOne_bounded h _ _ _, ?_⟩
      have hl := h.2
      rw [hc, List.length_cons] at hl
      have key : ∀ f : Evu, f.contexts = e.contexts.filter (fun d => d.address != x.address) → ∀ r,
          (f.take now r).contexts.length ≤ 15 := by
        intro f hf r
        rcases (f.take_kept now r).2 with k | k <;> rw [k]
        · rw [hf, hc, List.filter_cons_of_neg (by simp)]
          have := List.length_filter_le (fun d : Context => d.address != x.address) l
          omega
        · simp
      unfold Evu.closeOne
      exact key (Evu.countClosed { e with contexts := e.contexts.filter (fun d => d.address != x.address) } .eviction)
        rfl (x.summary now .eviction)

theorem Evu.openContext_kept (e : Evu) (now : Nat) (c : Context) : e.Kept (e.openContext now c) :=
  (e.evict_kept now).trans (.of_eq rfl rfl rfl rfl rfl rfl)

theorem Evu.openContext_bounded {e : Evu} (h : e.Bounded) (now : Nat) (c : Context) :
    (e.openContext now c).Bounded := by
  obtain ⟨h1, h2⟩ := Evu.evict_bounded h now
  refine ⟨h1.1, ?_⟩
  unfold Evu.openContext
  simp only [List.length_append, List.length_singleton]; omega

theorem modifyFirst_length {α : Type} (p : α → Bool) (f : α → α) (l : List α) :
    (modifyFirst p f l).length = l.length := by
  induction l with
  | nil => rfl
  | cons x l ih => unfold modifyFirst; split <;> simp [ih]

theorem Evu.report_kept (e : Evu) (now : Nat) (a : Address) (z : ZoneNo) (k : DetectorKind) (q : SeqNo) (v : Nat) :
    e.Kept (e.report now a z k q v) := by
  unfold Evu.report
  split
  · exact e.openContext_kept _ _
  · split
    · have set : ∀ l : List Context, e.Kept { e with contexts := l } := fun l => .of_eq rfl rfl rfl rfl rfl rfl
      unfold Evu.appendValue; dsimp only
      split
      · exact (set _).trans (Evu.closeOne_kept _ _ _ _).1
      · exact set _
    · exact (e.closeOne_kept _ _ _).1.trans (Evu.openContext_kept _ _ _)

theorem Evu.report_bounded {e : Evu} (h : e.Bounded) (now : Nat) (a : Address) (z : ZoneNo) (k : DetectorKind)
    (q : SeqNo) (v : Nat) : (e.report now a z k q v).Bounded := by
  have set : ∀ (l : List Context), l.length = e.contexts.length → ({ e with contexts := l } : Evu).Bounded :=
    fun l hl => ⟨h.1, by rw [hl]; exact h.2⟩
  unfold Evu.report
  split
  · exact Evu.openContext_bounded h _ _
  · split
    · unfold Evu.appendValue; dsimp only
      split
      · exact Evu.closeOne_bounded (set _ (modifyFirst_length _ _ _)) _ _ _
      · exact set _ (modifyFirst_length _ _ _)
    · exact Evu.openContext_bounded (Evu.closeOne_bounded h _ _ _) _ _

/-! ## Slots -/

theorem Evu.placeReply_bounded {e : Evu} (h : e.Bounded) (r : Reply) : (e.placeReply r).Bounded :=
  ⟨Evu.grantDue_bounded h.1, by
    show e.grantDue.contexts.length ≤ 16
    rw [(e.grantDue_kept).2]; exact h.2⟩

theorem Evu.placeSummary_bounded {e : Evu} (h : e.Bounded) (z : ZoneSummary) : (e.placeSummary z).Bounded :=
  ⟨Evu.grantDue_bounded h.1, by
    show e.grantDue.contexts.length ≤ 16
    rw [(e.grantDue_kept).2]; exact h.2⟩

/-! ## Timer expiries -/

/-- A summary is built as one placed in the slot, and the summary timer is armed again. -/
theorem State.summaryBuilt_eq (s : State) (e : Evu) : s.summaryBuilt e =
    { e.placeSummary s.zoneSummary with summaryTimer := s.pages.timing.summary } := by
  unfold State.summaryBuilt Evu.placeSummary
  rw [Evu.granted_eq]; rfl

/-- The outstanding expiries are taken as `State.expiriesTaken` says. -/
theorem State.takeDueExpiries_eq (s : State) : s.takeDueExpiries = s.expiriesTaken := by
  have st : (s.evu.closeAll s.su.clock .flush).summaryTimer = s.evu.summaryTimer :=
    (s.evu.closeAll_kept s.su.clock .flush).1.summaryTimer
  have sweep : ∀ x : State, x.takeDueSweep = { x with su := (if x.su.sweepTimer = some 0 then { x.su with
        sweepTimer := some x.pages.timing.sweep,
        sweep := if x.su.sweep.isSome then x.su.sweep else some 0,
        sweepsStarted := if x.su.sweep.isSome then x.su.sweepsStarted else min (x.su.sweepsStarted + 1) 4294967295,
        overlaps := if x.su.sweep.isSome then min (x.su.overlaps + 1) 4294967295 else x.su.overlaps }
      else x.su) } := by
    intro x
    unfold State.takeDueSweep
    by_cases h : x.su.sweepTimer = some 0
    · rw [if_pos h, if_pos h]
      cases x with | mk _ _ _ _ _ _ _ _ su => cases su with | mk c t sw => cases sw <;> rfl
    · rw [if_neg h, if_neg h]
  have due : s.takeDueExpiries = (let s2 : State := (if s.takeDueSweep.evu.flushTimer = 0 then s.takeDueSweep.flushExpiry
      else s.takeDueSweep)
    if s2.evu.summaryTimer = 0 then s2.summaryExpiry else s2) := rfl
  rw [due, sweep]
  unfold State.expiriesTaken
  have hc : (if s.su.sweepTimer = some 0 then { s.su with
        sweepTimer := some s.pages.timing.sweep,
        sweep := if s.su.sweep.isSome then s.su.sweep else some 0,
        sweepsStarted := if s.su.sweep.isSome then s.su.sweepsStarted else min (s.su.sweepsStarted + 1) 4294967295,
        overlaps := if s.su.sweep.isSome then min (s.su.overlaps + 1) 4294967295 else s.su.overlaps }
      else s.su : Su).clock = s.su.clock := by split <;> rfl
  have hm : (if s.su.sweepTimer = some 0 then { s.su with
        sweepTimer := some s.pages.timing.sweep,
        sweep := if s.su.sweep.isSome then s.su.sweep else some 0,
        sweepsStarted := if s.su.sweep.isSome then s.su.sweepsStarted else min (s.su.sweepsStarted + 1) 4294967295,
        overlaps := if s.su.sweep.isSome then min (s.su.overlaps + 1) 4294967295 else s.su.overlaps }
      else s.su : Su).missing = s.su.missing := by split <;> rfl
  revert hc hm
  generalize (if s.su.sweepTimer = some 0 then _ else s.su : Su) = su'
  intro hc hm
  have zs : ∀ e, ({ s with su := su', evu := e } : State).zoneSummary = s.zoneSummary := by
    intro e
    show ZoneSummary.mk su'.clock _ su'.missing _ _ = ZoneSummary.mk s.su.clock _ s.su.missing _ _
    rw [hc, hm]; rfl
  have fl : ∀ e, ({ s with su := su', evu := e } : State).summaryExpiry = { s with su := su', evu := s.summaryBuilt e } := by
    intro e
    unfold State.summaryExpiry
    rw [zs, State.summaryBuilt_eq]
  have ff : ({ s with su := su' } : State).flushExpiry = { s with
      su := su', evu := { s.evu.closeAll s.su.clock .flush with flushTimer := s.pages.timing.flush } } := by
    show State.mk _ _ _ _ _ _ _ _ _ _ { s.evu.closeAll su'.clock .flush with flushTimer := s.pages.timing.flush } _ _ _ _ = _
    rw [hc]; rfl
  dsimp only
  by_cases h1 : s.evu.flushTimer = 0
  · rw [if_pos h1, if_pos h1, ff]
    by_cases h2 : s.evu.summaryTimer = 0
    · rw [if_pos h2, if_pos (show _ = 0 from st.trans h2), fl]
    · rw [if_neg h2, if_neg (fun h => h2 (st.symm.trans h))]
  · rw [if_neg h1, if_neg h1]
    by_cases h2 : s.evu.summaryTimer = 0
    · rw [if_pos h2, if_pos h2]; exact fl s.evu
    · rw [if_neg h2, if_neg h2]

end Sys2Proof.Machine
end

