-- ==== Sys2Proof/Laws/Lists.lean ====
section
/-! SUPPORT. The lists that hold nothing twice: what HCQ's operations do to the SENT entries and the group orders, and
EVU's to the open contexts. -/

namespace Sys2Proof.Machine

/-! ## Lists with one element changed -/

theorem mem_modifyFirst {α : Type} {p : α → Bool} {f : α → α} {y : α} : ∀ {l : List α}, y ∈ modifyFirst p f l →
    y ∈ l ∨ ∃ x ∈ l, p x = true ∧ y = f x
  | [], h => absurd h (by simp [modifyFirst])
  | x :: l, h => by
    unfold modifyFirst at h
    split at h
    · next hp =>
      rcases List.mem_cons.mp h with h | h
      · exact .inr ⟨x, List.mem_cons_self, hp, h⟩
      · exact .inl (List.mem_cons_of_mem _ h)
    · rcases List.mem_cons.mp h with h | h
      · exact .inl (by rw [h]; exact List.mem_cons_self)
      · rcases mem_modifyFirst h with h | ⟨z, hz, k⟩
        · exact .inl (List.mem_cons_of_mem _ h)
        · exact .inr ⟨z, List.mem_cons_of_mem _ hz, k⟩

/-- A change of one element keeps a relation between the elements when the changed element is related as before. -/
theorem pairwise_modifyFirst {α : Type} {R : α → α → Prop} {p : α → Bool} {f : α → α} : ∀ {l : List α}, l.Pairwise R →
    (∀ x ∈ l, p x = true → ∀ y ∈ l, (R x y → R (f x) y) ∧ (R y x → R y (f x))) → (modifyFirst p f l).Pairwise R
  | [], _, _ => List.Pairwise.nil
  | x :: l, h, k => by
    obtain ⟨h1, h2⟩ := List.pairwise_cons.mp h
    unfold modifyFirst
    split
    · next hp =>
      exact List.pairwise_cons.mpr ⟨fun y hy =>
        (k x List.mem_cons_self hp y (List.mem_cons_of_mem _ hy)).1 (h1 y hy), h2⟩
    · refine List.pairwise_cons.mpr ⟨fun y hy => ?_, pairwise_modifyFirst h2 fun a ha hp b hb =>
        k a (List.mem_cons_of_mem _ ha) hp b (List.mem_cons_of_mem _ hb)⟩
      rcases mem_modifyFirst hy with hy | ⟨z, hz, hp, rfl⟩
      · exact h1 y hy
      · exact (k z (List.mem_cons_of_mem _ hz) hp x List.mem_cons_self).2 (h1 z hz)

/-! ## HCQ (R134, R139, R145) -/

/-- Entries removed, the orders and the next number as they stand. -/
theorem Hcq.Distinct.fewer {q r : Hcq} (h1 : r.entries.Sublist q.entries) (h2 : r.nextNumber = q.nextNumber)
    (h3 : r.orders = q.orders) (h : q.Distinct) : r.Distinct := by
  obtain ⟨a, b, c, d, e⟩ := h
  refine ⟨a.sublist h1, by rw [h2]; exact b, fun x hx => c x (h1.subset hx), ?_, ?_⟩
  · rw [h3]; exact d
  · rw [h3]; exact e

/-- An entry that waits again. -/
theorem Hcq.Distinct.waits {q : Hcq} (h : q.Distinct) (p : HeldEntry → Bool) (f : HeldEntry → HeldEntry)
    (hf : ∀ x, (f x).state = .waiting) (hn : ∀ x, (f x).number = x.number) (c : HcqCounters) :
    Hcq.Distinct { entries := modifyFirst p f q.entries, nextNumber := q.nextNumber, orders := q.orders,
                   counters := c } := by
  obtain ⟨h1, h2, h3, h4, h5⟩ := h
  refine ⟨?_, h2, fun x hx => ?_, h4, h5⟩
  · refine pairwise_modifyFirst h1 fun x _ _ y _ => ⟨fun _ k => ?_, fun _ k => ?_⟩
    · rw [hf] at k; cases k.2.1
    · rw [hf] at k; cases k.2.2
  · rcases mem_modifyFirst hx with hx | ⟨z, hz, _, rfl⟩
    · exact h3 x hx
    · rw [hn]; exact h3 z hz

theorem Hcq.Distinct.notSent {q : Hcq} (h : q.Distinct) (a : Address) (n : Byte) : (q.notSent a n).Distinct := by
  unfold Hcq.notSent; split
  · refine h.waits _ _ ?_ ?_ _ <;> exact fun _ => rfl
  · exact h

/-- An entry becomes SENT only where none of its target is (R138). -/
theorem Hcq.Distinct.attach {q : Hcq} (h : q.Distinct) (a : Address) : (q.attach a).Distinct := by
  unfold Hcq.attach
  split
  · next x h0 _ =>
    obtain ⟨h1, h2, h3, h4, h5⟩ := h
    have free : ∀ y ∈ q.entries, ¬ (y.target = a ∧ y.state = .sent) := by
      intro y hy hs
      have := List.find?_eq_none.mp h0 y hy
      simp [HeldEntry.sentTo, hs.1, hs.2] at this
    refine ⟨pairwise_modifyFirst h1 fun x _ hp y hy => ?_, h2, fun x hx => ?_, h4, h5⟩
    · have ht : x.target = a := by
        unfold HeldEntry.waitingFor at hp; simp only [Bool.and_eq_true, beq_iff_eq] at hp; exact hp.1
      exact ⟨fun _ k => free y hy ⟨by rw [← ht]; exact k.1.symm, k.2.2⟩,
        fun _ k => free y hy ⟨by rw [← ht]; exact k.1, k.2.1⟩⟩
    · rcases mem_modifyFirst hx with hx | ⟨z, hz, _, rfl⟩
      · exact h3 x hx
      · exact h3 z hz
  · exact h

/-- A new entry waits, under a number that is not 0 (R136). -/
theorem Hcq.Distinct.enter {q : Hcq} (h : q.Distinct) {e : HeldEntry} (hs : e.state = .waiting)
    (hn : e.number = q.nextNumber) (c : HcqCounters) :
    Hcq.Distinct { entries := q.entries ++ [e], nextNumber := nextCommandNumber q.nextNumber, orders := q.orders,
                   counters := c } := by
  obtain ⟨h1, h2, h3, h4, h5⟩ := h
  refine ⟨?_, ?_, fun x hx => ?_, h4, h5⟩
  · refine List.pairwise_append.mpr ⟨h1, List.pairwise_singleton _ _, fun x _ y hy => ?_⟩
    rw [List.mem_singleton.mp hy, hs]; rintro ⟨_, _, k⟩; cases k
  · show nextCommandNumber q.nextNumber ≠ 0
    generalize q.nextNumber = n
    revert n; decide
  · rcases List.mem_append.mp hx with hx | hx
    · exact h3 x hx
    · rw [List.mem_singleton.mp hx, hn]; exact h2

/-- The group orders after a GROUP_ORDER with a pattern of at most 7: one scope is placed, replaced or removed
(R146). -/
theorem Hcq.Distinct.placeOrder {s : State} (h : s.hcq.Distinct) (sc : Scope) (n : Nat) (hn : n ≤ 7) (r : Result) :
    (s.placeOrder sc n r).state.hcq.Distinct := by
  obtain ⟨h1, h2, h3, h4, h5⟩ := h
  unfold State.placeOrder
  dsimp only
  split
  · split
    · exact ⟨h1, h2, h3, h4.sublist List.filter_sublist, fun g hg => h5 g (List.mem_of_mem_filter hg)⟩
    · next h0 =>
      split
      · exact ⟨h1, h2, h3, h4, h5⟩
      · refine ⟨h1, h2, h3, pairwise_modifyFirst h4 fun x _ _ y _ => ⟨id, id⟩, fun g hg => ?_⟩
        rcases mem_modifyFirst hg with hg | ⟨z, _, _, rfl⟩
        · exact h5 g hg
        · exact ⟨by show 1 ≤ n; omega, hn⟩
  · next hf =>
    split
    · exact ⟨h1, h2, h3, h4, h5⟩
    · next h0 =>
      split
      · refine ⟨h1, h2, h3, ?_, fun g hg => ?_⟩
        · refine List.pairwise_append.mpr ⟨h4, List.pairwise_singleton _ _, fun x hx y hy => ?_⟩
          rw [List.mem_singleton.mp hy]
          simpa using List.find?_eq_none.mp hf x hx
        · rcases List.mem_append.mp hg with hg | hg
          · exact h5 g hg
          · rw [List.mem_singleton.mp hg]; exact ⟨by show 1 ≤ n; omega, hn⟩
      · exact ⟨h1, h2, h3, h4, h5⟩

/-! ## EVU (R157, R158) -/

/-- An operation of EVU that opens no context and changes none. -/
def Evu.Fewer (e f : Evu) : Prop := f.contexts.Sublist e.contexts

theorem Evu.Fewer.refl (e : Evu) : e.Fewer e := List.Sublist.refl _
theorem Evu.Fewer.trans {e f g : Evu} (h : e.Fewer f) (k : f.Fewer g) : e.Fewer g := List.Sublist.trans k h
theorem Evu.Fewer.of_eq {e f : Evu} (h : f.contexts = e.contexts) : e.Fewer f := by
  unfold Evu.Fewer; rw [h]
theorem Evu.Fewer.of_nil {e f : Evu} (h : f.contexts = []) : e.Fewer f := by
  unfold Evu.Fewer; rw [h]; exact List.nil_sublist _

theorem Evu.ContextsDistinct.fewer {e f : Evu} (h : e.ContextsDistinct) (k : e.Fewer f) : f.ContextsDistinct :=
  ⟨h.1.sublist k, fun c hc => h.2 c (k.subset hc)⟩

theorem Evu.take_fewer (e : Evu) (now : Nat) (r : EventRecord) : e.Fewer (e.take now r) :=
  (e.take_kept now r).2.elim .of_eq .of_nil

theorem Evu.closeAll_fewer (e : Evu) (now : Nat) (c : CloseCause) : e.Fewer (e.closeAll now c) :=
  .of_nil (e.closeAll_kept now c).2

theorem Evu.closeOne_fewer (e : Evu) (now : Nat) (c : CloseCause) (x : Context) : e.Fewer (e.closeOne now c x) := by
  unfold Evu.closeOne
  refine Evu.Fewer.trans ?_ (Evu.take_fewer _ _ _)
  exact List.filter_sublist

theorem Evu.closeFor_fewer (e : Evu) (now : Nat) (c : CloseCause) (a : Address) : e.Fewer (e.closeFor now c a) := by
  unfold Evu.closeFor; split
  · exact Evu.Fewer.refl e
  · exact e.closeOne_fewer _ _ _

theorem Evu.evict_fewer (e : Evu) (now : Nat) : e.Fewer (e.evict now) := by
  unfold Evu.evict; split
  · exact Evu.Fewer.refl e
  · split
    · exact Evu.Fewer.refl e
    · exact e.closeOne_fewer _ _ _

/-- A context of a detector that has none opens with one value (R158). -/
theorem Evu.ContextsDistinct.opened {e : Evu} (h : e.ContextsDistinct) (now : Nat) {c : Context}
    (hc : ∀ d ∈ e.contexts, d.address ≠ c.address) (h1 : c.count = 1) : (e.openContext now c).ContextsDistinct := by
  have k := e.evict_fewer now
  obtain ⟨h2, h3⟩ := h.fewer k
  refine ⟨List.pairwise_append.mpr ⟨h2, List.pairwise_singleton _ _, fun d hd y hy => ?_⟩, fun d hd => ?_⟩
  · rw [List.mem_singleton.mp hy]; exact hc d (k.subset hd)
  · rcases List.mem_append.mp hd with hd | hd
    · exact h3 d hd
    · rw [List.mem_singleton.mp hd, h1]; omega

/-- A reported value opens or closes a context or joins the one of its detector (R158). -/
theorem Evu.ContextsDistinct.reported {e : Evu} (h : e.ContextsDistinct) (now : Nat) (a : Address) (z : ZoneNo)
    (k : DetectorKind) (q : SeqNo) (v : Nat) : (e.report now a z k q v).ContextsDistinct := by
  unfold Evu.report
  split
  · next hf =>
    refine h.opened now (fun d hd => ?_) rfl
    show d.address ≠ a
    simpa using List.find?_eq_none.mp hf d hd
  · next c hf =>
    have ha : c.address = a := by simpa using List.find?_some hf
    have hm : c ∈ e.contexts := List.mem_of_find?_eq_some hf
    split
    · have same : ∀ d : Context, (d.address == (c.append q v).address) = true → d.address = c.address := by
        intro d hd; simpa [Context.append] using hd
      have apart : (modifyFirst (fun d : Context => d.address == (c.append q v).address) (fun _ => c.append q v)
          e.contexts).Pairwise fun c d => c.address ≠ d.address := by
        refine pairwise_modifyFirst h.1 fun x _ hp y _ => ⟨fun j => ?_, fun j => ?_⟩
        · rw [same x hp] at j; exact j
        · rw [same x hp] at j; exact j
      unfold Evu.appendValue Config.contextValues
      dsimp only
      split
      · unfold Evu.closeOne
        refine Evu.ContextsDistinct.fewer ⟨apart.sublist List.filter_sublist, fun d hd => ?_⟩ (Evu.take_fewer _ _ _)
        obtain ⟨hd, hne⟩ := List.mem_filter.mp hd
        rcases mem_modifyFirst hd with hd | ⟨_, _, _, rfl⟩
        · exact h.2 d hd
        · simp at hne
      · next hn =>
        refine ⟨apart, fun d hd => ?_⟩
        rcases mem_modifyFirst hd with hd | ⟨_, _, _, rfl⟩
        · exact h.2 d hd
        · have := h.2 c hm
          have : (c.append q v).count = c.count + 1 := rfl
          omega
    · refine (h.fewer (e.closeOne_fewer now .gap c)).opened now (fun d hd => ?_) rfl
      have := ((e.closeOne_kept now .gap c).2 d hd).2
      rw [ha] at this; exact this

end Sys2Proof.Machine
end

