-- ==== Sys2Proof/Laws/Zones.lean ====
section
/-! SUPPORT. What ZU's operations do to the zone records: the raised counts and epochs they leave, and that they keep the
zones sound. -/

namespace Sys2Proof.Machine

/-! ## Zones as they stand after an operation -/

theorem State.zone_enterAlarm (s : State) (z : ZoneNo) (a : Address) (k : DetectorKind) (c : AlarmCause)
    (p : Option ZoneNo) (y : ZoneNo) : (s.enterAlarm z a k c p).zone y =
      if y = z then { (s.zone z).leaveVerify .alarm with alarmUnsent := true } else s.zone y := by
  unfold State.enterAlarm
  simp only [State.zone_raise, State.zone_closeContexts, State.zone_setZone]

theorem State.zone_enterVerify (s : State) (z : ZoneNo) (a : Address) (k : DetectorKind) (y : ZoneNo) :
    (s.enterVerify z a k).zone y =
      if y = z then { s.zone z with state := .verify, first := some a, deadline := some (clockAdd s.now (s.zone z).window) }
      else s.zone y := by
  unfold State.enterVerify
  simp only [State.zone_raise, State.zone_setZone]

theorem State.zone_lapseZone (s : State) (z : ZoneNo) (c : LapseCause) (y : ZoneNo) :
    (s.lapseZone z c).zone y = if y = z then (s.zone z).leaveVerify (s.zone z).fallen else s.zone y := by
  unfold State.lapseZone
  simp only [State.zone_raise, State.zone_setZone]

/-- The zones after the partners of z have been confirmed, each once (R101). -/
theorem State.zone_confirmPartners (s : State) (z : ZoneNo) (a : Address) (k : DetectorKind) (y : ZoneNo) :
    (s.confirmPartners z a k).zone y =
      if y ≠ z ∧ (s.zone y).enabled ∧ (s.zone y).state = .verify ∧ (s.zone y).partner = some z then
        { (s.zone y).leaveVerify .alarm with alarmUnsent := true }
      else s.zone y := by
  have key : ∀ l : List ZoneNo, l.Nodup → ∀ s : State, (l.foldl (State.confirmPartner z a k) s).zone y =
      if y ∈ l ∧ y ≠ z ∧ (s.zone y).enabled ∧ (s.zone y).state = .verify ∧ (s.zone y).partner = some z then
        { (s.zone y).leaveVerify .alarm with alarmUnsent := true }
      else s.zone y := by
    intro l
    induction l with
    | nil => intro _ s; simp
    | cons x l ih =>
      intro hn s
      rw [List.nodup_cons] at hn
      rw [List.foldl_cons, ih hn.2]
      by_cases hx : y = x
      · subst hx
        have hm : y ∉ l := hn.1
        simp only [hm, false_and, if_false, List.mem_cons, true_or, true_and]
        unfold State.confirmPartner
        split
        · rw [State.zone_enterAlarm, if_pos rfl]
        · rfl
      · have h1 : (State.confirmPartner z a k s x).zone y = s.zone y := by
          unfold State.confirmPartner; split
          · rw [State.zone_enterAlarm, if_neg hx]
          · rfl
        rw [h1]
        simp [hx]
  unfold State.confirmPartners
  rw [key _ (List.nodup_finRange 64)]
  simp

/-! ## Raised counts and epochs (R92, R94) -/

/-- An operation that leaves every zone's raised count and epoch. -/
def CountsKept (s t : State) : Prop :=
  ∀ y : ZoneNo, (t.zone y).raised = (s.zone y).raised ∧ (t.zone y).epoch = (s.zone y).epoch

theorem CountsKept.refl (s : State) : CountsKept s s := fun _ => ⟨rfl, rfl⟩

theorem CountsKept.trans {s t u : State} (h : CountsKept s t) (k : CountsKept t u) : CountsKept s u :=
  fun y => ⟨(k y).1.trans (h y).1, (k y).2.trans (h y).2⟩

theorem CountsKept.setZone {s : State} {z : ZoneNo} {v : Zone} (hr : v.raised = (s.zone z).raised)
    (he : v.epoch = (s.zone z).epoch) : CountsKept s (s.setZone z v) := by
  intro y
  rw [State.zone_setZone]
  split
  · next h => subst h; exact ⟨hr, he⟩
  · exact ⟨rfl, rfl⟩

theorem State.enterAlarm_counts (s : State) (z : ZoneNo) (a : Address) (k : DetectorKind) (c : AlarmCause)
    (p : Option ZoneNo) : CountsKept s (s.enterAlarm z a k c p) := by
  intro y; rw [State.zone_enterAlarm]; split
  · next h => subst h; exact ⟨rfl, rfl⟩
  · exact ⟨rfl, rfl⟩

theorem State.enterVerify_counts (s : State) (z : ZoneNo) (a : Address) (k : DetectorKind) :
    CountsKept s (s.enterVerify z a k) := by
  intro y; rw [State.zone_enterVerify]; split
  · next h => subst h; exact ⟨rfl, rfl⟩
  · exact ⟨rfl, rfl⟩

theorem State.lapseZone_counts (s : State) (z : ZoneNo) (c : LapseCause) : CountsKept s (s.lapseZone z c) := by
  intro y; rw [State.zone_lapseZone]; split
  · next h => subst h; exact ⟨rfl, rfl⟩
  · exact ⟨rfl, rfl⟩

theorem State.zoneIntoAlarm_counts (s : State) (z : ZoneNo) (a : Address) (k : DetectorKind) :
    CountsKept s (s.zoneIntoAlarm z a k) := by
  unfold State.zoneIntoAlarm; dsimp only; repeat' split
  all_goals first
    | with_reducible exact CountsKept.refl s
    | with_reducible exact State.enterAlarm_counts _ _ _ _ _ _
    | with_reducible exact State.enterVerify_counts _ _ _ _

theorem State.confirmPartners_counts (s : State) (z : ZoneNo) (a : Address) (k : DetectorKind) :
    CountsKept s (s.confirmPartners z a k) := by
  refine foldl_rel CountsKept CountsKept.refl (fun _ _ _ => CountsKept.trans) _ ?_ _ _
  intro s y; unfold State.confirmPartner; split
  · exact State.enterAlarm_counts _ _ _ _ _ _
  · exact CountsKept.refl s

theorem State.zoneStaysAlarm_counts (s : State) (z : ZoneNo) (a : Address) (k : DetectorKind) :
    CountsKept s (s.zoneStaysAlarm z a k) := by
  unfold State.zoneStaysAlarm; dsimp only; split
  · exact State.enterAlarm_counts _ _ _ _ _ _
  · exact CountsKept.refl s

/-- The raised count of one zone becomes n; every other count and every epoch stands. -/
def CountBecomes (s t : State) (z : ZoneNo) (n : Nat) : Prop :=
  (t.zone z).raised = n ∧ (∀ y, y ≠ z → (t.zone y).raised = (s.zone y).raised)
    ∧ ∀ y, (t.zone y).epoch = (s.zone y).epoch

theorem CountBecomes.then_kept {s t u : State} {z : ZoneNo} {n : Nat} (h : CountBecomes s t z n)
    (k : CountsKept t u) : CountBecomes s u z n :=
  ⟨(k z).1.trans h.1, fun y hy => (k y).1.trans (h.2.1 y hy), fun y => (k y).2.trans (h.2.2 y)⟩

theorem CountBecomes.modifyZone (s : State) (z : ZoneNo) (f : Zone → Zone) (he : (f (s.zone z)).epoch = (s.zone z).epoch) :
    CountBecomes s (s.modifyZone z f) z (f (s.zone z)).raised := by
  refine ⟨by simp [State.zone_modifyZone], fun y hy => by simp [State.zone_modifyZone, hy], fun y => ?_⟩
  rw [State.zone_modifyZone]
  split
  · next h => subst h; exact he
  · rfl

/-- A decrement lowers the zone's raised count by one (R94). -/
theorem State.zoneDecrement_count (s : State) (z : ZoneNo) (a : Address) (k : Option DetectorKind) :
    CountBecomes s (s.zoneDecrement z a k) z ((s.zone z).raised - 1) := by
  have h := CountBecomes.modifyZone s z (fun v => { v with raised := v.raised - 1 }) rfl
  unfold State.zoneDecrement; dsimp only; split
  · refine h.then_kept ?_
    intro y
    simp only [State.zone_raise, State.zone_modifyZone]
    split
    · next hy => subst hy; simp
    · exact ⟨rfl, rfl⟩
  · exact h

theorem State.zoneIncrement_count (s : State) (z : ZoneNo) :
    CountBecomes s (s.zoneIncrement z) z ((s.zone z).raised + 1) :=
  CountBecomes.modifyZone s z (fun v => { v with raised := v.raised + 1 }) rfl

/-- A transition's effect on the counts (R94): into NORMAL one less, out of NORMAL one more, else none. -/
theorem State.zoneTransition_count (s : State) (z : ZoneNo) (a : Address) (k : DetectorKind) (b c : Level) :
    CountBecomes s (s.zoneTransition z a k b c) z
      (if c = .normal then (s.zone z).raised - 1
       else if b = .normal then (s.zone z).raised + 1 else (s.zone z).raised) := by
  have hinc : CountBecomes s (if b = .normal then s.zoneIncrement z else s) z
      (if b = .normal then (s.zone z).raised + 1 else (s.zone z).raised) := by
    split
    · exact State.zoneIncrement_count s z
    · exact ⟨rfl, fun _ _ => rfl, fun _ => rfl⟩
  unfold State.zoneTransition; cases c
  · exact State.zoneDecrement_count s z a (some k)
  · refine hinc.then_kept ?_
    dsimp only
    generalize (if b = .normal then s.zoneIncrement z else s) = s1
    split
    · intro y
      simp only [State.zone_raise, State.zone_modifyZone]
      split
      · next hy => subst hy; exact ⟨rfl, rfl⟩
      · exact ⟨rfl, rfl⟩
    · exact CountsKept.refl s1
  · refine hinc.then_kept ?_
    dsimp only
    generalize (if b = .normal then s.zoneIncrement z else s) = s1
    split
    · exact (State.zoneIntoAlarm_counts _ _ _ _).trans (State.confirmPartners_counts _ _ _ _)
    · exact CountsKept.refl s1

/-! ## Sound zones (R91, R92) -/

/-- A sum of clock values is a clock value (R118). -/
theorem clockAdd_le (a b : Nat) : clockAdd a b ≤ 4294967295 := Nat.min_le_right _ _

theorem Zone.powerOn_sound (z : ZoneNo) : Zone.powerOn.Sound z := by simp [Zone.Sound, Zone.powerOn]

/-- RESTART keeps the configuration and clears the runtime state. -/
theorem Zone.Sound.restarted {z : ZoneNo} {v : Zone} (h : v.Sound z) : v.restarted.Sound z :=
  ⟨nofun, fun _ => ⟨rfl, rfl⟩, fun _ => rfl, h.2.2.2⟩

/-- What ZONE_SET stores is in the ranges of R91, whatever is given (R109). -/
theorem Zone.Sound.configured {z : ZoneNo} {v : Zone} (h : v.Sound z) (m : ZoneMode) (p : Option ZoneNo)
    (a : ZoneSetArgs) : (v.configured z m p a).Sound z := by
  refine ⟨h.1, h.2.1, h.2.2.1, ?_, ?_, ?_, ?_⟩
  · show storedPartner z p ≠ some z
    unfold storedPartner; split
    · nofun
    · assumption
  all_goals
    simp only [Zone.configured, storedWindow, storedOffset, clamp]
    omega

theorem ZonesSound.of_zones {s t : State} (h : ZonesSound s) (hz : t.zones = s.zones) : ZonesSound t := by
  intro z; have := h z; unfold State.zone at *; rw [hz]; exact this

theorem ZonesSound.setZone {s : State} (h : ZonesSound s) {z : ZoneNo} {v : Zone} (hv : v.Sound z) :
    ZonesSound (s.setZone z v) := by
  intro y
  rw [State.zone_setZone]
  split
  · next hy => subst hy; exact hv
  · exact h y

theorem ZonesSound.raise {s : State} (h : ZonesSound s) (b : EventBody) (z : Option ZoneNo) (a : Option Address)
    (k : Option DetectorKind) : ZonesSound (s.raise b z a k) := h.of_zones rfl

/-- A change of a raised count keeps a zone sound. -/
theorem Zone.Sound.raised {z : ZoneNo} {v : Zone} (h : v.Sound z) (n : Nat) : Zone.Sound z { v with raised := n } := h

/-- Of an enabled zone, leaving VERIFY for another state is sound. -/
theorem Zone.Sound.leave {z : ZoneNo} {v : Zone} (h : v.Sound z) (he : v.enabled = true) {st : ZoneState}
    (hst : st ≠ .verify) (u : Bool) : Zone.Sound z { v.leaveVerify st with alarmUnsent := u } :=
  ⟨fun k => absurd k hst, fun _ => ⟨rfl, rfl⟩, fun k => absurd k (by simp [Zone.leaveVerify, he]), h.2.2.2⟩

theorem State.enterAlarm_sound {s : State} (h : ZonesSound s) {z : ZoneNo} (he : (s.zone z).enabled = true)
    (a : Address) (k : DetectorKind) (c : AlarmCause) (p : Option ZoneNo) : ZonesSound (s.enterAlarm z a k c p) := by
  intro y
  rw [State.zone_enterAlarm]
  split
  · next hy => subst hy; exact (h y).leave he (by decide) true
  · exact h y

theorem State.enterVerify_sound {s : State} (h : ZonesSound s) {z : ZoneNo} (he : (s.zone z).enabled = true)
    (a : Address) (k : DetectorKind) : ZonesSound (s.enterVerify z a k) := by
  intro y
  rw [State.zone_enterVerify]
  split
  · next hy =>
    subst hy
    exact ⟨fun _ => ⟨rfl, _, rfl, clockAdd_le _ _⟩, fun k => absurd rfl k, fun k => absurd k (by simp [he]),
      (h y).2.2.2⟩
  · exact h y

theorem State.lapseZone_sound {s : State} (h : ZonesSound s) {z : ZoneNo} (he : (s.zone z).enabled = true)
    (c : LapseCause) : ZonesSound (s.lapseZone z c) := by
  intro y
  rw [State.zone_lapseZone]
  split
  · next hy =>
    subst hy
    have hf : (s.zone y).fallen ≠ .verify := by unfold Zone.fallen; split <;> decide
    exact (h y).leave he hf (s.zone y).alarmUnsent
  · exact h y

theorem State.zoneIntoAlarm_sound {s : State} (h : ZonesSound s) {z : ZoneNo} (he : (s.zone z).enabled = true)
    (a : Address) (k : DetectorKind) : ZonesSound (s.zoneIntoAlarm z a k) := by
  unfold State.zoneIntoAlarm; dsimp only; repeat' split
  all_goals first
    | with_reducible exact h
    | with_reducible exact State.enterAlarm_sound h he _ _ _ _
    | with_reducible exact State.enterVerify_sound h he _ _

theorem State.confirmPartners_sound {s : State} (h : ZonesSound s) (z : ZoneNo) (a : Address) (k : DetectorKind) :
    ZonesSound (s.confirmPartners z a k) := by
  refine foldl_rel (fun s t => ZonesSound s → ZonesSound t) (fun _ h => h) (fun _ _ _ f g h => g (f h)) _ ?_ _ _ h
  intro s y hs; unfold State.confirmPartner; split
  · next hc => exact State.enterAlarm_sound hs hc.2.1 _ _ _ _
  · exact hs

theorem State.zoneDecrement_sound {s : State} (h : ZonesSound s) (z : ZoneNo) (a : Address) (k : Option DetectorKind) :
    ZonesSound (s.zoneDecrement z a k) := by
  have h1 : ZonesSound (s.modifyZone z fun v => { v with raised := v.raised - 1 }) := h.setZone ((h z).raised _)
  unfold State.zoneDecrement; dsimp only; split
  · next hc =>
    refine ZonesSound.raise (h1.setZone ?_) _ _ _ _
    have hz := h1 z
    refine ⟨fun k => absurd k (by simp), fun _ => hz.2.1 (by simp [hc.2.2]), fun _ => rfl, hz.2.2.2⟩
  · exact h1

theorem State.zoneTransition_sound {s : State} (h : ZonesSound s) (z : ZoneNo) (a : Address) (k : DetectorKind)
    (b c : Level) : ZonesSound (s.zoneTransition z a k b c) := by
  have hinc : ZonesSound (if b = .normal then s.zoneIncrement z else s) := by
    split
    · exact h.setZone ((h z).raised _)
    · exact h
  unfold State.zoneTransition; cases c
  · exact State.zoneDecrement_sound h _ _ _
  · dsimp only
    generalize (if b = .normal then s.zoneIncrement z else s) = s1 at *
    split
    · next hc =>
      refine ZonesSound.raise (hinc.setZone ?_) _ _ _ _
      have hz := hinc z
      exact ⟨fun k => absurd k (by simp), fun _ => hz.2.1 (by simp [hc.2]), fun k => absurd k (by simp [hc.1]), hz.2.2.2⟩
    · exact hinc
  · dsimp only
    generalize (if b = .normal then s.zoneIncrement z else s) = s1 at *
    split
    · next hc => exact State.confirmPartners_sound (State.zoneIntoAlarm_sound hinc hc _ _) _ _ _
    · exact hinc

theorem State.zoneStaysAlarm_sound {s : State} (h : ZonesSound s) (z : ZoneNo) (a : Address) (k : DetectorKind) :
    ZonesSound (s.zoneStaysAlarm z a k) := by
  unfold State.zoneStaysAlarm; dsimp only; split
  · next hc => exact State.enterAlarm_sound h hc.1 _ _ _ _
  · exact h

theorem State.lapses_sound {s : State} (h : ZonesSound s) (l : List ZoneNo) :
    ZonesSound (l.foldl State.lapseIfReached s) := by
  refine foldl_rel (fun s t => ZonesSound s → ZonesSound t) (fun _ h => h) (fun _ _ _ f g h => g (f h)) _ ?_ _ _ h
  intro s y hs; unfold State.lapseIfReached; split
  · next hc =>
    have : (s.zone y).enabled = true := by
      unfold State.windowReached at hc; simp only [Bool.and_eq_true] at hc; exact hc.1.1
    exact State.lapseZone_sound hs this _
  · exact hs

theorem State.stopLapses_sound {s : State} (h : ZonesSound s) (l : List ZoneNo) :
    ZonesSound (l.foldl State.lapseAtStop s) := by
  refine foldl_rel (fun s t => ZonesSound s → ZonesSound t) (fun _ h => h) (fun _ _ _ f g h => g (f h)) _ ?_ _ _ h
  intro s y hs; unfold State.lapseAtStop; split
  · next hc => exact State.lapseZone_sound hs hc.1 _
  · exact hs

end Sys2Proof.Machine
end

