-- ==== Sys2Proof/Laws/Completion.lean ====
section
/-! SUPPORT. A property of states that every operation a completion step uses keeps is kept by the completion step. -/

namespace Sys2Proof.Machine

/-- A property that the operations of a completion step keep. A completion raises a ZONE_ALARM only through `transition` and
`stays`. -/
structure ClosedUnderCompletion (P : State → Prop) : Prop where
  raise : ∀ s b z a k, b.kind ≠ .zoneAlarm → P s → P (s.raise b z a k)
  decrement : ∀ s z a k, P s → P (s.zoneDecrement z a k)
  transition : ∀ s z a k b c, P s → P (s.zoneTransition z a k b c)
  stays : ∀ s z a k, P s → P (s.zoneStaysAlarm z a k)
  close : ∀ s c a, P s → P (s.closeContext c a)
  report : ∀ s a z k q v, P s → P { s with evu := s.evu.report s.now a z k q v }
  missing : ∀ (s : State) n, P s → P { s with su := { s.su with missing := n } }
  counters : ∀ (s : State) c, P s → P { s with fiu := { s.fiu with counters := c } }
  queue : ∀ (s : State) q, q.entries.length ≤ s.hcq.entries.length → q.orders = s.hcq.orders →
    (s.hcq.Distinct → q.Distinct) → P s → P { s with hcq := q }
  hand : ∀ s h x a q c, P s → P (s.handAck h x a q c)
  put : ∀ s i r, P s → P (s.putRecord i r)

/-- A stage of a completion keeps a property. -/
def Work.Keeps (P : State → Prop) (f : Work → Work) : Prop := ∀ w, P w.st → P (f w).st

theorem Hcq.attach_sizes (q : Hcq) (a : Address) :
    (q.attach a).entries.length ≤ q.entries.length ∧ (q.attach a).orders = q.orders := by
  unfold Hcq.attach; split
  · exact ⟨by rw [modifyFirst_length], rfl⟩
  · exact ⟨Nat.le_refl _, rfl⟩

variable {P : State → Prop}

theorem ClosedUnderCompletion.supervise (h : ClosedUnderCompletion P) (f : RadioFrame) :
    Work.Keeps P (fun w => w.supervise f) := by
  have hb : ∀ low, Work.Keeps P (fun w => w.checkBattery low) := by
    intro low w hw; dsimp only; unfold Work.checkBattery; split
    · exact h.raise _ _ _ _ _ nofun hw
    · exact h.raise _ _ _ _ _ nofun hw
    · exact hw
    · exact hw
  have ht : ∀ o, Work.Keeps P (fun w => w.checkTamper o) := by
    intro o w hw; dsimp only; unfold Work.checkTamper; split
    · exact h.raise _ _ _ _ _ nofun hw
    · exact h.raise _ _ _ _ _ nofun hw
    · exact hw
    · exact hw
  have hp : Work.Keeps P Work.refreshPresence := by
    intro w hw; unfold Work.refreshPresence; dsimp only; split
    · exact h.raise _ _ _ _ _ nofun (h.missing _ _ hw)
    · exact hw
  intro w hw; dsimp only; unfold Work.supervise; split
  · exact ht _ _ (hb _ _ (hp _ hw))
  · exact hw

theorem ClosedUnderCompletion.completeCommand (h : ClosedUnderCompletion P) (e : HeldEntry) :
    Work.Keeps P (fun w => w.completeCommand e) := by
  intro w hw; dsimp only; unfold Work.completeCommand; dsimp only; repeat' split
  · exact h.decrement _ _ _ _ hw
  all_goals exact hw

theorem ClosedUnderCompletion.judgeEcho (h : ClosedUnderCompletion P) (d : Byte) :
    Work.Keeps P (fun w => w.judgeEcho d) := by
  have removed : ∀ (q : Hcq) (a : Address), (q.removeSent a).entries.length ≤ q.entries.length := by
    intro q a; exact List.length_eraseP_le
  intro w hw; dsimp only; unfold Work.judgeEcho; split
  · exact hw
  · split
    · unfold Work.echoDone; dsimp only
      refine h.completeCommand _ _ (h.raise _ _ _ _ _ nofun (h.queue _ _ (removed _ _) rfl ?_ hw))
      exact Hcq.Distinct.fewer (List.eraseP_sublist) rfl rfl
    · unfold Work.echoMissed; dsimp only; split
      · refine h.raise _ _ _ _ _ nofun (h.queue _ _ (removed _ _) rfl ?_ hw)
        exact Hcq.Distinct.fewer (List.eraseP_sublist) rfl rfl
      · refine h.queue _ _ (by dsimp only; rw [modifyFirst_length]) rfl ?_ hw
        intro k; refine k.waits _ _ ?_ ?_ _ <;> exact fun _ => rfl

theorem ClosedUnderCompletion.level (h : ClosedUnderCompletion P) (q : SeqNo) (c : Content) :
    Work.Keeps P (fun w => w.level q c) := by
  have hd : ∀ o, Work.Keeps P (fun w => w.driftOf o) := by
    intro o w hw; dsimp only; unfold Work.driftOf; split
    · exact hw
    · unfold Work.checkDrift; dsimp only; repeat' split
      · exact h.raise _ _ _ _ _ nofun hw
      · exact h.raise _ _ _ _ _ nofun hw
      · exact hw
  have hh : ∀ b r, Work.Keeps P (fun w => w.handOn b r) := by
    intro b r w hw; dsimp only; unfold Work.handOn; repeat' split
    · unfold Work.transition; dsimp only; split
      · exact h.raise _ _ _ _ _ nofun (h.close _ _ _ hw)
      · exact h.transition _ _ _ _ _ _ (h.raise _ _ _ _ _ nofun (h.close _ _ _ hw))
    · exact h.stays _ _ _ _ hw
    · exact hw
  have hr : ∀ o, Work.Keeps P (fun w => w.reportValue q o) := by
    intro o w hw; dsimp only; unfold Work.reportValue; split
    · exact hw
    · split
      · exact h.report _ _ _ _ _ _ hw
      · exact hw
  intro w hw; dsimp only; unfold Work.level; repeat' split
  · exact hw
  · unfold Work.applyReading; dsimp only
    exact hr _ _ (hh _ _ _ (hd _ _ hw))
  · exact hw

theorem ClosedUnderCompletion.acknowledge (h : ClosedUnderCompletion P) (f : LaneFrame) :
    Work.Keeps P (fun w => w.acknowledge f) := by
  intro w hw; dsimp only; unfold Work.acknowledge; dsimp only
  obtain ⟨h1, h2⟩ := w.st.hcq.attach_sizes w.det.address
  exact h.hand _ _ _ _ _ _ (h.counters _ _ (h.queue _ _ h1 h2 (fun k => k.attach _) hw))

theorem ClosedUnderCompletion.passed (h : ClosedUnderCompletion P) : Work.Keeps P Work.passed := by
  intro w hw; unfold Work.passed; dsimp only; split
  · exact h.raise _ _ _ _ _ nofun hw
  · exact hw

theorem ClosedUnderCompletion.weigh (h : ClosedUnderCompletion P) (p : Path) :
    Work.Keeps P (fun w => w.weigh p) := by
  intro w hw; dsimp only; unfold Work.weigh; dsimp only; repeat' split
  · exact h.raise _ _ _ _ _ nofun hw
  · exact hw
  · exact h.raise _ _ _ _ _ nofun hw
  · exact hw

theorem ClosedUnderCompletion.checkPattern (h : ClosedUnderCompletion P) (c : Content) :
    Work.Keeps P (fun w => w.checkPattern c) := by
  intro w hw; dsimp only; unfold Work.checkPattern; split
  · unfold Work.sounderCheck; dsimp only; repeat' split
    · exact h.raise _ _ _ _ _ nofun hw
    · exact hw
    · exact h.raise _ _ _ _ _ nofun hw
    · exact hw
  all_goals exact hw

theorem ClosedUnderCompletion.handleNew (h : ClosedUnderCompletion P) (f : LaneFrame) :
    Work.Keeps P (fun w => w.handleNew f) := by
  intro w hw; dsimp only; unfold Work.handleNew; dsimp only
  refine h.acknowledge f _ ?_
  unfold Work.dispatch
  refine h.checkPattern _ _ (h.level _ _ _ (h.judgeEcho _ _ (h.supervise _ _ ?_)))
  have hwt : P ((w.accept f).weigh f.path).st := h.weigh _ _ (h.counters _ _ hw)
  unfold Work.countMismatch; split
  · exact h.counters _ _ hwt
  · exact hwt

theorem ClosedUnderCompletion.handlePassing (h : ClosedUnderCompletion P) (f : LaneFrame) :
    Work.Keeps P (fun w => w.handlePassing f) := by
  intro w hw; dsimp only; unfold Work.handlePassing
  have hp := h.passed w hw
  split
  · exact h.counters _ _ hp
  · unfold Work.handleRepeat; dsimp only
    have hi : P (({ w.passed with st := w.passed.st.countFiu fun c =>
        { c with repeated := inc32 c.repeated } } : Work).improvePath f.path).st := by
      unfold Work.improvePath; split <;> exact h.counters _ _ hp
    split
    · exact hi
    · exact h.acknowledge f _ hi
  · exact h.handleNew f _ hp

theorem ClosedUnderCompletion.handleForged (h : ClosedUnderCompletion P) (f : LaneFrame) :
    Work.Keeps P (fun w => w.handleForged f) := by
  intro w hw; dsimp only; unfold Work.handleForged Work.forged; dsimp only; split
  · exact h.raise _ _ _ _ _ nofun (h.counters _ _ hw)
  · exact h.counters _ _ hw

/-- A completion step keeps what its operations keep (R53). -/
theorem ClosedUnderCompletion.decideFrame (h : ClosedUnderCompletion P) (s : State) (f : LaneFrame) (i : Nat)
    (e : BitVec 8) (p : Bool) (hs : P s) : P (s.decideFrame f i e p) := by
  unfold State.decideFrame; split
  · exact h.counters _ _ hs
  · exact h.put _ _ _ (h.handleForged f _ hs)
  · exact h.counters _ _ hs
  · exact h.put _ _ _ (h.handlePassing f _ hs)

/-- The zones stay sound through a completion step. -/
theorem ZonesSound.closed : ClosedUnderCompletion ZonesSound where
  raise _ _ _ _ _ _ h := h.of_zones rfl
  decrement _ _ _ _ h := State.zoneDecrement_sound h _ _ _
  transition _ _ _ _ _ _ h := State.zoneTransition_sound h _ _ _ _ _
  stays _ _ _ _ h := State.zoneStaysAlarm_sound h _ _ _
  close _ _ _ h := h.of_zones rfl
  report _ _ _ _ _ _ h := h.of_zones rfl
  missing _ _ h := h.of_zones rfl
  counters _ _ h := h.of_zones rfl
  queue _ _ _ _ _ h := h.of_zones rfl
  hand s hd x a q c h := h.of_zones (by have := State.handAck_frame s hd x a q c; rw [this])
  put _ _ _ h := h.of_zones rfl

end Sys2Proof.Machine
end

