-- ==== Sys2Proof/Laws/Alarms.lean ====
section
/-! SUPPORT. The ZONE_ALARM records: what EVU's operations do to those that wait or are on the link, and that the
operations of the part keep them tracked by the zones' unsent flags, which bounds the ALARM queue. -/

namespace Sys2Proof.Machine

/-! ## Operations that take no ZONE_ALARM -/

/-- An operation of EVU that takes no ZONE_ALARM: the queues stay apart, and every zone has as many ZONE_ALARM records
waiting or on the link as before. -/
def Evu.AlarmsKept (e f : Evu) : Prop := e.AlarmsApart → f.AlarmsApart ∧ ∀ z, f.alarmsOf z = e.alarmsOf z

theorem Evu.AlarmsKept.refl (e : Evu) : e.AlarmsKept e := fun h => ⟨h, fun _ => rfl⟩

theorem Evu.AlarmsKept.trans {e f g : Evu} (h : e.AlarmsKept f) (k : f.AlarmsKept g) : e.AlarmsKept g := by
  intro he
  obtain ⟨h1, h2⟩ := h he
  obtain ⟨k1, k2⟩ := k h1
  exact ⟨k1, fun z => (k2 z).trans (h2 z)⟩

/-- An operation that leaves the queues, the filters and the link as they stand. -/
theorem Evu.AlarmsKept.of_eq {e f : Evu} (h1 : f.alarmQueue = e.alarmQueue) (h2 : f.faultQueue = e.faultQueue)
    (h3 : f.statusQueue = e.statusQueue) (h4 : f.levelQueue = e.levelQueue) (h5 : f.filters = e.filters)
    (h6 : f.tx = e.tx) : e.AlarmsKept f := by
  intro ⟨a1, a2, a3⟩
  unfold Evu.AlarmsApart Evu.alarmsOf Evu.alarmOnLink
  rw [h1, h2, h3, h4, h5, h6]
  exact ⟨⟨a1, a2, a3⟩, fun _ => rfl⟩

/-! ## Grants -/

theorem PanelFrame.alarmZone_other {r : EventRecord} (h : r.body.kind ≠ .zoneAlarm) :
    (PanelFrame.record r).alarmZone = none := by
  unfold PanelFrame.alarmZone; exact if_neg h

/-- A grant to a frame that is no ZONE_ALARM, on an idle link. -/
theorem Evu.AlarmsKept.sent {e f : Evu} (source : Source) {frame : PanelFrame}
    (hf : frame.alarmZone = none) (h : e.AlarmsKept f) (hft : f.tx = none) : e.AlarmsKept (f.send source frame) := by
  intro he
  obtain ⟨⟨a1, a2, a3⟩, h2⟩ := h he
  refine ⟨⟨a1, a2, a3⟩, fun z => ?_⟩
  rw [← h2 z]
  unfold Evu.alarmsOf Evu.alarmOnLink Evu.send
  simp [hf, hft]

theorem Evu.grantQueues_alarms {e : Evu} (ht : e.tx = none) : e.AlarmsKept e.grantQueues := by
  have rest : ∀ (source : Source) (r : EventRecord) (n : Nat) (f : Evu), r ∈ e.faultQueue ++ e.statusQueue ++ e.levelQueue →
      f.alarmQueue = e.alarmQueue → f.filters = e.filters → f.tx = e.tx →
      (∀ x ∈ f.faultQueue ++ f.statusQueue ++ f.levelQueue, x ∈ e.faultQueue ++ e.statusQueue ++ e.levelQueue) →
      e.AlarmsKept (f.send source (.record { r with lostBefore := n })) := by
    intro source r n f hr h1 h2 h3 h4 he
    refine Evu.AlarmsKept.sent source (PanelFrame.alarmZone_other (he.2.1 r hr)) ?_ (h3.trans ht) he
    intro ⟨a1, a2, a3⟩
    refine ⟨⟨by rw [h1]; exact a1, fun x hx => a2 x (h4 x hx), by rw [h2]; exact a3⟩, fun z => ?_⟩
    unfold Evu.alarmsOf Evu.alarmOnLink; rw [h1, h3]
  unfold Evu.grantQueues
  split
  · next r l hq =>
    refine rest .fault r _ { e with faultQueue := l, faultLoss := 0 } (by simp [hq]) rfl rfl rfl ?_
    intro x hx; simp only [List.mem_append, hq, List.mem_cons] at hx ⊢
    exact hx.imp (fun h => h.imp Or.inr id) id
  · split
    · next r l hq =>
      refine rest .status r _ { e with statusQueue := l, statusLoss := 0 } (by simp [hq]) rfl rfl rfl ?_
      intro x hx; simp only [List.mem_append, hq, List.mem_cons] at hx ⊢
      exact hx.imp (fun h => h.imp id Or.inr) id
    · split
      · next r l hq =>
        refine rest .level r _ { e with levelQueue := l, levelLoss := 0 } (by simp [hq]) rfl rfl rfl ?_
        intro x hx; simp only [List.mem_append, hq, List.mem_cons] at hx ⊢
        exact hx.imp id Or.inr
      · exact Evu.AlarmsKept.refl e

theorem Evu.grantDue_alarms (e : Evu) : e.AlarmsKept e.grantDue := by
  unfold Evu.grantDue
  split
  · exact Evu.AlarmsKept.refl e
  · next h =>
    have ht : e.tx = none := by
      cases hx : e.tx with
      | none => rfl
      | some x => simp [hx] at h
    split
    · next r l hq =>
      intro ⟨a1, a2, a3⟩
      have hr := a1 r (by rw [hq]; exact List.mem_cons_self)
      refine ⟨⟨fun x hx => a1 x (by rw [hq]; exact List.mem_cons_of_mem _ hx), a2, a3⟩, fun z => ?_⟩
      unfold Evu.alarmsOf Evu.alarmOnLink Evu.grantAlarm Evu.send
      rw [hq, ht, List.countP_cons]
      simp only [Option.any_some, Option.any_none, PanelFrame.alarmZone, hr.1, if_true, Bool.toNat_false]
      cases r.zone == some z <;> simp
    · split
      · exact Evu.AlarmsKept.sent (f := { e with summarySlot := none }) .summary rfl (.of_eq rfl rfl rfl rfl rfl rfl) ht
      · exact Evu.grantQueues_alarms ht

theorem Evu.grantReply_alarms {e : Evu} (ht : e.tx = none) (r : Reply) : e.AlarmsKept (e.grantReply r) :=
  Evu.AlarmsKept.sent (f := { e with replySlot := none, replyFirst := false }) .reply rfl
    (.of_eq rfl rfl rfl rfl rfl rfl) ht

/-! ## Taking records -/

/-- A record of another kind joins a queue that is not the ALARM queue. -/
theorem Evu.join_alarms (e : Evu) {r : EventRecord} (hk : r.body.kind ≠ .zoneAlarm) (hc : r.cls ≠ .alarm) :
    e.AlarmsKept (e.join r) := by
  have joined : ∀ e f : Evu, f.alarmQueue = e.alarmQueue → f.filters = e.filters → f.tx = e.tx →
      (∀ x ∈ f.faultQueue ++ f.statusQueue ++ f.levelQueue,
        x ∈ e.faultQueue ++ e.statusQueue ++ e.levelQueue ∨ x = r) → e.AlarmsKept f := by
    intro e f h1 h2 h3 h4 ⟨a1, a2, a3⟩
    refine ⟨⟨by rw [h1]; exact a1, fun x hx => ?_, by rw [h2]; exact a3⟩, fun z => ?_⟩
    · rcases h4 x hx with h | rfl
      · exact a2 x h
      · exact hk
    · unfold Evu.alarmsOf Evu.alarmOnLink; rw [h1, h3]
  have due := e.grantDue_alarms
  unfold Evu.join
  split
  · next h => exact absurd h hc
  · refine due.trans ?_
    unfold Evu.joinFault; split
    · refine joined _ _ rfl rfl rfl fun x hx => ?_
      simp only [List.mem_append, List.mem_singleton] at hx ⊢; tauto
    · exact .of_eq rfl rfl rfl rfl rfl rfl
  · refine due.trans ?_
    unfold Evu.joinStatus; split
    · refine joined _ _ rfl rfl rfl fun x hx => ?_
      simp only [List.mem_append, List.mem_singleton] at hx ⊢; tauto
    · exact .of_eq rfl rfl rfl rfl rfl rfl
  · refine due.trans ?_
    unfold Evu.joinLevel; split
    · refine joined _ _ rfl rfl rfl fun x hx => ?_
      simp only [List.mem_append, List.mem_singleton] at hx ⊢; tauto
    · exact .of_eq rfl rfl rfl rfl rfl rfl

theorem decidingOf_member (l : List Filter) : ∀ (b : Option Filter) (f : Filter), l.foldl decidingOf b = some f →
    b = some f ∨ f ∈ l := by
  induction l with
  | nil => intro b f h; exact .inl h
  | cons x l ih =>
    intro b f h
    rcases ih _ _ h with h | h
    · unfold decidingOf at h
      split at h
      · cases h; exact .inr List.mem_cons_self
      · split at h
        · cases h; exact .inr List.mem_cons_self
        · exact .inl h
    · exact .inr (List.mem_cons_of_mem _ h)

/-- No record but a ZONE_ALARM is decided to the class ALARM (R150, R152, R155). -/
theorem Evu.AlarmsApart.decided {e : Evu} (h : e.AlarmsApart) {r : EventRecord} (hk : r.body.kind ≠ .zoneAlarm)
    {c : EventClass} (hc : decidedClass r.body.kind.baseClass (e.deciding r) = some c) : c ≠ .alarm := by
  have base : r.body.kind.baseClass ≠ .alarm := by
    revert hk; generalize r.body.kind = k; cases k <;> simp [EventKind.baseClass]
  unfold decidedClass at hc
  split at hc
  · cases hc; exact base
  · next f hf =>
    have hm : f ∈ e.filters.toList := by
      unfold Evu.deciding at hf
      rcases decidingOf_member _ _ _ hf with h | h
      · cases h
      · exact (List.mem_filter.mp h).1
    obtain ⟨i, hi, rfl⟩ := List.getElem_of_mem hm
    have hn := h.2.2 ⟨i, by simpa using hi⟩
    split at hc
    · cases hc
    · split at hc
      · cases hc; exact base
      · next c' hc' =>
        have hne : c' ≠ .alarm := by
          rintro rfl; exact hn (by rw [← hc']; simp [Vector.get_eq_getElem])
        split at hc <;> cases hc
        · exact hne
        · exact base

theorem Evu.queue_alarms (e : Evu) {r : EventRecord} (hk : r.body.kind ≠ .zoneAlarm) : e.AlarmsKept (e.queue r) := by
  intro he
  have counted : e.AlarmsKept (e.countTaken r) := .of_eq rfl rfl rfl rfl rfl rfl
  unfold Evu.queue
  rw [if_neg hk]
  split
  · exact counted.trans (.of_eq rfl rfl rfl rfl rfl rfl) he
  · next c hc =>
    have hne := he.decided hk hc
    have raised : e.AlarmsKept (e.countTaken r).raised := counted.trans (.of_eq rfl rfl rfl rfl rfl rfl)
    split
    · exact counted.trans (Evu.join_alarms _ (r := { r with cls := c }) hk hne) he
    · exact raised.trans (Evu.join_alarms _ (r := { r with cls := c }) hk hne) he

theorem Evu.closeAll_alarms (e : Evu) (now : Nat) (c : CloseCause) : e.AlarmsKept (e.closeAll now c) := by
  have emits : ∀ (l : List Context) (e : Evu), e.AlarmsKept (l.foldl (Evu.emit now c) e) := by
    intro l
    induction l with
    | nil => exact fun e => Evu.AlarmsKept.refl e
    | cons x l ih =>
      intro e
      have h0 : e.AlarmsKept (e.countClosed c) := .of_eq rfl rfl rfl rfl rfl rfl
      exact (h0.trans (Evu.queue_alarms _ (r := x.summary now c) nofun)).trans (ih _)
  have h0 : e.AlarmsKept { e with contexts := [] } := .of_eq rfl rfl rfl rfl rfl rfl
  exact h0.trans (emits _ _)

/-- Taking a record of another kind (R151). -/
theorem Evu.take_alarms (e : Evu) (now : Nat) {r : EventRecord} (hk : r.body.kind ≠ .zoneAlarm) :
    e.AlarmsKept (e.take now r) := by
  unfold Evu.take Evu.urgentClosing
  repeat' split
  · exact Evu.queue_alarms _ hk
  · have h0 : e.AlarmsKept { e with counters := { e.counters with urgentClosings := inc32 e.counters.urgentClosings } } :=
      .of_eq rfl rfl rfl rfl rfl rfl
    exact (h0.trans (Evu.closeAll_alarms _ _ _)).trans (Evu.queue_alarms _ hk)
  · exact Evu.queue_alarms _ hk

theorem Evu.closeOne_alarms (e : Evu) (now : Nat) (c : CloseCause) (x : Context) : e.AlarmsKept (e.closeOne now c x) := by
  have h0 : e.AlarmsKept (Evu.countClosed { e with contexts := e.contexts.filter (fun d => d.address != x.address) } c) :=
    .of_eq rfl rfl rfl rfl rfl rfl
  exact h0.trans (Evu.take_alarms _ _ nofun)

theorem Evu.closeFor_alarms (e : Evu) (now : Nat) (c : CloseCause) (a : Address) : e.AlarmsKept (e.closeFor now c a) := by
  unfold Evu.closeFor; split
  · exact Evu.AlarmsKept.refl e
  · exact e.closeOne_alarms _ _ _

theorem Evu.openContext_alarms (e : Evu) (now : Nat) (c : Context) : e.AlarmsKept (e.openContext now c) := by
  have h1 : e.AlarmsKept (e.evict now) := by
    unfold Evu.evict; repeat' split
    · exact Evu.AlarmsKept.refl e
    · exact Evu.AlarmsKept.refl e
    · exact e.closeOne_alarms _ _ _
  exact h1.trans (.of_eq rfl rfl rfl rfl rfl rfl)

theorem Evu.report_alarms (e : Evu) (now : Nat) (a : Address) (z : ZoneNo) (k : DetectorKind) (q : SeqNo) (v : Nat) :
    e.AlarmsKept (e.report now a z k q v) := by
  have set : ∀ l : List Context, e.AlarmsKept { e with contexts := l } := fun l => .of_eq rfl rfl rfl rfl rfl rfl
  unfold Evu.report
  split
  · exact e.openContext_alarms _ _
  · split
    · unfold Evu.appendValue; dsimp only
      split
      · exact (set _).trans (Evu.closeOne_alarms _ _ _ _)
      · exact set _
    · exact (e.closeOne_alarms _ _ _).trans (Evu.openContext_alarms _ _ _)

theorem Evu.placeReply_alarms (e : Evu) (r : Reply) : e.AlarmsKept (e.placeReply r) :=
  e.grantDue_alarms.trans (.of_eq rfl rfl rfl rfl rfl rfl)

theorem Evu.placeSummary_alarms (e : Evu) (z : ZoneSummary) : e.AlarmsKept (e.placeSummary z) :=
  e.grantDue_alarms.trans (.of_eq rfl rfl rfl rfl rfl rfl)

/-- A ZONE_ALARM of a zone is taken: it has one more (R105, R151, R162). -/
theorem Evu.take_alarm {e : Evu} (h : e.AlarmsApart) (now : Nat) {r : EventRecord} (hk : r.body.kind = .zoneAlarm)
    {y : ZoneNo} (hz : r.zone = some y) : (e.take now r).AlarmsApart
      ∧ ∀ z, (e.take now r).alarmsOf z = e.alarmsOf z + (decide (z = y)).toNat := by
  have hc : e.AlarmsKept (e.countTaken r) := .of_eq rfl rfl rfl rfl rfl rfl
  obtain ⟨⟨a1, a2, a3⟩, h2⟩ := hc.trans (e.countTaken r).grantDue_alarms h
  have ht : e.take now r = (e.countTaken r).grantDue.joinAlarm { r with cls := .alarm } := by
    unfold Evu.take Evu.queue Evu.join; simp [hk]
  rw [ht]
  refine ⟨⟨?_, a2, a3⟩, fun z => ?_⟩
  · intro x hx
    unfold Evu.joinAlarm at hx
    rcases List.mem_append.mp hx with hx | hx
    · exact a1 x hx
    · rw [List.mem_singleton.mp hx]; exact ⟨hk, by simp [hz]⟩
  · rw [← h2 z]
    unfold Evu.alarmsOf Evu.alarmOnLink Evu.joinAlarm
    simp only [List.countP_append, List.countP_cons, List.countP_nil, hz]
    by_cases k : z = y
    · simp [k]; omega
    · simp [k, Ne.symm k]

/-! ## The part -/

/-- An operation that takes no ZONE_ALARM and leaves each zone's unsent flag; a zone whose flag is set stays enabled and
in ALARM. -/
theorem AlarmsTracked.kept {s t : State} (h : AlarmsTracked s) (he : s.evu.AlarmsKept t.evu)
    (hz : ∀ z, (t.zone z).alarmUnsent = (s.zone z).alarmUnsent
      ∧ ((s.zone z).state = .alarm → (s.zone z).enabled = true →
          (t.zone z).state = .alarm ∧ (t.zone z).enabled = true)) : AlarmsTracked t := by
  obtain ⟨h1, h2⟩ := h
  obtain ⟨k1, k2⟩ := he h1
  refine ⟨k1, fun z => ⟨by rw [k2, (hz z).1]; exact (h2 z).1, fun hu => ?_⟩⟩
  rw [(hz z).1] at hu
  exact (hz z).2 ((h2 z).2 hu).1 ((h2 z).2 hu).2

/-- An operation that takes no ZONE_ALARM and leaves the zones. -/
theorem AlarmsTracked.of_zones {s t : State} (h : AlarmsTracked s) (he : s.evu.AlarmsKept t.evu)
    (hz : t.zones = s.zones) : AlarmsTracked t := by
  refine h.kept he fun z => ?_
  unfold State.zone; rw [hz]; exact ⟨rfl, fun a b => ⟨a, b⟩⟩

/-- An operation on neither EVU nor the zones. -/
theorem AlarmsTracked.same {s t : State} (h : AlarmsTracked s) (he : t.evu = s.evu) (hz : t.zones = s.zones) :
    AlarmsTracked t := h.of_zones (by rw [he]; exact Evu.AlarmsKept.refl _) hz

theorem AlarmsTracked.raise {s : State} (h : AlarmsTracked s) (b : EventBody) (z : Option ZoneNo) (a : Option Address)
    (k : Option DetectorKind) (hb : b.kind ≠ .zoneAlarm) : AlarmsTracked (s.raise b z a k) :=
  h.of_zones (Evu.take_alarms _ _ hb) rfl

/-- A zone rewritten with its unsent flag kept; if it was in ALARM and enabled it still is. -/
theorem AlarmsTracked.setZone {s : State} (h : AlarmsTracked s) {z : ZoneNo} {v : Zone}
    (hu : v.alarmUnsent = (s.zone z).alarmUnsent)
    (hv : (s.zone z).state = .alarm → (s.zone z).enabled = true → v.state = .alarm ∧ v.enabled = true) :
    AlarmsTracked (s.setZone z v) := by
  refine h.kept (Evu.AlarmsKept.refl _) fun y => ?_
  rw [State.zone_setZone]
  split
  · next k => subst k; exact ⟨hu, hv⟩
  · exact ⟨rfl, fun a b => ⟨a, b⟩⟩

theorem AlarmsTracked.modifyZone {s : State} (h : AlarmsTracked s) {z : ZoneNo} {f : Zone → Zone}
    (hu : (f (s.zone z)).alarmUnsent = (s.zone z).alarmUnsent)
    (hv : (s.zone z).state = .alarm → (s.zone z).enabled = true →
      (f (s.zone z)).state = .alarm ∧ (f (s.zone z)).enabled = true) : AlarmsTracked (s.modifyZone z f) :=
  AlarmsTracked.setZone h hu hv

/-- An enabled zone that is not in ALARM enters it, with its ZONE_ALARM (R105). -/
theorem State.enterAlarm_tracked {s : State} (h : AlarmsTracked s) {z : ZoneNo} (he : (s.zone z).enabled = true)
    (hs : (s.zone z).state ≠ .alarm) (a : Address) (k : DetectorKind) (c : AlarmCause) (p : Option ZoneNo) :
    AlarmsTracked (s.enterAlarm z a k c p) := by
  obtain ⟨h1, h2⟩ := h
  have hu : (s.zone z).alarmUnsent = false := by
    cases hx : (s.zone z).alarmUnsent
    · rfl
    · exact absurd ((h2 z).2 hx).1 hs
  obtain ⟨c1, c2⟩ := Evu.closeAll_alarms s.evu s.now .alarm h1
  have key := fun (m : ZoneMode) (first : Option Address) (n : Nat) =>
    Evu.take_alarm c1 s.now (r := s.eventRecord (.zoneAlarm c m first p n) (some z) (some a) (some k)) rfl rfl
  obtain ⟨k1, k2⟩ := key (s.zone z).mode (s.zone z).first (s.zone z).raised
  have ev : (s.enterAlarm z a k c p).evu = (s.evu.closeAll s.now .alarm).take s.now
      (s.eventRecord (.zoneAlarm c (s.zone z).mode (s.zone z).first p (s.zone z).raised) (some z) (some a) (some k)) := rfl
  refine ⟨by rw [ev]; exact k1, fun y => ?_⟩
  rw [State.zone_enterAlarm, ev, k2, c2, (h2 y).1]
  split
  · next e => subst e; exact ⟨by simp [hu], fun _ => ⟨rfl, he⟩⟩
  · next e => exact ⟨by simp [e], (h2 y).2⟩

theorem State.zoneDecrement_tracked {s : State} (h : AlarmsTracked s) (z : ZoneNo) (a : Address)
    (k : Option DetectorKind) : AlarmsTracked (s.zoneDecrement z a k) := by
  have h1 : AlarmsTracked (s.modifyZone z fun v => { v with raised := v.raised - 1 }) :=
    h.modifyZone rfl fun a b => ⟨a, b⟩
  unfold State.zoneDecrement; dsimp only
  split
  · next hc =>
    refine AlarmsTracked.raise (AlarmsTracked.modifyZone h1 rfl fun a => ?_) _ _ _ _ nofun
    rw [hc.2.2] at a; cases a
  · exact h1

theorem State.enterVerify_tracked {s : State} (h : AlarmsTracked s) {z : ZoneNo} (hs : (s.zone z).state ≠ .alarm)
    (a : Address) (k : DetectorKind) : AlarmsTracked (s.enterVerify z a k) := by
  unfold State.enterVerify
  refine AlarmsTracked.raise (h.setZone (v := { s.zone z with
    state := .verify, first := some a, deadline := some (clockAdd s.now (s.zone z).window) }) rfl ?_) _ _ _ _ nofun
  exact fun b => absurd b hs

theorem State.lapseZone_tracked {s : State} (h : AlarmsTracked s) {z : ZoneNo} (hs : (s.zone z).state = .verify)
    (c : LapseCause) : AlarmsTracked (s.lapseZone z c) := by
  unfold State.lapseZone
  refine AlarmsTracked.raise (h.setZone (v := (s.zone z).leaveVerify (s.zone z).fallen) rfl ?_) _ _ _ _ nofun
  intro b; rw [hs] at b; cases b

theorem State.zoneIntoAlarm_tracked {s : State} (h : AlarmsTracked s) {z : ZoneNo} (he : (s.zone z).enabled = true)
    (a : Address) (k : DetectorKind) : AlarmsTracked (s.zoneIntoAlarm z a k) := by
  unfold State.zoneIntoAlarm; dsimp only
  split
  · exact h
  · next hs =>
    have ha := fun (c : AlarmCause) => State.enterAlarm_tracked h he (by simp [hs]) a k c none
    repeat' split
    all_goals first
      | exact ha _
      | exact h
  all_goals
    next hs =>
      have ha := fun (c : AlarmCause) => State.enterAlarm_tracked h he (by simp [hs]) a k c none
      have hv := State.enterVerify_tracked (z := z) h (by simp [hs]) a k
      repeat' split
      all_goals first
        | exact ha _
        | exact hv

theorem State.confirmPartners_tracked {s : State} (h : AlarmsTracked s) (z : ZoneNo) (a : Address) (k : DetectorKind) :
    AlarmsTracked (s.confirmPartners z a k) := by
  refine foldl_rel (fun s t => AlarmsTracked s → AlarmsTracked t) (fun _ h => h) (fun _ _ _ f g h => g (f h)) _ ?_ _ _ h
  intro s y hs
  unfold State.confirmPartner; split
  · next hc => exact State.enterAlarm_tracked hs hc.2.1 (by simp [hc.2.2.1]) _ _ _ _
  · exact hs

theorem State.zoneTransition_tracked {s : State} (h : AlarmsTracked s) (z : ZoneNo) (a : Address) (k : DetectorKind)
    (b c : Level) : AlarmsTracked (s.zoneTransition z a k b c) := by
  have inc : AlarmsTracked (if b = .normal then s.zoneIncrement z else s) := by
    split
    · exact h.modifyZone rfl fun a b => ⟨a, b⟩
    · exact h
  unfold State.zoneTransition
  dsimp only
  generalize (if b = .normal then s.zoneIncrement z else s) = s1 at *
  split
  · exact State.zoneDecrement_tracked h _ _ _
  · split
    · next hc =>
      refine AlarmsTracked.raise (inc.modifyZone (f := fun v => { v with state := .pre }) rfl fun a => ?_) _ _ _ _ nofun
      rw [hc.2] at a; cases a
    · exact inc
  · split
    · next he => exact State.confirmPartners_tracked (State.zoneIntoAlarm_tracked inc he _ _) _ _ _
    · exact inc

theorem State.zoneStaysAlarm_tracked {s : State} (h : AlarmsTracked s) (z : ZoneNo) (a : Address) (k : DetectorKind) :
    AlarmsTracked (s.zoneStaysAlarm z a k) := by
  unfold State.zoneStaysAlarm; dsimp only
  split
  · next hc => exact State.enterAlarm_tracked h hc.1 (by simp [hc.2.2.1]) _ _ _ _
  · exact h

theorem State.lapses_tracked {s : State} (h : AlarmsTracked s) (l : List ZoneNo) :
    AlarmsTracked (l.foldl State.lapseIfReached s) := by
  refine foldl_rel (fun s t => AlarmsTracked s → AlarmsTracked t) (fun _ h => h) (fun _ _ _ f g h => g (f h)) _ ?_ _ _ h
  intro s z hs
  unfold State.lapseIfReached; split
  · next hc =>
    refine State.lapseZone_tracked hs ?_ _
    unfold State.windowReached at hc; simp only [Bool.and_eq_true, beq_iff_eq] at hc; exact hc.1.2
  · exact hs

theorem State.stopLapses_tracked {s : State} (h : AlarmsTracked s) (l : List ZoneNo) :
    AlarmsTracked (l.foldl State.lapseAtStop s) := by
  refine foldl_rel (fun s t => AlarmsTracked s → AlarmsTracked t) (fun _ h => h) (fun _ _ _ f g h => g (f h)) _ ?_ _ _ h
  intro s z hs
  unfold State.lapseAtStop; split
  · next hc => exact State.lapseZone_tracked hs hc.2 _
  · exact hs

/-- HCQ's notices take no ZONE_ALARM (R142, R143). -/
theorem State.expireHeld_tracked {s : State} (h : AlarmsTracked s) : AlarmsTracked s.expireHeld := by
  unfold State.expireHeld
  refine foldl_rel (fun s t => AlarmsTracked s → AlarmsTracked t) (fun _ h => h) (fun _ _ _ f g h => g (f h)) _ ?_ _ _
    (h.same rfl rfl)
  intro s e hs
  refine AlarmsTracked.raise ?_ _ _ _ _ nofun
  exact hs.same rfl rfl

theorem State.withdrawHeld_tracked {s : State} (h : AlarmsTracked s) (a : Address) (z : ZoneNo) :
    AlarmsTracked (s.withdrawHeld a z) := by
  unfold State.withdrawHeld
  refine foldl_rel (fun s t => AlarmsTracked s → AlarmsTracked t) (fun _ h => h) (fun _ _ _ f g h => g (f h)) _ ?_ _ _
    (h.same rfl rfl)
  intro s e hs
  refine AlarmsTracked.raise ?_ _ _ _ _ nofun
  exact hs.same rfl rfl

theorem AlarmsTracked.closeContexts {s : State} (h : AlarmsTracked s) (c : CloseCause) :
    AlarmsTracked (s.closeContexts c) := h.of_zones (Evu.closeAll_alarms _ _ _) rfl

theorem AlarmsTracked.closeContext {s : State} (h : AlarmsTracked s) (c : CloseCause) (a : Address) :
    AlarmsTracked (s.closeContext c a) := h.of_zones (Evu.closeFor_alarms _ _ _ _) rfl

/-- A removal's notices keep the ZONE_ALARM records tracked (R22). -/
theorem State.noticeZoneAndEvents_tracked {s : State} (h : AlarmsTracked s) (r : DetectorRecord) :
    AlarmsTracked (s.noticeZoneAndEvents r) := by
  unfold State.noticeZoneAndEvents; dsimp only
  refine AlarmsTracked.closeContext ?_ _ _
  split
  · exact State.zoneDecrement_tracked h _ _ _
  · exact h

theorem State.removalNotices_tracked {s : State} (h : AlarmsTracked s) (r : DetectorRecord) :
    AlarmsTracked (s.removalNotices r) :=
  State.withdrawHeld_tracked (State.noticeZoneAndEvents_tracked h r) _ _

theorem State.uncountMissing_tracked {s : State} (h : AlarmsTracked s) (r : DetectorRecord) :
    AlarmsTracked (s.uncountMissing r) := by
  unfold State.uncountMissing; split <;> exact h.same rfl rfl

theorem State.removeAll_tracked {s : State} (h : AlarmsTracked s) : AlarmsTracked s.removeAll := by
  refine foldl_rel (fun s t => AlarmsTracked s → AlarmsTracked t) (fun _ h => h) (fun _ _ _ f g h => g (f h)) _ ?_ _ _ h
  intro s r hs
  exact State.removalNotices_tracked (State.uncountMissing_tracked hs r) r

/-- The ZONE_ALARM records stay tracked through a completion step. -/
theorem AlarmsTracked.closed : ClosedUnderCompletion AlarmsTracked where
  raise _ _ _ _ _ hb h := h.raise _ _ _ _ hb
  decrement _ _ _ _ h := State.zoneDecrement_tracked h _ _ _
  transition _ _ _ _ _ _ h := State.zoneTransition_tracked h _ _ _ _ _
  stays _ _ _ _ h := State.zoneStaysAlarm_tracked h _ _ _
  close _ _ _ h := h.closeContext _ _
  report _ _ _ _ _ _ h := h.of_zones (Evu.report_alarms _ _ _ _ _ _ _) rfl
  missing _ _ h := h.same rfl rfl
  counters _ _ h := h.same rfl rfl
  queue _ _ _ _ _ h := h.same rfl rfl
  hand s hd x a q c h := by have := State.handAck_frame s hd x a q c; rw [this]; exact h.same rfl rfl
  put _ _ _ h := h.same rfl rfl

/-- What bounds the ALARM queue: each of the 64 zones has at most one record in it (R162). -/
theorem AlarmsTracked.bounded {s : State} (h : AlarmsTracked s) : s.evu.alarmQueue.length ≤ 64 := by
  obtain ⟨⟨a1, _, _⟩, h2⟩ := h
  have counts : ∀ (l : List EventRecord) (z : ZoneNo),
      (l.filterMap EventRecord.zone).count z = l.countP (fun r => r.zone == some z) := by
    intro l z
    induction l with
    | nil => rfl
    | cons r l ih =>
      rw [List.countP_cons]
      cases hr : r.zone with
      | none => rw [List.filterMap_cons_none hr, ih]; simp
      | some y => rw [List.filterMap_cons_some hr, List.count_cons, ih]; simp
  have lengths : ∀ l : List EventRecord, (∀ r ∈ l, r.zone.isSome) → (l.filterMap EventRecord.zone).length = l.length := by
    intro l
    induction l with
    | nil => intro _; rfl
    | cons r l ih =>
      intro hl
      obtain ⟨y, hy⟩ := Option.isSome_iff_exists.mp (hl r List.mem_cons_self)
      rw [List.filterMap_cons_some hy, List.length_cons, List.length_cons,
        ih fun x hx => hl x (List.mem_cons_of_mem _ hx)]
  rw [← lengths _ fun r hr => (a1 r hr).2]
  have nodup : (s.evu.alarmQueue.filterMap EventRecord.zone).Nodup := by
    rw [List.nodup_iff_count_le_one]
    intro z
    rw [counts]
    have h3 := (h2 z).1
    unfold Evu.alarmsOf at h3
    have : (s.zone z).alarmUnsent.toNat ≤ 1 := Bool.toNat_le _
    omega
  have := nodup.length_le_card
  rwa [Fintype.card_fin] at this

end Sys2Proof.Machine
end

