-- ==== Sys2Proof/Laws/Commands.lean ====
section
/-! SUPPORT. What a management command comes to once MEX may execute it: its body's state with the reply placed. -/

namespace Sys2Proof.Machine

theorem Ready.mayExecute {s : State} {c : Command} {tag : Byte} (h : Ready s c tag) : s.mayExecute c = true := by
  obtain ⟨⟨rest, hs, hp⟩, hd⟩ := h
  unfold State.mayExecute
  cases hc : c.atDtu
  · simp [hs, hp]
  · simp [hs, hp, hd hc]

theorem Ready.tag_eq {s : State} {c : Command} {tag : Byte} (h : Ready s c tag) : byteAt s.executing 0 = tag := by
  obtain ⟨⟨rest, hs, _⟩, _⟩ := h
  simp [State.executing, hs, byteAt]

/-- A command that may execute replies with what its body answers (R173, R174). -/
theorem Ready.run {s : State} {c : Command} {tag : Byte} (h : Ready s c tag) (body : State → Answer) :
    s.runCommand c body = .next (State.replied (body s).state tag c.code (body s).result (body s).data) := by
  unfold State.runCommand
  rw [h.mayExecute, h.tag_eq]
  rfl

@[simp] theorem State.answer_state (s : State) (r : Result) (d : List Byte) : (s.answer r d).state = s := rfl
@[simp] theorem State.answer_result (s : State) (r : Result) (d : List Byte) : (s.answer r d).result = r := rfl
@[simp] theorem State.answer_data (s : State) (r : Result) (d : List Byte) : (s.answer r d).data = d := rfl

theorem reservedAddress_eq (a : Address) : reservedAddress a = decide (a = 0 ∨ a = 0xFFFFFF) := by
  simp [reservedAddress, Bool.decide_or, beq_eq_decide]

/-- A command on the record of an address it finds (R15). -/
theorem State.onAddress_found {s : State} {a : Address} {i q : Nat} {r : DetectorRecord} (h0 : a ≠ 0)
    (h1 : a ≠ 0xFFFFFF) (h : s.findRecord a = some (i, q, r)) (f : Nat → Nat → DetectorRecord → Answer) :
    s.onAddress a f = f i q r := by
  unfold State.onAddress
  rw [reservedAddress_eq, decide_eq_false (by rintro (h | h) <;> contradiction)]
  simp [h]

/-- A found record is the one at its index, and has the address looked for (R6). -/
theorem State.findRecord_sound {s : State} {a : Address} {i q : Nat} {r : DetectorRecord}
    (h : s.findRecord a = some (i, q, r)) : s.dtu.recordAt i = some r ∧ r.address = a := by
  have walk : ∀ (l : List Nat) (p : Nat) (b : Option Nat) (x : Lookup), s.dtu.walk a p b l = some x →
      (s.dtu.recordAt x.index).any (fun r => r.address == a) = true := by
    intro l
    induction l with
    | nil => intro p b x h; simp [Dtu.walk] at h
    | cons j l ih =>
      intro p b x h
      unfold Dtu.walk at h
      split at h
      · next hj => simp only [Option.some.injEq] at h; rw [← h]; exact hj
      · exact ih _ _ _ h
  unfold State.findRecord at h
  cases hf : s.lookup a with
  | none => simp [hf] at h
  | some x =>
    simp only [hf, Option.bind_some, Option.map_eq_some_iff, Prod.mk.injEq] at h
    obtain ⟨r', hr, h1, h2, h3⟩ := h
    subst h3
    have := walk _ _ _ _ hf
    rw [h1] at hr this
    exact ⟨hr, by simpa [hr] using this⟩

end Sys2Proof.Machine
end

