-- ==== Sys2Proof/Laws/Table.lean ====
section
/-! SUPPORT. What DTU's operations do to the records, the epochs and the free list, and how they change the number of
records that satisfy a property. -/

namespace Sys2Proof.Machine

/-! ## Reading a changed table -/

theorem Dtu.recordAt_lt {d : Dtu} {i : Nat} {r : DetectorRecord} (h : d.recordAt i = some r) : i < d.slots.length := by
  unfold Dtu.recordAt at h
  by_contra hc
  rw [List.getElem?_eq_none (by omega)] at h
  simp at h

/-- Reading a record after a slot has been replaced. -/
theorem recordAt_set (d : Dtu) (l : List Slot) (hl : d.slots = l) (i j : Nat) (sl : Slot) (ch : List (List Nat))
    (fl : List Nat) (m : Nat) : Dtu.recordAt ⟨l.set i sl, ch, fl, m⟩ j =
      if j = i ∧ i < l.length then sl.record else d.recordAt j := by
  unfold Dtu.recordAt
  simp only [hl, List.getElem?_set]
  by_cases h : i = j
  · subst h
    by_cases hi : i < l.length
    · simp [hi]
    · simp [hi]
  · simp [h, Ne.symm h]

/-- Reading an epoch after a slot has been replaced. -/
theorem epochAt_set (d : Dtu) (l : List Slot) (hl : d.slots = l) (i j : Nat) (sl : Slot) (ch : List (List Nat))
    (fl : List Nat) (m : Nat) : Dtu.epochAt ⟨l.set i sl, ch, fl, m⟩ j =
      if j = i ∧ i < l.length then sl.epoch else d.epochAt j := by
  unfold Dtu.epochAt
  simp only [hl, List.getElem?_set]
  by_cases h : i = j
  · subst h
    by_cases hi : i < l.length
    · simp [hi]
    · simp [hi]
  · simp [h, Ne.symm h]

theorem Dtu.recordAt_putRecord (d : Dtu) (i j : Nat) (r : Option DetectorRecord) :
    (d.putRecord i r).recordAt j = if j = i ∧ i < d.slots.length then r else d.recordAt j :=
  recordAt_set d d.slots rfl i j _ _ _ _

theorem Dtu.epochAt_putRecord (d : Dtu) (i j : Nat) (r : Option DetectorRecord) :
    (d.putRecord i r).epochAt j = d.epochAt j := by
  rw [show d.putRecord i r = ⟨d.slots.set i ⟨d.epochAt i, r⟩, d.chains, d.freeList, d.maxChain⟩ from rfl,
    epochAt_set d d.slots rfl]
  split
  · next h => rw [h.1]
  · rfl

theorem Dtu.recordAt_join (d : Dtu) (b i j : Nat) (rest : List Nat) (r : DetectorRecord) :
    (d.join b i rest r).recordAt j = if j = i ∧ i < d.slots.length then some r else d.recordAt j :=
  recordAt_set d d.slots rfl i j _ _ _ _

theorem Dtu.recordAt_leave (d : Dtu) (b i j : Nat) :
    (d.leave b i).recordAt j = if j = i ∧ i < d.slots.length then none else d.recordAt j :=
  recordAt_set d d.slots rfl i j _ _ _ _

theorem Dtu.recordAt_move (d : Dtu) (b i n j : Nat) (rest : List Nat) (r : DetectorRecord) :
    (d.move b i n rest r).recordAt j =
      if j = n ∧ n < d.slots.length then some r
      else if j = i ∧ i < d.slots.length then none else d.recordAt j := by
  unfold Dtu.move
  rw [recordAt_set ⟨d.slots.set i ⟨d.epochAt i, none⟩, d.chains, d.freeList, d.maxChain⟩ _ rfl,
    recordAt_set d d.slots rfl]
  simp

theorem Dtu.recordAt_mapRecords (d : Dtu) (f : DetectorRecord → DetectorRecord) (j : Nat) :
    (d.mapRecords f).recordAt j = (d.recordAt j).map f := by
  unfold Dtu.mapRecords Dtu.recordAt
  simp only [List.getElem?_map]
  cases d.slots[j]? <;> simp

theorem Dtu.epochAt_mapRecords (d : Dtu) (f : DetectorRecord → DetectorRecord) (j : Nat) :
    (d.mapRecords f).epochAt j = d.epochAt j := by
  unfold Dtu.mapRecords Dtu.epochAt
  simp only [List.getElem?_map]
  cases d.slots[j]? <;> simp

theorem Dtu.mem_records {d : Dtu} {r : DetectorRecord} : r ∈ d.records ↔ ∃ i, d.recordAt i = some r := by
  unfold Dtu.records Dtu.recordAt
  rw [List.mem_filterMap]
  constructor
  · rintro ⟨sl, hm, hr⟩
    obtain ⟨i, hi⟩ := List.mem_iff_getElem?.mp hm
    exact ⟨i, by simp [hi, hr]⟩
  · rintro ⟨i, hi⟩
    cases hs : d.slots[i]? with
    | none => simp [hs] at hi
    | some sl => exact ⟨sl, List.mem_iff_getElem?.mpr ⟨i, hs⟩, by simpa [hs] using hi⟩

/-! ## Counting records -/

/-- The number of records that satisfy a property. -/
def Dtu.tally (d : Dtu) (p : DetectorRecord → Bool) : Nat := d.records.countP p

theorem Dtu.tally_eq (d : Dtu) (p : DetectorRecord → Bool) : d.tally p = d.slots.countP (fun sl => sl.record.any p) := by
  unfold Dtu.tally Dtu.records
  induction d.slots with
  | nil => rfl
  | cons sl l ih =>
    rw [List.countP_cons, ← ih]
    cases h : sl.record with
    | none => rw [List.filterMap_cons_none h]; simp
    | some r => rw [List.filterMap_cons_some h, List.countP_cons]; simp

/-- A slot replaced changes a tally by what the slot held and what it holds. -/
theorem tally_set (d : Dtu) (l : List Slot) (hl : d.slots = l) {i : Nat} (hi : i < l.length) (sl : Slot)
    (ch : List (List Nat)) (fl : List Nat) (m : Nat) (p : DetectorRecord → Bool) :
    Dtu.tally ⟨l.set i sl, ch, fl, m⟩ p + ((d.recordAt i).any p).toNat = d.tally p + (sl.record.any p).toNat := by
  rw [Dtu.tally_eq, Dtu.tally_eq, hl]
  dsimp only
  rw [List.countP_set hi]
  have hr : d.recordAt i = l[i].record := by
    unfold Dtu.recordAt; rw [hl, List.getElem?_eq_getElem hi]; rfl
  rw [hr]
  have hpos : l[i].record.any p = true → 0 < l.countP (fun sl => sl.record.any p) := by
    intro h; exact List.countP_pos_iff.mpr ⟨l[i], List.getElem_mem hi, h⟩
  cases h : l[i].record.any p <;> cases k : sl.record.any p <;> simp_all

theorem Dtu.tally_putRecord {d : Dtu} {i : Nat} {r : DetectorRecord} (h : d.recordAt i = some r) (q : DetectorRecord)
    (p : DetectorRecord → Bool) : (d.putRecord i (some q)).tally p + (p r).toNat = d.tally p + (p q).toNat := by
  have := tally_set d d.slots rfl (Dtu.recordAt_lt h) ⟨d.epochAt i, some q⟩ d.chains d.freeList d.maxChain p
  rw [h] at this
  exact this

theorem Dtu.tally_join {d : Dtu} {i : Nat} (hi : i < d.slots.length) (h : d.recordAt i = none) (b : Nat)
    (rest : List Nat) (q : DetectorRecord) (p : DetectorRecord → Bool) :
    (d.join b i rest q).tally p = d.tally p + (p q).toNat := by
  have := tally_set d d.slots rfl hi ⟨d.epochAt i + 1, some q⟩ (d.join b i rest q).chains rest
    (d.join b i rest q).maxChain p
  rw [h] at this
  exact this

theorem Dtu.tally_leave {d : Dtu} {i : Nat} {r : DetectorRecord} (h : d.recordAt i = some r) (b : Nat)
    (p : DetectorRecord → Bool) : (d.leave b i).tally p + (p r).toNat = d.tally p := by
  have := tally_set d d.slots rfl (Dtu.recordAt_lt h) ⟨d.epochAt i, none⟩ (d.leave b i).chains (i :: d.freeList)
    d.maxChain p
  rw [h] at this
  exact this

theorem Dtu.tally_move {d : Dtu} {i n : Nat} {r : DetectorRecord} (h : d.recordAt i = some r)
    (hn : n < d.slots.length) (h0 : d.recordAt n = none) (b : Nat) (rest : List Nat) (q : DetectorRecord)
    (p : DetectorRecord → Bool) : (d.move b i n rest q).tally p + (p r).toNat = d.tally p + (p q).toNat := by
  have hne : n ≠ i := by rintro rfl; rw [h] at h0; cases h0
  have h1 := tally_set d d.slots rfl (Dtu.recordAt_lt h) ⟨d.epochAt i, none⟩ d.chains d.freeList d.maxChain p
  have hr := recordAt_set d d.slots rfl i n ⟨d.epochAt i, none⟩ d.chains d.freeList d.maxChain
  rw [if_neg (by simp [hne])] at hr
  have h2 := tally_set ⟨d.slots.set i ⟨d.epochAt i, none⟩, d.chains, d.freeList, d.maxChain⟩ _ rfl
    (i := n) (by simpa using hn) ⟨d.epochAt n + 1, some q⟩ (d.move b i n rest q).chains (i :: rest) d.maxChain p
  rw [hr, h0] at h2
  rw [h] at h1
  have h3 : (d.move b i n rest q).tally p = Dtu.tally ⟨(d.slots.set i ⟨d.epochAt i, none⟩).set n
    ⟨d.epochAt n + 1, some q⟩, (d.move b i n rest q).chains, i :: rest, d.maxChain⟩ p := rfl
  simp only [Option.any_none, Option.any_some, Bool.toNat_false] at h1 h2
  omega

theorem Dtu.tally_mapRecords (d : Dtu) (f : DetectorRecord → DetectorRecord) (p : DetectorRecord → Bool) :
    (d.mapRecords f).tally p = d.tally (fun r => p (f r)) := by
  rw [Dtu.tally_eq, Dtu.tally_eq]
  unfold Dtu.mapRecords
  dsimp only
  rw [List.countP_map]
  congr 1
  funext sl
  cases h : sl.record <;> simp [h]

theorem Dtu.tally_none {d : Dtu} (h : ∀ i, d.recordAt i = none) (p : DetectorRecord → Bool) : d.tally p = 0 := by
  unfold Dtu.tally
  have : d.records = [] := by
    rw [List.eq_nil_iff_forall_not_mem]
    intro r hr
    obtain ⟨i, hi⟩ := Dtu.mem_records.mp hr
    rw [h i] at hi; cases hi
  rw [this]; rfl

theorem Dtu.recordAt_cleared (d : Dtu) (i : Nat) : d.cleared.recordAt i = none := by
  unfold Dtu.cleared Dtu.recordAt
  simp only [List.getElem?_map]
  cases d.slots[i]? <;> simp

theorem Dtu.epochAt_cleared (d : Dtu) (i : Nat) : d.cleared.epochAt i = d.epochAt i := by
  unfold Dtu.cleared Dtu.epochAt
  simp only [List.getElem?_map]
  cases d.slots[i]? <;> simp

theorem Dtu.recordAt_empty (t i : Nat) : (Dtu.empty t).recordAt i = none := by
  unfold Dtu.empty Dtu.recordAt
  simp only [List.getElem?_replicate]
  split <;> simp

/-! ## The free list (R7) -/

/-- The free list of a table of T indices holds exactly the free indices, each once. -/
def Dtu.FreeExact (d : Dtu) (size : Nat) : Prop :=
  d.slots.length = size ∧ d.freeList.Nodup ∧ ∀ i, i ∈ d.freeList ↔ i < size ∧ d.recordAt i = none

theorem Dtu.FreeExact.putRecord {d : Dtu} {size i : Nat} (h : d.FreeExact size) {r : DetectorRecord}
    (hi : d.recordAt i = some r) (q : DetectorRecord) : (d.putRecord i (some q)).FreeExact size := by
  refine ⟨by unfold Dtu.putRecord; simp [h.1], h.2.1, fun j => ?_⟩
  rw [Dtu.recordAt_putRecord]
  refine (h.2.2 j).trans ?_
  split
  · next hj => rw [hj.1, hi]; simp
  · exact Iff.rfl

theorem Dtu.FreeExact.join {d : Dtu} {size i : Nat} {rest : List Nat} (h : d.FreeExact size)
    (hf : d.freeList = i :: rest) (b : Nat) (q : DetectorRecord) : (d.join b i rest q).FreeExact size := by
  obtain ⟨h1, h2, h3⟩ := h
  have hi := (h3 i).mp (by rw [hf]; simp)
  rw [hf] at h2
  refine ⟨by unfold Dtu.join; simp [h1], (List.nodup_cons.mp h2).2, fun j => ?_⟩
  rw [Dtu.recordAt_join]
  show j ∈ rest ↔ _
  have hj := h3 j
  rw [hf, List.mem_cons] at hj
  split
  · next k => simp only [reduceCtorEq, and_false, iff_false]; rw [k.1]; exact (List.nodup_cons.mp h2).1
  · next k =>
    have : j ≠ i := fun e => k ⟨e, by omega⟩
    simpa [this] using hj

theorem Dtu.FreeExact.leave {d : Dtu} {size i : Nat} (h : d.FreeExact size) {r : DetectorRecord}
    (hi : d.recordAt i = some r) (b : Nat) : (d.leave b i).FreeExact size := by
  obtain ⟨h1, h2, h3⟩ := h
  have hlt := Dtu.recordAt_lt hi
  refine ⟨by unfold Dtu.leave; simp [h1], ?_, fun j => ?_⟩
  · refine List.nodup_cons.mpr ⟨fun hm => ?_, h2⟩
    rw [((h3 i).mp hm).2] at hi; cases hi
  · rw [Dtu.recordAt_leave]
    show j ∈ i :: d.freeList ↔ _
    rw [List.mem_cons, h3 j]
    split
    · next k => simp [k.1]; omega
    · next k =>
      have : j ≠ i := fun e => k ⟨e, hlt⟩
      simp [this]

theorem Dtu.FreeExact.move {d : Dtu} {size i n : Nat} {rest : List Nat} (h : d.FreeExact size)
    {r : DetectorRecord} (hi : d.recordAt i = some r) (hf : d.freeList = n :: rest) (b : Nat) (q : DetectorRecord) :
    (d.move b i n rest q).FreeExact size := by
  obtain ⟨h1, h2, h3⟩ := h
  have hlt := Dtu.recordAt_lt hi
  have hn := (h3 n).mp (by rw [hf]; simp)
  rw [hf] at h2
  refine ⟨by unfold Dtu.move; simp [h1], ?_, fun j => ?_⟩
  · refine List.nodup_cons.mpr ⟨fun hm => ?_, (List.nodup_cons.mp h2).2⟩
    rw [((h3 i).mp (by rw [hf]; exact List.mem_cons_of_mem _ hm)).2] at hi; cases hi
  · rw [Dtu.recordAt_move]
    show j ∈ i :: rest ↔ _
    have hj := h3 j
    rw [hf, List.mem_cons] at hj
    have hne : n ≠ i := by rintro rfl; rw [hn.2] at hi; cases hi
    by_cases k : j = n
    · subst k
      rw [if_pos ⟨rfl, by omega⟩]
      simp [hne, (List.nodup_cons.mp h2).1]
    · rw [if_neg (by simp [k])]
      by_cases l : j = i
      · subst l; simp [hlt]; omega
      · rw [if_neg (by simp [l])]; simpa [k, l] using hj

theorem Dtu.FreeExact.mapRecords {d : Dtu} {size : Nat} (h : d.FreeExact size) (f : DetectorRecord → DetectorRecord) :
    (d.mapRecords f).FreeExact size := by
  refine ⟨by unfold Dtu.mapRecords; simp [h.1], h.2.1, fun j => ?_⟩
  rw [Dtu.recordAt_mapRecords]
  refine (h.2.2 j).trans ?_
  simp

theorem Dtu.FreeExact.cleared {d : Dtu} {size : Nat} (h : d.slots.length = size) : d.cleared.FreeExact size := by
  refine ⟨by unfold Dtu.cleared; simp [h], List.nodup_range, fun j => ?_⟩
  rw [Dtu.recordAt_cleared]
  simp [Dtu.cleared, h]

theorem Dtu.FreeExact.empty (size : Nat) : (Dtu.empty size).FreeExact size := by
  refine ⟨by unfold Dtu.empty; simp, List.nodup_range, fun j => ?_⟩
  rw [Dtu.recordAt_empty]
  simp [Dtu.empty]

end Sys2Proof.Machine
end

