-- ==== Sys2Proof/Laws/Counts.lean ====
section
/-! SUPPORT. The raised counts of the zones and the missing count through a completion step: what they are beside the
record the step works on stays, and that record is counted as it stands. -/

namespace Sys2Proof.Machine

/-- What zone z counts for a record, its epoch given: 1 or 0 (R94). -/
def DetectorRecord.countedIn (r : DetectorRecord) (z : ZoneNo) (epoch : BitVec 8) : Bool :=
  decide (r.zone = z) && r.counted epoch

/-- The counts of a step's work: each zone's raised count is `others` and one more when it counts the granted record,
and the missing count likewise; the epochs and the record's zone stand. -/
structure Work.Tied (home : ZoneNo) (epochs : ZoneNo → BitVec 8) (others : ZoneNo → Nat) (missing : Nat) (w : Work) :
    Prop where
  homeIs : w.det.zone = home
  epochIs : ∀ z, (w.st.zone z).epoch = epochs z
  raisedIs : ∀ z, (w.st.zone z).raised = others z + (w.det.countedIn z (epochs z)).toNat
  missingIs : w.st.su.missing = missing + (w.det.presence == .missing).toNat
  quiet : w.det.enabled = false → w.det.level = .normal

variable {home : ZoneNo} {epochs : ZoneNo → BitVec 8} {others : ZoneNo → Nat} {missing : Nat}

/-- A stage that changes neither the zones, nor the missing count, nor what the counts read of the record. -/
theorem Work.Tied.same {w v : Work} (h : w.Tied home epochs others missing) (hz : v.st.zones = w.st.zones)
    (hm : v.st.su.missing = w.st.su.missing)
    (hd : v.det.zone = w.det.zone ∧ v.det.enabled = w.det.enabled ∧ v.det.test = w.det.test
      ∧ v.det.level = w.det.level ∧ v.det.levelEpoch = w.det.levelEpoch ∧ v.det.presence = w.det.presence) :
    v.Tied home epochs others missing := by
  obtain ⟨d1, d2, d3, d4, d5, d6⟩ := hd
  have hzone : ∀ z, v.st.zone z = w.st.zone z := by intro z; unfold State.zone; rw [hz]
  have hc : ∀ z e, v.det.countedIn z e = w.det.countedIn z e := by
    intro z e
    simp only [DetectorRecord.countedIn, DetectorRecord.counted, DetectorRecord.currentLevel, d1, d2, d3, d4, d5]
  exact ⟨d1.trans h.homeIs, fun z => by rw [hzone]; exact h.epochIs z, fun z => by rw [hzone, hc]; exact h.raisedIs z,
    by rw [hm, d6]; exact h.missingIs, by rw [d2, d4]; exact h.quiet⟩

theorem Work.Tied.raise {w : Work} (h : w.Tied home epochs others missing) (b : EventBody) :
    (w.raise b).Tied home epochs others missing :=
  h.same rfl rfl ⟨rfl, rfl, rfl, rfl, rfl, rfl⟩

/-- One zone's count follows the record's: a stage whose zone operation sets the home zone's count. -/
theorem Work.Tied.count {w v : Work} (h : w.Tied home epochs others missing)
    (hc : CountBecomes w.st v.st w.det.zone (others home + (v.det.countedIn home (epochs home)).toNat))
    (hm : v.st.su.missing = w.st.su.missing) (hz : v.det.zone = w.det.zone) (hp : v.det.presence = w.det.presence)
    (hq : v.det.enabled = false → v.det.level = .normal) : v.Tied home epochs others missing := by
  rw [h.homeIs] at hc
  refine ⟨hz.trans h.homeIs, fun z => (hc.2.2 z).trans (h.epochIs z), fun z => ?_, by rw [hm, hp]; exact h.missingIs, hq⟩
  by_cases k : z = home
  · rw [k]; exact hc.1
  · rw [hc.2.1 z k, h.raisedIs z]
    have e1 : w.det.countedIn z (epochs z) = false := by
      simp [DetectorRecord.countedIn, h.homeIs, Ne.symm k]
    have e2 : v.det.countedIn z (epochs z) = false := by
      simp [DetectorRecord.countedIn, hz.trans h.homeIs, Ne.symm k]
    rw [e1, e2]

theorem DetectorRecord.countedIn_home (r : DetectorRecord) (e : BitVec 8) : r.countedIn r.zone e = r.counted e := by
  simp [DetectorRecord.countedIn]

theorem DetectorRecord.counted_normal {r : DetectorRecord} (h : r.level = .normal) (e : BitVec 8) :
    r.counted e = false := by
  simp [DetectorRecord.counted, DetectorRecord.currentLevel, h]

theorem Work.Tied.supervise {w : Work} (h : w.Tied home epochs others missing) (f : RadioFrame) :
    (w.supervise f).Tied home epochs others missing := by
  have hb : ∀ (w : Work) low, w.Tied home epochs others missing →
      (w.checkBattery low).Tied home epochs others missing := by
    intro w low h; unfold Work.checkBattery; split
    · apply Work.Tied.raise; exact h.same rfl rfl ⟨rfl, rfl, rfl, rfl, rfl, rfl⟩
    · apply Work.Tied.raise; exact h.same rfl rfl ⟨rfl, rfl, rfl, rfl, rfl, rfl⟩
    · exact h
    · exact h
  have ht : ∀ (w : Work) o, w.Tied home epochs others missing →
      (w.checkTamper o).Tied home epochs others missing := by
    intro w o h; unfold Work.checkTamper; split
    · apply Work.Tied.raise; exact h.same rfl rfl ⟨rfl, rfl, rfl, rfl, rfl, rfl⟩
    · apply Work.Tied.raise; exact h.same rfl rfl ⟨rfl, rfl, rfl, rfl, rfl, rfl⟩
    · exact h
    · exact h
  have hp : w.refreshPresence.Tied home epochs others missing := by
    unfold Work.refreshPresence; dsimp only; split
    · next k =>
      apply Work.Tied.raise
      refine ⟨h.homeIs, h.epochIs, h.raisedIs, ?_, h.quiet⟩
      have := h.missingIs; rw [k] at this
      show w.st.su.missing - 1 = missing + 0
      rw [this]; simp
    · next k =>
      refine ⟨h.homeIs, h.epochIs, h.raisedIs, ?_, h.quiet⟩
      have := h.missingIs
      have e : (w.det.presence == .missing) = false := by simpa using k
      rw [e] at this; exact this
  unfold Work.supervise; split
  · exact ht _ _ (hb _ _ hp)
  · exact h.same rfl rfl ⟨rfl, rfl, rfl, rfl, rfl, rfl⟩

theorem Work.Tied.completeCommand {w : Work} (h : w.Tied home epochs others missing) (e : HeldEntry) :
    (w.completeCommand e).Tied home epochs others missing := by
  have hr := h.raisedIs home
  have he : (w.st.zone w.det.zone).epoch = epochs home := by rw [h.homeIs]; exact h.epochIs home
  have hch : w.det.countedIn home (epochs home) = w.det.counted (epochs home) := by
    rw [← h.homeIs]; exact w.det.countedIn_home _
  rw [hch] at hr
  have normal : ∀ v : Work, v.det.level = .normal → v.det.countedIn home (epochs home) = false := by
    intro v hv; simp [DetectorRecord.countedIn, DetectorRecord.counted_normal hv]
  unfold Work.completeCommand; dsimp only
  split
  · split
    · next k =>
      rw [he] at k
      refine h.count ?_ (congrArg Su.missing (State.zoneDecrement_frame _ _ _ _).su_eq) rfl rfl (fun _ => rfl)
      have := State.zoneDecrement_count w.st w.det.zone w.det.address (some w.det.kind)
      rw [normal _ (by rfl)]
      rw [show (w.st.zone w.det.zone).raised - 1 = others home + Bool.toNat false by
        rw [h.homeIs, hr, k]; simp] at this
      exact this
    · next k =>
      rw [he] at k
      refine h.count ?_ rfl rfl rfl (fun _ => rfl)
      rw [normal _ (by rfl)]
      refine ⟨?_, fun _ _ => rfl, fun _ => rfl⟩
      have k : w.det.counted (epochs home) = false := by simpa using k
      rw [k] at hr
      show (w.st.zone w.det.zone).raised = _
      rw [h.homeIs]; exact hr
  · split
    · next k =>
      refine h.count ?_ rfl rfl rfl (fun _ => rfl)
      rw [normal _ (by rfl)]
      refine ⟨?_, fun _ _ => rfl, fun _ => rfl⟩
      have k : w.det.counted (epochs home) = false := by simp [DetectorRecord.counted, k]
      rw [k] at hr
      show (w.st.zone w.det.zone).raised = _
      rw [h.homeIs]; exact hr
    · exact h
  · exact h.same rfl rfl ⟨rfl, rfl, rfl, rfl, rfl, rfl⟩
  · exact h
  · exact h

theorem Work.Tied.judgeEcho {w : Work} (h : w.Tied home epochs others missing) (d : Byte) :
    (w.judgeEcho d).Tied home epochs others missing := by
  unfold Work.judgeEcho; split
  · exact h
  · split
    · unfold Work.echoDone; dsimp only
      apply Work.Tied.completeCommand; apply Work.Tied.raise
      exact h.same rfl rfl ⟨rfl, rfl, rfl, rfl, rfl, rfl⟩
    · unfold Work.echoMissed; dsimp only; split
      · apply Work.Tied.raise; exact h.same rfl rfl ⟨rfl, rfl, rfl, rfl, rfl, rfl⟩
      · exact h.same rfl rfl ⟨rfl, rfl, rfl, rfl, rfl, rfl⟩

theorem Work.Tied.reportValue {w : Work} (h : w.Tied home epochs others missing) (q : SeqNo)
    (o : Option (ReportSet × Nat)) : (w.reportValue q o).Tied home epochs others missing := by
  unfold Work.reportValue; split
  · exact h
  · split
    · exact h.same rfl rfl ⟨rfl, rfl, rfl, rfl, rfl, rfl⟩
    · exact h

theorem Work.driftOf_keeps (w : Work) (o : Option (Nat × Nat)) : (w.driftOf o).st.zones = w.st.zones
    ∧ (w.driftOf o).st.su = w.st.su ∧ (w.driftOf o).det.zone = w.det.zone
    ∧ (w.driftOf o).det.enabled = w.det.enabled ∧ (w.driftOf o).det.test = w.det.test
    ∧ (w.driftOf o).det.level = w.det.level ∧ (w.driftOf o).det.levelEpoch = w.det.levelEpoch
    ∧ (w.driftOf o).det.presence = w.det.presence := by
  unfold Work.driftOf; split
  · exact ⟨rfl, rfl, rfl, rfl, rfl, rfl, rfl, rfl⟩
  · unfold Work.checkDrift; dsimp only; repeat' split
    all_goals exact ⟨rfl, rfl, rfl, rfl, rfl, rfl, rfl, rfl⟩

/-- A reading of an enabled record (R81, R94): the record is stamped with the zone's epoch and its new level, and the
zone's count follows. -/
theorem Work.Tied.applyReading {w : Work} (h : w.Tied home epochs others missing) (he : w.det.enabled = true)
    (q : SeqNo) (r : Reading) : (w.applyReading q r).Tied home epochs others missing := by
  have hep : (w.st.zone w.det.zone).epoch = epochs home := by rw [h.homeIs]; exact h.epochIs home
  unfold Work.applyReading; dsimp only
  rw [hep]
  refine Work.Tied.reportValue ?_ _ _
  generalize hb : w.det.currentLevel (epochs home) = before
  generalize hw1 : (({ st := w.st, det := { w.det with level := r.level, levelEpoch := epochs home } } : Work).driftOf
    r.drift) = v
  obtain ⟨k1, k2, k3, k4, k5, k6, k7, k8⟩ := Work.driftOf_keeps
    { st := w.st, det := { w.det with level := r.level, levelEpoch := epochs home } } r.drift
  rw [hw1] at k1 k2 k3 k4 k5 k6 k7 k8
  dsimp only at k1 k2 k3 k4 k5 k6 k7 k8
  have hr := h.raisedIs home
  rw [show w.det.countedIn home (epochs home) = w.det.counted (epochs home) by
    rw [← h.homeIs]; exact w.det.countedIn_home _] at hr
  have hw : w.det.counted (epochs home) = (!w.det.test && before != .normal) := by
    simp [DetectorRecord.counted, he, hb]
  have hv : v.det.countedIn home (epochs home) = (!w.det.test && r.level != .normal) := by
    rw [show v.det.countedIn home (epochs home) = v.det.counted (epochs home) by
      rw [← h.homeIs, ← k3]; exact v.det.countedIn_home _]
    simp [DetectorRecord.counted, DetectorRecord.currentLevel, k4, k5, k6, k7, he]
  rw [hw] at hr
  have hzone : ∀ z, v.st.zone z = w.st.zone z := by intro z; unfold State.zone; rw [k1]
  have finish : ∀ (u : Work), u.det = v.det → u.st.su = v.st.su →
      CountBecomes w.st u.st w.det.zone (others home + (!w.det.test && r.level != .normal).toNat) →
      u.Tied home epochs others missing := by
    intro u hd hs hcount
    refine h.count (v := u) ?_ (by rw [hs, k2]) (by rw [hd, k3]) (by rw [hd, k8]) (by rw [hd, k4, he]; simp)
    rw [hd, hv]; exact hcount
  unfold Work.handOn
  split
  · next hne =>
    unfold Work.transition; dsimp only
    have hcl : (v.st.closeContext .transition v.det.address).zones = v.st.zones := rfl
    split
    · next ht =>
      have ht : w.det.test = true := by rw [← k5]; exact ht
      refine finish _ rfl rfl ⟨?_, fun y _ => ?_, fun y => ?_⟩
      · rw [ht] at hr ⊢
        show (v.st.zone w.det.zone).raised = _
        rw [hzone, h.homeIs, hr]; simp
      · show (v.st.zone y).raised = _; rw [hzone]
      · show (v.st.zone y).epoch = _; rw [hzone]
    · next ht =>
      have ht : w.det.test = false := by rw [← k5]; simpa using ht
      refine finish _ rfl (State.zoneTransition_frame _ _ _ _ _ _).su_eq ?_
      have hc := State.zoneTransition_count
        ((({ st := v.st.closeContext .transition v.det.address, det := v.det } : Work).raise
          (.detectorState before r.level r.smoke r.other v.det.test)).st) v.det.zone v.det.address v.det.kind before
        r.level
      have hzz : ∀ z, ((({ st := v.st.closeContext .transition v.det.address, det := v.det } : Work).raise
          (.detectorState before r.level r.smoke r.other v.det.test)).st).zone z = w.st.zone z := hzone
      rw [k3] at hc ⊢
      refine ⟨hc.1.trans ?_, fun y hy => (hc.2.1 y hy).trans (by rw [hzz]), fun y => (hc.2.2 y).trans (by rw [hzz])⟩
      rw [hzz, h.homeIs, hr, ht]
      clear hc hzz finish hw hv hw1 hb
      have hne : r.level ≠ before := hne
      generalize r.level = after at *
      cases before <;> cases after <;> first | exact absurd rfl hne | rfl
  · next heq =>
    have heq : r.level = before := by simpa using heq
    split
    · refine finish _ rfl (State.zoneStaysAlarm_frame _ _ _ _).su_eq ?_
      have hc := State.zoneStaysAlarm_counts v.st v.det.zone v.det.address v.det.kind
      refine ⟨((hc _).1.trans ?_), fun y _ => (hc y).1.trans (by rw [hzone]), fun y => (hc y).2.trans (by rw [hzone])⟩
      rw [hzone, h.homeIs, hr, heq]
    · refine finish _ rfl rfl ⟨?_, fun y _ => by rw [hzone], fun y => by rw [hzone]⟩
      rw [hzone, h.homeIs, hr, heq]

theorem Work.Tied.level {w : Work} (h : w.Tied home epochs others missing) (q : SeqNo) (c : Content) :
    (w.level q c).Tied home epochs others missing := by
  unfold Work.level; split
  · next he =>
    split
    · exact h
    · exact h.applyReading he _ _
  · exact h

theorem Work.Tied.acknowledge {w : Work} (h : w.Tied home epochs others missing) (f : LaneFrame) :
    (w.acknowledge f).Tied home epochs others missing := by
  unfold Work.acknowledge; dsimp only
  refine h.same ?_ ?_ ⟨rfl, rfl, rfl, rfl, rfl, rfl⟩
  · exact (State.handAck_frame _ _ _ _ _ _).zones_eq
  · rw [(State.handAck_frame _ _ _ _ _ _).su_eq]; rfl

theorem Work.Tied.passed {w : Work} (h : w.Tied home epochs others missing) :
    w.passed.Tied home epochs others missing := by
  unfold Work.passed; dsimp only; split
  · apply Work.Tied.raise; exact h.same rfl rfl ⟨rfl, rfl, rfl, rfl, rfl, rfl⟩
  · exact h.same rfl rfl ⟨rfl, rfl, rfl, rfl, rfl, rfl⟩

theorem Work.Tied.weigh {w : Work} (h : w.Tied home epochs others missing) (p : Path) :
    (w.weigh p).Tied home epochs others missing := by
  unfold Work.weigh; dsimp only; repeat' split
  · apply Work.Tied.raise; exact h.same rfl rfl ⟨rfl, rfl, rfl, rfl, rfl, rfl⟩
  · exact h.same rfl rfl ⟨rfl, rfl, rfl, rfl, rfl, rfl⟩
  · apply Work.Tied.raise; exact h.same rfl rfl ⟨rfl, rfl, rfl, rfl, rfl, rfl⟩
  · exact h.same rfl rfl ⟨rfl, rfl, rfl, rfl, rfl, rfl⟩

theorem Work.Tied.checkPattern {w : Work} (h : w.Tied home epochs others missing) (c : Content) :
    (w.checkPattern c).Tied home epochs others missing := by
  unfold Work.checkPattern; split
  · unfold Work.sounderCheck; dsimp only; repeat' split
    · apply Work.Tied.raise; exact h.same rfl rfl ⟨rfl, rfl, rfl, rfl, rfl, rfl⟩
    · exact h.same rfl rfl ⟨rfl, rfl, rfl, rfl, rfl, rfl⟩
    · apply Work.Tied.raise; exact h.same rfl rfl ⟨rfl, rfl, rfl, rfl, rfl, rfl⟩
    · exact h.same rfl rfl ⟨rfl, rfl, rfl, rfl, rfl, rfl⟩
  all_goals exact h

theorem Work.Tied.handleNew {w : Work} (h : w.Tied home epochs others missing) (f : LaneFrame) :
    (w.handleNew f).Tied home epochs others missing := by
  unfold Work.handleNew; dsimp only
  refine Work.Tied.acknowledge ?_ _
  unfold Work.dispatch
  refine Work.Tied.checkPattern (Work.Tied.level (Work.Tied.judgeEcho (Work.Tied.supervise ?_ _) _) _ _) _
  have hwt : ((w.accept f).weigh f.path).Tied home epochs others missing := by
    apply Work.Tied.weigh; exact h.same rfl rfl ⟨rfl, rfl, rfl, rfl, rfl, rfl⟩
  unfold Work.countMismatch; split
  · exact hwt.same rfl rfl ⟨rfl, rfl, rfl, rfl, rfl, rfl⟩
  · exact hwt

theorem Work.Tied.handlePassing {w : Work} (h : w.Tied home epochs others missing) (f : LaneFrame) :
    (w.handlePassing f).Tied home epochs others missing := by
  have hp := h.passed
  unfold Work.handlePassing; split
  · exact hp.same rfl rfl ⟨rfl, rfl, rfl, rfl, rfl, rfl⟩
  · unfold Work.handleRepeat; dsimp only
    have hi : (({ w.passed with st := w.passed.st.countFiu fun c =>
        { c with repeated := inc32 c.repeated } } : Work).improvePath f.path).Tied home epochs others missing := by
      unfold Work.improvePath; split
      · exact hp.same rfl rfl ⟨rfl, rfl, rfl, rfl, rfl, rfl⟩
      · exact hp.same rfl rfl ⟨rfl, rfl, rfl, rfl, rfl, rfl⟩
    split
    · exact hi
    · exact hi.acknowledge _
  · exact hp.handleNew _

theorem Work.Tied.handleForged {w : Work} (h : w.Tied home epochs others missing) (f : LaneFrame) :
    (w.handleForged f).Tied home epochs others missing := by
  unfold Work.handleForged Work.forged; dsimp only; split
  · apply Work.Tied.raise; exact h.same rfl rfl ⟨rfl, rfl, rfl, rfl, rfl, rfl⟩
  · exact h.same rfl rfl ⟨rfl, rfl, rfl, rfl, rfl, rfl⟩

end Sys2Proof.Machine
end

