-- ==== Sys2Proof/Laws/Removal.lean ====
section
/-! SUPPORT. The counts of the records (free list, missing count, raised counts) through the operations on the table:
a record rewritten, a completion, a withdrawal, the removal of every record. -/

namespace Sys2Proof.Machine

/-- Whether the missing count counts a record (R131). -/
def DetectorRecord.isMissing (r : DetectorRecord) : Bool := r.presence == .missing

/-- The exact counts as tallies of the table. -/
theorem CountsExact.iff (s : State) : CountsExact s ↔
    s.dtu.FreeExact s.tableSize ∧ s.su.missing = s.dtu.tally DetectorRecord.isMissing
    ∧ (∀ z, (s.zone z).raised = s.dtu.tally (fun r => r.countedIn z (s.zone z).epoch))
    ∧ ∀ i r, s.dtu.recordAt i = some r → r.enabled = false → r.level = .normal := by
  unfold CountsExact FreeListExact MissingCountExact RaisedCountExact
  have : ∀ P : DetectorRecord → Prop,
      (∀ r ∈ s.dtu.records, P r) ↔ ∀ i r, s.dtu.recordAt i = some r → P r := by
    intro P
    constructor
    · intro h i r hi; exact h r (Dtu.mem_records.mpr ⟨i, hi⟩)
    · intro h r hr; obtain ⟨i, hi⟩ := Dtu.mem_records.mp hr; exact h i r hi
  rw [this]
  exact Iff.rfl

theorem CountsExact.same {s t : State} (h : CountsExact s) (hd : t.dtu = s.dtu) (hp : t.tableSize = s.tableSize)
    (hm : t.su.missing = s.su.missing) (hz : CountsKept s t) : CountsExact t := by
  rw [CountsExact.iff] at h ⊢
  obtain ⟨h1, h2, h3, h4⟩ := h
  refine ⟨by rw [hd, hp]; exact h1, by rw [hd, hm]; exact h2, ?_, by rw [hd]; exact h4⟩
  intro z
  rw [(hz z).1, (hz z).2, hd]; exact h3 z

/-- Equal zones keep the counts. -/
theorem CountsKept.of_zones {s t : State} (h : t.zones = s.zones) : CountsKept s t := by
  intro z; unfold State.zone; rw [h]; exact ⟨rfl, rfl⟩

/-- One record is rewritten, and the counts follow it. -/
theorem CountsExact.put {s : State} (h : CountsExact s) {i : Nat} {r : DetectorRecord} (hi : s.dtu.recordAt i = some r)
    (q : DetectorRecord) (t : State) (hd : t.dtu = s.dtu.putRecord i (some q)) (hp : t.tableSize = s.tableSize)
    (hm : t.su.missing + r.isMissing.toNat = s.su.missing + q.isMissing.toNat)
    (he : ∀ z, (t.zone z).epoch = (s.zone z).epoch)
    (hr : ∀ z, (t.zone z).raised + (r.countedIn z (s.zone z).epoch).toNat =
      (s.zone z).raised + (q.countedIn z (s.zone z).epoch).toNat)
    (hq : q.enabled = false → q.level = .normal) : CountsExact t := by
  rw [CountsExact.iff] at h ⊢
  obtain ⟨h1, h2, h3, h4⟩ := h
  refine ⟨by rw [hd, hp]; exact h1.putRecord hi q, ?_, ?_, ?_⟩
  · have := Dtu.tally_putRecord hi q DetectorRecord.isMissing
    rw [hd]; omega
  · intro z
    have := Dtu.tally_putRecord hi q (fun r => r.countedIn z (s.zone z).epoch)
    have := hr z; have := h3 z
    rw [hd, he]; omega
  · intro j x hx
    rw [hd, Dtu.recordAt_putRecord] at hx
    split at hx
    · cases hx; exact hq
    · exact h4 j x hx

theorem CountsExact.ge {s : State} (h : CountsExact s) {i : Nat} {r : DetectorRecord} (hi : s.dtu.recordAt i = some r) :
    r.isMissing.toNat ≤ s.su.missing
      ∧ ∀ z, (r.countedIn z (s.zone z).epoch).toNat ≤ (s.zone z).raised := by
  rw [CountsExact.iff] at h
  obtain ⟨h1, h2, h3, h4⟩ := h
  have pos : ∀ p : DetectorRecord → Bool, (p r).toNat ≤ s.dtu.tally p := by
    intro p
    cases hp : p r
    · simp
    · have h1 : 0 < s.dtu.tally p := List.countP_pos_iff.mpr ⟨r, Dtu.mem_records.mpr ⟨i, hi⟩, hp⟩
      simp only [Bool.toNat_true]; omega
  exact ⟨by rw [h2]; exact pos _, fun z => by rw [h3]; exact pos (fun r => r.countedIn z (s.zone z).epoch)⟩

/-- Work on a granted record keeps the counts exact when it keeps them tied. -/
theorem CountsExact.onRecord {s : State} (h : CountsExact s) {i : Nat} {r : DetectorRecord}
    (hi : s.dtu.recordAt i = some r) (g : Work → Work) (hst : Work.Stays g)
    (hg : ∀ home epochs others missing w, Work.Tied home epochs others missing w →
      Work.Tied home epochs others missing (g w)) :
    CountsExact (s.onRecord i r g) := by
  have hge := h.ge hi
  have hq : r.enabled = false → r.level = .normal := ((CountsExact.iff s).mp h).2.2.2 i r hi
  have tied : Work.Tied r.zone (fun z => (s.zone z).epoch)
      (fun z => (s.zone z).raised - (r.countedIn z (s.zone z).epoch).toNat) (s.su.missing - r.isMissing.toNat)
      ⟨s, r⟩ := by
    refine ⟨rfl, fun _ => rfl, ?_, ?_, hq⟩
    · intro z; have := hge.2 z; dsimp only; omega
    · have := hge.1; unfold DetectorRecord.isMissing at *; dsimp only; omega
  have t2 := hg _ _ _ _ _ tied
  have fr := hst ⟨s, r⟩
  unfold State.onRecord
  dsimp only
  generalize g ⟨s, r⟩ = w at *
  refine h.put hi w.det _ ?_ ?_ ?_ ?_ ?_ t2.quiet
  · show w.st.dtu.putRecord i (some w.det) = _; rw [fr.dtu_eq]
  · show w.st.tableSize = _; unfold State.tableSize; rw [fr.pages_eq]
  · have := t2.missingIs; have := hge.1
    show w.st.su.missing + _ = _
    unfold DetectorRecord.isMissing at *; omega
  · exact t2.epochIs
  · intro z
    have := t2.raisedIs z; have := hge.2 z
    show (w.st.zone z).raised + _ = _
    dsimp only at *
    omega

/-- A completion step keeps the counts exact (R53). -/
theorem CountsExact.decideFrame {s : State} (h : CountsExact s) (f : LaneFrame) (i : Nat) (e : BitVec 8) (p : Bool) :
    CountsExact (s.decideFrame f i e p) := by
  have conf : ∀ r, s.dtu.confirmed i e = some r → s.dtu.recordAt i = some r := by
    intro r hr; unfold Dtu.confirmed at hr; split at hr
    · exact hr
    · cases hr
  unfold State.decideFrame; split
  · exact h.same rfl rfl rfl (CountsKept.of_zones rfl)
  · next r hr =>
    exact h.onRecord (conf r hr) _ (Work.handleForged_stays f) (fun _ _ _ _ w hw => hw.handleForged f)
  · exact h.same rfl rfl rfl (CountsKept.of_zones rfl)
  · next r hr =>
    exact h.onRecord (conf r hr) _ (Work.handlePassing_stays f) (fun _ _ _ _ w hw => hw.handlePassing f)

/-- The notices of ZU and EVU lower the count of a record's zone if it was counted (R22) -/
theorem State.noticeZoneAndEvents_counts (s : State) (r : DetectorRecord) :
    (∀ z, ((s.noticeZoneAndEvents r).zone z).epoch = (s.zone z).epoch)
    ∧ ∀ z, ((s.noticeZoneAndEvents r).zone z).raised =
      (s.zone z).raised - (r.countedIn z (s.zone z).epoch).toNat := by
  unfold State.noticeZoneAndEvents
  dsimp only
  simp only [State.zone_closeContext]
  split
  · next hc =>
    have := State.zoneDecrement_count s r.zone r.address none
    refine ⟨this.2.2, ?_⟩
    intro z
    by_cases k : z = r.zone
    · subst k; rw [this.1, DetectorRecord.countedIn_home, hc]; rfl
    · rw [this.2.1 z k]; simp [DetectorRecord.countedIn, Ne.symm k]
  · next hc =>
    refine ⟨fun _ => rfl, ?_⟩
    intro z
    by_cases k : z = r.zone
    · subst k; rw [DetectorRecord.countedIn_home]; simp [hc]
    · simp [DetectorRecord.countedIn, Ne.symm k]

theorem State.uncountMissing_missing (s : State) (r : DetectorRecord) :
    (s.uncountMissing r).su.missing = s.su.missing - r.isMissing.toNat := by
  unfold State.uncountMissing DetectorRecord.isMissing; split
  · next h => simp [h]
  · next h =>
    have e : (r.presence == .missing) = false := by simpa using h
    rw [e]; rfl

theorem State.uncountMissing_zone (s : State) (r : DetectorRecord) (z : ZoneNo) :
    (s.uncountMissing r).zone z = s.zone z := by
  unfold State.uncountMissing; split <;> rfl

theorem State.uncountMissing_rest (s : State) (r : DetectorRecord) :
    (s.uncountMissing r).dtu = s.dtu ∧ (s.uncountMissing r).pages = s.pages := by
  unfold State.uncountMissing; split <;> exact ⟨rfl, rfl⟩

/-- The removal notices lower the count of a record's zone if it was counted, and nothing of SU (R22). -/
theorem State.removalNotices_counts (s : State) (r : DetectorRecord) :
    (∀ z, ((s.removalNotices r).zone z).epoch = (s.zone z).epoch)
    ∧ (∀ z, ((s.removalNotices r).zone z).raised = (s.zone z).raised - (r.countedIn z (s.zone z).epoch).toNat)
    ∧ (s.removalNotices r).su = s.su := by
  have h := State.noticeZoneAndEvents_counts s r
  have fr := State.withdrawHeld_frame (s.noticeZoneAndEvents r) r.address r.zone
  have hz : ∀ z, (s.removalNotices r).zone z = (s.noticeZoneAndEvents r).zone z := by
    intro z; unfold State.removalNotices State.zone; rw [fr.zones_eq]
  refine ⟨fun z => by rw [hz]; exact h.1 z, fun z => by rw [hz]; exact h.2 z, ?_⟩
  exact (State.removalNotices_frame s r).su_eq

/-- A withdrawal keeps the counts exact (R21). -/
theorem CountsExact.leave {s : State} (h : CountsExact s) {i : Nat} {r : DetectorRecord}
    (hi : s.dtu.recordAt i = some r) : CountsExact (s.withdrawRecord i r) := by
  have hge := h.ge hi
  rw [CountsExact.iff] at h ⊢
  obtain ⟨h1, h2, h3, h4⟩ := h
  unfold State.withdrawRecord
  generalize hb : s.bucketOf r.address = b
  generalize hs1 : ((s.setDtu (s.dtu.leave b i)).uncountMissing r) = s1
  have d1 : s1.dtu = s.dtu.leave b i := by rw [← hs1, (State.uncountMissing_rest _ _).1]; rfl
  have p1 : s1.pages = s.pages := by rw [← hs1, (State.uncountMissing_rest _ _).2]; rfl
  have z1 : ∀ z, s1.zone z = s.zone z := by intro z; rw [← hs1, State.uncountMissing_zone]; rfl
  have m1 : s1.su.missing = s.su.missing - r.isMissing.toNat := by rw [← hs1, State.uncountMissing_missing]; rfl
  have n := State.removalNotices_counts s1 r
  have fr := State.removalNotices_frame s1 r
  refine ⟨?_, ?_, ?_, ?_⟩
  · rw [fr.dtu_eq, d1]; unfold State.tableSize; rw [fr.pages_eq, p1]; exact h1.leave hi b
  · rw [n.2.2, m1, fr.dtu_eq, d1]
    have := Dtu.tally_leave hi b DetectorRecord.isMissing
    omega
  · intro z
    rw [n.1, n.2.1, fr.dtu_eq, d1, z1]
    have := Dtu.tally_leave hi b (fun r => r.countedIn z (s.zone z).epoch)
    have := h3 z; have := hge.2 z
    omega
  · intro j x hx
    rw [fr.dtu_eq, d1, Dtu.recordAt_leave] at hx
    split at hx
    · cases hx
    · exact h4 j x hx

/-- Removing a list of records lowers each count by what it counts of them (R24). -/
theorem State.removeAll_counts (l : List DetectorRecord) : ∀ s : State,
    (∀ z, ((l.foldl State.removeOne s).zone z).epoch = (s.zone z).epoch)
    ∧ (∀ z, ((l.foldl State.removeOne s).zone z).raised =
      (s.zone z).raised - l.countP (fun r => r.countedIn z (s.zone z).epoch))
    ∧ (l.foldl State.removeOne s).su.missing = s.su.missing - l.countP DetectorRecord.isMissing := by
  induction l with
  | nil => intro s; exact ⟨fun _ => rfl, fun _ => rfl, rfl⟩
  | cons r l ih =>
    intro s
    obtain ⟨i1, i2, i3⟩ := ih (s.removeOne r)
    have n := State.removalNotices_counts (s.uncountMissing r) r
    have e : ∀ z, ((s.removeOne r).zone z).epoch = (s.zone z).epoch := by
      intro z; unfold State.removeOne; rw [n.1, State.uncountMissing_zone]
    have ra : ∀ z, ((s.removeOne r).zone z).raised = (s.zone z).raised - (r.countedIn z (s.zone z).epoch).toNat := by
      intro z; unfold State.removeOne; rw [n.2.1, State.uncountMissing_zone]
    have mi : (s.removeOne r).su.missing = s.su.missing - r.isMissing.toNat := by
      unfold State.removeOne; rw [n.2.2, State.uncountMissing_missing]
    refine ⟨fun z => (i1 z).trans (e z), fun z => ?_, ?_⟩
    · rw [List.foldl_cons, i2, ra, e, List.countP_cons]
      cases r.countedIn z (s.zone z).epoch
      · simp
      · simp; omega
    · rw [List.foldl_cons, i3, mi, List.countP_cons]
      cases r.isMissing
      · simp
      · simp; omega

/-- The removal of every record leaves an empty table's counts (R2, R24). -/
theorem CountsExact.removeAll {s t : State} (h : CountsExact s) (hd : ∀ i, t.dtu.recordAt i = none)
    (hf : t.dtu.FreeExact t.tableSize) (hz : t.zones = s.removeAll.zones)
    (hm : t.su.missing = s.removeAll.su.missing) : CountsExact t := by
  rw [CountsExact.iff] at h ⊢
  obtain ⟨h1, h2, h3, h4⟩ := h
  have n := State.removeAll_counts s.dtu.records s
  refine ⟨hf, ?_, ?_, ?_⟩
  · rw [hm, Dtu.tally_none hd]
    have := n.2.2
    unfold State.removeAll; rw [this, h2]; unfold Dtu.tally; omega
  · intro z
    rw [Dtu.tally_none hd]
    have := n.2.1 z
    have e : t.zone z = s.removeAll.zone z := by unfold State.zone; rw [hz]
    rw [e]; unfold State.removeAll; rw [this, h3]; unfold Dtu.tally; omega
  · intro i r hi; rw [hd i] at hi; cases hi

end Sys2Proof.Machine
end

