-- ==== Sys2Proof/Laws/Chains.lean ====
section
/-! SUPPORT. The chains of the detector table: which operations keep each bucket's chain exactly the records of its
addresses, and that a lookup which finds nothing means that the address is not enrolled. -/

namespace Sys2Proof.Machine

/-! ## Reading a chain -/

/-- Reading a chain after one has been replaced. -/
theorem chainAt_set (l : List (List Nat)) (sl : List Slot) (fl : List Nat) (m b c : Nat) (chain : List Nat) :
    Dtu.chainAt ⟨sl, l.set b chain, fl, m⟩ c = if c = b ∧ b < l.length then chain else l.getD c [] := by
  unfold Dtu.chainAt
  simp only [List.getD_eq_getElem?_getD, List.getElem?_set]
  by_cases h : b = c
  · subst h
    by_cases hb : b < l.length
    · simp [hb]
    · simp [hb]
  · simp [h, Ne.symm h]

theorem bucketIndex_lt (a : Address) {buckets : Nat} (h : 0 < buckets) : bucketIndex a buckets < buckets :=
  Nat.mod_lt _ h

/-! ## The chains of a table -/

/-- The chains of a table under B buckets hold exactly the records, each in the bucket of its address, and no address is
in two records (R1, R5, R7). -/
structure Dtu.Chained (d : Dtu) (buckets : Nat) : Prop where
  count : d.chains.length = buckets
  nodup : ∀ b, (d.chainAt b).Nodup
  exact : ∀ b i, i ∈ d.chainAt b ↔ ∃ r, d.recordAt i = some r ∧ bucketIndex r.address buckets = b
  unique : ∀ i j r q, d.recordAt i = some r → d.recordAt j = some q → r.address = q.address → i = j

theorem ChainsExact.iff (s : State) : ChainsExact s ↔
    (s.tableSize = 256 ∨ s.tableSize = 512 ∨ s.tableSize = 1024) ∧ s.dtu.Chained s.buckets :=
  ⟨fun ⟨h, a, b, c, d⟩ => ⟨h, a, b, c, d⟩, fun ⟨h, a, b, c, d⟩ => ⟨h, a, b, c, d⟩⟩

theorem ChainsExact.buckets_pos {s : State} (h : ChainsExact s) : 0 < s.buckets := by
  rcases h.1 with h | h | h <;> (unfold State.buckets; omega)

/-- An operation that keeps the chains, and every record's place and address, keeps the chains exact. -/
theorem Dtu.Chained.same {d e : Dtu} {buckets : Nat} (h : d.Chained buckets) (hc : e.chains = d.chains)
    (hr : ∀ i, (e.recordAt i).map DetectorRecord.address = (d.recordAt i).map DetectorRecord.address) :
    e.Chained buckets := by
  have hch : ∀ b, e.chainAt b = d.chainAt b := by intro b; unfold Dtu.chainAt; rw [hc]
  have fwd : ∀ i r, e.recordAt i = some r → ∃ q, d.recordAt i = some q ∧ q.address = r.address := by
    intro i r hi; have := hr i; rw [hi] at this; simpa using this.symm
  have bwd : ∀ i r, d.recordAt i = some r → ∃ q, e.recordAt i = some q ∧ q.address = r.address := by
    intro i r hi; have := hr i; rw [hi] at this; simpa using this
  refine ⟨by rw [hc]; exact h.count, fun b => by rw [hch]; exact h.nodup b, fun b i => ?_, ?_⟩
  · rw [hch, h.exact]
    constructor
    · rintro ⟨r, h1, h2⟩; obtain ⟨q, k1, k2⟩ := bwd i r h1; exact ⟨q, k1, by rw [k2]; exact h2⟩
    · rintro ⟨r, h1, h2⟩; obtain ⟨q, k1, k2⟩ := fwd i r h1; exact ⟨q, k1, by rw [k2]; exact h2⟩
  · intro i j r q h1 h2 h3
    obtain ⟨r', a1, a2⟩ := fwd i r h1
    obtain ⟨q', b1, b2⟩ := fwd j q h2
    exact h.unique i j r' q' a1 b1 (by rw [a2, b2]; exact h3)

/-- A record rewritten with its address kept. -/
theorem Dtu.Chained.putRecord {d : Dtu} {buckets i : Nat} (h : d.Chained buckets) {r q : DetectorRecord}
    (hi : d.recordAt i = some r) (ha : q.address = r.address) : (d.putRecord i (some q)).Chained buckets := by
  refine h.same rfl fun j => ?_
  rw [Dtu.recordAt_putRecord]
  split
  · next k => rw [k.1, hi]; simp [ha]
  · rfl

/-- Every record rewritten with its address kept (R14, R93, R129). -/
theorem Dtu.Chained.mapRecords {d : Dtu} {buckets : Nat} (h : d.Chained buckets) {f : DetectorRecord → DetectorRecord}
    (ha : ∀ r, (f r).address = r.address) : (d.mapRecords f).Chained buckets := by
  refine h.same rfl fun j => ?_
  rw [Dtu.recordAt_mapRecords]
  cases d.recordAt j <;> simp [ha]

/-- A record of a new address joins its bucket's chain (R16). -/
theorem Dtu.Chained.join {d : Dtu} {buckets i : Nat} (h : d.Chained buckets) (hb : 0 < buckets)
    (hi : i < d.slots.length) (h0 : d.recordAt i = none) (rest : List Nat) (q : DetectorRecord)
    (hn : ∀ j r, d.recordAt j = some r → r.address ≠ q.address) :
    (d.join (bucketIndex q.address buckets) i rest q).Chained buckets := by
  have hlt := bucketIndex_lt q.address hb
  have fresh : ∀ b, i ∉ d.chainAt b := by
    intro b hm; obtain ⟨r, hr, _⟩ := (h.exact b i).mp hm; rw [h0] at hr; cases hr
  have hch : ∀ b, (d.join (bucketIndex q.address buckets) i rest q).chainAt b =
      if b = bucketIndex q.address buckets then d.chainAt b ++ [i] else d.chainAt b := by
    intro b
    unfold Dtu.join
    rw [chainAt_set, h.count]
    simp only [hlt, and_true]
    split
    · next k => rw [k]
    · rfl
  refine ⟨by unfold Dtu.join; simp [h.count], fun b => ?_, fun b j => ?_, ?_⟩
  · rw [hch]; split
    · exact List.nodup_append.mpr ⟨h.nodup b, by simp, by
        intro x hx y hy; rw [List.mem_singleton] at hy; subst hy; rintro rfl; exact fresh b hx⟩
    · exact h.nodup b
  · rw [hch, Dtu.recordAt_join]
    by_cases hj : j = i
    · subst hj
      simp only [hi, and_self, if_true, Option.some.injEq, exists_eq_left']
      by_cases k : b = bucketIndex q.address buckets
      · simp [k]
      · simp [k, fresh b, Ne.symm k]
    · simp only [hj, false_and, if_false]
      rw [← h.exact b j]
      split
      · simp [hj]
      · rfl
  · intro j k r x hj hk ha
    rw [Dtu.recordAt_join] at hj hk
    by_cases e1 : j = i
    · by_cases e2 : k = i
      · rw [e1, e2]
      · rw [if_pos ⟨e1, hi⟩] at hj
        rw [if_neg (by simp [e2])] at hk
        cases hj; exact absurd ha.symm (hn k x hk)
    · rw [if_neg (by simp [e1])] at hj
      by_cases e2 : k = i
      · rw [if_pos ⟨e2, hi⟩] at hk
        cases hk; exact absurd ha (hn j r hj)
      · rw [if_neg (by simp [e2])] at hk
        exact h.unique j k r x hj hk ha

/-- A record leaves its bucket's chain (R21). -/
theorem Dtu.Chained.leave {d : Dtu} {buckets i : Nat} (h : d.Chained buckets) (hb : 0 < buckets) {r : DetectorRecord}
    (hi : d.recordAt i = some r) : (d.leave (bucketIndex r.address buckets) i).Chained buckets := by
  have hlt := bucketIndex_lt r.address hb
  have hin := Dtu.recordAt_lt hi
  have hch : ∀ b, (d.leave (bucketIndex r.address buckets) i).chainAt b = (d.chainAt b).filter (fun j => j != i) := by
    intro b
    unfold Dtu.leave
    rw [chainAt_set, h.count]
    simp only [hlt, and_true]
    split
    · next k => rw [k]
    · next k =>
      refine (List.filter_eq_self.mpr ?_).symm
      intro j hj
      simp only [bne_iff_ne, ne_eq]
      rintro rfl
      obtain ⟨q, hq, hb'⟩ := (h.exact b j).mp hj
      rw [hi] at hq; cases hq
      exact k hb'.symm
  refine ⟨by unfold Dtu.leave; simp [h.count], fun b => ?_, fun b j => ?_, ?_⟩
  · rw [hch]; exact (h.nodup b).filter _
  · rw [hch, List.mem_filter, h.exact, Dtu.recordAt_leave]
    by_cases hj : j = i
    · simp [hj, hin]
    · simp [hj]
  · intro j k x y hj hk
    rw [Dtu.recordAt_leave] at hj hk
    split at hj
    · cases hj
    · split at hk
      · cases hk
      · exact h.unique j k x y hj hk

/-- A record moves to a free index at its place in its chain (R19). -/
theorem Dtu.Chained.move {d : Dtu} {buckets i n : Nat} (h : d.Chained buckets) (hb : 0 < buckets) {r q : DetectorRecord}
    (hi : d.recordAt i = some r) (hn : n < d.slots.length) (h0 : d.recordAt n = none) (ha : q.address = r.address)
    (rest : List Nat) : (d.move (bucketIndex q.address buckets) i n rest q).Chained buckets := by
  have hlt := bucketIndex_lt q.address hb
  have hin := Dtu.recordAt_lt hi
  have hne : n ≠ i := by rintro rfl; rw [hi] at h0; cases h0
  have fresh : ∀ b, n ∉ d.chainAt b := by
    intro b hm; obtain ⟨x, hx, _⟩ := (h.exact b n).mp hm; rw [h0] at hx; cases hx
  have hch : ∀ b, (d.move (bucketIndex q.address buckets) i n rest q).chainAt b =
      (d.chainAt b).map (fun j => if j = i then n else j) := by
    intro b
    unfold Dtu.move
    rw [chainAt_set, h.count]
    simp only [hlt, and_true]
    split
    · next k => rw [k]
    · next k =>
      symm
      calc (d.chainAt b).map (fun j => if j = i then n else j) = (d.chainAt b).map id := by
            refine List.map_congr_left ?_
            intro j hj
            have : j ≠ i := by
              rintro rfl
              obtain ⟨x, hx, hb'⟩ := (h.exact b j).mp hj
              rw [hi] at hx; cases hx
              exact k (by rw [← hb', ha])
            simp [this]
        _ = d.chainAt b := List.map_id _
  have recs : ∀ j, (d.move (bucketIndex q.address buckets) i n rest q).recordAt j =
      if j = n then some q else if j = i then none else d.recordAt j := by
    intro j; rw [Dtu.recordAt_move]; simp [hn, hin]
  refine ⟨by unfold Dtu.move; simp [h.count], fun b => ?_, fun b j => ?_, ?_⟩
  · rw [hch]
    refine (List.nodup_map_iff_inj_on (h.nodup b)).mpr ?_
    intro x hx y hy hxy
    have nx : x ≠ n := by rintro rfl; exact fresh b hx
    have ny : y ≠ n := by rintro rfl; exact fresh b hy
    by_cases e1 : x = i <;> by_cases e2 : y = i
    · rw [e1, e2]
    · rw [if_pos e1, if_neg e2] at hxy; exact absurd hxy.symm ny
    · rw [if_neg e1, if_pos e2] at hxy; exact absurd hxy nx
    · rw [if_neg e1, if_neg e2] at hxy; exact hxy
  · rw [hch, recs, List.mem_map]
    by_cases e1 : j = n
    · subst e1
      rw [if_pos rfl]
      constructor
      · rintro ⟨x, hx, hxj⟩
        by_cases e2 : x = i
        · subst e2
          obtain ⟨y, hy, hb'⟩ := (h.exact b x).mp hx
          rw [hi] at hy; cases hy
          exact ⟨q, rfl, by rw [ha]; exact hb'⟩
        · rw [if_neg e2] at hxj; subst hxj; exact absurd hx (fresh b)
      · rintro ⟨x, hx, hb'⟩
        cases hx
        exact ⟨i, (h.exact b i).mpr ⟨r, hi, by rw [← ha]; exact hb'⟩, by simp⟩
    · rw [if_neg e1]
      by_cases e2 : j = i
      · subst e2
        rw [if_pos rfl]
        constructor
        · rintro ⟨x, hx, hxj⟩
          by_cases e3 : x = j
          · rw [if_pos e3] at hxj; exact absurd hxj hne
          · rw [if_neg e3] at hxj; exact absurd hxj e3
        · rintro ⟨x, hx, _⟩; cases hx
      · rw [if_neg e2, ← h.exact b j]
        constructor
        · rintro ⟨x, hx, hxj⟩
          by_cases e3 : x = i
          · rw [if_pos e3] at hxj; exact absurd hxj.symm e1
          · rw [if_neg e3] at hxj; rw [← hxj]; exact hx
        · intro hj; exact ⟨j, hj, by simp [e2]⟩
  · intro j k x y hj hk hxy
    rw [recs] at hj hk
    by_cases e1 : j = n <;> by_cases e2 : k = n
    · rw [e1, e2]
    · rw [if_pos e1] at hj; rw [if_neg e2] at hk; cases hj
      split at hk
      · cases hk
      · next e3 => exact absurd (h.unique i k r y hi hk (by rw [← ha]; exact hxy)).symm e3
    · rw [if_neg e1] at hj; rw [if_pos e2] at hk; cases hk
      split at hj
      · cases hj
      · next e3 => exact absurd (h.unique j i x r hj hi (by rw [← ha]; exact hxy)) e3
    · rw [if_neg e1] at hj; rw [if_neg e2] at hk
      split at hj
      · cases hj
      · split at hk
        · cases hk
        · exact h.unique j k x y hj hk hxy

/-- A table with no record and no chained index. -/
theorem Dtu.Chained.none {d : Dtu} {buckets : Nat} (hc : d.chains.length = buckets) (he : ∀ l ∈ d.chains, l = [])
    (hr : ∀ i, d.recordAt i = none) : d.Chained buckets := by
  have hch : ∀ b, d.chainAt b = [] := by
    intro b
    unfold Dtu.chainAt
    rw [List.getD_eq_getElem?_getD]
    cases h : d.chains[b]? with
    | none => rfl
    | some l => exact he l (List.mem_of_getElem? h)
  refine ⟨hc, fun b => by rw [hch]; exact List.nodup_nil, fun b i => ?_, fun i j r q h => ?_⟩
  · rw [hch, hr]; simp
  · rw [hr] at h; cases h

/-- The table emptied (R24). -/
theorem Dtu.Chained.cleared {d : Dtu} {buckets : Nat} (h : d.Chained buckets) : d.cleared.Chained buckets :=
  .none (by unfold Dtu.cleared; simp [h.count]) (by unfold Dtu.cleared; simp) d.recordAt_cleared

/-- An empty table of T records has T / 4 buckets (R1, R2). -/
theorem Dtu.Chained.empty (size : Nat) : (Dtu.empty size).Chained (size / 4) :=
  .none (by unfold Dtu.empty; simp) (by unfold Dtu.empty; simp) (Dtu.recordAt_empty size)

/-! ## Lookups -/

/-- A walk that finds nothing has met no record of the address (R6). -/
theorem Dtu.walk_none {d : Dtu} {a : Address} : ∀ (l : List Nat) (p : Nat) (b : Option Nat), d.walk a p b l = none →
    ∀ i ∈ l, ∀ r, d.recordAt i = some r → r.address ≠ a := by
  intro l
  induction l with
  | nil => intro p b _ i hi; cases hi
  | cons j l ih =>
    intro p b h i hi r hr
    unfold Dtu.walk at h
    split at h
    · cases h
    · next hj =>
      rcases List.mem_cons.mp hi with rfl | hi
      · rw [hr] at hj; simpa using hj
      · exact ih _ _ h i hi r hr

/-- A walk's find is a member of the chain that holds a record of the address (R6). -/
theorem Dtu.walk_some {d : Dtu} {a : Address} : ∀ (l : List Nat) (p : Nat) (b : Option Nat) (x : Lookup),
    d.walk a p b l = some x → x.index ∈ l ∧ ∃ r, d.recordAt x.index = some r ∧ r.address = a := by
  intro l
  induction l with
  | nil => intro p b x h; cases h
  | cons j l ih =>
    intro p b x h
    unfold Dtu.walk at h
    split at h
    · next hj =>
      cases h
      refine ⟨List.mem_cons_self, ?_⟩
      cases hr : d.recordAt j with
      | none => rw [hr] at hj; cases hj
      | some r => exact ⟨r, rfl, by rw [hr] at hj; simpa using hj⟩
    · obtain ⟨h1, h2⟩ := ih _ _ _ h
      exact ⟨List.mem_cons_of_mem _ h1, h2⟩

/-- With the chains exact, a lookup that finds no record means that no record has the address (R6). -/
theorem ChainsExact.absent {s : State} (h : ChainsExact s) {a : Address} (hf : s.findRecord a = none) :
    ∀ i r, s.dtu.recordAt i = some r → r.address ≠ a := by
  have h := ((ChainsExact.iff s).mp h).2
  intro i r hr ha
  unfold State.findRecord at hf
  cases hl : s.lookup a with
  | none =>
    refine Dtu.walk_none _ _ _ hl i ?_ r hr ha
    exact (h.exact _ i).mpr ⟨r, hr, by rw [ha]; rfl⟩
  | some x =>
    obtain ⟨_, q, hq, _⟩ := Dtu.walk_some _ _ _ _ hl
    rw [hl] at hf; simp [hq] at hf

/-! ## The part's operations -/

/-- An operation that leaves the table and the split as they stand. -/
theorem ChainsExact.same {s t : State} (h : ChainsExact s) (hd : t.dtu = s.dtu)
    (hp : t.pages.memory = s.pages.memory) : ChainsExact t := by
  rw [ChainsExact.iff] at h ⊢
  unfold State.buckets State.tableSize at *
  rw [hd, hp]; exact h

/-- An operation that changes the table alone, under the same split. -/
theorem ChainsExact.table {s t : State} (h : ChainsExact s) (hp : t.pages.memory = s.pages.memory)
    (hd : s.dtu.Chained s.buckets → t.dtu.Chained s.buckets) : ChainsExact t := by
  rw [ChainsExact.iff] at h ⊢
  unfold State.buckets State.tableSize at *
  rw [hp]; exact ⟨h.1, hd h.2⟩

/-- The stages of a completion keep the address of the record they work on. -/
def Work.KeepsAddress (f : Work → Work) : Prop := ∀ w, (f w).det.address = w.det.address

theorem Work.supervise_address (f : RadioFrame) : Work.KeepsAddress (fun w => w.supervise f) := by
  have hb : ∀ low, Work.KeepsAddress (fun w => w.checkBattery low) := by
    intro low w; dsimp only; unfold Work.checkBattery; split <;> rfl
  have ht : ∀ o, Work.KeepsAddress (fun w => w.checkTamper o) := by
    intro o w; dsimp only; unfold Work.checkTamper; split <;> rfl
  have hp : Work.KeepsAddress Work.refreshPresence := by
    intro w; unfold Work.refreshPresence; dsimp only; split <;> rfl
  intro w; dsimp only; unfold Work.supervise; split
  · exact (ht _ _).trans ((hb _ _).trans (hp w))
  · rfl

theorem Work.judgeEcho_address (d : Byte) : Work.KeepsAddress (fun w => w.judgeEcho d) := by
  have hc : ∀ e, Work.KeepsAddress (fun w => w.completeCommand e) := by
    intro e w; dsimp only; unfold Work.completeCommand; dsimp only; repeat' split
    all_goals rfl
  intro w; dsimp only; unfold Work.judgeEcho; split
  · rfl
  · split
    · unfold Work.echoDone; dsimp only; exact hc _ _
    · unfold Work.echoMissed; dsimp only; split <;> rfl

theorem Work.level_address (q : SeqNo) (c : Content) : Work.KeepsAddress (fun w => w.level q c) := by
  have hd : ∀ o, Work.KeepsAddress (fun w => w.driftOf o) := by
    intro o w; dsimp only; unfold Work.driftOf; split
    · rfl
    · unfold Work.checkDrift; dsimp only; repeat' split
      all_goals rfl
  have hh : ∀ b r, Work.KeepsAddress (fun w => w.handOn b r) := by
    intro b r w; dsimp only; unfold Work.handOn; repeat' split
    · unfold Work.transition; dsimp only; split <;> rfl
    · rfl
    · rfl
  have hr : ∀ o, Work.KeepsAddress (fun w => w.reportValue q o) := by
    intro o w; dsimp only; unfold Work.reportValue; repeat' split
    all_goals rfl
  intro w; dsimp only; unfold Work.level; repeat' split
  · rfl
  · unfold Work.applyReading; dsimp only
    exact (hr _ _).trans ((hh _ _ _).trans (hd _ _))
  · rfl

theorem Work.passed_address : Work.KeepsAddress Work.passed := by
  intro w; unfold Work.passed; dsimp only; split <;> rfl

theorem Work.handleNew_address (f : LaneFrame) : Work.KeepsAddress (fun w => w.handleNew f) := by
  have hw : ∀ p, Work.KeepsAddress (fun w => w.weigh p) := by
    intro p w; dsimp only; unfold Work.weigh; dsimp only; repeat' split
    all_goals rfl
  have hm : ∀ c, Work.KeepsAddress (fun w => w.countMismatch c) := by
    intro c w; dsimp only; unfold Work.countMismatch; split <;> rfl
  have hs : ∀ c, Work.KeepsAddress (fun w => w.checkPattern c) := by
    intro c w; dsimp only; unfold Work.checkPattern; split
    · unfold Work.sounderCheck; dsimp only; repeat' split
      all_goals rfl
    all_goals rfl
  intro w; dsimp only; unfold Work.handleNew Work.acknowledge Work.dispatch; dsimp only
  exact (hs _ _).trans ((Work.level_address _ _ _).trans ((Work.judgeEcho_address _ _).trans
    ((Work.supervise_address _ _).trans ((hm _ _).trans (hw _ _)))))

theorem Work.handlePassing_address (f : LaneFrame) : Work.KeepsAddress (fun w => w.handlePassing f) := by
  intro w; dsimp only; unfold Work.handlePassing
  have hp := Work.passed_address w
  split
  · exact hp
  · unfold Work.handleRepeat Work.improvePath; dsimp only
    repeat' split
    all_goals exact hp
  · exact (Work.handleNew_address f _).trans hp

theorem Work.handleForged_address (f : LaneFrame) : Work.KeepsAddress (fun w => w.handleForged f) := by
  intro w; dsimp only; unfold Work.handleForged Work.forged; dsimp only; split <;> rfl

/-- A completion step keeps the chains exact (R53). -/
theorem ChainsExact.decideFrame {s : State} (h : ChainsExact s) (f : LaneFrame) (i : Nat) (e : BitVec 8) (p : Bool) :
    ChainsExact (s.decideFrame f i e p) := by
  have on : ∀ r g, s.dtu.confirmed i e = some r → Work.Stays g → Work.KeepsAddress g →
      ChainsExact (s.onRecord i r g) := by
    intro r g hr hst ha
    have hi : s.dtu.recordAt i = some r := by
      unfold Dtu.confirmed at hr; split at hr
      · exact hr
      · cases hr
    have fr := hst ⟨s, r⟩
    have ad := ha ⟨s, r⟩
    unfold State.onRecord
    dsimp only
    generalize g ⟨s, r⟩ = w at *
    refine h.table (by show w.st.pages.memory = _; rw [fr.pages_eq]) fun hd => ?_
    show (w.st.dtu.putRecord i (some w.det)).Chained _
    rw [fr.dtu_eq]
    exact hd.putRecord hi ad
  unfold State.decideFrame; split
  · exact h.same rfl rfl
  · next r hr => exact on r _ hr (Work.handleForged_stays f) (Work.handleForged_address f)
  · exact h.same rfl rfl
  · next r hr => exact on r _ hr (Work.handlePassing_stays f) (Work.handlePassing_address f)

end Sys2Proof.Machine
end

