-- ==== Sys2Proof/Laws/Distinct.lean ====
section
/-! SUPPORT. The operations of the part keep its lists distinct: no two SENT entries of one target, no two group orders
of one scope, no two open contexts of one detector. -/

namespace Sys2Proof.Machine

/-! ## Operations that leave HCQ as it stands and open no context -/

/-- HCQ stands and no context has opened. -/
def Calm (s t : State) : Prop := t.hcq = s.hcq ∧ s.evu.Fewer t.evu

theorem Calm.refl (s : State) : Calm s s := ⟨rfl, Evu.Fewer.refl _⟩
theorem Calm.trans {s t u : State} (h : Calm s t) (k : Calm t u) : Calm s u := ⟨k.1.trans h.1, h.2.trans k.2⟩

theorem ListsDistinct.calm {s t : State} (h : ListsDistinct s) (k : Calm s t) : ListsDistinct t :=
  ⟨by rw [k.1]; exact h.1, h.2.fewer k.2⟩

/-- HCQ and the open contexts stand. -/
theorem Calm.of_eq {s t : State} (h : t.hcq = s.hcq) (k : t.evu.contexts = s.evu.contexts) : Calm s t :=
  ⟨h, .of_eq k⟩

theorem Calm.raise {s t : State} (h : Calm s t) (b : EventBody) (z : Option ZoneNo) (a : Option Address)
    (k : Option DetectorKind) : Calm s (t.raise b z a k) := ⟨h.1, h.2.trans (Evu.take_fewer _ _ _)⟩

theorem Calm.closeContexts {s t : State} (h : Calm s t) (c : CloseCause) : Calm s (t.closeContexts c) :=
  ⟨h.1, h.2.trans (Evu.closeAll_fewer _ _ _)⟩

theorem Calm.closeContext {s t : State} (h : Calm s t) (c : CloseCause) (a : Address) : Calm s (t.closeContext c a) :=
  ⟨h.1, h.2.trans (Evu.closeFor_fewer _ _ _ _)⟩

theorem ListsDistinct.raise {s : State} (h : ListsDistinct s) (b : EventBody) (z : Option ZoneNo) (a : Option Address)
    (k : Option DetectorKind) : ListsDistinct (s.raise b z a k) := h.calm (Calm.raise (Calm.refl _) _ _ _ _)

theorem ListsDistinct.modifyHead {s : State} (h : ListsDistinct s) (n : HeadNo) (f : Head → Head) :
    ListsDistinct (s.modifyHead n f) := h.calm (.of_eq rfl rfl)

theorem Calm.fold {α : Type} {f : State → α → State} (h : ∀ s x, Calm s (f s x)) (l : List α) (s : State) :
    Calm s (l.foldl f s) := foldl_rel Calm Calm.refl (fun _ _ _ => Calm.trans) f h l s

/-! ## Zones (section 5) -/

theorem State.zoneDecrement_calm (s : State) (z : ZoneNo) (a : Address) (k : Option DetectorKind) :
    Calm s (s.zoneDecrement z a k) := by
  unfold State.zoneDecrement; dsimp only; split
  · exact Calm.raise (.of_eq rfl rfl) _ _ _ _
  · exact .of_eq rfl rfl

theorem State.enterAlarm_calm (s : State) (z : ZoneNo) (a : Address) (k : DetectorKind) (c : AlarmCause)
    (p : Option ZoneNo) : Calm s (s.enterAlarm z a k c p) := by
  unfold State.enterAlarm; exact (Calm.closeContexts (.of_eq rfl rfl) _).raise _ _ _ _

theorem State.enterVerify_calm (s : State) (z : ZoneNo) (a : Address) (k : DetectorKind) :
    Calm s (s.enterVerify z a k) := by
  unfold State.enterVerify; exact Calm.raise (.of_eq rfl rfl) _ _ _ _

theorem State.zoneIntoAlarm_calm (s : State) (z : ZoneNo) (a : Address) (k : DetectorKind) :
    Calm s (s.zoneIntoAlarm z a k) := by
  unfold State.zoneIntoAlarm; dsimp only; repeat' split
  all_goals first
    | exact Calm.refl s
    | exact State.enterAlarm_calm _ _ _ _ _ _
    | exact State.enterVerify_calm _ _ _ _

theorem State.zoneTransition_calm (s : State) (z : ZoneNo) (a : Address) (k : DetectorKind) (b c : Level) :
    Calm s (s.zoneTransition z a k b c) := by
  have inc : Calm s (if b = .normal then s.zoneIncrement z else s) := by split <;> exact .of_eq rfl rfl
  unfold State.zoneTransition
  cases c
  · exact State.zoneDecrement_calm _ _ _ _
  · dsimp only
    generalize (if b = .normal then s.zoneIncrement z else s) = s1 at *
    split
    · exact inc.trans (Calm.raise (.of_eq rfl rfl) _ _ _ _)
    · exact inc
  · dsimp only
    generalize (if b = .normal then s.zoneIncrement z else s) = s1 at *
    split
    · refine inc.trans ((State.zoneIntoAlarm_calm _ _ _ _).trans (Calm.fold (fun s y => ?_) _ _))
      unfold State.confirmPartner; split
      · exact State.enterAlarm_calm _ _ _ _ _ _
      · exact Calm.refl s
    · exact inc

theorem State.zoneStaysAlarm_calm (s : State) (z : ZoneNo) (a : Address) (k : DetectorKind) :
    Calm s (s.zoneStaysAlarm z a k) := by
  unfold State.zoneStaysAlarm; dsimp only; split
  · exact State.enterAlarm_calm _ _ _ _ _ _
  · exact Calm.refl s

theorem State.lapseZone_calm (s : State) (z : ZoneNo) (c : LapseCause) : Calm s (s.lapseZone z c) := by
  unfold State.lapseZone; exact Calm.raise (.of_eq rfl rfl) _ _ _ _

theorem State.lapses_calm (s : State) (l : List ZoneNo) : Calm s (l.foldl State.lapseIfReached s) := by
  refine Calm.fold (fun s z => ?_) l s
  unfold State.lapseIfReached; split
  · exact State.lapseZone_calm _ _ _
  · exact Calm.refl s

theorem State.stopLapses_calm (s : State) (l : List ZoneNo) : Calm s (l.foldl State.lapseAtStop s) := by
  refine Calm.fold (fun s z => ?_) l s
  unfold State.lapseAtStop; split
  · exact State.lapseZone_calm _ _ _
  · exact Calm.refl s

/-! ## Heads and timers (sections 2, 6, 8) -/

theorem State.loseHead_calm (s : State) (h : HeadNo) : Calm s (s.loseHead h) := by
  unfold State.loseHead State.raiseHead; exact Calm.raise (.of_eq rfl rfl) _ _ _ _

theorem State.heartbeats_calm (s : State) (l : List HeadNo) : Calm s (l.foldl State.heartbeat s) := by
  refine Calm.fold (fun s h => ?_) l s
  unfold State.heartbeat; dsimp only; split
  · exact Calm.trans (.of_eq rfl rfl) (State.loseHead_calm _ _)
  · exact .of_eq rfl rfl

theorem State.takeStatus_calm (s : State) (h : HeadNo) (b : Nat) : Calm s (s.takeStatus h b) := by
  have jam : ∀ t : State, Calm t (t.jamCheck h b) := by
    intro t; unfold State.jamCheck State.raiseHead; dsimp only; repeat' split
    all_goals first
      | exact .of_eq rfl rfl
      | exact Calm.raise (.of_eq rfl rfl) _ _ _ _
  unfold State.takeStatus State.raiseHead; dsimp only
  refine Calm.trans ?_ (jam _)
  split
  · exact .of_eq rfl rfl
  · exact Calm.raise (.of_eq rfl rfl) _ _ _ _

theorem State.flushExpiry_calm (s : State) : Calm s s.flushExpiry :=
  (Calm.closeContexts (Calm.refl s) .flush).trans (.of_eq rfl rfl)

theorem State.summaryExpiry_calm (s : State) : Calm s s.summaryExpiry :=
  .of_eq rfl (s.evu.grantDue_kept).2

theorem State.takeDueSweep_calm (s : State) : Calm s s.takeDueSweep := by
  unfold State.takeDueSweep State.sweepExpiry; repeat' split
  all_goals exact .of_eq rfl rfl

theorem State.takeDueExpiries_calm (s : State) : Calm s s.takeDueExpiries := by
  unfold State.takeDueExpiries; dsimp only
  have h1 : Calm s (if s.takeDueSweep.evu.flushTimer = 0 then s.takeDueSweep.flushExpiry else s.takeDueSweep) := by
    refine s.takeDueSweep_calm.trans ?_
    split
    · exact State.flushExpiry_calm _
    · exact Calm.refl _
  generalize (if s.takeDueSweep.evu.flushTimer = 0 then s.takeDueSweep.flushExpiry else s.takeDueSweep) = t at *
  split
  · exact h1.trans t.summaryExpiry_calm
  · exact h1

/-! ## Notices to HCQ (sections 2, 7) -/

theorem ListsDistinct.notSent {s : State} (h : ListsDistinct s) (a : Address) (c : Option Attachment) :
    ListsDistinct (s.notSent a c) := by
  unfold State.notSent; split
  · exact h
  · exact ⟨h.1.notSent _ _, h.2⟩

/-- A fold of steps that keep the lists distinct. -/
theorem ListsDistinct.fold {α : Type} {f : State → α → State} (hf : ∀ s x, ListsDistinct s → ListsDistinct (f s x))
    (l : List α) {s : State} (h : ListsDistinct s) : ListsDistinct (l.foldl f s) :=
  foldl_rel (fun s t => ListsDistinct s → ListsDistinct t) (fun _ h => h) (fun _ _ _ f g h => g (f h)) f hf l s h

theorem ListsDistinct.tellsNotSent {s : State} (h : ListsDistinct s) (l : List (Address × Option Attachment)) :
    ListsDistinct (l.foldl State.tellNotSent s) := h.fold (fun _ _ k => k.notSent _ _) l

theorem ListsDistinct.handFrame {s : State} (h : ListsDistinct s) (n : HeadNo) (f : HeadFrame) :
    ListsDistinct (s.handFrame n f) := by
  unfold State.handFrame State.refuseFrame; split
  · exact h.calm (.of_eq rfl rfl)
  · exact ListsDistinct.tellsNotSent (h.modifyHead _ _) _

theorem ListsDistinct.lateAck {s : State} (h : ListsDistinct s) (n : HeadNo) (a : Address × Option Attachment) :
    ListsDistinct (State.lateAck n s a) := ListsDistinct.notSent (h.modifyHead _ _) _ _

theorem ListsDistinct.handAck {s : State} (h : ListsDistinct s) (n : HeadNo) (x : SlotStamp) (a : Address) (q : SeqNo)
    (c : Option Attachment) : ListsDistinct (s.handAck n x a q c) := by
  unfold State.handAck; split
  · exact h.handFrame _ _
  · exact h.lateAck _ _

theorem ListsDistinct.slotStart {s : State} (h : ListsDistinct s) : ListsDistinct s.slotStart := by
  have h1 : ListsDistinct (allHeads.foldl State.tuneHead (allHeads.foldl State.purgeAcks s)) := by
    refine ListsDistinct.fold (fun s n k => ?_) _ (ListsDistinct.fold (fun s n k => ?_) _ h)
    · unfold State.tuneHead; split
      · exact k.handFrame _ _
      · exact k
    · unfold State.purgeAcks
      exact ListsDistinct.fold (fun _ _ k => k.lateAck _ _) _ (k.calm (.of_eq rfl rfl))
  unfold State.slotStart; dsimp only; split
  · refine ListsDistinct.fold (fun s n k => ?_) _ h1
    unfold State.beaconHead; split
    · exact k.handFrame _ _
    · exact k
  · exact h1

theorem ListsDistinct.resetHead {s : State} (h : ListsDistinct s) (n : HeadNo) : ListsDistinct (s.resetHead n) := by
  unfold State.resetHead; dsimp only
  refine ListsDistinct.calm (ListsDistinct.tellsNotSent (h.calm ?_) _) (.of_eq rfl rfl)
  exact .of_eq rfl rfl

theorem ListsDistinct.emptyLanes {s : State} (h : ListsDistinct s) : ListsDistinct s.emptyLanes := by
  unfold State.emptyLanes
  refine ListsDistinct.fold (fun s n k => ?_) _ (h.calm (.of_eq rfl rfl))
  exact ListsDistinct.tellsNotSent (k.modifyHead _ _) _

theorem ListsDistinct.raiseExpired {s : State} (h : ListsDistinct s) (e : HeldEntry) :
    ListsDistinct (s.raiseExpired e) := by
  unfold State.raiseExpired
  refine ListsDistinct.raise ⟨?_, h.2⟩ _ _ _ _
  exact h.1.fewer (List.Sublist.refl _) rfl rfl

theorem ListsDistinct.dropEntry {s : State} (h : ListsDistinct s) (e : HeldEntry) : ListsDistinct (s.dropEntry e) :=
  ⟨h.1.fewer List.erase_sublist rfl rfl, h.2⟩

theorem ListsDistinct.expireHeld {s : State} (h : ListsDistinct s) : ListsDistinct s.expireHeld := by
  unfold State.expireHeld
  exact ListsDistinct.fold (fun _ e k => k.raiseExpired e) _ ⟨h.1.fewer List.filter_sublist rfl rfl, h.2⟩

theorem State.noticeZoneAndEvents_calm (s : State) (r : DetectorRecord) : Calm s (s.noticeZoneAndEvents r) := by
  unfold State.noticeZoneAndEvents; dsimp only
  refine Calm.closeContext ?_ _ _
  split
  · exact State.zoneDecrement_calm _ _ _ _
  · exact Calm.refl s

theorem ListsDistinct.removalNotices {s : State} (h : ListsDistinct s) (r : DetectorRecord) :
    ListsDistinct (s.removalNotices r) := by
  have h1 := h.calm (s.noticeZoneAndEvents_calm r)
  unfold State.removalNotices State.withdrawHeld
  refine ListsDistinct.fold (fun s e k => ?_) _ ⟨h1.1.fewer List.filter_sublist rfl rfl, h1.2⟩
  unfold State.raiseWithdrawn
  refine ListsDistinct.raise ⟨?_, k.2⟩ _ _ _ _
  exact k.1.fewer (List.Sublist.refl _) rfl rfl

theorem State.uncountMissing_calm (s : State) (r : DetectorRecord) : Calm s (s.uncountMissing r) := by
  unfold State.uncountMissing; split <;> exact .of_eq rfl rfl

theorem ListsDistinct.removeAll {s : State} (h : ListsDistinct s) : ListsDistinct s.removeAll :=
  h.fold (fun s r k => ListsDistinct.removalNotices (k.calm (s.uncountMissing_calm r)) r) _

/-- The lists stay distinct through a seconds tick (R118). -/
theorem ListsDistinct.tick {s : State} (h : ListsDistinct s) :
    ListsDistinct s.takeDueExpiries.advanceClock.deliverTick := by
  have h1 := h.calm s.takeDueExpiries_calm
  generalize s.takeDueExpiries = s1 at *
  have h2 : ListsDistinct s1.advanceClock := h1.calm (.of_eq rfl rfl)
  generalize s1.advanceClock = s2 at *
  have h3 := (h2.calm (State.heartbeats_calm s2 allHeads)).calm (State.lapses_calm _ allZones)
  unfold State.deliverTick
  generalize List.foldl State.lapseIfReached _ _ = s3 at *
  have h4 := h3.expireHeld
  generalize s3.expireHeld = s4 at *
  exact h4.calm (.of_eq rfl rfl)

/-- The lists stay distinct through STOP's effect (R178). -/
theorem ListsDistinct.shutDown {s : State} (h : ListsDistinct s) : ListsDistinct s.shutDown := by
  have h0 := h.calm s.takeDueSweep_calm
  unfold State.shutDown
  generalize s.takeDueSweep = s1 at *
  have h1 : ListsDistinct (State.abandonFrame { s1 with mode := .loading }) := by
    unfold State.abandonFrame; dsimp only
    split <;> exact h0.calm (.of_eq rfl rfl)
  generalize State.abandonFrame _ = s2 at *
  have h2 := h1.emptyLanes
  generalize s2.emptyLanes = s3 at *
  have h3 : ListsDistinct s3.stopTimers := h2.calm (.of_eq rfl rfl)
  generalize s3.stopTimers = s4 at *
  exact h3.calm ((Calm.closeContexts (Calm.refl s4) .stop).trans (State.stopLapses_calm _ allZones))

/-- The lists stay distinct through a completion step. -/
theorem ListsDistinct.closed : ClosedUnderCompletion ListsDistinct where
  raise _ _ _ _ _ _ h := h.raise _ _ _ _
  decrement _ _ _ _ h := h.calm (State.zoneDecrement_calm _ _ _ _)
  transition _ _ _ _ _ _ h := h.calm (State.zoneTransition_calm _ _ _ _ _ _)
  stays _ _ _ _ h := h.calm (State.zoneStaysAlarm_calm _ _ _ _)
  close _ _ _ h := h.calm (Calm.closeContext (Calm.refl _) _ _)
  report _ _ _ _ _ _ h := ⟨h.1, h.2.reported _ _ _ _ _ _⟩
  missing _ _ h := h.calm (.of_eq rfl rfl)
  counters _ _ h := h.calm (.of_eq rfl rfl)
  queue _ _ _ _ k h := ⟨k h.1, h.2⟩
  hand _ _ _ _ _ _ h := h.handAck _ _ _ _ _
  put _ _ _ h := h.calm (.of_eq rfl rfl)

end Sys2Proof.Machine
end

