-- ==== Sys2Proof/Laws/Heads.lean ====
section
/-! SUPPORT. What handing a frame to a transmit FIFO does to the heads, what the not-sent notices leave, and what a slot
start and an acknowledgement come to. -/

namespace Sys2Proof.Machine

theorem State.notSent_orders (s : State) (a : Address) (c : Option Attachment) :
    (s.notSent a c).hcq.orders = s.hcq.orders := by
  unfold State.notSent; split
  · rfl
  · unfold Hcq.notSent; dsimp only; split <;> rfl

theorem State.notSent_head (s : State) (a : Address) (c : Option Attachment) (k : HeadNo) :
    (s.notSent a c).head k = s.head k := by
  unfold State.notSent; split <;> rfl

/-- Telling HCQ of acknowledgements that were not sent changes no head and no group order (R139). -/
theorem State.tellsNotSent_keeps (l : List (Address × Option Attachment)) : ∀ s : State,
    (l.foldl State.tellNotSent s).hcq.orders = s.hcq.orders
      ∧ ∀ k, (l.foldl State.tellNotSent s).head k = s.head k := by
  induction l with
  | nil => exact fun s => ⟨rfl, fun _ => rfl⟩
  | cons x l ih =>
    intro s
    obtain ⟨h1, h2⟩ := ih (s.tellNotSent x)
    rw [List.foldl_cons]
    exact ⟨h1.trans (s.notSent_orders _ _), fun k => (h2 k).trans (s.notSent_head _ _ k)⟩

/-- With room in the FIFO a frame handed over joins its tail, and HCQ is not told of it (R44). -/
theorem State.handFrame_room (s : State) (h : HeadNo) (f : HeadFrame) (hl : (s.head h).txFifo.length < 16) :
    s.handFrame h f = s.modifyHead h fun v => { v with txFifo := v.txFifo ++ [f] } := by
  unfold State.handFrame Config.txDepth; rw [if_pos hl]

/-- Handing a frame to one head leaves every other head. -/
theorem State.handFrame_other (s : State) (h : HeadNo) (f : HeadFrame) (k : HeadNo) (hk : k ≠ h) :
    (s.handFrame h f).head k = s.head k := by
  unfold State.handFrame; split
  · rw [State.head_modifyHead, if_neg hk]
  · unfold State.refuseFrame; rw [(State.tellsNotSent_keeps _ _).2, State.head_modifyHead, if_neg hk]

/-- A transmit FIFO never grows past its depth (R44). -/
theorem State.handFrame_depth (s : State) (h : HeadNo) (f : HeadFrame) (k : HeadNo)
    (hs : (s.head k).txFifo.length ≤ 16) : ((s.handFrame h f).head k).txFifo.length ≤ 16 := by
  by_cases hk : k = h
  · subst hk
    unfold State.handFrame Config.txDepth; split
    · rw [State.head_modifyHead, if_pos rfl]; simp only [List.length_append, List.length_singleton]; omega
    · unfold State.refuseFrame
      rw [(State.tellsNotSent_keeps _ _).2, State.head_modifyHead, if_pos rfl]; exact hs
  · rw [State.handFrame_other s h f k hk]; exact hs

/-! ## Acknowledgements that were not sent (R46, R139) -/

theorem modifyFirst_map {α β : Type} (p : α → Bool) (f : α → α) (g : α → β) (h : ∀ x, g (f x) = g x) (l : List α) :
    (modifyFirst p f l).map g = l.map g := by
  induction l with
  | nil => rfl
  | cons x l ih => unfold modifyFirst; split <;> simp [h, ih]

/-- Telling HCQ one after another is `toldNotSent`. -/
theorem State.tellsNotSent_hcq (l : List (Address × Option Attachment)) : ∀ s : State,
    (l.foldl State.tellNotSent s).hcq = s.hcq.toldNotSent l := by
  induction l with
  | nil => exact fun s => rfl
  | cons x l ih =>
    intro s
    rw [List.foldl_cons, ih]
    obtain ⟨a, c⟩ := x
    cases c <;> rfl

theorem Hcq.toldNotSent_append (q : Hcq) (l m : List (Address × Option Attachment)) :
    q.toldNotSent (l ++ m) = (q.toldNotSent l).toldNotSent m := by
  unfold Hcq.toldNotSent; rw [List.foldl_append]

/-- The notices leave the group orders and the numbers of the entries, in order. -/
theorem Hcq.toldNotSent_keeps (l : List (Address × Option Attachment)) : ∀ q : Hcq,
    (q.toldNotSent l).orders = q.orders
      ∧ (q.toldNotSent l).entries.map HeldEntry.number = q.entries.map HeldEntry.number := by
  have one : ∀ (q : Hcq) (a : Address) (n : Byte), (q.notSent a n).orders = q.orders
      ∧ (q.notSent a n).entries.map HeldEntry.number = q.entries.map HeldEntry.number := by
    intro q a n
    unfold Hcq.notSent; split
    · refine ⟨rfl, modifyFirst_map _ _ _ ?_ _⟩
      exact fun _ => rfl
    · exact ⟨rfl, rfl⟩
  induction l with
  | nil => exact fun q => ⟨rfl, rfl⟩
  | cons x l ih =>
    intro q
    obtain ⟨a, c⟩ := x
    cases c with
    | none => exact ih q
    | some c => exact ⟨(ih _).1.trans (one q a c.number).1, (ih _).2.trans (one q a c.number).2⟩

/-! ## A slot start (R42, R43, R45) -/

theorem countedUp_inc (max n k : Nat) : countedUp max (min (n + 1) max) k = countedUp max n (k + 1) := by
  unfold countedUp; split
  · simp_all
  · simp only [Nat.add_eq_zero_iff, one_ne_zero, and_false, if_false]; omega

/-- Acknowledgements of one head discarded as late: counted, and HCQ told; nothing else of the heads changes. -/
theorem State.lateAcks (h : HeadNo) (l : List (Address × Option Attachment)) : ∀ s : State,
    (l.foldl (State.lateAck h) s).hcq = s.hcq.toldNotSent l
      ∧ ∀ k, (l.foldl (State.lateAck h) s).head k = if k = h then
          { s.head h with counters := { (s.head h).counters with
              late := countedUp 65535 (s.head h).counters.late l.length } }
        else s.head k := by
  induction l with
  | nil => exact fun s => ⟨rfl, fun k => by split <;> simp_all [countedUp]⟩
  | cons x l ih =>
    intro s
    rw [List.foldl_cons]
    obtain ⟨i1, i2⟩ := ih (State.lateAck h s x)
    have hh : ∀ k, (State.lateAck h s x).head k = if k = h then
        { s.head h with counters := { (s.head h).counters with late := inc16 (s.head h).counters.late } }
        else s.head k := by
      intro k
      unfold State.lateAck State.tellNotSent
      rw [State.notSent_head, State.head_modifyHead]
    refine ⟨?_, fun k => ?_⟩
    · rw [i1]; obtain ⟨a, c⟩ := x; cases c <;> rfl
    · rw [i2]
      split
      · rw [hh, if_pos rfl, List.length_cons, ← countedUp_inc]; rfl
      · next e => rw [hh, if_neg e]

/-- The purge of one head's waiting acknowledgements. -/
theorem State.purgeAcks_spec (s : State) (h : HeadNo) :
    (s.purgeAcks h).hcq = s.hcq.toldNotSent (acksOf (s.head h).txFifo)
      ∧ ∀ k, (s.purgeAcks h).head k = if k = h then
          { s.head h with
            txFifo := (s.head h).txFifo.filter (fun f => f.ack?.isNone),
            counters := { (s.head h).counters with
              late := countedUp 65535 (s.head h).counters.late (acksOf (s.head h).txFifo).length } }
        else s.head k := by
  unfold State.purgeAcks
  obtain ⟨h1, h2⟩ := State.lateAcks h (acksOf (s.head h).txFifo)
    (s.modifyHead h fun v => { v with txFifo := v.txFifo.filter (fun f => f.ack?.isNone) })
  refine ⟨h1, fun k => (h2 k).trans ?_⟩
  rw [State.head_modifyHead, State.head_modifyHead, if_pos rfl]
  split <;> rfl

/-- The purge of several different heads (R42 step 1). -/
theorem State.purges_spec (l : List HeadNo) : l.Nodup → ∀ s : State,
    (l.foldl State.purgeAcks s).hcq = s.hcq.toldNotSent (l.flatMap fun h => acksOf (s.head h).txFifo)
      ∧ ∀ k, (l.foldl State.purgeAcks s).head k = if k ∈ l then
          { s.head k with
            txFifo := (s.head k).txFifo.filter (fun f => f.ack?.isNone),
            counters := { (s.head k).counters with
              late := countedUp 65535 (s.head k).counters.late (acksOf (s.head k).txFifo).length } }
        else s.head k := by
  induction l with
  | nil => exact fun _ s => ⟨rfl, fun k => by simp⟩
  | cons x l ih =>
    intro hn s
    rw [List.nodup_cons] at hn
    obtain ⟨a1, a2⟩ := s.purgeAcks_spec x
    obtain ⟨i1, i2⟩ := ih hn.2 (s.purgeAcks x)
    rw [List.foldl_cons]
    have others : (l.flatMap fun h => acksOf ((s.purgeAcks x).head h).txFifo)
        = l.flatMap fun h => acksOf (s.head h).txFifo := by
      refine List.flatMap_congr fun y hy => ?_
      rw [a2, if_neg (by rintro rfl; exact hn.1 hy)]
    refine ⟨?_, fun k => ?_⟩
    · rw [i1, a1, others, List.flatMap_cons, Hcq.toldNotSent_append]
    · rw [i2, a2]
      by_cases e : k = x
      · subst e; simp [hn.1]
      · simp [e]

/-- An operation on one head at a time, done for each of a list of different heads, whose result for a head rests on that
head and on a part of the state that it keeps. -/
theorem foldl_heads {α : Type} (f : State → HeadNo → State) (part : State → α) (g : α → HeadNo → Head → Head)
    (hp : ∀ s h, part (f s h) = part s)
    (hf : ∀ s h k, (f s h).head k = if k = h then g (part s) h (s.head h) else s.head k) (l : List HeadNo) :
    l.Nodup → ∀ s, part (l.foldl f s) = part s
      ∧ ∀ k, (l.foldl f s).head k = if k ∈ l then g (part s) k (s.head k) else s.head k := by
  induction l with
  | nil => exact fun _ s => ⟨rfl, fun k => by simp⟩
  | cons h l ih =>
    intro hn s
    rw [List.nodup_cons] at hn
    obtain ⟨i1, i2⟩ := ih hn.2 (f s h)
    refine ⟨i1.trans (hp s h), fun k => ?_⟩
    rw [List.foldl_cons, i2, hf, hp]
    by_cases e : k = h
    · subst e; simp [hn.1]
    · simp [e]

/-- A frame that is no acknowledgement, handed to a head: it joins a FIFO with room, and a full one counts an overrun. -/
theorem State.handFrame_head (s : State) (h : HeadNo) {f : HeadFrame} (hf : f.ack? = none) :
    (s.handFrame h f).hcq = s.hcq ∧ ∀ k, (s.handFrame h f).head k = if k = h then
      (if (s.head h).txFifo.length < 16 then { s.head h with txFifo := (s.head h).txFifo ++ [f] }
       else { s.head h with counters := { (s.head h).counters with
          overrun := inc16 (s.head h).counters.overrun } })
    else s.head k := by
  have ha : acksOf [f] = [] := by simp [acksOf, hf]
  unfold State.handFrame Config.txDepth State.refuseFrame
  rw [ha]
  split
  · exact ⟨rfl, fun k => by rw [State.head_modifyHead]⟩
  · exact ⟨rfl, fun k => by rw [List.foldl_nil, State.head_modifyHead]⟩

/-! ## An acknowledgement (R44, R45, R138, R139) -/

/-- Changing the first element that a property holds of. -/
theorem modifyFirst_split {α : Type} (p : α → Bool) (f : α → α) (before : List α) (x : α) (after : List α)
    (hb : ∀ y ∈ before, p y = false) (hx : p x = true) :
    modifyFirst p f (before ++ x :: after) = before ++ f x :: after := by
  induction before with
  | nil => simp [modifyFirst, hx]
  | cons y l ih =>
    rw [List.cons_append, modifyFirst, hb y List.mem_cons_self]
    simp only [Bool.false_eq_true, if_false, List.cons_append]
    rw [ih fun y hy => hb y (List.mem_cons_of_mem _ hy)]

/-- The SENT entry of an address and number waits again (R139). -/
theorem Hcq.notSent_split {q : Hcq} {a : Address} {n : Byte} {before after : List HeldEntry} {x : HeldEntry}
    (hq : q.entries = before ++ x :: after) (hx : x.target = a ∧ x.state = .sent ∧ x.number = n)
    (hb : ∀ y ∈ before, ¬ (y.target = a ∧ y.state = .sent ∧ y.number = n)) :
    q.notSent a n = { q with
      entries := before ++ { x with state := .waiting } :: after,
      counters := { q.counters with reverted := min (q.counters.reverted + 1) 4294967295 } } := by
  have hxt : (x.sentTo a && x.number == n) = true := by simp [HeldEntry.sentTo, hx]
  have hbt : ∀ y ∈ before, (y.sentTo a && y.number == n) = false := by
    intro y hy
    rw [Bool.eq_false_iff]
    intro hc
    simp only [HeldEntry.sentTo, Bool.and_eq_true, beq_iff_eq] at hc
    exact hb y hy ⟨hc.1.1, hc.1.2, hc.2⟩
  have any : q.entries.any (fun e => e.sentTo a && e.number == n) = true := by
    rw [List.any_eq_true]; exact ⟨x, by simp [hq], hxt⟩
  unfold Hcq.notSent
  rw [if_pos any, hq, modifyFirst_split _ _ _ _ _ hbt hxt]
  rfl

/-- An entry found by its address and state splits the queue. -/
theorem Hcq.find_split {q : Hcq} {a : Address} {st : HeldState} {x : HeldEntry}
    (h : q.entries.find? (fun e => e.target == a && e.state == st) = some x) :
    ∃ before after, q.entries = before ++ x :: after ∧ x.target = a ∧ x.state = st
      ∧ ∀ y ∈ before, ¬ (y.target = a ∧ y.state = st) := by
  obtain ⟨h1, before, after, h2, h3⟩ := List.find?_eq_some_iff_append.mp h
  simp only [Bool.and_eq_true, beq_iff_eq] at h1
  refine ⟨before, after, h2, h1.1, h1.2, fun y hy hc => ?_⟩
  have := h3 y hy
  simp [hc.1, hc.2] at this

theorem Hcq.find_none {q : Hcq} {a : Address} {st : HeldState}
    (h : q.entries.find? (fun e => e.target == a && e.state == st) = none) :
    ∀ y ∈ q.entries, ¬ (y.target = a ∧ y.state = st) := by
  intro y hy hc
  have := List.find?_eq_none.mp h y hy
  simp [hc.1, hc.2] at this

/-- HCQ after an acknowledgement's attachment has turned out not to be sent (R139). -/
def Hcq.takenBack (q : Hcq) (a : Address) : Option Attachment → Hcq
  | none => q
  | some c => q.notSent a c.number

/-- What an acknowledgement to an address carries and leaves (R138, R139). -/
theorem Hcq.attach_spec (q : Hcq) (a : Address) :
    Attaches q a (q.attachment a) (q.attach a) ((q.attach a).takenBack a (q.attachment a)) := by
  cases hs : q.sentEntry a with
  | some x =>
    obtain ⟨before, after, hq, h1, h2, h3⟩ := Hcq.find_split (st := .sent) hs
    have ha : q.attach a = q := by unfold Hcq.attach; rw [hs]
    have hh : q.attachment a = some x.attachment := by unfold Hcq.attachment; rw [hs]
    refine .inl ⟨before, x, after, hq, h1, h2, h3, hh, ha, ?_⟩
    rw [ha, hh]
    exact Hcq.notSent_split hq ⟨h1, h2, rfl⟩ fun y hy hc => h3 y hy ⟨hc.1, hc.2.1⟩
  | none =>
    have hn := Hcq.find_none (st := .sent) hs
    cases hw : q.waitingEntry a with
    | none =>
      have ha : q.attach a = q := by unfold Hcq.attach; rw [hs, hw]
      have hh : q.attachment a = none := by unfold Hcq.attachment; rw [hs, hw]; rfl
      exact .inr (.inr ⟨hn, Hcq.find_none (st := .waiting) hw, hh, ha, by rw [ha, hh]; rfl⟩)
    | some x =>
      obtain ⟨before, after, hq, h1, h2, h3⟩ := Hcq.find_split (st := .waiting) hw
      have hh : q.attachment a = some x.attachment := by unfold Hcq.attachment; rw [hs, hw]; rfl
      have hxt : x.waitingFor a = true := by simp [HeldEntry.waitingFor, h1, h2]
      have hbt : ∀ y ∈ before, y.waitingFor a = false := by
        intro y hy
        rw [Bool.eq_false_iff]
        intro hc
        simp only [HeldEntry.waitingFor, Bool.and_eq_true, beq_iff_eq] at hc
        exact h3 y hy hc
      have ha : q.attach a = { q with
          entries := before ++ { x with state := .sent } :: after,
          counters := { q.counters with attached := min (q.counters.attached + 1) 4294967295 } } := by
        unfold Hcq.attach; rw [hs, hw]; dsimp only
        rw [hq, modifyFirst_split _ _ _ _ _ hbt hxt]; rfl
      refine .inr (.inl ⟨before, x, after, hq, h1, h2, hn, h3, hh, ha, ?_⟩)
      rw [ha, hh]
      have hx : ({ x with state := .waiting } : HeldEntry) = x := by rw [← h2]
      refine (Hcq.notSent_split (x := { x with state := .sent }) (before := before) (after := after) rfl ⟨h1, rfl, rfl⟩
        fun y hy hc => hn y (by rw [hq]; exact List.mem_append_left _ hy) ⟨hc.1, hc.2.1⟩).trans ?_
      dsimp only
      rw [hx, ← hq]

theorem SlotClock.stamp_eq (c : SlotClock) : c.stamp = BitVec.ofNat 16 (c.superframe.toNat * 8 + c.slot.toNat) := by
  apply BitVec.eq_of_toNat_eq
  simp [SlotClock.stamp]

/-- The acknowledgement of a frame takes the heads and HCQ to what `Acknowledged` says, and counts itself; nothing else of
the part changes (R66, R67, R138). -/
theorem Work.acknowledge_spec (w : Work) (f : LaneFrame) :
    Acknowledged w.st.hcq w.st (w.acknowledge f).st f w.det.address
      ∧ (w.acknowledge f).det = w.det
      ∧ (w.acknowledge f).st = { w.st with
          heads := (w.acknowledge f).st.heads, hcq := (w.acknowledge f).st.hcq,
          fiu := { w.st.fiu with counters :=
            { w.st.fiu.counters with acknowledgements := min (w.st.fiu.counters.acknowledgements + 1) 4294967295 } } } := by
  refine ⟨?_, rfl, ?_⟩
  · refine ⟨_, _, _, w.st.hcq.attach_spec w.det.address, ?_⟩
    unfold Work.acknowledge
    dsimp only
    generalize w.det.address = a
    generalize w.st.hcq.attachment a = held
    generalize w.st.hcq.attach a = q
    generalize hs : (State.countFiu { w.st with hcq := q } fun c =>
      { c with acknowledgements := inc32 c.acknowledgements }) = s
    have hq : s.hcq = q := by rw [← hs]; rfl
    have hc : s.clock = w.st.clock := by rw [← hs]; rfl
    have hh : ∀ k, s.head k = w.st.head k := by intro k; rw [← hs]; rfl
    have told : ∀ u : State, (u.tellNotSent (a, held)).hcq = u.hcq.takenBack a held := by
      intro u; cases held <;> rfl
    have current : s.clock.stamp = BitVec.ofNat 16 (w.st.clock.superframe.toNat * 8 + w.st.clock.slot.toNat) := by
      rw [hc, SlotClock.stamp_eq]
    unfold State.handAck
    refine ⟨fun hst hl => ?_, fun hst hl => ?_, fun hst => ?_⟩
    · rw [if_pos (hst.trans current.symm), State.handFrame_room _ _ _ (by rw [hh]; exact hl)]
      refine ⟨⟨?_, fun k hk => ?_⟩, hq⟩
      · rw [State.head_modifyHead, if_pos rfl, hh, hc]
      · rw [State.head_modifyHead, if_neg hk, hh]
    · rw [if_pos (hst.trans current.symm)]
      unfold State.handFrame Config.txDepth
      rw [if_neg (by rw [hh]; omega)]
      unfold State.refuseFrame
      have ha : acksOf [HeadFrame.ack a f.frame.sequence s.clock.superframe s.clock.slot held] = [(a, held)] := rfl
      rw [ha, List.foldl_cons, List.foldl_nil]
      refine ⟨⟨?_, fun k hk => ?_⟩, by rw [told]; exact congrArg (·.takenBack a held) hq⟩
      · unfold State.tellNotSent; rw [State.notSent_head, State.head_modifyHead, if_pos rfl, hh]; rfl
      · unfold State.tellNotSent; rw [State.notSent_head, State.head_modifyHead, if_neg hk, hh]
    · rw [if_neg fun h => hst (h.trans current)]
      unfold State.lateAck
      refine ⟨⟨?_, fun k hk => ?_⟩, by rw [told]; exact congrArg (·.takenBack a held) hq⟩
      · unfold State.tellNotSent; rw [State.notSent_head, State.head_modifyHead, if_pos rfl, hh]; rfl
      · unfold State.tellNotSent; rw [State.notSent_head, State.head_modifyHead, if_neg hk, hh]
  · unfold Work.acknowledge
    dsimp only
    exact State.handAck_frame _ _ _ _ _ _


/-- A slot start (R42, R43): at each head what waited stays but for its acknowledgements, counted as late with HCQ told;
then a head in UP is handed its TUNE and, at slot 0, the BEACON, and a full FIFO refuses and counts. -/
theorem State.slotStart_spec (s : State) :
    s.slotStart.hcq = s.hcq.toldNotSent (allHeads.flatMap fun h => acksOf (s.head h).txFifo)
      ∧ ∀ h : HeadNo,
        let v := s.head h
        let kept := v.txFifo.filter (fun f => f.ack?.isNone)
        let late := countedUp 65535 v.counters.late (acksOf v.txFifo).length
        let handed := [HeadFrame.tune (s.pages.air.channel h s.clock.slot) s.clock.superframe s.clock.slot]
          ++ (if s.clock.slot = 0 then [.beacon s.clock.superframe s.hcq.orders] else [])
        (v.link ≠ .up → s.slotStart.head h = { v with txFifo := kept, counters := { v.counters with late := late } })
        ∧ (v.link = .up → s.slotStart.head h = { v with
            txFifo := kept ++ handed.take (16 - kept.length),
            counters := { v.counters with
              late := late, overrun := countedUp 65535 v.counters.overrun (handed.length - (16 - kept.length)) } }) := by
  obtain ⟨p1, p2⟩ := State.purges_spec allHeads (List.nodup_finRange 4) s
  have hall : ∀ k : HeadNo, k ∈ allHeads := List.mem_finRange
  have hfr1 : OnlyHeads s (allHeads.foldl State.purgeAcks s) := by
    refine foldl_rel OnlyHeads OnlyHeads.refl (fun _ _ _ => OnlyHeads.trans) _ ?_ _ _
    exact fun s h => State.purgeAcks_frame s h
  generalize hs2 : allHeads.foldl State.purgeAcks s = s2 at *
  let part (u : State) : PageAir × SlotClock × Hcq := (u.pages.air, u.clock, u.hcq)
  let handTo (f : HeadFrame) (v : Head) : Head :=
    if v.txFifo.length < 16 then { v with txFifo := v.txFifo ++ [f] }
    else { v with counters := { v.counters with overrun := inc16 v.counters.overrun } }
  let tuneOf (p : PageAir × SlotClock × Hcq) (h : HeadNo) : HeadFrame :=
    .tune (p.1.channel h p.2.1.slot) p.2.1.superframe p.2.1.slot
  have tune := foldl_heads State.tuneHead part (fun p h v => if v.link = .up then handTo (tuneOf p h) v else v)
    (by
      intro u h; unfold State.tuneHead; split
      · have f := State.handFrame_frame u h (tuneOf (part u) h)
        have q := (State.handFrame_head u h (f := tuneOf (part u) h) rfl).1
        change part (u.handFrame h (tuneOf (part u) h)) = _
        simp only [part] at q ⊢; rw [f.pages_eq, f.clock_eq, q]
      · rfl)
    (by
      intro u h k; unfold State.tuneHead; split
      · exact ((State.handFrame_head u h (f := tuneOf (part u) h) rfl).2 k).trans (by simp_all [handTo])
      · split <;> simp_all)
    allHeads (List.nodup_finRange 4) s2
  obtain ⟨t1, t2⟩ := tune
  generalize hs3 : allHeads.foldl State.tuneHead s2 = s3 at *
  have beacon := foldl_heads State.beaconHead part
    (fun p _ v => if v.link = .up then handTo (.beacon p.2.1.superframe p.2.2.orders) v else v)
    (by
      intro u h; unfold State.beaconHead; split
      · have f := State.handFrame_frame u h (.beacon u.clock.superframe u.hcq.orders)
        have q := (State.handFrame_head u h (f := .beacon u.clock.superframe u.hcq.orders) rfl).1
        simp only [part]; rw [f.pages_eq, f.clock_eq, q]
      · rfl)
    (by
      intro u h k; unfold State.beaconHead; split
      · rw [(State.handFrame_head u h (f := .beacon u.clock.superframe u.hcq.orders) rfl).2]
      · split <;> simp_all)
    allHeads (List.nodup_finRange 4) s3
  obtain ⟨b1, b2⟩ := beacon
  have hst : s.slotStart = if s3.clock.slot = 0 then allHeads.foldl State.beaconHead s3 else s3 := by
    unfold State.slotStart; dsimp only; rw [hs2, hs3]
  simp only [part, Prod.mk.injEq] at t1 b1
  have c3 : s3.clock = s.clock := t1.2.1.trans hfr1.clock_eq
  have q3 : s3.hcq = s.hcq.toldNotSent (allHeads.flatMap fun h => acksOf (s.head h).txFifo) := by
    rw [t1.2.2, p1]
  have hq : s.slotStart.hcq = s.hcq.toldNotSent (allHeads.flatMap fun h => acksOf (s.head h).txFifo) := by
    rw [hst]; split
    · rw [b1.2.2, q3]
    · exact q3
  refine ⟨hq, ?_⟩
  intro k v kept late handed
  have e2 : s2.head k = { v with txFifo := kept, counters := { v.counters with late := late } } := by
    rw [p2, if_pos (hall k)]
  have e3 := t2 k
  rw [if_pos (hall k), e2] at e3
  have b3 := b2 k
  rw [if_pos (hall k)] at b3
  have air : s2.pages.air = s.pages.air := by rw [hfr1.pages_eq]
  have clk2 : s2.clock = s.clock := hfr1.clock_eq
  have ord : s3.hcq.orders = s.hcq.orders := by rw [q3]; exact (Hcq.toldNotSent_keeps _ _).1
  have clk3 : s3.clock = s.clock := c3
  have tp : tuneOf (part s2) k = tuneOf (part s) k := by simp only [tuneOf, part, air, clk2]
  rw [tp] at e3
  simp only [part, ord, clk3] at b3
  rw [hst, clk3]
  constructor
  · intro hl
    have e4 : s3.head k = { v with txFifo := kept, counters := { v.counters with late := late } } := by
      rw [e3, if_neg hl]
    rw [e4, if_neg hl] at b3
    dsimp only
    split
    · exact b3
    · exact e4
  · intro hl
    rw [if_pos hl] at e3
    have l3 : (s3.head k).link = .up := by rw [e3]; simp only [handTo]; split <;> exact hl
    rw [if_pos l3] at b3
    dsimp only
    by_cases h0 : s.clock.slot = 0
    · rw [if_pos h0, b3, e3]
      have hh : handed = [tuneOf (part s) k, .beacon s.clock.superframe s.hcq.orders] := by
        show [_] ++ (if _ then _ else _) = _
        rw [if_pos h0]; rfl
      rw [hh]
      simp only [handTo]
      by_cases l1 : kept.length < 16
      · rw [if_pos l1]; dsimp only
        by_cases l2 : (kept ++ [tuneOf (part s) k]).length < 16
        · rw [if_pos l2]
          rw [List.length_append, List.length_singleton] at l2
          have : 16 - kept.length = (14 - kept.length) + 2 := by omega
          rw [this]; simp [countedUp]
        · rw [if_neg l2]
          rw [List.length_append, List.length_singleton] at l2
          have : 16 - kept.length = 1 := by omega
          rw [this]; simp [countedUp, inc16, satAdd, Config.count16Max]
      · rw [if_neg l1]; dsimp only; rw [if_neg l1]
        have : 16 - kept.length = 0 := by omega
        rw [this]; simp [countedUp, inc16, satAdd, Config.count16Max]; omega
    · rw [if_neg h0, e3]
      have hh : handed = [tuneOf (part s) k] := by
        show [_] ++ (if _ then _ else _) = _
        rw [if_neg h0]; rfl
      rw [hh]
      simp only [handTo]
      by_cases l1 : kept.length < 16
      · rw [if_pos l1]
        have : 16 - kept.length = (15 - kept.length) + 1 := by omega
        rw [this]; simp [countedUp]
      · rw [if_neg l1]
        have : 16 - kept.length = 0 := by omega
        rw [this]; simp [countedUp, inc16, satAdd, Config.count16Max]

end Sys2Proof.Machine
end

