-- ==== Sys2Proof/Laws/Transitions.lean ====
section
/-! SUPPORT. What EVU is told: the closings of contexts as records taken one after another, and the records of a detector's
transition, of an ALARM that stays, of a window's lapse; and the removal of a record and the tick (sections 1, 2, 5, 7
and 8). -/

namespace Sys2Proof.Machine

/-! ## Closings (R159, R160) -/

/-- With no context open an urgent match closes nothing (R154). -/
theorem Evu.urgentClosing_none {e : Evu} (h : e.contexts = []) (now : Nat) : e.urgentClosing now = e := by
  unfold Evu.urgentClosing; rw [if_pos (by rw [h]; rfl)]

/-- Contexts that close together close one after another, each as it would alone: with no context left open, an urgent
match of a summary closes nothing more. -/
theorem Evu.emits_closes (now : Nat) (cause : CloseCause) (l : List Context) : ∀ e : Evu, e.contexts = [] →
    l.foldl (Evu.emit now cause) e = l.foldl (fun x c => x.closes now c cause) e := by
  induction l with
  | nil => exact fun _ _ => rfl
  | cons c l ih =>
    intro e he
    have one : Evu.emit now cause e c = e.closes now c cause := by
      unfold Evu.emit Evu.closes Evu.take
      have hf : { e with
          contexts := e.contexts.filter (fun d => d.address != c.address),
          counters := e.counters.countClosed cause } = e.countClosed cause := by
        unfold Evu.countClosed; rw [he]; rfl
      rw [hf]
      split
      · rw [Evu.urgentClosing_none (e := e.countClosed cause) he]; rfl
      · rfl
    rw [List.foldl_cons, List.foldl_cons, one]
    refine ih _ ?_
    rw [← one]
    exact ((e.countClosed cause).queue_kept _).2.trans he

/-- The closing of every context, as closings of one context after another (R159). -/
theorem Evu.closeAll_closes (e : Evu) (now : Nat) (cause : CloseCause) :
    e.closeAll now cause = e.contexts.foldl (fun x c => x.closes now c cause) { e with contexts := [] } :=
  Evu.emits_closes now cause e.contexts _ rfl

/-- The closing for an address: nothing without a context of it, else that context closes (R160). -/
theorem Evu.closeFor_closes (e : Evu) (now : Nat) (cause : CloseCause) (a : Address) :
    ((∀ d ∈ e.contexts, d.address ≠ a) → e.closeFor now cause a = e)
      ∧ ∀ before c after, e.contexts = before ++ c :: after → c.address = a → (∀ d ∈ before, d.address ≠ a) →
        e.closeFor now cause a = e.closes now c cause := by
  constructor
  · intro h
    have : e.contextOf a = none := by
      unfold Evu.contextOf; rw [List.find?_eq_none]; intro d hd; simpa using h d hd
    unfold Evu.closeFor; rw [this]
  · intro before c after hq ha hb
    have : e.contextOf a = some c := by
      unfold Evu.contextOf; rw [List.find?_eq_some_iff_append]
      exact ⟨by simpa using ha, before, after, hq, fun y hy => by simpa using hb y hy⟩
    unfold Evu.closeFor; rw [this]; rfl

/-- An urgent match with a context open closes every context first, counted once (R154). -/
theorem Evu.take_urgent {e : Evu} {now : Nat} {r : EventRecord} (hk : r.body.kind ≠ .zoneAlarm)
    (hu : e.urgentMatch r = true) (hc : e.contexts ≠ []) :
    e.take now r = (Evu.closeAll { e with counters := { e.counters with
      urgentClosings := min (e.counters.urgentClosings + 1) 4294967295 } } now .urgent).take now r := by
  have h1 : e.urgentClosing now = Evu.closeAll { e with counters := { e.counters with
      urgentClosings := min (e.counters.urgentClosings + 1) 4294967295 } } now .urgent := by
    unfold Evu.urgentClosing
    rw [if_neg (by simpa [List.isEmpty_iff] using hc)]; rfl
  have h2 := (e.urgentClosing_kept now).2
  unfold Evu.take; rw [if_pos ⟨hk, hu⟩, ← h1]
  split
  · rw [Evu.urgentClosing_none h2]
  · rfl

/-! ## Records one after another -/

theorem State.evuAfter_append (s : State)
    (l m : List (EventBody × Option ZoneNo × Option Address × Option DetectorKind)) :
    s.evuAfter (l ++ m) = State.evuAfter { s with evu := s.evuAfter l } m := by
  unfold State.evuAfter; rw [List.foldl_append]; rfl

/-- What EVU becomes depends on EVU and the clock alone. -/
theorem State.evuAfter_congr {s t : State} (he : s.evu = t.evu) (hn : s.now = t.now)
    (l : List (EventBody × Option ZoneNo × Option Address × Option DetectorKind)) : s.evuAfter l = t.evuAfter l := by
  unfold State.evuAfter State.eventRecord; rw [he, hn]

/-- Records taken after records. -/
theorem State.evuAfter_after {s t : State} {l : List (EventBody × Option ZoneNo × Option Address × Option DetectorKind)}
    (he : t.evu = s.evuAfter l) (hn : t.now = s.now)
    (m : List (EventBody × Option ZoneNo × Option Address × Option DetectorKind)) :
    t.evuAfter m = s.evuAfter (l ++ m) := by
  rw [State.evuAfter_append]
  exact State.evuAfter_congr (s := t) (t := { s with evu := s.evuAfter l }) he hn m

/-- What taking records leaves of EVU: filters, timers, the reply slot (R149). -/
theorem State.evuAfter_kept (l : List (EventBody × Option ZoneNo × Option Address × Option DetectorKind)) :
    ∀ s : State, s.evu.Kept (s.evuAfter l) := by
  induction l with
  | nil => exact fun s => Evu.Kept.refl s.evu
  | cons r l ih =>
    intro s
    exact (Evu.take_kept s.evu s.now _).1.trans (ih { s with evu := s.evu.take s.now _ })

theorem State.alarmTold_congr {s t : State} (hn : s.now = t.now) (z : ZoneNo) (v : Zone) (a : Address) (k : DetectorKind)
    (c : AlarmCause) (p : Option ZoneNo) (e : Evu) : s.alarmTold z v a k c p e = t.alarmTold z v a k c p e := by
  unfold State.alarmTold State.eventRecord; rw [hn]

theorem State.enterAlarm_evu (s : State) (z : ZoneNo) (a : Address) (k : DetectorKind) (c : AlarmCause)
    (p : Option ZoneNo) : (s.enterAlarm z a k c p).evu = s.alarmTold z (s.zone z) a k c p s.evu := rfl

theorem State.enterVerify_evu (s : State) (z : ZoneNo) (a : Address) (k : DetectorKind) :
    (s.enterVerify z a k).evu = s.evuAfter
      [(.zoneVerify (s.zone z).mode (min (s.su.clock + (s.zone z).window) 4294967295), some z, some a, some k)] := rfl

/-! ## Transitions (R96 to R102) -/

/-- Whether a zone is confirmed by an ALARM in zone z (R101). -/
def State.confirms (s : State) (z y : ZoneNo) : Prop :=
  y ≠ z ∧ (s.zone y).enabled = true ∧ (s.zone y).state = .verify ∧ (s.zone y).partner = some z

theorem State.confirmPartner_pos {s : State} {z y : ZoneNo} (a : Address) (k : DetectorKind) (h : s.confirms z y) :
    State.confirmPartner z a k s y = s.enterAlarm y a k .partner (some z) := by
  unfold State.confirmPartner; exact if_pos h

theorem State.confirmPartner_neg {s : State} {z y : ZoneNo} (a : Address) (k : DetectorKind) (h : ¬ s.confirms z y) :
    State.confirmPartner z a k s y = s := by
  unfold State.confirmPartner; exact if_neg h

/-- The partner zones' records, in ascending number (R101, R102). -/
theorem State.confirmPartners_evu (s : State) (z : ZoneNo) (a : Address) (k : DetectorKind)
    [DecidablePred (s.confirms z)] : (s.confirmPartners z a k).evu =
      (allZones.filter fun y => decide (s.confirms z y)).foldl
        (fun e y => s.alarmTold y (s.zone y) a k .partner (some z) e) s.evu := by
  have key : ∀ (l : List ZoneNo), l.Nodup → ∀ u : State, u.now = s.now → (∀ y ∈ l, u.zone y = s.zone y) →
      (l.foldl (State.confirmPartner z a k) u).evu =
        (l.filter fun y => decide (s.confirms z y)).foldl
          (fun e y => s.alarmTold y (s.zone y) a k .partner (some z) e) u.evu := by
    intro l
    induction l with
    | nil => exact fun _ u _ _ => rfl
    | cons x l ih =>
      intro hn u hu hz
      rw [List.nodup_cons] at hn
      have hx : u.zone x = s.zone x := hz x List.mem_cons_self
      have hiff : u.confirms z x ↔ s.confirms z x := by unfold State.confirms; rw [hx]
      rw [List.foldl_cons]
      by_cases hc : s.confirms z x
      · rw [State.confirmPartner_pos a k (hiff.mpr hc), List.filter_cons_of_pos (by simpa using hc), List.foldl_cons]
        rw [ih hn.2 (u.enterAlarm x a k .partner (some z)) hu (fun y hy => ?_)]
        · rw [State.enterAlarm_evu, State.alarmTold_congr hu, hx]
        · rw [State.zone_enterAlarm, if_neg (by rintro rfl; exact hn.1 hy)]
          exact hz y (List.mem_cons_of_mem _ hy)
      · rw [State.confirmPartner_neg a k (fun h => hc (hiff.mp h)), List.filter_cons_of_neg (by simpa using hc)]
        exact ih hn.2 u hu (fun y hy => hz y (List.mem_cons_of_mem _ hy))
  exact key allZones (List.nodup_finRange 64) s rfl (fun _ _ => rfl)

/-- The cause of an entry into ALARM by a transition of detector a in an enabled zone, none where it does not enter
(R97 to R99). -/
def Zone.alarmCause (v : Zone) (a : Address) (k : DetectorKind) : Option AlarmCause :=
  if v.state = .alarm then none
  else if k = .callpoint then some .callpoint
  else if v.mode = .direct then some .direct
  else if v.state ≠ .verify then none
  else if v.first ≠ some a then some .second
  else if v.mode = .persist then some .persisted
  else none

/-- What a transition into ALARM does to its own enabled zone (R97 to R99). -/
theorem State.zoneIntoAlarm_cases (s : State) (z : ZoneNo) (a : Address) (k : DetectorKind) :
    s.zoneIntoAlarm z a k = match (s.zone z).alarmCause a k with
      | some c => s.enterAlarm z a k c none
      | none => if (s.zone z).state = .quiet ∨ (s.zone z).state = .pre then s.enterVerify z a k else s := by
  unfold State.zoneIntoAlarm Zone.alarmCause; dsimp only
  cases (s.zone z).state <;> cases (s.zone z).mode <;> by_cases hk : k = .callpoint <;>
    by_cases hf : (s.zone z).first = some a <;> simp [hk, hf]

theorem State.zoneIntoAlarm_other (s : State) (z : ZoneNo) (a : Address) (k : DetectorKind) {y : ZoneNo} (hy : y ≠ z) :
    (s.zoneIntoAlarm z a k).zone y = s.zone y := by
  rw [State.zoneIntoAlarm_cases]
  split
  · rw [State.zone_enterAlarm, if_neg hy]
  · split
    · rw [State.zone_enterVerify, if_neg hy]
    · rfl

theorem State.zoneIntoAlarm_now (s : State) (z : ZoneNo) (a : Address) (k : DetectorKind) :
    (s.zoneIntoAlarm z a k).now = s.now := congrArg Su.clock (s.zoneIntoAlarm_frame z a k).su_eq

/-- The state a transition of zone z into PRE or ALARM acts on: its count adjusted (R94, R102). -/
def State.transitionCounted (s : State) (z : ZoneNo) (before : Level) : State :=
  if before = .normal then s.zoneIncrement z else s

theorem State.transitionCounted_zone (s : State) (z : ZoneNo) (before : Level) (y : ZoneNo) :
    (s.transitionCounted z before).zone y = if y = z then
      { s.zone z with raised := if before = .normal then (s.zone z).raised + 1 else (s.zone z).raised }
    else s.zone y := by
  unfold State.transitionCounted
  split
  · unfold State.zoneIncrement; rw [State.zone_modifyZone]
  · split
    · next h => rw [h]
    · rfl

theorem State.transitionCounted_rest (s : State) (z : ZoneNo) (before : Level) :
    (s.transitionCounted z before).evu = s.evu ∧ (s.transitionCounted z before).now = s.now := by
  unfold State.transitionCounted; split <;> exact ⟨rfl, rfl⟩

theorem State.zoneTransition_pre (s : State) (z : ZoneNo) (a : Address) (k : DetectorKind) (before : Level) :
    s.zoneTransition z a k before .pre =
      if ((s.transitionCounted z before).zone z).enabled = true ∧ ((s.transitionCounted z before).zone z).state = .quiet then
        ((s.transitionCounted z before).modifyZone z fun v => { v with state := .pre }).raise
          (.zonePre ((s.transitionCounted z before).zone z).raised) (some z) (some a) (some k)
      else s.transitionCounted z before := rfl

theorem State.zoneTransition_alarm (s : State) (z : ZoneNo) (a : Address) (k : DetectorKind) (before : Level) :
    s.zoneTransition z a k before .alarm =
      if ((s.transitionCounted z before).zone z).enabled = true then
        ((s.transitionCounted z before).zoneIntoAlarm z a k).confirmPartners z a k
      else s.transitionCounted z before := rfl

/-- What EVU is told at a transition to NORMAL (R95). -/
theorem State.zoneTransition_normal_evu (s : State) (z : ZoneNo) (a : Address) (k : DetectorKind) (before : Level) :
    let v := s.zone z
    (s.zoneTransition z a k before .normal).evu = s.evuAfter
      (if v.raised - 1 = 0 ∧ v.enabled = true ∧ v.state = .pre then [(.zoneQuiet, some z, some a, some k)] else []) := by
  intro v
  show (s.zoneDecrement z a (some k)).evu = _
  unfold State.zoneDecrement; dsimp only
  simp only [State.zone_modifyZone, if_true]
  split <;> rfl

/-- What EVU is told at a transition to PRE (R96). -/
theorem State.zoneTransition_pre_evu (s : State) (z : ZoneNo) (a : Address) (k : DetectorKind) (before : Level) :
    let v := s.zone z
    let up := if before = .normal then v.raised + 1 else v.raised
    (s.zoneTransition z a k before .pre).evu = s.evuAfter
      (if v.enabled = true ∧ v.state = .quiet then [(.zonePre up, some z, some a, some k)] else []) := by
  intro v up
  have hz := s.transitionCounted_zone z before z
  rw [if_pos rfl] at hz
  obtain ⟨he, hn⟩ := s.transitionCounted_rest z before
  rw [State.zoneTransition_pre, hz]; dsimp only
  by_cases hc : v.enabled = true ∧ v.state = .quiet
  · rw [if_pos hc, if_pos hc]
    exact State.evuAfter_congr (s := s.transitionCounted z before) he hn [(.zonePre up, some z, some a, some k)]
  · rw [if_neg hc, if_neg hc]; exact he

/-- What EVU is told at a transition to ALARM of an enabled zone (R97 to R102, R105): its own record, then its partner
zones'. -/
theorem State.zoneTransition_alarm_evu (s : State) (z : ZoneNo) (a : Address) (k : DetectorKind) (before : Level)
    [DecidablePred (s.confirms z)] (henabled : (s.zone z).enabled = true) :
    let v := s.zone z
    let up := if before = .normal then v.raised + 1 else v.raised
    let own : Evu := match v.alarmCause a k with
      | some c => s.alarmTold z { v with raised := up } a k c none s.evu
      | none => s.evuAfter (if v.state = .quiet ∨ v.state = .pre then
          [(.zoneVerify v.mode (min (s.su.clock + v.window) 4294967295), some z, some a, some k)] else [])
    (s.zoneTransition z a k before .alarm).evu = (allZones.filter fun y => decide (s.confirms z y)).foldl
      (fun e y => s.alarmTold y (s.zone y) a k .partner (some z) e) own := by
  intro v up own
  obtain ⟨he, hn⟩ := s.transitionCounted_rest z before
  generalize hc : s.transitionCounted z before = c at *
  have hz : c.zone z = { v with raised := up } := by rw [← hc, s.transitionCounted_zone z before z, if_pos rfl]
  have hy : ∀ y, y ≠ z → c.zone y = s.zone y := fun y h => by rw [← hc, s.transitionCounted_zone z before y, if_neg h]
  have ht : s.zoneTransition z a k before .alarm = (c.zoneIntoAlarm z a k).confirmPartners z a k := by
    rw [State.zoneTransition_alarm, hc, if_pos (by rw [hz]; exact henabled)]
  rw [ht]
  have hiff : ∀ y, (c.zoneIntoAlarm z a k).confirms z y ↔ s.confirms z y := by
    intro y; unfold State.confirms
    constructor
    · rintro ⟨h1, h⟩; rw [State.zoneIntoAlarm_other _ _ _ _ h1, hy y h1] at h; exact ⟨h1, h⟩
    · rintro ⟨h1, h⟩; refine ⟨h1, ?_⟩; rw [State.zoneIntoAlarm_other _ _ _ _ h1, hy y h1]; exact h
  let _ : DecidablePred ((c.zoneIntoAlarm z a k).confirms z) := fun y => decidable_of_iff _ (hiff y).symm
  rw [State.confirmPartners_evu]
  have hown : (c.zoneIntoAlarm z a k).evu = own := by
    rw [State.zoneIntoAlarm_cases, hz]
    have : ({ v with raised := up } : Zone).alarmCause a k = v.alarmCause a k := rfl
    rw [this]
    simp only [own]
    cases v.alarmCause a k with
    | some x => dsimp only; rw [State.enterAlarm_evu, hz, he, State.alarmTold_congr hn]
    | none =>
      dsimp only
      split
      · rw [State.enterVerify_evu, hz]
        rw [State.evuAfter_congr he hn, show c.su.clock = s.su.clock from hn]
      · exact he
  have hnow : (c.zoneIntoAlarm z a k).now = s.now := (State.zoneIntoAlarm_now c z a k).trans hn
  rw [hown]
  have hfilter : (allZones.filter fun y => decide ((c.zoneIntoAlarm z a k).confirms z y))
      = allZones.filter fun y => decide (s.confirms z y) := by
    congr 1; funext y; exact decide_eq_decide.mpr (hiff y)
  rw [hfilter]
  have hfold : ∀ (l : List ZoneNo), (∀ y ∈ l, y ≠ z) → ∀ e : Evu,
      l.foldl (fun e y => (c.zoneIntoAlarm z a k).alarmTold y ((c.zoneIntoAlarm z a k).zone y) a k .partner (some z) e) e
        = l.foldl (fun e y => s.alarmTold y (s.zone y) a k .partner (some z) e) e := by
    intro l
    induction l with
    | nil => exact fun _ _ => rfl
    | cons y l ih =>
      intro h e
      have h1 := h y List.mem_cons_self
      rw [List.foldl_cons, List.foldl_cons, ih (fun x hx => h x (List.mem_cons_of_mem _ hx)),
        State.alarmTold_congr hnow, State.zoneIntoAlarm_other _ _ _ _ h1, hy y h1]
  refine hfold _ (fun y hm => ?_) _
  have := (List.mem_filter.mp hm).2
  exact (of_decide_eq_true this).1

/-- What a transition does to the other zones: an ALARM of an enabled zone confirms its partner zones (R101). -/
theorem State.zoneTransition_other (s : State) (z : ZoneNo) (a : Address) (k : DetectorKind) (before after : Level)
    (y : ZoneNo) (hy : y ≠ z) [Decidable (s.confirms z y)] : (s.zoneTransition z a k before after).zone y =
      if after = .alarm ∧ (s.zone z).enabled = true ∧ s.confirms z y then
        { s.zone y with state := .alarm, first := none, deadline := none, alarmUnsent := true }
      else s.zone y := by
  have up := s.transitionCounted_zone z before
  have upy : (s.transitionCounted z before).zone y = s.zone y := by rw [up, if_neg hy]
  have upz : ((s.transitionCounted z before).zone z).enabled = (s.zone z).enabled := by rw [up, if_pos rfl]
  cases after with
  | normal =>
    rw [if_neg (fun h => nomatch h.1)]
    show (s.zoneDecrement z a (some k)).zone y = _
    unfold State.zoneDecrement; dsimp only
    split
    · rw [State.zone_raise, State.zone_modifyZone, if_neg hy, State.zone_modifyZone, if_neg hy]
    · rw [State.zone_modifyZone, if_neg hy]
  | pre =>
    rw [if_neg (fun h => nomatch h.1)]
    rw [State.zoneTransition_pre]
    split
    · rw [State.zone_raise, State.zone_modifyZone, if_neg hy]; exact upy
    · exact upy
  | alarm =>
    rw [State.zoneTransition_alarm, upz]
    by_cases he : (s.zone z).enabled = true
    · rw [if_pos he, State.zone_confirmPartners, State.zoneIntoAlarm_other _ _ _ _ hy, upy]
      by_cases hc : s.confirms z y
      · exact (if_pos hc).trans (if_pos ⟨rfl, he, hc⟩).symm
      · exact (if_neg hc).trans (if_neg fun h => hc h.2.2).symm
    · rw [if_neg he, if_neg (fun h => he h.2.1)]; exact upy

/-- The notice that a detector stays ALARM (R100). -/
theorem State.zoneStaysAlarm_spec (s : State) (z : ZoneNo) (a : Address) (k : DetectorKind) :
    let v := s.zone z
    let t := s.zoneStaysAlarm z a k
    let confirmed := v.enabled = true ∧ v.mode = .persist ∧ v.state = .verify ∧ v.first = some a
    (confirmed → ZoneBecomes s t z { v with state := .alarm, first := none, deadline := none, alarmUnsent := true }
      ∧ t.evu = s.alarmTold z v a k .persisted none s.evu)
    ∧ (¬ confirmed → t = s) := by
  intro v t confirmed
  constructor
  · intro h
    have : t = s.enterAlarm z a k .persisted none := by
      show s.zoneStaysAlarm z a k = _; unfold State.zoneStaysAlarm; exact if_pos h
    rw [this]
    refine ⟨⟨?_, fun y hy => ?_⟩, rfl⟩
    · rw [State.zone_enterAlarm, if_pos rfl]; rfl
    · rw [State.zone_enterAlarm, if_neg hy]
  · intro h; show s.zoneStaysAlarm z a k = _; unfold State.zoneStaysAlarm; exact if_neg h

/-! ## What zones and EVU become depends on them and the clock alone -/

/-- Two states with the same zones, EVU and clock. -/
def SameZones (s t : State) : Prop := s.zones = t.zones ∧ s.evu = t.evu ∧ s.now = t.now

theorem SameZones.zone {s t : State} (h : SameZones s t) (z : ZoneNo) : s.zone z = t.zone z := by
  unfold State.zone; rw [h.1]

theorem SameZones.setZone {s t : State} (h : SameZones s t) (z : ZoneNo) (v : Zone) :
    SameZones (s.setZone z v) (t.setZone z v) := by
  refine ⟨?_, h.2⟩; show s.zones.set z v = t.zones.set z v; rw [h.1]

theorem SameZones.modifyZone {s t : State} (h : SameZones s t) (z : ZoneNo) (f : Zone → Zone) :
    SameZones (s.modifyZone z f) (t.modifyZone z f) := by
  unfold State.modifyZone; rw [h.zone z]; exact h.setZone z _

theorem SameZones.raise {s t : State} (h : SameZones s t) (b : EventBody) (z : Option ZoneNo) (a : Option Address)
    (k : Option DetectorKind) : SameZones (s.raise b z a k) (t.raise b z a k) := by
  refine ⟨h.1, ?_, h.2.2⟩
  show s.evu.take s.now (s.eventRecord b z a k) = t.evu.take t.now (t.eventRecord b z a k)
  unfold State.eventRecord; rw [h.2.1, h.2.2]

theorem SameZones.enterAlarm {s t : State} (h : SameZones s t) (z : ZoneNo) (a : Address) (k : DetectorKind)
    (c : AlarmCause) (p : Option ZoneNo) : SameZones (s.enterAlarm z a k c p) (t.enterAlarm z a k c p) := by
  refine ⟨?_, ?_, h.2.2⟩
  · show s.zones.set z _ = t.zones.set z _; rw [h.zone z, h.1]
  · rw [State.enterAlarm_evu, State.enterAlarm_evu, h.zone z, h.2.1, State.alarmTold_congr h.2.2]

theorem SameZones.enterVerify {s t : State} (h : SameZones s t) (z : ZoneNo) (a : Address) (k : DetectorKind) :
    SameZones (s.enterVerify z a k) (t.enterVerify z a k) := by
  unfold State.enterVerify; dsimp only
  rw [h.zone z, h.2.2]
  exact (h.setZone z _).raise _ _ _ _

/-- A transition leaves the same zones and EVU from two such states. -/
theorem SameZones.zoneTransition {s t : State} (h : SameZones s t) (z : ZoneNo) (a : Address) (k : DetectorKind)
    (before after : Level) : SameZones (s.zoneTransition z a k before after) (t.zoneTransition z a k before after) := by
  have up : SameZones (s.transitionCounted z before) (t.transitionCounted z before) := by
    unfold State.transitionCounted; split
    · exact h.modifyZone z _
    · exact h
  cases after with
  | normal =>
    show SameZones (s.zoneDecrement z a (some k)) (t.zoneDecrement z a (some k))
    have h1 := h.modifyZone z fun v => { v with raised := v.raised - 1 }
    unfold State.zoneDecrement; dsimp only
    rw [h1.zone z]
    split
    · exact (h1.modifyZone z _).raise _ _ _ _
    · exact h1
  | pre =>
    rw [State.zoneTransition_pre, State.zoneTransition_pre, up.zone z]
    split
    · exact (up.modifyZone z _).raise _ _ _ _
    · exact up
  | alarm =>
    rw [State.zoneTransition_alarm, State.zoneTransition_alarm, up.zone z]
    split
    · have into : SameZones ((s.transitionCounted z before).zoneIntoAlarm z a k) ((t.transitionCounted z before).zoneIntoAlarm z a k) := by
        rw [State.zoneIntoAlarm_cases, State.zoneIntoAlarm_cases, up.zone z]
        split
        · exact up.enterAlarm _ _ _ _ _
        · split
          · exact up.enterVerify _ _ _
          · exact up
      have fold : ∀ (l : List ZoneNo) (u w : State), SameZones u w →
          SameZones (l.foldl (State.confirmPartner z a k) u) (l.foldl (State.confirmPartner z a k) w) := by
        intro l
        induction l with
        | nil => exact fun _ _ h => h
        | cons y l ih =>
          intro u w huw
          refine ih _ _ ?_
          unfold State.confirmPartner
          rw [huw.zone y]
          split
          · exact huw.enterAlarm _ _ _ _ _
          · exact huw
      exact fold _ _ _ into
    · exact up

/-- A stays-ALARM notice leaves the same zones and EVU from two such states. -/
theorem SameZones.zoneStaysAlarm {s t : State} (h : SameZones s t) (z : ZoneNo) (a : Address) (k : DetectorKind) :
    SameZones (s.zoneStaysAlarm z a k) (t.zoneStaysAlarm z a k) := by
  unfold State.zoneStaysAlarm; dsimp only
  rw [h.zone z]
  split
  · exact h.enterAlarm _ _ _ _ _
  · exact h

/-! ## Lapses (R103, R115) -/

/-- Zones that lapse one after another, each by a test of its own record: their ZONE_LAPSE records, in order. -/
theorem State.lapses_evu (cause : LapseCause) (p : State → ZoneNo → Bool) (f : State → ZoneNo → State)
    (hf : ∀ s z, f s z = if p s z then s.lapseZone z cause else s)
    (hp : ∀ s t z, s.zone z = t.zone z → s.now = t.now → p s z = p t z) (l : List ZoneNo) :
    l.Nodup → ∀ s : State, (l.foldl f s).evu = s.evuAfter ((l.filter (p s)).map fun z =>
      (.zoneLapse cause (if 0 < (s.zone z).raised then .pre else .quiet) (s.zone z).raised,
        some z, (s.zone z).first, none)) := by
  induction l with
  | nil => exact fun _ _ => rfl
  | cons x l ih =>
    intro hn s
    rw [List.nodup_cons] at hn
    rw [List.foldl_cons, ih hn.2, hf]
    by_cases hx : p s x = true
    · rw [if_pos hx, List.filter_cons_of_pos hx, List.map_cons]
      have other : ∀ y ∈ l, (s.lapseZone x cause).zone y = s.zone y := fun y hy => by
        rw [State.zone_lapseZone, if_neg (by rintro rfl; exact hn.1 hy)]
      have hfilter : l.filter (p (s.lapseZone x cause)) = l.filter (p s) :=
        List.filter_congr fun y hy => hp _ _ y (other y hy) rfl
      rw [hfilter]
      have hmap : ∀ (g : ZoneNo → Zone → EventBody × Option ZoneNo × Option Address × Option DetectorKind),
          (l.filter (p s)).map (fun y => g y ((s.lapseZone x cause).zone y))
            = (l.filter (p s)).map (fun y => g y (s.zone y)) := fun g =>
        List.map_congr_left fun y hy => by rw [other y (List.mem_of_mem_filter hy)]
      rw [hmap fun y v => (.zoneLapse cause (if 0 < v.raised then .pre else .quiet) v.raised, some y, v.first, none)]
      rfl
    · rw [if_neg hx, List.filter_cons_of_neg hx]


/-- Zones that lapse one after another, each by a test of its own record: each zone. -/
theorem State.lapses_zone (cause : LapseCause) (p : State → ZoneNo → Bool) (f : State → ZoneNo → State)
    (hf : ∀ s z, f s z = if p s z then s.lapseZone z cause else s)
    (hp : ∀ s t z, s.zone z = t.zone z → s.now = t.now → p s z = p t z) (l : List ZoneNo) :
    l.Nodup → ∀ (s : State) (y : ZoneNo), (l.foldl f s).zone y =
      if y ∈ l ∧ p s y = true then
        { s.zone y with
          state := if 0 < (s.zone y).raised then .pre else .quiet, first := none, deadline := none }
      else s.zone y := by
  induction l with
  | nil => intro _ s y; simp
  | cons x l ih =>
    intro hn s y
    rw [List.nodup_cons] at hn
    have one : ∀ y, (f s x).zone y = if y = x ∧ p s x = true then
        { s.zone y with
          state := if 0 < (s.zone y).raised then .pre else .quiet, first := none, deadline := none }
      else s.zone y := by
      intro y; rw [hf]; by_cases hx : p s x = true
      · rw [if_pos hx, State.zone_lapseZone]
        by_cases hy : y = x
        · subst hy; rw [if_pos rfl, if_pos ⟨rfl, hx⟩]; rfl
        · rw [if_neg hy, if_neg (fun h => hy h.1)]
      · rw [if_neg hx, if_neg (fun h => hx h.2)]
    have hnow : (f s x).now = s.now := by rw [hf]; split <;> rfl
    rw [List.foldl_cons, ih hn.2]
    by_cases hy : y = x
    · subst hy
      rw [if_neg (fun h => hn.1 h.1), one]; simp
    · have hs : (f s x).zone y = s.zone y := by rw [one, if_neg (fun h => hy h.1)]
      rw [hs, hp _ _ y hs hnow]; simp [hy]

/-! ## Counts that fall, and removal (R22, R94, R95, R131, R143) -/

/-- A decrement of a zone's raised count, with the fall of an enabled PRE zone at 0 (R94, R95). -/
theorem State.zoneDecrement_spec (s : State) (z : ZoneNo) (a : Address) (k : Option DetectorKind) :
    let v := s.zone z
    let falls := v.raised ≤ 1 ∧ v.enabled = true ∧ v.state = .pre
    ZoneBecomes s (s.zoneDecrement z a k) z
        { v with raised := v.raised - 1, state := if falls then .quiet else v.state }
      ∧ (s.zoneDecrement z a k).evu = s.evuAfter (if falls then [(.zoneQuiet, some z, some a, k)] else [])
      ∧ s.zoneDecrement z a k =
          { s with zones := (s.zoneDecrement z a k).zones, evu := (s.zoneDecrement z a k).evu } := by
  intro v falls
  have key : ∀ t : State, t = s.zoneDecrement z a k → ZoneBecomes s t z
        { v with raised := v.raised - 1, state := if falls then .quiet else v.state }
      ∧ t.evu = s.evuAfter (if falls then [(.zoneQuiet, some z, some a, k)] else []) := by
    rintro t rfl
    have h0 : (s.modifyZone z fun v => { v with raised := v.raised - 1 }).zone z = { v with raised := v.raised - 1 } := by
      rw [State.zone_modifyZone, if_pos rfl]
    unfold State.zoneDecrement; dsimp only
    rw [h0]
    by_cases hf : falls
    · rw [if_pos ⟨Nat.sub_eq_zero_of_le hf.1, hf.2.1, hf.2.2⟩, if_pos hf, if_pos hf]
      refine ⟨⟨?_, fun y hy => ?_⟩, rfl⟩
      · simp only [State.zone_raise, State.zone_modifyZone, if_true]; rfl
      · simp only [State.zone_raise, State.zone_modifyZone, hy, if_false]
    · rw [if_neg (fun h => hf ⟨Nat.le_of_sub_eq_zero h.1, h.2.1, h.2.2⟩), if_neg hf, if_neg hf]
      exact ⟨⟨h0, fun y hy => by rw [State.zone_modifyZone, if_neg hy]⟩, rfl⟩
  exact ⟨(key _ rfl).1, (key _ rfl).2, s.zoneDecrement_frame z a k⟩

/-- A removal notice at HCQ, for the entries it removes one after another (R143). -/
theorem State.withdrawnAll_spec (z : ZoneNo) (l : List HeldEntry) : ∀ s : State,
    l.foldl (State.raiseWithdrawn z) s = { s with
      hcq := { s.hcq with counters := { s.hcq.counters with
        failedWithdrawn := countedUp 4294967295 s.hcq.counters.failedWithdrawn l.length } },
      evu := s.evuAfter (l.map fun e =>
        (.commandFailed .withdrawn ⟨e.number, e.code, e.argument⟩ (some e.state) e.attempts,
          some z, some e.target, none)) } := by
  induction l with
  | nil => exact fun _ => rfl
  | cons e l ih =>
    intro s
    rw [List.foldl_cons, ih, List.length_cons]
    have hc : countedUp 4294967295 (inc32 s.hcq.counters.failedWithdrawn) l.length
        = countedUp 4294967295 s.hcq.counters.failedWithdrawn (l.length + 1) := by
      show countedUp 4294967295 (min (s.hcq.counters.failedWithdrawn + 1) 4294967295) l.length = _
      unfold countedUp; split <;> split <;> omega
    rw [← hc]; rfl

/-- A removal notice at HCQ (R143). -/
theorem State.withdrawHeld_spec (s : State) (a : Address) (z : ZoneNo) :
    let held := s.hcq.entries.filter fun e => e.target == a
    s.withdrawHeld a z = { s with
      hcq := { s.hcq with
        entries := s.hcq.entries.filter fun e => e.target != a,
        counters := { s.hcq.counters with
          failedWithdrawn := countedUp 4294967295 s.hcq.counters.failedWithdrawn held.length } },
      evu := s.evuAfter (held.map fun e =>
        (.commandFailed .withdrawn ⟨e.number, e.code, e.argument⟩ (some e.state) e.attempts, some z, some a, none)) } := by
  intro held
  unfold State.withdrawHeld
  rw [State.withdrawnAll_spec]
  have : held.map (fun e : HeldEntry =>
        (EventBody.commandFailed .withdrawn ⟨e.number, e.code, e.argument⟩ (some e.state) e.attempts, some z,
          some e.target, (none : Option DetectorKind)))
      = held.map fun e =>
        (.commandFailed .withdrawn ⟨e.number, e.code, e.argument⟩ (some e.state) e.attempts, some z, some a, none) :=
    List.map_congr_left fun e he => by
      rw [show e.target = a from by simpa using (List.mem_filter.mp he).2]
  rw [← this]; rfl

/-- A removal notice at ZU and EVU (R22). -/
theorem State.noticeZoneAndEvents_spec (s : State) (r : DetectorRecord) :
    let v := s.zone r.zone
    let falls := v.raised ≤ 1 ∧ v.enabled = true ∧ v.state = .pre
    let t := s.noticeZoneAndEvents r
    (r.counted v.epoch = true →
        ZoneBecomes s t r.zone { v with raised := v.raised - 1, state := if falls then .quiet else v.state })
      ∧ (r.counted v.epoch = false → t.zones = s.zones)
      ∧ t.evu = (s.evuAfter (if r.counted v.epoch = true ∧ falls then
          [(.zoneQuiet, some r.zone, some r.address, none)] else [])).closeFor s.now .notice r.address := by
  intro v falls t
  obtain ⟨⟨h1, h2⟩, he, hf⟩ := s.zoneDecrement_spec r.zone r.address none
  by_cases hc : r.counted v.epoch = true
  · have ht : t = (s.zoneDecrement r.zone r.address none).closeContext .notice r.address := by
      show s.noticeZoneAndEvents r = _
      unfold State.noticeZoneAndEvents; dsimp only; rw [if_pos hc]
    refine ⟨fun _ => ?_, fun h => absurd (hc.symm.trans h) (by decide), ?_⟩
    · rw [ht]; exact ⟨h1, h2⟩
    · rw [ht]
      show (s.zoneDecrement r.zone r.address none).evu.closeFor _ _ _ = _
      rw [he]
      have : (s.zoneDecrement r.zone r.address none).now = s.now := by rw [hf]; rfl
      rw [this]
      simp only [hc, true_and]; rfl
  · have ht : t = s.closeContext .notice r.address := by
      show s.noticeZoneAndEvents r = _
      unfold State.noticeZoneAndEvents; dsimp only; rw [if_neg hc]
    refine ⟨fun h => absurd h hc, fun _ => by rw [ht]; rfl, ?_⟩
    rw [ht, if_neg (fun h => hc h.1)]; rfl

/-- The removal of one record, as every command that removes records makes it. -/
theorem State.removeOne_removed (s : State) (r : DetectorRecord) : Removed s (s.removeOne r) r := by
  have hs : s.uncountMissing r =
      { s with su := { s.su with missing := if r.presence = .missing then s.su.missing - 1 else s.su.missing } } := by
    unfold State.uncountMissing; split <;> rfl
  have hr : s.removeOne r = ((s.uncountMissing r).noticeZoneAndEvents r).withdrawHeld r.address r.zone := rfl
  rw [hs] at hr
  generalize hu : ({ s with su := { s.su with missing :=
    if r.presence = .missing then s.su.missing - 1 else s.su.missing } } : State) = u at hr
  have uz : ∀ z, u.zone z = s.zone z := fun z => by rw [← hu]; rfl
  have ue : u.evu = s.evu := by rw [← hu]
  have un : u.now = s.now := by rw [← hu]; rfl
  obtain ⟨n1, n2, n3⟩ := u.noticeZoneAndEvents_spec r
  have nf := u.noticeZoneAndEvents_frame r
  generalize u.noticeZoneAndEvents r = n at *
  rw [State.withdrawHeld_spec] at hr
  rw [uz] at n1 n2 n3
  have nq : n.hcq = s.hcq := by rw [nf.hcq_eq, ← hu]
  have nn : n.now = s.now := (congrArg Su.clock nf.su_eq).trans un
  rw [nq] at hr
  refine ⟨fun hc => ?_, fun hc => ?_, ?_, ?_, ?_, ?_⟩
  · obtain ⟨h1, h2⟩ := n1 hc
    rw [hr]; exact ⟨h1, fun y hy => (h2 y hy).trans (uz y)⟩
  · rw [hr]; exact (n2 hc).trans (by rw [← hu])
  · rw [hr]; exact nf.su_eq.trans (by rw [← hu])
  · rw [hr]
  · rw [hr]
    rw [un, State.evuAfter_congr ue un] at n3
    exact State.evuAfter_congr (s := n) (t := { s with evu := _ }) n3 nn _
  · rw [hr]
    show State.mk .. = State.mk ..
    rw [nf]; simp only [← hu]

/-! ## The tick (R30, R103, R142) -/

/-- The heartbeat check of one head (R30). -/
theorem State.heartbeat_spec (s : State) (h : HeadNo) :
    let v := s.head h
    let missed := if v.link = .up ∧ v.statusSeen = false then v.missed + 1 else v.missed
    HeadBecomes s (s.heartbeat h) h { v with
        missed := missed, statusSeen := false, link := if v.link = .up ∧ 3 ≤ missed then .lost else v.link }
      ∧ (s.heartbeat h).evu = s.evuAfter (if v.link = .up ∧ 3 ≤ missed then [(.headLost h, none, none, none)] else []) := by
  intro v missed
  generalize hs1 : s.modifyHead h (fun v =>
    { v with missed := if v.link = .up ∧ ¬ v.statusSeen then v.missed + 1 else v.missed, statusSeen := false }) = s1
  have h1 : ∀ k, s1.head k = if k = h then { v with missed := missed, statusSeen := false } else s.head k := by
    intro k; rw [← hs1, State.head_modifyHead]; simp only [Bool.not_eq_true]; rfl
  have h0 : s.heartbeat h = if s1.headDue h then s1.loseHead h else s1 := by rw [← hs1]; rfl
  have hd : s1.headDue h = decide (v.link = .up ∧ 3 ≤ missed) := by
    unfold State.headDue; rw [h1, if_pos rfl, Bool.decide_and]
    cases v.link <;> rfl
  have he : s1.evu = s.evu := by rw [← hs1]; rfl
  have hn : s1.now = s.now := by rw [← hs1]; rfl
  rw [h0, hd]
  by_cases hc : v.link = .up ∧ 3 ≤ missed
  · simp only [hc, and_self, decide_true, if_true]
    refine ⟨⟨?_, fun k hk => ?_⟩, State.evuAfter_congr he hn [(.headLost h, none, none, none)]⟩
    · unfold State.loseHead State.raiseHead
      rw [State.head_raise, State.head_modifyHead, if_pos rfl, h1, if_pos rfl]
    · unfold State.loseHead State.raiseHead
      rw [State.head_raise, State.head_modifyHead, if_neg hk, h1, if_neg hk]
  · simp only [hc, decide_false, if_false]
    exact ⟨⟨by rw [if_neg (by decide), h1, if_pos rfl], fun k hk => by rw [if_neg (by decide), h1, if_neg hk]⟩, he⟩

/-- The heartbeat checks of heads, one after another: each head as its own check leaves it, and the record of each head
they lose, in order (R30). -/
theorem State.heartbeats_spec (l : List HeadNo) : l.Nodup → ∀ s : State,
    (l.foldl State.heartbeat s).evu = s.evuAfter ((l.filter fun h => decide ((s.head h).link = .up ∧
      3 ≤ if (s.head h).link = .up ∧ (s.head h).statusSeen = false then (s.head h).missed + 1 else (s.head h).missed)).map
        fun h => (.headLost h, none, none, none))
    ∧ ∀ k, (l.foldl State.heartbeat s).head k = if k ∈ l then (s.heartbeat k).head k else s.head k := by
  induction l with
  | nil => exact fun _ _ => ⟨rfl, fun _ => rfl⟩
  | cons x l ih =>
    intro hn s
    rw [List.nodup_cons] at hn
    obtain ⟨⟨_, ho⟩, he⟩ := s.heartbeat_spec x
    have other : ∀ y ∈ l, (s.heartbeat x).head y = s.head y := fun y hy => ho y (by rintro rfl; exact hn.1 hy)
    obtain ⟨i1, i2⟩ := ih hn.2 (s.heartbeat x)
    have hnow : (s.heartbeat x).now = s.now := congrArg Su.clock (State.heartbeats_frame s [x]).su_eq
    constructor
    · rw [List.foldl_cons, i1, State.evuAfter_after he hnow, List.filter_congr fun y hy => by rw [other y hy]]
      by_cases hc : (s.head x).link = .up ∧
          3 ≤ if (s.head x).link = .up ∧ (s.head x).statusSeen = false then (s.head x).missed + 1
            else (s.head x).missed
      · rw [if_pos hc, List.filter_cons_of_pos (by simpa using hc), List.map_cons]; rfl
      · rw [if_neg hc, List.filter_cons_of_neg (by simpa using hc)]; rfl
    · intro k
      rw [List.foldl_cons, i2]
      by_cases hk : k = x
      · subst hk; simp [hn.1]
      · by_cases hl : k ∈ l
        · simp only [hl, if_true, List.mem_cons, or_true]
          rw [((s.heartbeat x).heartbeat_spec k).1.1, (s.heartbeat_spec k).1.1, other k hl]
        · simp only [hl, hk, if_false, List.mem_cons, or_self]; exact ho k hk

/-- Held entries removed for expiry, one after another (R142). -/
theorem State.expiredAll_spec (l : List HeldEntry) : ∀ s : State,
    l.foldl State.raiseExpired s = { s with
      hcq := { s.hcq with counters := { s.hcq.counters with
        expired := countedUp 4294967295 s.hcq.counters.expired l.length } },
      evu := s.evuAfter (l.map fun e =>
        (.commandExpired ⟨e.number, e.code, e.argument⟩ e.state e.attempts, none, some e.target, none)) } := by
  induction l with
  | nil => exact fun _ => rfl
  | cons e l ih =>
    intro s
    rw [List.foldl_cons, ih, List.length_cons]
    have hc : countedUp 4294967295 (inc32 s.hcq.counters.expired) l.length
        = countedUp 4294967295 s.hcq.counters.expired (l.length + 1) := by
      show countedUp 4294967295 (min (s.hcq.counters.expired + 1) 4294967295) l.length = _
      unfold countedUp; split <;> split <;> omega
    rw [← hc]; rfl

end Sys2Proof.Machine
end

