-- ==== Sys2Proof/Laws/Intake.lean ====
section
/-! SUPPORT. What each stage of a new frame's completion step does, once: the record it leaves and the events it raises
for its detector, in order (sections 3, 6, 7). -/

namespace Sys2Proof.Machine

/-! ## Events raised for a granted detector -/

/-- An event raised for a detector carries its zone, address and kind (R149). -/
def DetectorRecord.tells (r : DetectorRecord) (b : EventBody) :
    EventBody × Option ZoneNo × Option Address × Option DetectorKind :=
  (b, some r.zone, some r.address, some r.kind)

/-- The step from w to v has raised some events, in order, for w's detector, which is v's still. -/
structure Work.Raises (w v : Work) (records : List EventBody) : Prop where
  evu     : v.st.evu = w.st.evuAfter (records.map w.det.tells)
  clock   : v.st.su.clock = w.st.su.clock
  address : v.det.address = w.det.address
  kind    : v.det.kind = w.det.kind
  zone    : v.det.zone = w.det.zone

theorem Work.Raises.none {w v : Work} (e : v.st.evu = w.st.evu) (c : v.st.su.clock = w.st.su.clock)
    (a : v.det.address = w.det.address) (k : v.det.kind = w.det.kind) (z : v.det.zone = w.det.zone) :
    w.Raises v [] := ⟨e, c, a, k, z⟩

theorem Work.Raises.refl (w : Work) : w.Raises w [] := .none rfl rfl rfl rfl rfl

theorem Work.Raises.one (w : Work) (b : EventBody) : w.Raises (w.raise b) [b] := ⟨rfl, rfl, rfl, rfl, rfl⟩

/-- Two steps one after the other raise the events of the first and then those of the second. -/
theorem Work.Raises.trans {w v u : Work} {l m : List EventBody} (h : w.Raises v l) (k : v.Raises u m) :
    w.Raises u (l ++ m) := by
  refine ⟨?_, k.clock.trans h.clock, k.address.trans h.address, k.kind.trans h.kind, k.zone.trans h.zone⟩
  have tells : v.det.tells = w.det.tells := by
    funext b; unfold DetectorRecord.tells; rw [h.address, h.kind, h.zone]
  rw [k.evu, tells, List.map_append]
  unfold State.evuAfter State.eventRecord State.now
  rw [List.foldl_append, h.clock, h.evu]
  rfl

theorem Work.Raises.of_eq {w v : Work} {l m : List EventBody} (h : w.Raises v l) (e : l = m) : w.Raises v m := e ▸ h

/-! ## The stages -/

/-- A passing tag ends a run of failures (R56). -/
theorem Work.passed_spec (w : Work) :
    w.passed.det = { w.det with failureRun := 0 } ∧ OnlyEvu w.st w.passed.st
      ∧ w.Raises w.passed (if w.det.failureRun = 3 then [.integrityOk] else []) := by
  unfold Work.passed; dsimp only
  split
  · exact ⟨rfl, rfl, rfl, rfl, rfl, rfl, rfl⟩
  · exact ⟨rfl, rfl, rfl, rfl, rfl, rfl, rfl⟩

/-- The weak count follows the signal margin, with LOW_SIGNAL at the fourth weak frame and SIGNAL_OK after four (R62). -/
theorem Work.weigh_spec (w : Work) (p : Path) :
    let weak := p.signal < w.st.pages.air.signalMargin
    (w.weigh p).det = { w.det with weakCount := if weak then min (w.det.weakCount + 1) 8 else 0 }
      ∧ OnlyEvu w.st (w.weigh p).st
      ∧ w.Raises (w.weigh p)
          (if weak then (if w.det.weakCount = 3 then [.lowSignal p.signal p.hop] else [])
           else if 4 ≤ w.det.weakCount then [.signalOk p.signal p.hop] else []) := by
  unfold Work.weigh; dsimp only
  by_cases h : p.signal < w.st.pages.air.signalMargin
  · repeat rw [if_pos h]
    split
    · exact ⟨rfl, rfl, rfl, rfl, rfl, rfl, rfl⟩
    · exact ⟨rfl, rfl, rfl, rfl, rfl, rfl, rfl⟩
  · repeat rw [if_neg h]
    split
    · exact ⟨rfl, rfl, rfl, rfl, rfl, rfl, rfl⟩
    · exact ⟨rfl, rfl, rfl, rfl, rfl, rfl, rfl⟩

/-- Presence and deadline at a frame of an enabled record (R121). -/
theorem Work.refreshPresence_spec (w : Work) :
    let missing := w.det.presence = .missing
    w.refreshPresence.det = { w.det.refreshed w.st.now with presence := .present }
      ∧ w.refreshPresence.st = { w.st with
          su := { w.st.su with missing := if missing then w.st.su.missing - 1 else w.st.su.missing },
          evu := w.refreshPresence.st.evu }
      ∧ w.Raises w.refreshPresence (if missing then [.detectorPresent w.det.deadline] else []) := by
  unfold Work.refreshPresence; dsimp only
  by_cases h : w.det.presence = .missing
  · repeat rw [if_pos h]
    exact ⟨rfl, rfl, rfl, rfl, rfl, rfl, rfl⟩
  · repeat rw [if_neg h]
    exact ⟨rfl, rfl, rfl, rfl, rfl, rfl, rfl⟩

/-- The battery flag at a frame of an enabled record (R122). -/
theorem Work.checkBattery_spec (w : Work) (low : Bool) :
    (w.checkBattery low).det = { w.det with battery := if low then .low else .ok }
      ∧ OnlyEvu w.st (w.checkBattery low).st
      ∧ w.Raises (w.checkBattery low)
          ((if low ∧ w.det.battery = .ok then [.batteryLow] else [])
            ++ if ¬ low ∧ w.det.battery = .low then [.batteryOk] else []) := by
  have same : ∀ b, w.det.battery = b → w.det = { w.det with battery := b } := by intro b hb; subst hb; rfl
  unfold Work.checkBattery
  cases h : w.det.battery <;> cases low
  · exact ⟨same _ h, rfl, .refl w⟩
  · exact ⟨rfl, rfl, rfl, rfl, rfl, rfl, rfl⟩
  · exact ⟨rfl, rfl, rfl, rfl, rfl, rfl, rfl⟩
  · exact ⟨same _ h, rfl, .refl w⟩

/-- The tamper flag at a frame of an enabled record (R122). -/
theorem Work.checkTamper_spec (w : Work) (isOpen : Bool) :
    (w.checkTamper isOpen).det = { w.det with tamper := if isOpen then .opened else .closed }
      ∧ OnlyEvu w.st (w.checkTamper isOpen).st
      ∧ w.Raises (w.checkTamper isOpen)
          ((if isOpen ∧ w.det.tamper = .closed then [.tamperOpen] else [])
            ++ if ¬ isOpen ∧ w.det.tamper = .opened then [.tamperClosed] else []) := by
  have same : ∀ b, w.det.tamper = b → w.det = { w.det with tamper := b } := by intro b hb; subst hb; rfl
  unfold Work.checkTamper
  cases h : w.det.tamper <;> cases isOpen
  · exact ⟨same _ h, rfl, .refl w⟩
  · exact ⟨rfl, rfl, rfl, rfl, rfl, rfl, rfl⟩
  · exact ⟨rfl, rfl, rfl, rfl, rfl, rfl, rfl⟩
  · exact ⟨same _ h, rfl, .refl w⟩

/-- SU's part of a new frame (R121 to R123): a disabled record has its deadline refreshed and nothing else. -/
theorem Work.supervise_spec (w : Work) (f : RadioFrame) :
    let low := f.batteryLow
    let isOpen := f.tamperOpen
    let r := w.det
    let returns := r.enabled = true ∧ r.presence = .missing
    (w.supervise f).det = { r.refreshed w.st.now with
        presence := if r.enabled then .present else r.presence,
        battery := if r.enabled then (if low then .low else .ok) else r.battery,
        tamper := if r.enabled then (if isOpen then .opened else .closed) else r.tamper }
      ∧ (w.supervise f).st = { w.st with
          su := { w.st.su with missing := if returns then w.st.su.missing - 1 else w.st.su.missing },
          evu := (w.supervise f).st.evu }
      ∧ w.Raises (w.supervise f) (if r.enabled then
          (if r.presence = .missing then [.detectorPresent r.deadline] else [])
            ++ (if low ∧ r.battery = .ok then [.batteryLow] else [])
            ++ (if ¬ low ∧ r.battery = .low then [.batteryOk] else [])
            ++ (if isOpen ∧ r.tamper = .closed then [.tamperOpen] else [])
            ++ (if ¬ isOpen ∧ r.tamper = .opened then [.tamperClosed] else [])
          else []) := by
  dsimp only; unfold Work.supervise
  by_cases h : w.det.enabled = true
  · repeat rw [if_pos h]
    obtain ⟨p1, p2, p3⟩ := w.refreshPresence_spec
    obtain ⟨b1, b2, b3⟩ := w.refreshPresence.checkBattery_spec f.batteryLow
    obtain ⟨t1, t2, t3⟩ := (w.refreshPresence.checkBattery f.batteryLow).checkTamper_spec f.tamperOpen
    refine ⟨?_, ?_, ((p3.trans b3).trans t3).of_eq ?_⟩
    · rw [t1, b1, p1]
    · unfold OnlyEvu at t2 b2
      rw [t2, b2, p2]
      by_cases k : w.det.presence = .missing
      · rw [if_pos k, if_pos ⟨h, k⟩]
      · rw [if_neg k, if_neg (fun c => k c.2)]
    · rw [b1, p1]; simp only [List.append_assoc]; rfl
  · repeat rw [if_neg h]
    refine ⟨rfl, ?_, rfl, rfl, rfl, rfl, rfl⟩
    rw [if_neg (fun c => h c.1)]

/-- The sounder check of a reported pattern (R147). -/
theorem Work.sounderCheck_spec (w : Work) (p : Nat) :
    let expected := w.st.hcq.expectedPattern w.det.zone
    (w.sounderCheck p).det = { w.det with
        sounderPattern := p, mismatchRun := if p = expected then 0 else min (w.det.mismatchRun + 1) 2 }
      ∧ OnlyEvu w.st (w.sounderCheck p).st
      ∧ w.Raises (w.sounderCheck p)
          (if p = expected then (if w.det.mismatchRun = 2 then [.sounderMatch p expected] else [])
           else if w.det.mismatchRun = 1 then [.sounderMismatch p expected] else []) := by
  unfold Work.sounderCheck; dsimp only
  by_cases h : p = w.st.hcq.expectedPattern w.det.zone
  · repeat rw [if_pos h]
    split
    · exact ⟨rfl, rfl, rfl, rfl, rfl, rfl, rfl⟩
    · exact ⟨rfl, rfl, rfl, rfl, rfl, rfl, rfl⟩
  · repeat rw [if_neg h]
    split
    · exact ⟨rfl, rfl, rfl, rfl, rfl, rfl, rfl⟩
    · exact ⟨rfl, rfl, rfl, rfl, rfl, rfl, rfl⟩

/-! ## The echo judgement -/

/-- What a completed command writes (R141). -/
def DetectorRecord.completing (r : DetectorRecord) (code : HeldCode) (argument now : Nat) (epoch : BitVec 8) :
    DetectorRecord :=
  let normal := code = .testEnter ∨ (code = .testExit ∧ r.test = true)
  { r with
    period := if code = .setPeriod then argument else r.period,
    deadline := if code = .setPeriod then clockAdd now (argument * r.misses) else r.deadline,
    test := if code = .testEnter then true else if code = .testExit then false else r.test,
    level := if normal then .normal else r.level,
    levelEpoch := if normal then epoch else r.levelEpoch }

/-- What a completed command does (R141): TEST_ENTER takes a counted record out of its zone's count. -/
theorem Work.completeCommand_spec (w : Work) (e : HeldEntry) :
    let v := w.st.zone w.det.zone
    let uncounts := e.code = .testEnter ∧ w.det.counted v.epoch = true
    let falls := v.raised ≤ 1 ∧ v.enabled = true ∧ v.state = .pre
    (w.completeCommand e).det = w.det.completing e.code e.argument.toNat w.st.now v.epoch
      ∧ OnlyZones w.st (w.completeCommand e).st
      ∧ (¬ uncounts → (w.completeCommand e).st.zones = w.st.zones)
      ∧ (uncounts → ZoneBecomes w.st (w.completeCommand e).st w.det.zone
          { v with raised := v.raised - 1, state := if falls then .quiet else v.state })
      ∧ w.Raises (w.completeCommand e) (if uncounts ∧ falls then [.zoneQuiet] else []) := by
  intro v uncounts falls
  have other : (w.completeCommand e).st = w.st → (w.completeCommand e).det.address = w.det.address →
      (w.completeCommand e).det.kind = w.det.kind → (w.completeCommand e).det.zone = w.det.zone → ¬ uncounts →
      OnlyZones w.st (w.completeCommand e).st
      ∧ (¬ uncounts → (w.completeCommand e).st.zones = w.st.zones)
      ∧ (uncounts → ZoneBecomes w.st (w.completeCommand e).st w.det.zone
          { v with raised := v.raised - 1, state := if falls then .quiet else v.state })
      ∧ w.Raises (w.completeCommand e) (if uncounts ∧ falls then [.zoneQuiet] else []) := by
    intro hs ha hk hz hu
    have hn : (if uncounts ∧ falls then [EventBody.zoneQuiet] else []) = [] := if_neg (fun h => hu h.1)
    rw [hn, hs]
    exact ⟨OnlyZones.refl _, fun _ => rfl, fun h => absurd h hu, .none (by rw [hs]) (by rw [hs]) ha hk hz⟩
  obtain ⟨code, hc⟩ : ∃ c, e.code = c := ⟨_, rfl⟩
  cases code with
  | testEnter =>
    by_cases hu : w.det.counted v.epoch = true
    · have h : w.completeCommand e = ⟨w.st.zoneDecrement w.det.zone w.det.address (some w.det.kind),
          { w.det.levelNormal v.epoch with test := true }⟩ := by
        unfold Work.completeCommand; rw [hc]; dsimp only; rw [if_pos hu]
      have hun : uncounts := ⟨hc, hu⟩
      obtain ⟨z1, z2, _⟩ := w.st.zoneDecrement_spec w.det.zone w.det.address (some w.det.kind)
      have frame := w.st.zoneDecrement_frame w.det.zone w.det.address (some w.det.kind)
      rw [h]
      refine ⟨by rw [hc]; rfl, frame, fun k => absurd hun k, fun _ => z1, ?_, congrArg Su.clock frame.su_eq, rfl, rfl, rfl⟩
      dsimp only; rw [z2]
      by_cases hf : falls
      · rw [if_pos hf, if_pos ⟨hun, hf⟩]; rfl
      · rw [if_neg hf, if_neg (fun k => hf k.2)]; rfl
    · have h : w.completeCommand e = ⟨w.st, { w.det.levelNormal v.epoch with test := true }⟩ := by
        unfold Work.completeCommand; rw [hc]; dsimp only; rw [if_neg hu]
      exact ⟨by rw [h, hc]; rfl, other (by rw [h]) (by rw [h]; rfl) (by rw [h]; rfl) (by rw [h]; rfl) (fun k => hu k.2)⟩
  | testExit =>
    by_cases ht : w.det.test = true
    · have h : w.completeCommand e = ⟨w.st, { w.det.levelNormal v.epoch with test := false }⟩ := by
        unfold Work.completeCommand; rw [hc]; dsimp only; rw [if_pos ht]
      refine ⟨?_, other (by rw [h]) (by rw [h]; rfl) (by rw [h]; rfl) (by rw [h]; rfl)
        (fun k => absurd (hc.symm.trans k.1) (by decide))⟩
      rw [h, hc]; unfold DetectorRecord.completing; dsimp only
      have hn : HeldCode.testExit = .testEnter ∨ (HeldCode.testExit = .testExit ∧ w.det.test = true) :=
        .inr ⟨rfl, ht⟩
      rw [if_pos hn, if_pos hn]; rfl
    · have h : w.completeCommand e = w := by
        unfold Work.completeCommand; rw [hc]; dsimp only; rw [if_neg ht]
      refine ⟨?_, other (by rw [h]) (by rw [h]) (by rw [h]) (by rw [h])
        (fun k => absurd (hc.symm.trans k.1) (by decide))⟩
      rw [h, hc]; unfold DetectorRecord.completing; dsimp only
      have hn : ¬ (HeldCode.testExit = .testEnter ∨ (HeldCode.testExit = .testExit ∧ w.det.test = true)) := by
        rintro (k | k)
        · exact absurd k (by decide)
        · exact ht k.2
      rw [if_neg hn, if_neg hn]
      have same : ∀ b, w.det.test = b → w.det = { w.det with test := b } := by intro b hb; subst hb; rfl
      exact same _ (by simpa using ht)
  | setPeriod =>
    have h : w.completeCommand e = ⟨w.st, { w.det with period := e.argument.toNat }.refreshed w.st.now⟩ := by
      unfold Work.completeCommand; rw [hc]
    exact ⟨by rw [h, hc]; rfl, other (by rw [h]) (by rw [h]; rfl) (by rw [h]; rfl) (by rw [h]; rfl)
      (fun k => absurd (hc.symm.trans k.1) (by decide))⟩
  | locate =>
    have h : w.completeCommand e = w := by unfold Work.completeCommand; rw [hc]
    exact ⟨by rw [h, hc]; rfl, other (by rw [h]) (by rw [h]) (by rw [h]) (by rw [h])
      (fun k => absurd (hc.symm.trans k.1) (by decide))⟩
  | sounderPattern =>
    have h : w.completeCommand e = w := by unfold Work.completeCommand; rw [hc]
    exact ⟨by rw [h, hc]; rfl, other (by rw [h]) (by rw [h]) (by rw [h]) (by rw [h])
      (fun k => absurd (hc.symm.trans k.1) (by decide))⟩

/-- The SENT entry of an address is the first that is. -/
theorem Hcq.sentEntry_split {q : Hcq} {a : Address} {before after : List HeldEntry} {x : HeldEntry}
    (hq : q.entries = before ++ x :: after) (hx : x.target = a) (hs : x.state = .sent)
    (hb : ∀ y ∈ before, ¬ (y.target = a ∧ y.state = .sent)) :
    q.sentEntry a = some x ∧ q.removeSent a = { q with entries := before ++ after }
      ∧ ∀ g, modifyFirst (fun e => e.sentTo a) g q.entries = before ++ g x :: after := by
  have hxt : x.sentTo a = true := by simp [HeldEntry.sentTo, hx, hs]
  have hbt : ∀ y ∈ before, y.sentTo a = false := by
    intro y hy
    rw [Bool.eq_false_iff]; intro hc
    simp only [HeldEntry.sentTo, Bool.and_eq_true, beq_iff_eq] at hc
    exact hb y hy hc
  refine ⟨?_, ?_, fun g => ?_⟩
  · unfold Hcq.sentEntry; rw [List.find?_eq_some_iff_append]
    exact ⟨hxt, before, after, hq, fun y hy => by rw [hbt y hy]; rfl⟩
  · unfold Hcq.removeSent; rw [hq]
    congr 1
    clear hq hb
    induction before with
    | nil => simp [hxt]
    | cons y l ih => simp [hbt y List.mem_cons_self, ih (fun z hz => hbt z (List.mem_cons_of_mem _ hz))]
  · rw [hq, modifyFirst_split _ _ _ _ _ hbt hxt]

/-- Without a SENT entry for the address the echo judgement does nothing (R140). -/
theorem Work.judgeEcho_none (w : Work) (d : Byte) (h : w.st.hcq.sentEntry w.det.address = none) : w.judgeEcho d = w := by
  unfold Work.judgeEcho; rw [h]

/-- The done number is the SENT entry's (R140, R141): the entry is removed with COMMAND_DONE and takes effect. -/
theorem Work.judgeEcho_done (w : Work) (d : Byte) (x : HeldEntry) (h : w.st.hcq.sentEntry w.det.address = some x)
    (hd : d = x.number) :
    let v := w.st.zone w.det.zone
    let uncounts := x.code = .testEnter ∧ w.det.counted v.epoch = true
    let falls := v.raised ≤ 1 ∧ v.enabled = true ∧ v.state = .pre
    let u := w.judgeEcho d
    u.det = w.det.completing x.code x.argument.toNat w.st.now v.epoch
      ∧ OnlyNotices w.st u.st
      ∧ u.st.hcq = { w.st.hcq.removeSent w.det.address with
          counters := { w.st.hcq.counters with done := min (w.st.hcq.counters.done + 1) 4294967295 } }
      ∧ (¬ uncounts → u.st.zones = w.st.zones)
      ∧ (uncounts → ZoneBecomes w.st u.st w.det.zone
          { v with raised := v.raised - 1, state := if falls then .quiet else v.state })
      ∧ w.Raises u (.commandDone ⟨x.number, x.code, x.argument⟩ x.attempts
          :: if uncounts ∧ falls then [.zoneQuiet] else []) := by
  intro v uncounts falls u
  have ht : x.target = w.det.address := by
    have := List.find?_some h
    simp only [HeldEntry.sentTo, Bool.and_eq_true, beq_iff_eq] at this; exact this.1
  let w1 : Work := { w with st := { w.st with hcq := { w.st.hcq.removeSent x.target with
    counters := { w.st.hcq.counters with done := inc32 w.st.hcq.counters.done } } } }
  let w2 := w1.raise (.commandDone x.attachment x.attempts)
  have hu : u = w2.completeCommand x := by
    show w.judgeEcho d = _
    unfold Work.judgeEcho; rw [h]; dsimp only; rw [if_pos hd]; rfl
  have r : w.Raises w2 [.commandDone ⟨x.number, x.code, x.argument⟩ x.attempts] := ⟨rfl, rfl, rfl, rfl, rfl⟩
  obtain ⟨c1, c2, c3, c4, c5⟩ := w2.completeCommand_spec x
  rw [hu]
  refine ⟨c1, ?_, ?_, c3, c4, r.trans c5⟩
  · exact OnlyNotices.trans (t := w2.st) rfl c2.notices
  · rw [c2.hcq_eq, ← ht]; rfl

/-- The done number differs (R140): an attempt is counted and the entry waits again, or is removed at the limit. -/
theorem Work.judgeEcho_missed (w : Work) (d : Byte) (x : HeldEntry) (h : w.st.hcq.sentEntry w.det.address = some x)
    (hd : d ≠ x.number) :
    let fails := w.st.pages.timing.attemptLimit ≤ x.attempts + 1
    let u := w.judgeEcho d
    u.det = w.det ∧ OnlyHcq w.st u.st
      ∧ (fails → u.st.hcq = { w.st.hcq.removeSent w.det.address with counters :=
          { w.st.hcq.counters with failedNoEcho := min (w.st.hcq.counters.failedNoEcho + 1) 4294967295 } })
      ∧ (¬ fails → u.st.hcq = { w.st.hcq with
          entries := modifyFirst (fun e => e.sentTo w.det.address)
            (fun e => { e with state := .waiting, attempts := x.attempts + 1 }) w.st.hcq.entries })
      ∧ w.Raises u (if fails then
          [.commandFailed .noEcho ⟨x.number, x.code, x.argument⟩ none (x.attempts + 1)] else []) := by
  intro fails u
  have ht : x.target = w.det.address := by
    have := List.find?_some h
    simp only [HeldEntry.sentTo, Bool.and_eq_true, beq_iff_eq] at this; exact this.1
  have hu : u = w.echoMissed x := by
    show w.judgeEcho d = _
    unfold Work.judgeEcho; rw [h]; dsimp only; rw [if_neg hd]
  rw [hu]; unfold Work.echoMissed; dsimp only; rw [ht]
  by_cases hf : fails
  · repeat rw [if_pos hf]
    exact ⟨rfl, rfl, fun _ => rfl, fun k => absurd hf k, rfl, rfl, rfl, rfl, rfl⟩
  · repeat rw [if_neg hf]
    exact ⟨rfl, rfl, fun k => absurd k hf, fun _ => rfl, rfl, rfl, rfl, rfl, rfl⟩

/-! ## Level processing -/

/-- Level processing writes the level, its stamp, the baseline, the drift flag and the last reported value of the record
and nothing else of it (R86). -/
theorem Work.level_det (w : Work) (q : SeqNo) (c : Content) :
    (w.level q c).det = { w.det with
      level := (w.level q c).det.level, levelEpoch := (w.level q c).det.levelEpoch,
      baseline := (w.level q c).det.baseline, driftFault := (w.level q c).det.driftFault,
      lastReported := (w.level q c).det.lastReported } := by
  let Same (r t : DetectorRecord) : Prop := t = { r with
    level := t.level, levelEpoch := t.levelEpoch, baseline := t.baseline, driftFault := t.driftFault,
    lastReported := t.lastReported }
  have trans : ∀ {r t u : DetectorRecord}, Same r t → Same t u → Same r u := by
    intro r t u h k; show u = _; rw [show u = _ from k, show t = _ from h]
  have drift : ∀ (w : Work) o, Same w.det (w.driftOf o).det := by
    intro w o; unfold Work.driftOf; split
    · rfl
    · unfold Work.checkDrift; dsimp only; repeat' split
      all_goals rfl
  have hands : ∀ (w : Work) b r, (w.handOn b r).det = w.det := by
    intro w b r; unfold Work.handOn Work.transition; dsimp only; repeat' split
    all_goals rfl
  have reports : ∀ (w : Work) o, Same w.det (w.reportValue q o).det := by
    intro w o; unfold Work.reportValue; repeat' split
    all_goals rfl
  show Same w.det (w.level q c).det
  unfold Work.level; repeat' split
  · rfl
  · next r _ =>
    unfold Work.applyReading; dsimp only
    generalize hw : ({ w with det := { w.det with level := r.level, levelEpoch := (w.st.zone w.det.zone).epoch } } :
      Work) = w1
    have h1 : Same w.det w1.det := by rw [← hw]
    refine trans (trans h1 (drift w1 r.drift)) ?_
    rw [← hands (w1.driftOf r.drift) (w.det.currentLevel (w.st.zone w.det.zone).epoch) r]
    exact reports _ _
  · rfl

/-- Which pattern a frame hands on, if any (R63, R64). -/
theorem contentOf_pattern (k : DetectorKind) (f : RadioFrame) (p : Nat) :
    contentOf k f = .pattern p ↔ k = .sounder ∧ f.kind = 4 ∧ p ≤ 7 ∧ (byteAt f.payload 0).toNat = p := by
  have code : FrameKind.ofCode f.kind = some .sounderState ↔ f.kind = 4 := by
    constructor
    · intro h; revert h; generalize f.kind = b; revert b; decide
    · intro h; rw [h]; rfl
  unfold contentOf; dsimp only
  constructor
  · intro h
    split at h <;> (try split at h) <;> (try split at h) <;> cases h
    exact ⟨rfl, code.mp (by assumption), by assumption, rfl⟩
  · rintro ⟨h1, h2, h3, h4⟩
    rw [h1, code.mpr h2]; dsimp only; rw [if_pos (by omega), h4]

/-- The frames that suit no record of their kind (R63). -/
theorem contentOf_mismatch (k : DetectorKind) (f : RadioFrame) :
    let reported := (f.payload.headD 0).toNat
    contentOf k f ≠ .mismatch ↔ f.kind = 0 ∨ match k with
      | .smoke => f.kind = 1
      | .heat => f.kind = 1
      | .multi => f.kind = 2
      | .callpoint => f.kind = 3 ∧ reported ≤ 1
      | .sounder => f.kind = 4 ∧ reported ≤ 7
      | .relay => False := by
  intro reported
  have hr : (byteAt f.payload 0).toNat = reported := by
    unfold byteAt; simp only [reported]; cases f.payload <;> rfl
  have code : FrameKind.ofCode f.kind = if f.kind = 0 then some .check else if f.kind = 1 then some .reading
      else if f.kind = 2 then some .dualReading else if f.kind = 3 then some .callState
      else if f.kind = 4 then some .sounderState else none := by
    generalize f.kind = b; revert b; decide
  unfold contentOf; rw [code]; dsimp only; rw [hr]
  by_cases k0 : f.kind = 0
  · rw [k0]; cases k <;> simp
  by_cases k1 : f.kind = 1
  · rw [k1]; cases k <;> simp
  by_cases k2 : f.kind = 2
  · rw [k2]; cases k <;> simp
  by_cases k3 : f.kind = 3
  · rw [k3]; cases k <;> simp
    rcases (by omega : reported = 0 ∨ reported = 1 ∨ 2 ≤ reported) with h0 | h1 | h2
    · rw [h0]; simp
    · rw [h1]; simp
    · rw [if_neg (by omega), if_neg (by omega)]; simp; omega
  by_cases k4 : f.kind = 4
  · rw [k4]; cases k <;> simp
  · rw [if_neg k0, if_neg k1, if_neg k2, if_neg k3, if_neg k4]
    refine ⟨fun h => absurd (by cases k <;> rfl) h, ?_⟩
    rintro (h | h)
    · exact absurd h k0
    · cases k
      · exact absurd h k1
      · exact absurd h k1
      · exact absurd h k2
      · exact absurd h.1 k3
      · exact absurd h.1 k4
      · exact h.elim

/-! ## What a reading does -/

/-- The reading a frame is for LVP, by its kind and the record's (R63, R71, R72). -/
theorem State.readingOf_frame (s : State) (d : DetectorRecord) (f : RadioFrame) :
    let z := s.zone d.zone
    let S := if z.service then z.offset else 0
    let c := d.currentLevel z.epoch
    let r := (f.payload.headD 0).toNat
    let h := (f.payload.getD 1 0).toNat
    s.readingOf d (contentOf d.kind f) = match d.kind with
      | .smoke => if f.kind = 1 then some (smokeReading s.pages.levels d.baseline S c r) else none
      | .heat => if f.kind = 1 then some (heatReading s.pages.levels c r) else none
      | .multi => if f.kind = 2 then some (multiReading s.pages.levels d.baseline S c r h) else none
      | .callpoint => if f.kind = 3 ∧ r ≤ 1 then some (callReading (decide (r = 1))) else none
      | .sounder => none
      | .relay => none := by
  intro z S c r h
  have code : FrameKind.ofCode f.kind = if f.kind = 0 then some .check else if f.kind = 1 then some .reading
      else if f.kind = 2 then some .dualReading else if f.kind = 3 then some .callState
      else if f.kind = 4 then some .sounderState else none := by
    generalize f.kind = b; revert b; decide
  have hr : (byteAt f.payload 0).toNat = r := by
    unfold byteAt; simp only [r]; cases f.payload <;> rfl
  unfold contentOf; rw [code]; dsimp only; rw [hr]
  by_cases k0 : f.kind = 0
  · rw [k0]; cases d.kind <;> rfl
  by_cases k1 : f.kind = 1
  · rw [k1]; cases d.kind <;> rfl
  by_cases k2 : f.kind = 2
  · rw [k2]; cases d.kind <;> rfl
  by_cases k3 : f.kind = 3
  · rw [k3]; cases d.kind <;> try rfl
    rcases (by omega : r = 0 ∨ r = 1 ∨ 2 ≤ r) with h0 | h1 | h2
    · rw [h0]; rfl
    · rw [h1]; rfl
    · rw [if_neg (by omega : ¬ r = 0), if_neg (by omega : ¬ r = 1)]
      show none = if (3 : Byte) = 3 ∧ r ≤ 1 then _ else none
      rw [if_neg (by omega)]
  by_cases k4 : f.kind = 4
  · rw [k4]; cases d.kind <;> try rfl
    change s.readingOf d (if r ≤ 7 then .pattern r else .mismatch) = none
    split <;> rfl
  · rw [if_neg k0, if_neg k1, if_neg k2, if_neg k3, if_neg k4]
    cases d.kind
    · exact (if_neg k1).symm
    · exact (if_neg k1).symm
    · exact (if_neg k2).symm
    · exact (if_neg fun k => k3 k.1).symm
    · rfl
    · rfl

/-- The events of the drift check (R84). -/
def DetectorRecord.drifts (r : DetectorRecord) : Option (Nat × Nat) → List EventBody
  | none => []
  | some (B, D) =>
    if r.driftFault = false ∧ D < (B + 8) / 16 then [.driftLimit ((B + 8) / 16) D]
    else if r.driftFault = true ∧ (B + 8) / 16 ≤ D - 4 then [.driftCleared ((B + 8) / 16) D]
    else []

/-- The value a reading reports, if it reports one (R85). -/
def DetectorRecord.reports (r : DetectorRecord) : Option (ReportSet × Nat) → Option Nat
  | none => none
  | some (p, n) =>
    if p.mode = .all ∨ (p.mode = .band ∧ ∀ l ∈ r.lastReported, p.delta ≤ max n l - min n l) then some n else none

/-- The drift check (R84), with the baseline written first (R76). -/
theorem Work.driftOf_spec (w : Work) (o : Option (Nat × Nat)) :
    (w.driftOf o).det = { w.det with
        baseline := match o with
          | none => w.det.baseline
          | some (B, _) => some B,
        driftFault := match o with
          | none => w.det.driftFault
          | some (B, D) =>
            if D < (B + 8) / 16 then true else if (B + 8) / 16 ≤ D - 4 then false else w.det.driftFault }
      ∧ (w.driftOf o).st = { w.st with evu := (w.driftOf o).st.evu }
      ∧ w.Raises (w.driftOf o) (w.det.drifts o) := by
  rcases o with _ | ⟨B, D⟩
  · exact ⟨rfl, rfl, .refl w⟩
  · have one (v : Work) (l : List EventBody) (d : DetectorRecord) (h : v.det = d) (h' : v.st = { w.st with evu := v.st.evu })
        (k : w.Raises v l) (e : w.det.drifts (some (B, D)) = l) : v.det = d ∧ v.st = { w.st with evu := v.st.evu }
          ∧ w.Raises v (w.det.drifts (some (B, D))) := ⟨h, h', e ▸ k⟩
    unfold Work.driftOf Work.checkDrift rounded; dsimp only
    by_cases h1 : D < (B + 8) / 16
    · have h2 : ¬ (B + 8) / 16 ≤ D - 4 := by omega
      rw [if_pos h1]
      cases hf : w.det.driftFault
      · rw [if_pos ⟨by decide, h1⟩]
        exact one _ [.driftLimit ((B + 8) / 16) D] _ rfl rfl ⟨rfl, rfl, rfl, rfl, rfl⟩ (if_pos ⟨hf, h1⟩)
      · rw [if_neg (fun k => k.1 rfl), if_neg (fun k => h2 k.2)]
        exact one _ [] _ (by rw [← hf]) rfl ⟨rfl, rfl, rfl, rfl, rfl⟩
          ((if_neg fun k => by rw [hf] at k; cases k.1).trans (if_neg fun k => h2 k.2))
    · rw [if_neg h1, if_neg (fun k => h1 k.2)]
      by_cases h2 : (B + 8) / 16 ≤ D - 4
      · rw [if_pos h2]
        cases hf : w.det.driftFault
        · rw [if_neg (fun k => by cases k.1)]
          exact one _ [] _ (by rw [← hf]) rfl ⟨rfl, rfl, rfl, rfl, rfl⟩
            ((if_neg fun k => h1 k.2).trans (if_neg fun k => by rw [hf] at k; cases k.1))
        · rw [if_pos ⟨rfl, h2⟩]
          exact one _ [.driftCleared ((B + 8) / 16) D] _ rfl rfl ⟨rfl, rfl, rfl, rfl, rfl⟩
            ((if_neg fun k => h1 k.2).trans (if_pos ⟨hf, h2⟩))
      · rw [if_neg h2, if_neg (fun k => h2 k.2)]
        exact one _ [] _ rfl rfl ⟨rfl, rfl, rfl, rfl, rfl⟩ ((if_neg fun k => h1 k.2).trans (if_neg fun k => h2 k.2))

/-- What a level means for EVU and for the zone (R81, R82): a transition closes the context and raises DETECTOR_STATE,
and reaches ZU outside test; an ALARM that stays is told to ZU. -/
theorem Work.handOn_spec (w : Work) (before : Level) (x : Reading) :
    (w.handOn before x).det = w.det
      ∧ ∃ u : State,
        u = { w.st with
          evu := if x.level = before then w.st.evu else (w.st.evu.closeFor w.st.now .transition w.det.address).take w.st.now
            (w.st.eventRecord (.detectorState before x.level x.smoke x.other w.det.test) (some w.det.zone)
              (some w.det.address) (some w.det.kind)) }
        ∧ (w.det.test = true → (w.handOn before x).st = u)
        ∧ (w.det.test = false → x.level ≠ before →
            (w.handOn before x).st = u.zoneTransition w.det.zone w.det.address w.det.kind before x.level)
        ∧ (w.det.test = false → x.level = before → before = .alarm →
            (w.handOn before x).st = u.zoneStaysAlarm w.det.zone w.det.address w.det.kind)
        ∧ (w.det.test = false → x.level = before → before ≠ .alarm → (w.handOn before x).st = u) := by
  refine ⟨?_, _, rfl, ?_⟩
  · unfold Work.handOn Work.transition; dsimp only; repeat' split
    all_goals rfl
  · unfold Work.handOn Work.transition; dsimp only
    by_cases hl : x.level = before
    · rw [if_neg (not_not.mpr hl), if_pos hl]
      refine ⟨fun ht => ?_, fun _ h => absurd hl h, fun ht _ ha => ?_, fun _ _ ha => ?_⟩
      · rw [if_neg (fun h => h.2 ht)]
      · rw [if_pos ⟨ha, by rw [ht]; decide⟩]
      · rw [if_neg (fun h => ha h.1)]
    · rw [if_pos hl, if_neg hl]
      refine ⟨fun ht => ?_, fun ht _ => ?_, fun _ h => absurd h hl, fun _ h => absurd h hl⟩
      · rw [if_pos ht]; rfl
      · rw [if_neg (by rw [ht]; decide)]; rfl

/-- Band reporting (R85). -/
theorem Work.reportValue_spec (w : Work) (q : SeqNo) (o : Option (ReportSet × Nat)) :
    (w.reportValue q o).det = { w.det with
        lastReported := if (w.det.reports o).isSome then w.det.reports o else w.det.lastReported }
      ∧ (w.reportValue q o).st = { w.st with evu := match w.det.reports o with
          | none => w.st.evu
          | some n => w.st.evu.report w.st.now w.det.address w.det.zone w.det.kind q n } := by
  rcases o with _ | ⟨p, n⟩
  · exact ⟨rfl, rfl⟩
  · have hp : p.reports w.det.lastReported n = true ↔
        (p.mode = .all ∨ (p.mode = .band ∧ ∀ l ∈ w.det.lastReported, p.delta ≤ max n l - min n l)) := by
      unfold ReportSet.reports
      cases p.mode <;> cases w.det.lastReported <;> simp
    by_cases h : p.reports w.det.lastReported n = true
    · have e1 : w.det.reports (some (p, n)) = some n := if_pos (hp.mp h)
      have e2 : w.reportValue q (some (p, n)) =
          { st := { w.st with evu := w.st.evu.report w.st.now w.det.address w.det.zone w.det.kind q n },
            det := { w.det with lastReported := some n } } := if_pos h
      rw [e1, e2]; exact ⟨rfl, rfl⟩
    · have e1 : w.det.reports (some (p, n)) = none := if_neg fun k => h (hp.mpr k)
      have e2 : w.reportValue q (some (p, n)) = w := if_neg h
      rw [e1, e2]; exact ⟨rfl, rfl⟩

/-- Level processing of a record that has a reading (R86): the record it leaves; EVU's drift and DETECTOR_STATE records,
in u; what the level means for the zones, in y; and the reported value. -/
theorem Work.applyReading_spec (w : Work) (q : SeqNo) (x : Reading) :
    let epoch := (w.st.zone w.det.zone).epoch
    let before := w.det.currentLevel epoch
    let told := w.det.reports x.report
    (w.applyReading q x).det = { w.det with
        level := x.level, levelEpoch := epoch,
        baseline := match x.drift with
          | none => w.det.baseline
          | some (B, _) => some B,
        driftFault := match x.drift with
          | none => w.det.driftFault
          | some (B, D) =>
            if D < (B + 8) / 16 then true else if (B + 8) / 16 ≤ D - 4 then false else w.det.driftFault,
        lastReported := if told.isSome then told else w.det.lastReported }
      ∧ ∃ u y : State,
        u = { w.st with
          evu := if x.level = before then w.st.evuAfter ((w.det.drifts x.drift).map w.det.tells) else
            ((w.st.evuAfter ((w.det.drifts x.drift).map w.det.tells)).closeFor w.st.now .transition w.det.address).take
              w.st.now (w.st.eventRecord (.detectorState before x.level x.smoke x.other w.det.test) (some w.det.zone)
                (some w.det.address) (some w.det.kind)) }
        ∧ (w.det.test = true → y = u)
        ∧ (w.det.test = false → x.level ≠ before →
            y = u.zoneTransition w.det.zone w.det.address w.det.kind before x.level)
        ∧ (w.det.test = false → x.level = before → before = .alarm →
            y = u.zoneStaysAlarm w.det.zone w.det.address w.det.kind)
        ∧ (w.det.test = false → x.level = before → before ≠ .alarm → y = u)
        ∧ OnlyZones w.st y
        ∧ (w.applyReading q x).st = { y with evu := match told with
            | none => y.evu
            | some n => y.evu.report w.st.now w.det.address w.det.zone w.det.kind q n } := by
  intro epoch before told
  generalize hw : ({ w with det := { w.det with level := x.level, levelEpoch := epoch } } : Work) = w1
  have st1 : w1.st = w.st := by rw [← hw]
  have r1 : w1.det.drifts x.drift = w.det.drifts x.drift := by rw [← hw]; rfl
  obtain ⟨d1, d2, d3⟩ := w1.driftOf_spec x.drift
  have h0 : w.applyReading q x = ((w1.driftOf x.drift).handOn before x).reportValue q x.report := by rw [← hw]; rfl
  generalize w1.driftOf x.drift = w2 at *
  obtain ⟨e1, u, e2, e3, e4, e5, e6⟩ := w2.handOn_spec before x
  generalize w2.handOn before x = w3 at *
  obtain ⟨f1, f2⟩ := w3.reportValue_spec q x.report
  have det2 : w2.det = { w.det with
      level := x.level, levelEpoch := epoch,
      baseline := match x.drift with
        | none => w.det.baseline
        | some (B, _) => some B,
      driftFault := match x.drift with
        | none => w.det.driftFault
        | some (B, D) =>
          if D < (B + 8) / 16 then true else if (B + 8) / 16 ≤ D - 4 then false else w.det.driftFault } := by
    rw [d1, ← hw]
  have ad : w2.det.address = w.det.address := by rw [det2]
  have zn : w2.det.zone = w.det.zone := by rw [det2]
  have kd : w2.det.kind = w.det.kind := by rw [det2]
  have te : w2.det.test = w.det.test := by rw [det2]
  have tw : w3.det.reports x.report = told := by rw [e1, det2]; rfl
  have ev : w2.st.evu = w.st.evuAfter ((w.det.drifts x.drift).map w.det.tells) := by
    rw [d3.evu, r1, st1, ← hw]; rfl
  have nw : w2.st.now = w.st.now := d3.clock.trans (by rw [st1]; rfl)
  have hu : u = { w.st with
      evu := if x.level = before then w.st.evuAfter ((w.det.drifts x.drift).map w.det.tells) else
        ((w.st.evuAfter ((w.det.drifts x.drift).map w.det.tells)).closeFor w.st.now .transition w.det.address).take
          w.st.now (w.st.eventRecord (.detectorState before x.level x.smoke x.other w.det.test) (some w.det.zone)
            (some w.det.address) (some w.det.kind)) } := by
    rw [e2, ad, zn, kd, te, nw, ev]
    have er : ∀ b z a k, w2.st.eventRecord b z a k = w.st.eventRecord b z a k := fun b z a k => by
      unfold State.eventRecord; rw [nw]
    rw [er, d2, st1]
  rw [te] at e3
  rw [te, zn, ad, kd] at e4 e5
  rw [te] at e6
  have uz : OnlyZones w.st u := by rw [hu]; rfl
  have yz : OnlyZones w.st w3.st := by
    cases ht : w.det.test
    · by_cases hl : x.level = before
      · by_cases ha : before = .alarm
        · rw [e5 ht hl ha]; exact uz.trans (State.zoneStaysAlarm_frame _ _ _ _)
        · rw [e6 ht hl ha]; exact uz
      · rw [e4 ht hl]; exact uz.trans (State.zoneTransition_frame _ _ _ _ _ _)
    · rw [e3 ht]; exact uz
  refine ⟨?_, u, w3.st, hu, e3, e4, e5, e6, yz, ?_⟩
  · rw [h0, f1, tw, e1, det2]
  · rw [h0, f2, tw, e1, ad, zn, kd, show w3.st.now = w.st.now from congrArg Su.clock yz.su_eq]

/-- Level processing of a frame for a record (R71, R86): nothing without a reading of an enabled record. -/
theorem Work.level_spec (w : Work) (q : SeqNo) (c : Content) :
    (w.det.enabled = false ∨ w.st.readingOf w.det c = none → w.level q c = w)
      ∧ (∀ x, w.det.enabled = true → w.st.readingOf w.det c = some x → w.level q c = w.applyReading q x)
      ∧ OnlyZones w.st (w.level q c).st := by
  unfold Work.level
  refine ⟨?_, ?_, ?_⟩
  · rintro (h | h)
    · rw [if_neg (by rw [h]; decide)]
    · rw [h]; split <;> rfl
  · intro x he hx; rw [if_pos he, hx]
  · split
    · split
      · rfl
      · next x _ =>
        obtain ⟨-, u, y, -, -, -, -, -, hy, hs⟩ := w.applyReading_spec q x
        rw [hs]; unfold OnlyZones at *; rw [hy]
    · rfl

/-! ## The sounder check of a frame -/

/-- A SOUNDER_STATE frame of a sounder with a pattern of 0 to 7 gets the sounder check; no other does (R64, R147). -/
theorem Work.checkPattern_spec (w : Work) (f : RadioFrame) :
    let judged := w.det.kind = .sounder ∧ f.kind = 4 ∧ (byteAt f.payload 0).toNat ≤ 7
    let reported := (byteAt f.payload 0).toNat
    let expected := w.st.hcq.expectedPattern w.det.zone
    let u := w.checkPattern (contentOf w.det.kind f)
    u.det = { w.det with
        sounderPattern := if judged then reported else w.det.sounderPattern,
        mismatchRun := if judged then (if reported = expected then 0 else min (w.det.mismatchRun + 1) 2)
          else w.det.mismatchRun }
      ∧ OnlyEvu w.st u.st
      ∧ w.Raises u (if judged then
          (if reported = expected then (if w.det.mismatchRun = 2 then [.sounderMatch reported expected] else [])
           else if w.det.mismatchRun = 1 then [.sounderMismatch reported expected] else []) else []) := by
  intro judged reported expected u
  by_cases h : judged
  · have hc := (contentOf_pattern w.det.kind f reported).mpr ⟨h.1, h.2.1, h.2.2, rfl⟩
    have : u = w.sounderCheck reported := by show w.checkPattern _ = _; unfold Work.checkPattern; rw [hc]
    rw [this]; repeat rw [if_pos h]
    exact w.sounderCheck_spec reported
  · have : u = w := by
      show w.checkPattern _ = _
      unfold Work.checkPattern; split
      · next p hp =>
        have := (contentOf_pattern w.det.kind f p).mp hp
        exact absurd ⟨this.1, this.2.1, by rw [this.2.2.2]; exact this.2.2.1⟩ h
      all_goals rfl
    rw [this]; repeat rw [if_neg h]
    exact ⟨rfl, rfl, .refl w⟩

end Sys2Proof.Machine
end

