-- ==== Sys2Proof/Laws/Receivers.lean ====
section
/-! SUPPORT. The receivers of both links over lists of bytes: what one frame's bytes leave and report (R28, R171, R187,
R188), the layout of a RADIO_FRAME read back, the CHECK bit by bit, and the key of an ENROL. -/

namespace Sys2Proof.Machine

/-! ## Head links (R187) -/

/-- A receiver takes bytes in two pieces as in one. -/
theorem HeadReceiver.feed_append (rx : HeadReceiver) (bs cs : List Byte) :
    rx.feed (bs ++ cs) = (((rx.feed bs).1.feed cs).1, (rx.feed bs).2 ++ ((rx.feed bs).1.feed cs).2) := by
  induction bs generalizing rx with
  | nil => rfl
  | cons b bs ih =>
    show ((((rx.take b).1.feed (bs ++ cs))).1, (rx.take b).2.toList ++ ((rx.take b).1.feed (bs ++ cs)).2) = _
    rw [ih]
    show _ = ((((rx.take b).1.feed bs).1.feed cs).1,
      ((rx.take b).2.toList ++ ((rx.take b).1.feed bs).2) ++ (((rx.take b).1.feed bs).1.feed cs).2)
    rw [List.append_assoc]

/-- An ignoring receiver ignores what is no start marker. -/
theorem HeadReceiver.feed_noise (bs : List Byte) (h : ∀ b ∈ bs, b ≠ 0xC0) :
    HeadReceiver.ignoring.feed bs = (.ignoring, []) := by
  induction bs with
  | nil => rfl
  | cons b bs ih =>
    have e : HeadReceiver.ignoring.take b = (.ignoring, none) := if_neg (h b (by simp))
    show ((((HeadReceiver.ignoring.take b).1.feed bs)).1, _) = _
    rw [e, ih fun c hc => h c (by simp [hc])]; rfl

/-- One restored byte that still fits joins the frame. -/
theorem HeadReceiver.feed_escaped (got : List Byte) (b : Byte) (h : got.length < 40) :
    (HeadReceiver.collecting got false).feed (escapeByte b) = (.collecting (got ++ [b]) false, []) := by
  have fits : HeadReceiver.collect got b = (.collecting (got ++ [b]) false, none) := if_pos h
  have out : ∀ m : Byte, b = m → (m = 0xC0 ∨ m = 0xC1 ∨ m = 0xC2) →
      (HeadReceiver.collecting got false).feed [0xC2, m - 0x40] = (.collecting (got ++ [b]) false, []) := by
    intro m hm h3
    subst hm
    have e : (HeadReceiver.collecting got true).take (b - 0x40) = HeadReceiver.collect got b := by
      rcases h3 with rfl | rfl | rfl <;> rfl
    show ((((HeadReceiver.collecting got true).take (b - 0x40)).1.feed []).1,
      [] ++ (((HeadReceiver.collecting got true).take (b - 0x40)).2.toList
        ++ (((HeadReceiver.collecting got true).take (b - 0x40)).1.feed []).2)) = _
    rw [e, fits]; rfl
  unfold escapeByte
  by_cases h3 : b = headStart ∨ b = headEnd ∨ b = headEscape
  · rw [if_pos h3]; exact out b rfl h3
  · rw [if_neg h3]
    have e : (HeadReceiver.collecting got false).take b = HeadReceiver.collect got b := by
      unfold HeadReceiver.take
      simp only [not_or] at h3
      simp [h3.1, h3.2.1, h3.2.2]
    show (((HeadReceiver.collecting got false).take b).1, ((HeadReceiver.collecting got false).take b).2.toList ++ []) = _
    rw [e, fits]; rfl

/-- The 41st restored byte drops the frame. -/
theorem HeadReceiver.feed_overfull (got : List Byte) (b : Byte) (h : got.length = 40) :
    (HeadReceiver.collecting got false).feed (escapeByte b) = (.ignoring, [.discard]) := by
  have full : HeadReceiver.collect got b = (.ignoring, some .discard) := if_neg (by rw [h]; decide)
  unfold escapeByte
  by_cases h3 : b = headStart ∨ b = headEnd ∨ b = headEscape
  · rw [if_pos h3]
    have e : (HeadReceiver.collecting got true).take (b - 0x40) = HeadReceiver.collect got b := by
      rcases h3 with rfl | rfl | rfl <;> rfl
    show ((((HeadReceiver.collecting got true).take (b - 0x40)).1.feed []).1,
      [] ++ (((HeadReceiver.collecting got true).take (b - 0x40)).2.toList
        ++ (((HeadReceiver.collecting got true).take (b - 0x40)).1.feed []).2)) = _
    rw [e, full]; rfl
  · rw [if_neg h3]
    have e : (HeadReceiver.collecting got false).take b = HeadReceiver.collect got b := by
      unfold HeadReceiver.take
      simp only [not_or] at h3
      simp [h3.1, h3.2.1, h3.2.2]
    show (((HeadReceiver.collecting got false).take b).1, ((HeadReceiver.collecting got false).take b).2.toList ++ []) = _
    rw [e, full]; rfl

/-- Frame bytes on the line, escaped, are restored one by one. -/
theorem HeadReceiver.feed_line (got body : List Byte) (h : got.length + body.length ≤ 40) :
    (HeadReceiver.collecting got false).feed (body.flatMap escapeByte) = (.collecting (got ++ body) false, []) := by
  induction body generalizing got with
  | nil => simp [HeadReceiver.feed]
  | cons b body ih =>
    rw [List.length_cons] at h
    rw [List.flatMap_cons, feed_append, feed_escaped got b (by omega)]
    dsimp only
    rw [ih _ (by simp; omega)]
    simp

/-- A start marker and up to 40 frame bytes: the receiver holds them. -/
theorem HeadReceiver.feed_body (body rest : List Byte) (h : body.length ≤ 40) :
    HeadReceiver.ignoring.feed (0xC0 :: (body.flatMap escapeByte ++ rest))
      = (HeadReceiver.collecting body false).feed rest := by
  have e : HeadReceiver.ignoring.take 0xC0 = (.collecting [] false, none) := rfl
  show (((HeadReceiver.ignoring.take 0xC0).1.feed _).1, (HeadReceiver.ignoring.take 0xC0).2.toList ++ _) = _
  rw [e]
  dsimp only
  rw [feed_append, feed_line [] body (by simpa using h)]
  rfl

/-- A start marker and 41 frame bytes: they are dropped. -/
theorem HeadReceiver.feed_long (body : List Byte) (h : body.length = 41) :
    HeadReceiver.ignoring.feed (0xC0 :: body.flatMap escapeByte) = (.ignoring, [.discard]) := by
  obtain ⟨init, b, rfl⟩ : ∃ init b, body = init ++ [b] :=
    ⟨_, _, (List.dropLast_append_getLast (by intro hn; rw [hn] at h; simp at h)).symm⟩
  have hi : init.length = 40 := by simpa using h
  rw [List.flatMap_append, feed_body init _ (by omega)]
  simpa using feed_overfull init b hi

/-- Fewer than four frame bytes are no frame: the length disagrees with their number. -/
theorem judgeHeadFrame_short (body : List Byte) (h : body.length < 4) : judgeHeadFrame body = .discard := by
  unfold judgeHeadFrame
  by_cases h0 : (byteAt body 0).toNat = 0
  · simp [h0]
  · rw [if_pos (Or.inr (by omega))]

/-- A frame's bytes judged, from its parts. -/
theorem judgeHeadFrame_parts (n type c1 c2 : Byte) (payload : List Byte) :
    judgeHeadFrame (n :: type :: (payload ++ [c1, c2])) =
      if n.toNat ≠ payload.length + 1 ∨ checkOf (n :: type :: payload) ≠ c1 ++ c2 then .discard
      else if type = 0x01 ∧ 18 ≤ payload.length ∧ payload.length ≤ 20 then
        .radio (radioFrameOf (payload ++ [c1, c2]) (payload.length - 18))
      else if type = 0x02 ∧ payload.length = 1 then .status (byteAt payload 0)
      else .discard := by
  unfold judgeHeadFrame
  have hl : (n :: type :: (payload ++ [c1, c2])).length = payload.length + 4 := by simp
  have hn : byteAt (n :: type :: (payload ++ [c1, c2])) 0 = n := rfl
  have ht : byteAt (n :: type :: (payload ++ [c1, c2])) 1 = type := rfl
  simp only [hl, hn, ht]
  by_cases h : n.toNat = payload.length + 1
  · have h0 : ¬ (n.toNat = 0 ∨ payload.length + 4 ≠ n.toNat + 3) := by omega
    rw [if_neg h0]
    have take : (n :: type :: (payload ++ [c1, c2])).take (n.toNat + 1) = n :: type :: payload := by
      rw [h]; simp
    have word : word16At (n :: type :: (payload ++ [c1, c2])) (n.toNat + 1) = c1 ++ c2 := by
      unfold word16At byteAt; rw [h]; simp [List.getD_eq_getElem?_getD]
    rw [take, word]
    by_cases hc : checkOf (n :: type :: payload) = c1 ++ c2
    · have a1 : (19 ≤ n.toNat ∧ n.toNat ≤ 21) = (18 ≤ payload.length ∧ payload.length ≤ 20) := by
        rw [h]; apply propext; omega
      have a2 : (n = 2) = (payload.length = 1) := by
        apply propext
        constructor
        · intro e; rw [e] at h; simp at h; omega
        · intro e; apply BitVec.eq_of_toNat_eq; rw [h, e]; rfl
      have a3 : n.toNat - 19 = payload.length - 18 := by omega
      have a4 : (n.toNat = 2) = (payload.length = 1) := by rw [h]; apply propext; omega
      have good : ¬ (n.toNat ≠ payload.length + 1 ∨ checkOf (n :: type :: payload) ≠ c1 ++ c2) :=
        fun x => x.elim (fun g => g h) fun g => g hc
      rw [if_neg (not_not.mpr hc), if_neg good]
      simp only [a1, a3, a4, List.drop_succ_cons, List.drop_zero]
      by_cases h1 : type = 0x01 ∧ 18 ≤ payload.length ∧ payload.length ≤ 20
      · rw [if_pos h1, if_pos h1]
      · rw [if_neg h1, if_neg h1]
        by_cases h2 : type = 0x02 ∧ payload.length = 1
        · rw [if_pos h2, if_pos h2]
          obtain ⟨b, rfl⟩ := List.length_eq_one_iff.mp h2.2
          rfl
        · rw [if_neg h2, if_neg h2]
    · rw [if_pos hc, if_pos (Or.inr hc)]
  · rw [if_pos (by omega), if_pos (Or.inl h)]

/-! ## The fields of a RADIO_FRAME (10.2) -/

/-- Two bytes of a number, put together. -/
theorem byte2_append (n : Nat) : BitVec.ofNat 8 (n / 256) ++ BitVec.ofNat 8 n = BitVec.ofNat 16 n := by
  apply BitVec.eq_of_toNat_eq
  rw [BitVec.toNat_append, BitVec.toNat_ofNat, BitVec.toNat_ofNat, BitVec.toNat_ofNat, Nat.shiftLeft_eq,
    Nat.mul_comm, ← Nat.two_pow_add_eq_or_of_lt (Nat.mod_lt n (by decide))]
  omega

/-- Four bytes of a number, put together. -/
theorem byte4_append (n : Nat) :
    BitVec.ofNat 8 (n / 16777216) ++ BitVec.ofNat 8 (n / 65536) ++ BitVec.ofNat 8 (n / 256) ++ BitVec.ofNat 8 n
      = BitVec.ofNat 32 n := by
  apply BitVec.eq_of_toNat_eq
  have step : ∀ (a b : Nat), b < 2 ^ 8 → a <<< 8 ||| b = a * 256 + b := by
    intro a b hb
    rw [Nat.shiftLeft_eq, Nat.mul_comm, ← Nat.two_pow_add_eq_or_of_lt hb]
  simp only [BitVec.toNat_append, BitVec.toNat_ofNat]
  rw [step _ _ (Nat.mod_lt _ (by decide)), step _ _ (Nat.mod_lt _ (by decide)), step _ _ (Nat.mod_lt _ (by decide))]
  omega

/-- Three bytes of an address, put together. -/
theorem addressBytes_append (a : Address) : a.extractLsb' 16 8 ++ a.extractLsb' 8 8 ++ a.extractLsb' 0 8 = a := by
  rw [BitVec.extractLsb'_append_extractLsb'_eq_extractLsb' (show 16 = 8 + 8 from rfl),
    BitVec.extractLsb'_append_extractLsb'_eq_extractLsb' (show 8 = 0 + 8 from rfl)]
  exact BitVec.extractLsb'_eq_self

/-- A RADIO_FRAME's bytes after its type spell its fields. -/
theorem radioFrameOf_fields (f : RadioFrame) (rest : List Byte) :
    radioFrameOf (addressBytes f.address ++ [f.kind] ++ byte2 (f.sequence.toNat * 16 + f.retry.toNat)
      ++ [f.flags, f.done] ++ byte4 f.tag.toNat ++ [f.hop] ++ addressBytes f.relay ++ [f.channel, f.signal]
      ++ f.payload ++ rest) f.payload.length = f := by
  have w : BitVec.ofNat 8 ((f.sequence.toNat * 16 + f.retry.toNat) / 256)
      ++ BitVec.ofNat 8 (f.sequence.toNat * 16 + f.retry.toNat)
        = BitVec.ofNat 16 (f.sequence.toNat * 16 + f.retry.toNat) := byte2_append _
  have hs : f.sequence.toNat < 4096 := f.sequence.isLt
  have hr : f.retry.toNat < 16 := f.retry.isLt
  show (RadioFrame.mk (f.address.extractLsb' 16 8 ++ f.address.extractLsb' 8 8 ++ f.address.extractLsb' 0 8) f.kind
    ((BitVec.ofNat 8 ((f.sequence.toNat * 16 + f.retry.toNat) / 256)
      ++ BitVec.ofNat 8 (f.sequence.toNat * 16 + f.retry.toNat)).extractLsb' 4 12)
    ((BitVec.ofNat 8 ((f.sequence.toNat * 16 + f.retry.toNat) / 256)
      ++ BitVec.ofNat 8 (f.sequence.toNat * 16 + f.retry.toNat)).extractLsb' 0 4) f.flags f.done
    (BitVec.ofNat 8 (f.tag.toNat / 16777216) ++ BitVec.ofNat 8 (f.tag.toNat / 65536)
      ++ BitVec.ofNat 8 (f.tag.toNat / 256) ++ BitVec.ofNat 8 f.tag.toNat) f.hop
    (f.relay.extractLsb' 16 8 ++ f.relay.extractLsb' 8 8 ++ f.relay.extractLsb' 0 8) f.channel f.signal
    ((f.payload ++ rest).take f.payload.length)) = f
  have e1 : (BitVec.ofNat 16 (f.sequence.toNat * 16 + f.retry.toNat)).extractLsb' 4 12 = f.sequence := by
    apply BitVec.eq_of_toNat_eq
    rw [BitVec.extractLsb'_toNat, BitVec.toNat_ofNat, Nat.shiftRight_eq_div_pow]; omega
  have e2 : (BitVec.ofNat 16 (f.sequence.toNat * 16 + f.retry.toNat)).extractLsb' 0 4 = f.retry := by
    apply BitVec.eq_of_toNat_eq
    rw [BitVec.extractLsb'_toNat, BitVec.toNat_ofNat, Nat.shiftRight_eq_div_pow]; omega
  have e3 : BitVec.ofNat 32 f.tag.toNat = f.tag := by simp
  rw [w, addressBytes_append, addressBytes_append, e1, e2, byte4_append, e3, List.take_left]

/-! ## The panel link (R171, R188) -/

/-- A receiver takes bytes in two pieces as in one. -/
theorem PanelReceiver.feed_append (rx : PanelReceiver) (bs cs : List Byte) :
    rx.feed (bs ++ cs) = (((rx.feed bs).1.feed cs).1, (rx.feed bs).2 ++ ((rx.feed bs).1.feed cs).2) := by
  induction bs generalizing rx with
  | nil => rfl
  | cons b bs ih =>
    show ((((rx.take b).1.feed (bs ++ cs))).1, (rx.take b).2.toList ++ ((rx.take b).1.feed (bs ++ cs)).2) = _
    rw [ih]
    show _ = ((((rx.take b).1.feed bs).1.feed cs).1,
      ((rx.take b).2.toList ++ ((rx.take b).1.feed bs).2) ++ (((rx.take b).1.feed bs).1.feed cs).2)
    rw [List.append_assoc]

/-- A hunting receiver ignores what is no start marker. -/
theorem PanelReceiver.feed_noise (bs : List Byte) (h : ∀ b ∈ bs, b ≠ 0xA5) :
    PanelReceiver.hunting.feed bs = (.hunting, []) := by
  induction bs with
  | nil => rfl
  | cons b bs ih =>
    have e : PanelReceiver.hunting.take b = (.hunting, none) := if_neg (h b (by simp))
    show ((((PanelReceiver.hunting.take b).1.feed bs)).1, _) = _
    rw [e, ih fun c hc => h c (by simp [hc])]; rfl

/-- The length two bytes name. -/
theorem word16At_toNat (hi lo : Byte) (bs : List Byte) :
    (word16At (hi :: lo :: bs) 0).toNat = hi.toNat * 256 + lo.toNat := by
  show (hi ++ lo).toNat = _
  rw [BitVec.toNat_append, Nat.shiftLeft_eq, Nat.mul_comm, ← Nat.two_pow_add_eq_or_of_lt lo.isLt]

/-- The second byte of the length. -/
theorem PanelReceiver.take_second (hi lo : Byte) :
    (PanelReceiver.receiving [hi]).take lo =
      if hi.toNat * 256 + lo.toNat = 0 ∨ 1024 < hi.toNat * 256 + lo.toNat then (.hunting, some .bad)
      else (.receiving [hi, lo], none) := by
  unfold PanelReceiver.take
  show (if [hi, lo].length < 2 then (PanelReceiver.receiving [hi, lo], none)
    else if (word16At [hi, lo] 0).toNat = 0 ∨ 1024 < (word16At [hi, lo] 0).toNat then (.hunting, some .bad)
    else if [hi, lo].length < (word16At [hi, lo] 0).toNat + 4 then (.receiving [hi, lo], none)
    else (.hunting, some (judgePanelFrame [hi, lo]))) = _
  rw [word16At_toNat, if_neg (show ¬ [hi, lo].length < 2 by simp),
    if_pos (show [hi, lo].length < hi.toNat * 256 + lo.toNat + 4 by simp)]

/-- A byte after a good length. -/
theorem PanelReceiver.take_later (hi lo b : Byte) (got : List Byte) (h1 : 1 ≤ hi.toNat * 256 + lo.toNat)
    (h2 : hi.toNat * 256 + lo.toNat ≤ 1024) :
    (PanelReceiver.receiving (hi :: lo :: got)).take b =
      if got.length < hi.toNat * 256 + lo.toNat + 1 then (.receiving (hi :: lo :: (got ++ [b])), none)
      else (.hunting, some (judgePanelFrame (hi :: lo :: (got ++ [b])))) := by
  show (if (hi :: lo :: (got ++ [b])).length < 2 then (PanelReceiver.receiving (hi :: lo :: (got ++ [b])), none)
    else if (word16At (hi :: lo :: (got ++ [b])) 0).toNat = 0 ∨ 1024 < (word16At (hi :: lo :: (got ++ [b])) 0).toNat
      then (.hunting, some .bad)
    else if (hi :: lo :: (got ++ [b])).length < (word16At (hi :: lo :: (got ++ [b])) 0).toNat + 4 then
      (.receiving (hi :: lo :: (got ++ [b])), none)
    else (.hunting, some (judgePanelFrame (hi :: lo :: (got ++ [b]))))) = _
  rw [word16At_toNat, if_neg (show ¬ (hi :: lo :: (got ++ [b])).length < 2 by simp), if_neg (by omega)]
  simp only [List.length_cons, List.length_append, List.length_nil]
  by_cases h : got.length < hi.toNat * 256 + lo.toNat + 1
  · rw [if_pos h, if_pos (by omega)]
  · rw [if_neg h, if_neg (by omega)]

/-- A length outside 1 to 1024 is discarded at once. -/
theorem PanelReceiver.feed_badLength (hi lo : Byte)
    (h : hi.toNat * 256 + lo.toNat = 0 ∨ 1024 < hi.toNat * 256 + lo.toNat) :
    PanelReceiver.hunting.feed [0xA5, hi, lo] = (.hunting, [.bad]) := by
  have e : (PanelReceiver.receiving [hi]).take lo = (.hunting, some .bad) := by rw [take_second, if_pos h]
  show (((PanelReceiver.receiving [hi]).take lo).1, [] ++ ([] ++ (((PanelReceiver.receiving [hi]).take lo).2.toList ++ []))) = _
  rw [e]; rfl

/-- Before the last byte a good length names, the receiver holds what has come. -/
theorem PanelReceiver.feed_part (hi lo : Byte) (h1 : 1 ≤ hi.toNat * 256 + lo.toNat)
    (h2 : hi.toNat * 256 + lo.toNat ≤ 1024) (got bs : List Byte)
    (h : got.length + bs.length < hi.toNat * 256 + lo.toNat + 2) :
    (PanelReceiver.receiving (hi :: lo :: got)).feed bs = (.receiving (hi :: lo :: (got ++ bs)), []) := by
  induction bs generalizing got with
  | nil => simp [feed]
  | cons b bs ih =>
    rw [List.length_cons] at h
    have e : (PanelReceiver.receiving (hi :: lo :: got)).take b = (.receiving (hi :: lo :: (got ++ [b])), none) := by
      rw [take_later hi lo b got h1 h2, if_pos (by omega)]
    show (((PanelReceiver.receiving (hi :: lo :: got)).take b).1.feed bs |>.1, _) = _
    rw [e]
    dsimp only
    rw [ih _ (by simp; omega)]
    simp

/-- A start marker and a good length: the receiver counts off what the length names. -/
theorem PanelReceiver.feed_start (hi lo : Byte) (h1 : 1 ≤ hi.toNat * 256 + lo.toNat)
    (h2 : hi.toNat * 256 + lo.toNat ≤ 1024) (bs : List Byte) :
    PanelReceiver.hunting.feed (0xA5 :: hi :: lo :: bs) = (PanelReceiver.receiving [hi, lo]).feed bs := by
  have e : (PanelReceiver.receiving [hi]).take lo = (.receiving [hi, lo], none) := by
    rw [take_second, if_neg (by omega)]
  show ((((PanelReceiver.receiving [hi]).take lo).1.feed bs).1,
    [] ++ ([] ++ (((PanelReceiver.receiving [hi]).take lo).2.toList ++ (((PanelReceiver.receiving [hi]).take lo).1.feed bs).2))) = _
  rw [e]; rfl

/-- A whole frame is judged by its check and its type. -/
theorem PanelReceiver.feed_frame (hi lo type c1 c2 : Byte) (payload : List Byte)
    (hn : payload.length + 1 = hi.toNat * 256 + lo.toNat) (h2 : hi.toNat * 256 + lo.toNat ≤ 1024) :
    PanelReceiver.hunting.feed (0xA5 :: hi :: lo :: type :: (payload ++ [c1, c2])) = (.hunting,
      [if checkOf (hi :: lo :: type :: payload) = c1 ++ c2 ∧ type = 0x01 then .management payload else .bad]) := by
  rw [feed_start hi lo (by omega) h2]
  have split : type :: (payload ++ [c1, c2]) = (type :: (payload ++ [c1])) ++ [c2] := by simp
  rw [split, feed_append, feed_part hi lo (by omega) h2 [] _ (by simp; omega)]
  dsimp only [List.nil_append]
  have body : type :: (payload ++ [c1]) ++ [c2] = type :: (payload ++ [c1, c2]) := by simp
  have e : (PanelReceiver.receiving (hi :: lo :: type :: (payload ++ [c1]))).take c2
      = (.hunting, some (judgePanelFrame (hi :: lo :: type :: (payload ++ [c1, c2])))) := by
    rw [take_later hi lo c2 (type :: (payload ++ [c1])) (by omega) h2, if_neg (by simp; omega), body]
  show (((PanelReceiver.receiving (hi :: lo :: type :: (payload ++ [c1]))).take c2).1,
    ((PanelReceiver.receiving (hi :: lo :: type :: (payload ++ [c1]))).take c2).2.toList ++ []) = _
  rw [e]
  have j : judgePanelFrame (hi :: lo :: type :: (payload ++ [c1, c2]))
      = if checkOf (hi :: lo :: type :: payload) = c1 ++ c2 ∧ type = 0x01 then .management payload else .bad := by
    unfold judgePanelFrame
    simp only [word16At_toNat, ← hn]
    have take : (hi :: lo :: type :: (payload ++ [c1, c2])).take (payload.length + 1 + 2)
        = hi :: lo :: type :: payload := by simp
    have word : word16At (hi :: lo :: type :: (payload ++ [c1, c2])) (payload.length + 1 + 2) = c1 ++ c2 := by
      unfold word16At byteAt; simp [List.getD_eq_getElem?_getD]
    have t : byteAt (hi :: lo :: type :: (payload ++ [c1, c2])) 2 = type := rfl
    have d : ((hi :: lo :: type :: (payload ++ [c1, c2])).drop 3).take (payload.length + 1 - 1) = payload := by simp
    rw [take, word, t, d]
    by_cases hc : checkOf (hi :: lo :: type :: payload) = c1 ++ c2
    · rw [if_neg (not_not.mpr hc)]
      by_cases h1 : type = 0x01
      · rw [if_pos h1, if_pos ⟨hc, h1⟩]
      · rw [if_neg h1, if_neg fun x => h1 x.2]
    · rw [if_pos hc, if_neg fun x => hc x.1]
  rw [j]; rfl

/-! ## The CHECK and the key of an ENROL -/

/-- The CHECK taken bit by bit (R186). -/
theorem checkByte_bits (bs : List Byte) (r : BitVec 16) :
    bs.foldl checkByte r = (bs.flatMap fun b => [7, 6, 5, 4, 3, 2, 1, 0].map fun i => b.getLsbD i).foldl
      (fun (r : BitVec 16) b => if r.getLsbD 15 != b then (r <<< 1) ^^^ 0x1021 else r <<< 1) r := by
  induction bs generalizing r with
  | nil => rfl
  | cons b bs ih =>
    rw [List.foldl_cons, List.flatMap_cons, List.foldl_append, ih]
    congr 1

/-- A half-word as two bytes. -/
theorem byte2_toNat (c : BitVec 16) : byte2 c.toNat = [c.extractLsb' 8 8, c.extractLsb' 0 8] := by
  unfold byte2
  congr 2
  rw [Nat.shiftRight_eq_div_pow]

/-- Two bytes are the CHECK bytes exactly when they are the check value. -/
theorem checkBytes_iff (bs : List Byte) (c1 c2 : Byte) : ([c1, c2] = checkBytes bs) ↔ checkOf bs = c1 ++ c2 := by
  unfold checkBytes
  rw [byte2_toNat]
  generalize checkOf bs = c
  constructor
  · intro h
    injection h with h1 h2
    injection h2 with h2 _
    rw [h1, h2, BitVec.extractLsb'_append_extractLsb'_eq_extractLsb' (show 8 = 0 + 8 from rfl)]
    exact BitVec.extractLsb'_eq_self.symm
  · rintro rfl
    have e1 : (c1 ++ c2).extractLsb' 8 8 = c1 := by
      apply BitVec.eq_of_toNat_eq
      have := c2.isLt; have := c1.isLt
      rw [BitVec.extractLsb'_toNat, BitVec.toNat_append, Nat.shiftLeft_eq, Nat.mul_comm,
        ← Nat.two_pow_add_eq_or_of_lt c2.isLt, Nat.shiftRight_eq_div_pow]; omega
    have e2 : (c1 ++ c2).extractLsb' 0 8 = c2 := by
      apply BitVec.eq_of_toNat_eq
      have := c2.isLt; have := c1.isLt
      rw [BitVec.extractLsb'_toNat, BitVec.toNat_append, Nat.shiftLeft_eq, Nat.mul_comm,
        ← Nat.two_pow_add_eq_or_of_lt c2.isLt, Nat.shiftRight_eq_div_pow]; omega
    rw [e1, e2]

theorem keyStep (n : Nat) (b : Byte) :
    (BitVec.ofNat 128 n <<< 8) ||| b.setWidth 128 = BitVec.ofNat 128 (n * 256 + b.toNat) := by
  apply BitVec.eq_of_toNat_eq
  have hb : b.toNat < 2 ^ 8 := b.isLt
  rw [BitVec.toNat_or, BitVec.toNat_shiftLeft, BitVec.toNat_ofNat, BitVec.toNat_setWidth, BitVec.toNat_ofNat]
  rw [Nat.mod_eq_of_lt (show b.toNat < 2 ^ 128 by omega)]
  rw [Nat.shiftLeft_eq]
  have e : n % 2 ^ 128 * 2 ^ 8 % 2 ^ 128 = (n % 2 ^ 120) * 2 ^ 8 := by omega
  rw [e, Nat.mul_comm (n % 2 ^ 120), ← Nat.two_pow_add_eq_or_of_lt hb]
  omega

theorem keyFold (l : List Byte) (n : Nat) :
    l.foldl (fun (k : BitVec 128) b => (k <<< 8) ||| b.setWidth 128) (BitVec.ofNat 128 n)
      = BitVec.ofNat 128 (l.foldl (fun n b => n * 256 + b.toNat) n) := by
  induction l generalizing n with
  | nil => rfl
  | cons b l ih => rw [List.foldl_cons, keyStep, ih]; rfl

/-- The 16 bytes of a key, the most significant first (R188). -/
theorem keyAt_eq (pre key post : List Byte) (h : key.length = 16) (hp : pre.length = 5) :
    keyAt (pre ++ key ++ post) 5 = BitVec.ofNat 128 (key.foldl (fun n b => n * 256 + b.toNat) 0) := by
  have : ((pre ++ key ++ post).drop 5).take 16 = key := by
    rw [List.append_assoc, ← hp, List.drop_left, ← h, List.take_left]
  unfold keyAt; rw [this]; exact keyFold key 0

end Sys2Proof.Machine
end

