-- ==== Sys2Proof/WellFormed.lean ====
section
/-! DEFINITION. Which terms of `Instr` spell a command or event of the part. Heads, zones and argument fields are
bounded by their types; what is left is that received bytes are there, that a command number is one HCQ gives, and that
an unknown command is none of the others. -/

namespace Sys2Proof

/-- Whether an instruction is well formed: a received frame has at least its start marker (R171, R187); a held
command's number is 1 to 255 (R134); the payload of UNKNOWN_COMMAND names no command (R174). -/
def Instr.wellFormed : Instr → Bool
  | .radioFrame _ bytes => !bytes.isEmpty
  | .headStatus _ bytes => !bytes.isEmpty
  | .headLinkDiscard _ bytes => !bytes.isEmpty
  | .managementFrame bytes => !bytes.isEmpty
  | .badPanelFrame bytes => !bytes.isEmpty
  | .heldCommandExpiry _ number => number != 0
  | .unknownCommand payload => (parseCommand payload).isNone
  | .powerOnReset | .headFrameSend _ | .secondsTick | .headLost _ | .verifyWindowLapse _ => true
  | .flushExpiry | .summaryExpiry | .sweepTimerExpiry | .slotTimerExpiry | .frameTake | .lookupRequest => true
  | .integrityCheckDone | .completionRequest | .visitRequest | .panelGrant | .transmissionComplete => true
  | .enrol _ | .amend _ _ | .withdraw _ | .lookup _ | .clearTable | .detectorDisable _ | .detectorEnable _ => true
  | .headReset _ | .zoneSet _ | .zoneService _ _ | .zoneReset _ | .zoneDisable _ | .zoneEnable _ => true
  | .command _ _ _ | .groupOrder _ _ | .filterSet _ => true
  | .pageWriteAir _ | .pageWriteLevels _ | .pageWriteTiming _ | .pageWriteMemory _ | .pageRead _ => true
  | .start | .stop | .restart | .statusQuery | .headTransmissionComplete _ => true

end Sys2Proof
end

