-- ==== Sys2Proof/Tests/Slice0.lean ====
section
/-! SUPPORT. Tests on small states: the well-formedness check, the manual's worked values, and for each statement with
hypotheses a concrete state and operands that meet them all (`witness_<statement>…`). -/

namespace Sys2Proof.Tests

open Sys2Proof.Machine

set_option Elab.async false

/-! ## The well-formedness check refuses each ill-formed form -/

theorem test_radioFrame_without_bytes_refused : (Instr.radioFrame 0 []).wellFormed = false := by decide
theorem test_headStatus_without_bytes_refused : (Instr.headStatus 0 []).wellFormed = false := by decide
theorem test_headLinkDiscard_without_bytes_refused : (Instr.headLinkDiscard 0 []).wellFormed = false := by decide
theorem test_managementFrame_without_bytes_refused : (Instr.managementFrame []).wellFormed = false := by decide
theorem test_badPanelFrame_without_bytes_refused : (Instr.badPanelFrame []).wellFormed = false := by decide
theorem test_heldNumber_zero_refused : (Instr.heldCommandExpiry 1 0).wellFormed = false := by decide
theorem test_known_command_refused_as_unknown : (Instr.unknownCommand [7, 0x53]).wellFormed = false := by decide
theorem test_unknown_command_accepted :
    (Instr.unknownCommand [7, 0x54]).wellFormed ∧ (Instr.unknownCommand []).wellFormed := by decide

/-! ## Values the manual works out -/

/-- The check of "123456789" (R186). -/
theorem test_check_value : checkOf [0x31, 0x32, 0x33, 0x34, 0x35, 0x36, 0x37, 0x38, 0x39] = 0x29B1 := by decide +kernel

/-- The buckets of address 3A17C2h with 64, 128 and 256 buckets (R4). -/
theorem test_bucket_example :
    bucketIndex 0x3A17C2 64 = 29 ∧ bucketIndex 0x3A17C2 128 = 29 ∧ bucketIndex 0x3A17C2 256 = 157 := by decide +kernel

/-- C0h, C1h and C2h are sent as C2h and the byte minus 40h (R187). -/
theorem test_escapes :
    [0xC0, 0xC1, 0xC2, 0xC3].flatMap escapeByte = [0xC2, 0x80, 0xC2, 0x81, 0xC2, 0x82, 0xC3] := by decide

/-- Steps of a baseline with k = 6: δ = 96 gives 1, δ = -82 gives -1, and a small δ gives one sixteenth (R76). -/
theorem test_baseline_steps :
    baselineStep 0 6 6 = 1 ∧ baselineStep 82 0 6 = -1 ∧ baselineStep 15 1 6 = 1 ∧ baselineStep 16 1 6 = 0 := by decide

/-- A period of 25 is stored as 20, and 601 as 600 (R12). -/
theorem test_periods_stored : storedPeriod 25 = 20 ∧ storedPeriod 601 = 600 ∧ storedPeriod 0 = 20 := by decide

/-! ## States for the witnesses -/

/-- A record of address 000001h in zone 5, whose bucket of 128 is bucket 1. -/
def record (kind : DetectorKind) : DetectorRecord :=
  { address := 1, kind := kind, zone := 5, key := 0, period := 60, misses := 3, enabled := true, test := false,
    collision := false, lastSequence := some 10, path := none, weakCount := 0, failureRun := 0, presence := .present,
    deadline := 180, battery := .ok, tamper := .closed, baseline := none, driftFault := false, level := .normal,
    levelEpoch := 0, lastReported := none, sounderPattern := 0, mismatchRun := 0 }

/-- The part in RUNNING, right after power-on otherwise. -/
def running : State := { State.reset with mode := .running }

/-- A part with one record, at index 0. -/
def holding (s : State) (r : DetectorRecord) : State :=
  { s with dtu := { slots := ⟨3, some r⟩ :: List.replicate 511 ⟨0, none⟩,
                    chains := [] :: [0] :: List.replicate 126 [], freeList := (List.range 512).drop 1, maxChain := 1 } }

/-- A part whose MEX executes a payload. -/
def taken (s : State) (payload : List Byte) : State := { s with mex := { s.mex with state := .executing payload } }

/-- A part whose FIU is in a state. -/
def fiuIn (s : State) (x : FiuState) : State := { s with fiu := { s.fiu with state := x } }

/-- A radio frame of address 000001h with sequence 11 and no retry. -/
def frame (kind flags hop : Byte) (payload : List Byte) : RadioFrame :=
  { address := 1, kind := kind, sequence := 11, retry := 0, flags := flags, done := 0, tag := 0, hop := hop, relay := 0,
    channel := 0, signal := 0xC4, payload := payload }

/-- The same frame on the line. -/
def radioWire (kind flags hop : Byte) (payload : List Byte) : List Byte :=
  headWire 0x01 ([0, 0, 1, kind, 0, 0xB0, flags, 0, 0, 0, 0, 0, hop, 0, 0, 0, 0, 0xC4] ++ payload)

/-- The frame admitted at slot number 0 by head 0. -/
def lane (kind flags hop : Byte) (payload : List Byte) : LaneFrame := ⟨frame kind flags hop payload, 0, 0⟩

/-- A record for the queues. -/
def eventRecord : EventRecord :=
  { body := .headUp 0, cls := .status, time := 0, zone := none, address := none, kind := none, lostBefore := 0 }

/-- A reply. -/
def reply : Reply := { tag := 7, code := 0x52, result := .ok, data := [] }

/-- A state where MEX executes a payload and FIU's request does not wait is ready for the command the payload names. -/
theorem ready_taken (s : State) (tag : Byte) (rest : List Byte) (c : Command)
    (hp : parseCommand (tag :: rest) = some c) (hw : s.fiu.state.waits = false) :
    Ready (taken s (tag :: rest)) c tag := ⟨⟨rest, rfl, hp⟩, fun _ => hw⟩

/-! ## Witnesses: the step, the links, the tick -/

theorem witness_FrontCommandRuns_idle : State.reset.pending = [] := rfl

theorem witness_RadioFrameAdmitted_last_urgent_block :
    let s : State := { running with intake := { running.intake with freeBlocks := 1 } }
    (s.head 0).rx.feed (radioWire 2 1 3 [9, 8]) = (.ignoring, [.radio (frame 2 1 3 [9, 8])]) ∧ s.mode = .running
      ∧ FrameKind.ofCode (frame 2 1 3 [9, 8]).kind = some .dualReading ∧ (frame 2 1 3 [9, 8]).hop.toNat ≤ 3
      ∧ (frame 2 1 3 [9, 8]).payload.length = FrameKind.dualReading.payloadLength
      ∧ (frame 2 1 3 [9, 8]).urgent = true ∧ 0 < s.intake.freeBlocks := by decide +kernel

theorem witness_RadioFrameAdmitted_last_normal_block :
    let s : State := { running with intake := { running.intake with freeBlocks := 33 } }
    (s.head 0).rx.feed (radioWire 0 0 0 []) = (.ignoring, [.radio (frame 0 0 0 [])]) ∧ s.mode = .running
      ∧ FrameKind.ofCode (frame 0 0 0 []).kind = some .check ∧ (frame 0 0 0 []).hop.toNat ≤ 3
      ∧ (frame 0 0 0 []).payload.length = FrameKind.check.payloadLength
      ∧ (frame 0 0 0 []).urgent = false ∧ 32 < s.intake.freeBlocks := by decide +kernel

theorem witness_RadioFrameNotAdmitted_loading :
    (State.reset.head 0).rx.feed (radioWire 0 0 0 []) = (.ignoring, [.radio (frame 0 0 0 [])])
      ∧ State.reset.mode = .loading := by decide +kernel

theorem witness_RadioFrameNotAdmitted_kind :
    (running.head 0).rx.feed (radioWire 5 0 0 []) = (.ignoring, [.radio (frame 5 0 0 [])])
      ∧ FrameKind.ofCode (frame 5 0 0 []).kind = none := by decide +kernel

theorem witness_RadioFrameNotAdmitted_hop :
    (running.head 0).rx.feed (radioWire 0 0 4 []) = (.ignoring, [.radio (frame 0 0 4 [])])
      ∧ FrameKind.ofCode (frame 0 0 4 []).kind ≠ none ∧ 3 < (frame 0 0 4 []).hop.toNat := by decide +kernel

theorem witness_RadioFrameNotAdmitted_length :
    (running.head 0).rx.feed (radioWire 1 0 3 []) = (.ignoring, [.radio (frame 1 0 3 [])])
      ∧ FrameKind.ofCode (frame 1 0 3 []).kind ≠ none ∧ (frame 1 0 3 []).hop.toNat ≤ 3
      ∧ ∀ k, FrameKind.ofCode (frame 1 0 3 []).kind = some k →
        (frame 1 0 3 []).payload.length ≠ k.payloadLength := by
  refine ⟨by decide +kernel, by decide, by decide, ?_⟩
  intro k h; cases h; decide

theorem witness_RadioFrameNotAdmitted_pool :
    let s (n : Nat) : State := { running with intake := { running.intake with freeBlocks := n } }
    ((s 32).head 0).rx.feed (radioWire 0 0 0 []) = (.ignoring, [.radio (frame 0 0 0 [])])
      ∧ (frame 0 0 0 []).urgent = false ∧ (s 32).intake.freeBlocks ≤ 32
      ∧ ((s 0).head 0).rx.feed (radioWire 0 1 0 []) = (.ignoring, [.radio (frame 0 1 0 [])])
      ∧ (frame 0 1 0 []).urgent = true ∧ (s 0).intake.freeBlocks = 0 := by decide +kernel

/-- A status of 80, the power-on threshold; the head after four such statuses in a row flips at the fifth. -/
theorem witness_HeadStatusTaken :
    let s := running.modifyHead 0 fun v => { v with jamRun := 4 }
    (s.head 0).rx.feed (headWire 0x02 [80]) = (.ignoring, [.status 80]) ∧ (s.head 0).link = .down
      ∧ decide (s.pages.air.jamThreshold ≤ min (80 : Byte).toNat 100) ≠ (s.head 0).jam
      ∧ 5 ≤ (s.head 0).jamRun + 1 := by decide +kernel

theorem witness_DiscardedFramesCounted_head :
    (running.head 3).rx.feed [0xC0, 0xC1] = (.ignoring, [.discard]) := by decide +kernel

theorem witness_DiscardedFramesCounted_panel :
    running.pli.rx.feed [0xA5, 0, 0] = (.hunting, [.bad])
      ∧ running.pli.rx.feed [0xA5, 4, 1] = (.hunting, [.bad]) := by decide +kernel

/-- Head link frames: good ones of the least and the greatest lengths, with bytes that are escaped; a wrong CHECK, a wrong
LEN, another type, RADIO_FRAMEs of 17 and 21 payload bytes, HEAD_STATUSes of none and of 2. -/
theorem witness_DiscardedFramesCounted_head_frames :
    let fed (bs : List Byte) := HeadReceiver.ignoring.feed bs
    let bad : HeadReceiver × List HeadReceipt := (.ignoring, [.discard])
    fed ([1, 2] ++ radioWire 0 0xC1 0 []) = (.ignoring, [.radio (frame 0 0xC1 0 [])])
      ∧ fed (radioWire 2 1 3 [0xC0, 0xC2]) = (.ignoring, [.radio (frame 2 1 3 [0xC0, 0xC2])])
      ∧ fed (headWire 2 [0xC0]) = (.ignoring, [.status 0xC0])
      ∧ [2, 2, 9] ++ checkBytes [2, 2, 9] = 2 :: 2 :: ([9] ++ checkBytes [2, 2, 9])
      ∧ fed ([0xC0, 2, 2, 9] ++ [0, 0] ++ [0xC1]) = bad ∧ [0, 0] ≠ checkBytes [2, 2, 9]
      ∧ fed ([0xC0, 3, 2, 9] ++ checkBytes [3, 2, 9] ++ [0xC1]) = bad
      ∧ fed (headWire 0x03 [9]) = bad ∧ fed (headWire 1 (List.replicate 17 0)) = bad
      ∧ fed (headWire 1 (List.replicate 21 0)) = bad ∧ fed (headWire 2 []) = bad ∧ fed (headWire 2 [9, 9]) = bad := by
  decide +kernel

/-- Frame bodies of 3, 40 and 41 bytes; an escape before a byte it does not restore, and before a start marker. -/
theorem witness_DiscardedFramesCounted_head_bodies :
    let fed (n : Nat) (bs : List Byte) := HeadReceiver.ignoring.feed (0xC0 :: (List.replicate n 5 ++ bs))
    fed 3 [0xC1] = (.ignoring, [.discard]) ∧ fed 40 [] = (.collecting (List.replicate 40 5) false, [])
      ∧ fed 40 [0xC0] = (.collecting [] false, [.discard]) ∧ fed 41 [] = (.ignoring, [.discard])
      ∧ fed 40 [0xC2, 0x83] = (.ignoring, [.discard]) ∧ fed 0 [0xC2, 0xC0] = (.collecting [] false, [.discard]) := by
  decide +kernel

/-- Panel link frames: LEN 0, 1, 1024 and 1025; a payload not yet whole; a wrong CHECK and another type. -/
theorem witness_DiscardedFramesCounted_panel_frames :
    let fed (bs : List Byte) := PanelReceiver.hunting.feed bs
    fed [0xA5, 0, 0] = (.hunting, [.bad]) ∧ fed [0xA5, 4, 1] = (.hunting, [.bad])
      ∧ fed ([1, 2] ++ panelWire 1 []) = (.hunting, [.management []])
      ∧ (∀ l : List Byte, l.length = 1023 → l.length + 1 = (4 : Byte).toNat * 256 + (0 : Byte).toNat)
      ∧ fed [0xA5, 4, 0, 1] = (.receiving [4, 0, 1], []) ∧ fed (panelWire 2 [7]) = (.hunting, [.bad])
      ∧ fed [0xA5, 0, 2, 1, 7, 0, 0] = (.hunting, [.bad]) ∧ [0, 0] ≠ checkBytes [0, 2, 1, 7] :=
  ⟨by decide +kernel, by decide +kernel, by decide +kernel, fun _ h => by rw [h]; rfl, by decide +kernel⟩

theorem witness_HeadLinkSends :
    let s := running.modifyHead 1 fun v => { v with txFifo := [.tune 2 0 0] }
    let u := running.modifyHead 1 fun v => { v with sending := some ⟨.tune 2 0 0, (HeadFrame.tune 2 0 0).wire⟩ }
    (s.head 1).sending = none ∧ (s.head 1).txFifo = .tune 2 0 0 :: []
      ∧ (u.head 1).sending = some ⟨.tune 2 0 0, (HeadFrame.tune 2 0 0).wire⟩ := by decide +kernel

/-- A page 0 in MIRROR, and one in ROTATE with three channels; heads 0 and 1 have equal starts in the second. -/
theorem witness_SlotChannels :
    let m : PageAir := { PageAir.powerOn with order := .mirror, channels := 8, starts := #v[0, 7, 2, 3] }
    let r : PageAir := { PageAir.powerOn with channels := 3, starts := #v[2, 2, 0, 1] }
    m.order = .mirror ∧ m.starts.get 1 < m.channels ∧ m.channel 1 7 = 0
      ∧ r.order = .rotate ∧ r.channels = 3 ∧ r.starts.get 0 = r.starts.get 1 ∧ r.channel 0 2 = 1 := by decide +kernel

theorem witness_SlotChannels_written :
    Ready (taken State.reset [7, 0x40, 0, 3, 0, 2, 2, 0, 1, 0, 250, 80, 0xA6])
        (.pageWriteAir ⟨3, 0, #v[2, 2, 0, 1], 250, 80, 0xA6⟩) 7
      ∧ (taken State.reset [7, 0x40, 0, 3, 0, 2, 2, 0, 1, 0, 250, 80, 0xA6]).mode = .loading
      ∧ AirOrder.ofCode 0 ≠ none :=
  ⟨ready_taken _ _ _ _ (by decide +kernel) rfl, rfl, by decide⟩

/-- Slot 7 with head 0 UP and fourteen frames waiting, and head 1 DOWN. -/
theorem witness_SlotTimerStartsSlot :
    let s := ({ running with clock := { slot := 7, superframe := 65535, slotTimer := some 250 } } : State).modifyHead 0
      fun v => { v with link := .up, txFifo := List.replicate 14 (.tune 0 0 0) ++ [.ack 1 11 0 7 none] }
    s.clock.slotTimer.isSome ∧ (s.head 0).link = .up ∧ (s.head 1).link ≠ .up
      ∧ ((s.head 0).txFifo.filter (fun f => f.ack?.isNone)).length ≤ 14 := by decide +kernel

/-- Timers that are not outstanding; zone 4's deadline is reached at this tick and zone 5's one second later. -/
theorem witness_SecondsTickDelivered :
    let v : Zone := { Zone.powerOn with state := .verify, first := some 1 }
    let s := ({ running with su := { running.su with clock := 9, sweepTimer := some 1 } } : State)
      |>.setZone 4 { v with deadline := some 10 } |>.setZone 5 { v with deadline := some 11 }
    s.su.sweepTimer ≠ some 0 ∧ s.evu.flushTimer ≠ 0 ∧ s.evu.summaryTimer ≠ 0
      ∧ (s.zone 4).enabled = true ∧ (s.zone 4).state = .verify ∧ (s.zone 4).deadline = some 10
      ∧ 10 ≤ min (s.su.clock + 1) 4294967295 ∧ (s.zone 5).deadline = some 11
      ∧ min (s.su.clock + 1) 4294967295 < 11 := by decide +kernel

/-- A tick at 9: head 1 has missed two statuses and head 2 none; one held entry expires at 10 and one at 11. -/
theorem witness_SecondsTickDelivered_records :
    let e (n : Byte) (x : Nat) : HeldEntry := ⟨1, .locate, 1, n, .waiting, 0, x⟩
    let s := ({ running with su := { running.su with clock := 9, sweepTimer := some 1 },
                             hcq := { running.hcq with entries := [e 1 10, e 2 11] } } : State)
      |>.modifyHead 1 (fun v => { v with link := .up, missed := 2 })
      |>.modifyHead 2 fun v => { v with link := .up, statusSeen := true, missed := 0 }
    s.su.sweepTimer ≠ some 0 ∧ s.evu.flushTimer ≠ 0 ∧ s.evu.summaryTimer ≠ 0
      ∧ (match exec .secondsTick s with
        | .next t => (t.hcq.entries, t.hcq.counters.expired, (t.head 1).link, (t.head 2).link, t.evu.counters.takenFault)
        | _ => ([], 0, .down, .down, 0)) = ([e 2 11], 1, .lost, .up, 2) := by decide +kernel

/-- A tick while every expiry of the tick before is outstanding. -/
theorem witness_SecondsTickDelivered_outstanding :
    let s : State := { running with evu := { running.evu with flushTimer := 0, summaryTimer := 0 },
                                    su := { running.su with sweepTimer := some 0 } }
    0 < s.pages.timing.sweep ∧ 0 < s.pages.timing.flush ∧ 0 < s.pages.timing.summary
      ∧ (match exec .secondsTick s with
        | .next t => (t.su.sweep, t.su.sweepTimer.map (· + 1), t.evu.counters.summariesBuilt)
        | _ => (none, none, 0)) = (some 0, some s.pages.timing.sweep, 1) := by decide +kernel

/-- A summary built on an idle link with one that waits there: it gets the link, and none is replaced. -/
theorem witness_TimersExpire_summary_granted :
    let z : ZoneSummary := ⟨0, .running, 0, [], []⟩
    let s : State := { running with evu := { running.evu with summaryTimer := 0, summarySlot := some z } }
    s.evu.summaryTimer = 0
      ∧ (match exec .summaryExpiry s with
        | .next t => (t.evu.tx.map (·.frame), t.evu.summarySlot.isSome, t.evu.counters.summariesReplaced)
        | _ => (none, false, 1)) = (some (.summary z), true, 0) := by decide +kernel

theorem witness_DueEventsTaken :
    let e : HeldEntry := ⟨1, .locate, 1, 9, .sent, 1, 7⟩
    let v : Zone := { Zone.powerOn with state := .verify, first := some 1, deadline := some 7 }
    let s := (({ running with su := { running.su with clock := 7 },
                              hcq := { running.hcq with entries := [{ e with expiry := 8 }, e] } } : State).setZone 0 v)
      |>.modifyHead 2 fun h => { h with link := .up, missed := 3 }
    (s.head 2).link = .up ∧ 3 ≤ (s.head 2).missed
      ∧ (s.zone 0).enabled = true ∧ (s.zone 0).state = .verify ∧ (s.zone 0).deadline = some 7 ∧ 7 ≤ s.su.clock
      ∧ s.hcq.entries = [{ e with expiry := 8 }] ++ e :: [] ∧ e.expiry ≤ s.su.clock
      ∧ ∀ x ∈ [{ e with expiry := 8 }], ¬ (x.target = e.target ∧ x.number = e.number ∧ x.expiry ≤ s.su.clock) := by
  decide +kernel

theorem witness_TimersExpire :
    let s : State := { running with evu := { running.evu with flushTimer := 0, summaryTimer := 0 },
                                    su := { running.su with sweepTimer := some 0 } }
    s.evu.flushTimer = 0 ∧ s.evu.summaryTimer = 0 ∧ s.su.sweepTimer = some 0 ∧ s.su.sweep = none
      ∧ ({ s with su := { s.su with sweep := some 3 } } : State).su.sweep = some 3 := by decide +kernel

/-- The deadline is the clock's value; one second earlier it is not yet reached; index 1 is free. -/
theorem witness_VisitMarksMissing :
    let s (now i : Nat) : State :=
      { holding running (record .smoke) with su := { running.su with clock := now, sweep := some i } }
    (s 180 0).su.sweep = some 0 ∧ (s 180 0).fiu.state.waits = false ∧ (s 180 0).mexWaits = false
      ∧ (s 180 0).dtu.recordAt 0 = some (record .smoke) ∧ (record .smoke).enabled = true
      ∧ (record .smoke).presence ≠ .missing ∧ (record .smoke).deadline ≤ (s 180 0).su.clock
      ∧ (s 179 0).su.clock < (record .smoke).deadline ∧ (s 180 511).dtu.recordAt 511 = none := by decide +kernel

/-- A request of FIU, and a command of MEX at DTU, before which no visit is granted. -/
theorem witness_VisitMarksMissing_waiting :
    (fiuIn running (.lookingUp (lane 0 0 0 []))).fiu.state.waits = true
      ∧ (taken running [7, 0x04, 0, 0, 1]).mexWaits = true ∧ (taken running [7, 0x51]).mexWaits = false := by decide

/-! ## Witnesses: frame intake -/

theorem witness_FrameTakeOrder :
    let f := lane 0 0 0 []
    let s : State := { running with intake := { running.intake with normalLane := [f] } }
    let u : State := { s with intake := { s.intake with urgentLane := [f] } }
    s.fiu.state = .idle ∧ s.intake.urgentLane = [] ∧ s.intake.normalLane = f :: []
      ∧ u.fiu.state = .idle ∧ u.intake.urgentLane = f :: [] := by decide +kernel

theorem witness_LookupRequestAnswered :
    let f := lane 0 0 0 []
    (fiuIn running (.lookingUp f)).fiu.state = .lookingUp f
      ∧ (fiuIn running (.lookingUp f)).findRecord f.frame.address = none
      ∧ (fiuIn (holding running (record .heat)) (.lookingUp f)).findRecord f.frame.address
          = some (0, 1, record .heat) := by decide +kernel

theorem witness_IntegrityCheckVerdict :
    (fiuIn running (.checking (lane 0 0 0 []) 0 3 0)).fiu.state = .checking (lane 0 0 0 []) 0 3 0 := rfl

/-- Every outcome of a completion has a state: a failing tag, a record moved, and distances 2048, 0 and 1. -/
theorem witness_CompletionOutcome :
    let at_ (l : SeqNo) := fiuIn (holding running { record .heat with lastSequence := some l })
      (.completing (lane 0 0 0 []) 0 3 true)
    (at_ 10).fiu.state = .completing (lane 0 0 0 []) 0 3 true ∧ ((at_ 10).dtu.recordAt 0).isSome
      ∧ (at_ 10).dtu.epochAt 0 = 3 ∧ (at_ 10).dtu.epochAt 0 ≠ 2
      ∧ ((frame 0 0 0 []).sequence - 2059).toNat = 2048 ∧ ((frame 0 0 0 []).sequence - 11).toNat = 0
      ∧ ((frame 0 0 0 []).sequence - 10).toNat = 1 ∧ ((frame 0 0 0 []).sequence - 2060).toNat = 2047 := by
  decide +kernel

/-- A frame whose record has gone, and one whose record was granted anew, with a tag that passes and one that fails. -/
theorem witness_CompletionOutcome_unconfirmed (b : Bool) :
    let s (x : State) (e : BitVec 8) := fiuIn x (.completing (lane 0 0 0 []) 0 e b)
    (s running 0).dtu.recordAt 0 = none ∧ (s running 0).fiu.state = .completing (lane 0 0 0 []) 0 0 b
      ∧ (s (holding running (record .heat)) 2).dtu.epochAt 0 ≠ 2 := by cases b <;> decide +kernel

/-- A repeat after a run of failures, of a record whose path it betters: without and with a retry count. -/
theorem witness_CompletionOutcome_repeat (b : Bool) :
    let r := { record .heat with lastSequence := some 11, failureRun := 3, path := some ⟨1, some 2, 1, -60⟩ }
    let f : LaneFrame := { lane 0 0 0 [] with frame := { frame 0 0 0 [] with retry := if b then 1 else 0 } }
    let s := fiuIn (holding running r) (.completing f 0 3 true)
    s.fiu.state = .completing f 0 3 true ∧ s.dtu.epochAt 0 = 3 ∧ s.dtu.recordAt 0 = some r
      ∧ r.lastSequence = some f.frame.sequence ∧ (f.frame.retry = 0 ↔ b = false)
      ∧ f.frame.hop.toNat < 1 := by cases b <;> decide +kernel

/-- A new frame at either end of its distances, with no held command SENT. -/
theorem witness_NewFrameWritesRecord (l : SeqNo) (hl : l = 10 ∨ l = 2060) :
    let r := { record .heat with lastSequence := some l }
    let f := lane 0 6 3 []
    let s := fiuIn (holding running r) (.completing f 0 3 true)
    s.fiu.state = .completing f 0 3 true ∧ s.dtu.epochAt 0 = 3 ∧ s.dtu.recordAt 0 = some r
      ∧ (∀ m, r.lastSequence = some m → 1 ≤ (f.frame.sequence - m).toNat ∧ (f.frame.sequence - m).toNat ≤ 2047)
      ∧ s.hcq.sentEntry r.address = none := by
  rcases hl with rfl | rfl <;> refine ⟨rfl, rfl, rfl, ?_, rfl⟩ <;> intro m hm <;> cases hm <;> decide

/-- A held command that is SENT to address 000001h, with number 9 and one attempt counted. -/
def sentEntry (code : HeldCode) (argument : BitVec 16) : HeldEntry := ⟨1, code, argument, 9, .sent, 1, 600⟩

/-- A frame of address 000001h whose done number is 9. -/
def echo (kind : Byte) (payload : List Byte) : LaneFrame :=
  { lane kind 0 0 payload with frame := { frame kind 0 0 payload with done := 9 } }

/-- A CHECK that echoes TEST_ENTER, from a record that is counted in a PRE zone with a raised count of 1. -/
def echoed : State :=
  (fiuIn { holding running { record .heat with level := .pre } with
      hcq := { running.hcq with entries := [sentEntry .testEnter 0] } }
    (.completing (echo 0 []) 0 3 true)).setZone 5 { Zone.powerOn with state := .pre, raised := 1 }

/-- A sounder that reports pattern 7 at its second mismatch in a row; the group order of its zone asks for 3. -/
def mismatched : State :=
  fiuIn { holding running { record .sounder with mismatchRun := 1 } with
      hcq := { running.hcq with orders := [⟨.zone 5, 3⟩, ⟨.zone 6, 7⟩] } }
    (.completing (lane 4 0 0 [7]) 0 3 true)

theorem witness_NewFrameWritesRecord_echo :
    let r := { record .heat with level := .pre }
    let x := sentEntry .testEnter 0
    echoed.fiu.state = .completing (echo 0 []) 0 3 true ∧ echoed.dtu.recordAt 0 = some r ∧ r.lastSequence = some 10
      ∧ echoed.hcq.sentEntry r.address = some x ∧ (echo 0 []).frame.done = x.number ∧ (echo 0 []).frame.kind = 0
      ∧ r.counted (echoed.zone r.zone).epoch = true ∧ (echoed.zone 5).raised ≤ 1 ∧ (echoed.zone 5).state = .pre := by
  decide +kernel

theorem witness_NewFrameWritesRecord_sounder :
    let r := { record .sounder with mismatchRun := 1 }
    mismatched.dtu.recordAt 0 = some r ∧ r.kind = .sounder ∧ (lane 4 0 0 [7]).frame.kind = 4 ∧ (7 : Byte).toNat ≤ 7
      ∧ mismatched.hcq.expectedPattern r.zone = 3 ∧ r.mismatchRun = 1 := by decide +kernel

/-- The echoed TEST_ENTER completes and takes the record out of its zone's count. -/
theorem test_echo_completes :
    (match exec .completionRequest echoed with
      | .next t => ((t.dtu.recordAt 0).map DetectorRecord.test, (t.dtu.recordAt 0).map DetectorRecord.level,
          (t.zone 5).raised, (t.zone 5).state, t.hcq.entries, t.hcq.counters.done)
      | _ => (none, none, 9, .alarm, [], 0))
    = (some true, some .normal, 0, .quiet, [], 1) := by decide +kernel

/-- The second mismatch stores the pattern and the run stands at 2. -/
theorem test_sounder_mismatch :
    (match exec .completionRequest mismatched with
      | .next t => ((t.dtu.recordAt 0).map DetectorRecord.sounderPattern,
          (t.dtu.recordAt 0).map DetectorRecord.mismatchRun)
      | _ => (none, none))
    = (some 7, some 2) := by decide +kernel

/-- A frame of a reading kind for a record with the level, the baseline, the last value and the drift flag given. -/
def reads (kind : DetectorKind) (level : Level) (baseline last : Option Nat) (drift : Bool) (code : Byte)
    (payload : List Byte) : State :=
  fiuIn (holding running { record kind with
      level := level, baseline := baseline, lastReported := last, driftFault := drift })
    (.completing (lane code 0 0 payload) 0 3 true)

/-- What the completion of such a frame leaves: the record's level, baseline, drift flag and last value, the zone's state
and raised count, and the frames counted as kind mismatches. -/
structure Left where
  level : Level
  baseline : Option Nat
  drift : Bool
  last : Option Nat
  zone : ZoneState
  raised : Nat
  mismatches : Nat
deriving DecidableEq

/-- The completion's outcome for the record at index 0 and its zone. -/
def leaves (s : State) : Option Left :=
  match exec .completionRequest s with
  | .next t => (t.dtu.recordAt 0).map fun r =>
    ⟨r.level, r.baseline, r.driftFault, r.lastReported, (t.zone 5).state, (t.zone 5).raised, t.fiu.counters.kindMismatch⟩
  | _ => none

/-- Readings at NORMAL: a step of the baseline and a first value; the drift limit passed, with a change of 7; the drift
cleared at D - 4, with a change of 8. -/
theorem test_smoke_readings :
    leaves (reads .smoke .normal (some 560) none false 1 [41]) = some ⟨.normal, some 561, false, some 6, .quiet, 0, 0⟩
    ∧ leaves (reads .smoke .normal (some 1288) (some 7) false 1 [81])
        = some ⟨.normal, some 1289, true, some 7, .quiet, 0, 0⟩
    ∧ leaves (reads .smoke .normal (some 1223) (some 8) true 1 [76])
        = some ⟨.normal, some 1222, false, some 0, .quiet, 0, 0⟩ := by decide +kernel

/-- Transitions at a threshold, with the baseline set but not stepped; an ALARM that stays at A - H; and frames that do
not suit their record. -/
theorem test_readings_and_mismatches :
    leaves (reads .smoke .normal none none false 1 [65]) = some ⟨.alarm, some 320, false, some 45, .alarm, 1, 0⟩
    ∧ leaves (reads .heat .normal none none false 1 [55]) = some ⟨.pre, none, false, some 55, .pre, 1, 0⟩
    ∧ leaves (reads .multi .normal none none false 2 [10, 70]) = some ⟨.alarm, some 160, false, some 0, .alarm, 1, 0⟩
    ∧ leaves (reads .heat .alarm none (some 70) false 1 [68]) = some ⟨.alarm, none, false, some 70, .quiet, 0, 0⟩
    ∧ leaves (reads .heat .normal none none false 2 [9, 9]) = some ⟨.normal, none, false, none, .quiet, 0, 1⟩
    ∧ leaves (reads .callpoint .normal none none false 3 [2]) = some ⟨.normal, none, false, none, .quiet, 0, 1⟩ := by
  decide +kernel

/-- The hypotheses of the clauses about a reading: enabled records, in and out of test, that have one. -/
theorem witness_NewFrameWritesRecord_reading :
    let s := reads .smoke .alarm (some 320) none false 1 [65]
    s.dtu.recordAt 0 = some { record .smoke with level := .alarm, baseline := some 320 }
      ∧ (∀ m, (record .smoke).lastSequence = some m → 1 ≤ ((11 : SeqNo) - m).toNat ∧ ((11 : SeqNo) - m).toNat ≤ 2047)
      ∧ (smokeReading s.pages.levels (some 320) 0 .alarm 65).level = .alarm
      ∧ (smokeReading s.pages.levels (some 320) 0 .normal 65).level ≠ .normal
      ∧ (smokeReading s.pages.levels (some 320) 0 .normal 20).level = .normal := by
  refine ⟨by decide +kernel, ?_, by decide +kernel⟩
  intro m hm; cases hm; decide

/-- The same in the frame's own slot, with room for one frame more and two held commands waiting. -/
theorem witness_NewFrameAcknowledged :
    let r := record .heat
    let f := lane 0 0 0 []
    let x : HeldEntry := ⟨1, .locate, 1, 9, .waiting, 0, 600⟩
    let y : HeldEntry := { x with target := 2 }
    let s := (fiuIn (holding running r) (.completing f 0 3 true)).modifyHead 0
      fun v => { v with txFifo := List.replicate 15 (.tune 0 0 0) }
    let u : State := { s with hcq := { s.hcq with entries := [y, x] } }
    s.fiu.state = .completing f 0 3 true ∧ s.dtu.epochAt 0 = 3 ∧ s.dtu.recordAt 0 = some r
      ∧ r.lastSequence = some 10 ∧ s.hcq.sentEntry r.address = none ∧ u.hcq.sentEntry r.address = none
      ∧ f.stamp = BitVec.ofNat 16 (s.clock.superframe.toNat * 8 + s.clock.slot.toNat)
      ∧ (s.head f.head).txFifo.length < 16 ∧ (∀ z ∈ s.hcq.entries, z.target = r.address → z.state ≠ .waiting)
      ∧ u.hcq.entries = [y] ++ x :: [] ∧ x.target = r.address ∧ x.state = .waiting
      ∧ (∀ z ∈ [y], z.target = r.address → z.state ≠ .waiting) := by decide +kernel

/-- A SENT entry behind another address's: its number echoed; not echoed below the attempt limit of 3 and at it. -/
theorem witness_NewFrameAcknowledged_sent :
    let x (n : Nat) : HeldEntry := { sentEntry .locate 1 with attempts := n }
    let y : HeldEntry := { x 0 with target := 2 }
    let q (n : Nat) : Hcq := { running.hcq with entries := [y] ++ x n :: [] }
    (q 1).entries = [y] ++ x 1 :: [] ∧ (x 1).target = (record .heat).address ∧ (x 1).state = .sent
      ∧ (∀ z ∈ [y], ¬ (z.target = (record .heat).address ∧ z.state = .sent))
      ∧ (echo 0 []).frame.done = (x 1).number ∧ (lane 0 0 0 []).frame.done ≠ (x 1).number
      ∧ (x 1).attempts + 1 < running.pages.timing.attemptLimit
      ∧ running.pages.timing.attemptLimit ≤ (x 2).attempts + 1 := by decide +kernel

/-- An acknowledgement that comes late, and one that finds the head's FIFO full. -/
theorem witness_Acknowledged_not_sent :
    let f := lane 0 0 0 []
    let late : State := { running with clock := { running.clock with slot := 1 } }
    let full := running.modifyHead 0 fun v => { v with txFifo := List.replicate 16 (.tune 0 0 0) }
    f.stamp ≠ BitVec.ofNat 16 (late.clock.superframe.toNat * 8 + late.clock.slot.toNat)
      ∧ f.stamp = BitVec.ofNat 16 (full.clock.superframe.toNat * 8 + full.clock.slot.toNat)
      ∧ 16 ≤ (full.head f.head).txFifo.length := by decide +kernel

/-- Which entry a not-sent notice finds: SENT, of the address and the number; and none where it waits. -/
theorem witness_notSent_clauses :
    let x := sentEntry .locate 1
    let q : Hcq := { running.hcq with entries := [] ++ x :: [{ x with number := 10 }] }
    q.entries = [] ++ x :: [{ x with number := 10 }] ∧ x.target = 1 ∧ x.number = 9 ∧ x.state = .sent
      ∧ ∀ y ∈ [{ x with state := .waiting }], ¬ (y.target = 1 ∧ y.number = 9 ∧ y.state = .sent) := by decide +kernel

/-- A failing tag at each end of the failure run, and a stale frame. -/
theorem witness_DroppedFrameEffects :
    let f := lane 0 0 0 []
    let r (n : Nat) (l : SeqNo) := { record .heat with failureRun := n, lastSequence := some l }
    let s (n : Nat) (l : SeqNo) (p : Bool) := fiuIn (holding running (r n l)) (.completing f 0 3 p)
    (s 2 10 false).fiu.state = .completing f 0 3 false ∧ (s 2 10 false).dtu.epochAt 0 = 3
      ∧ (s 2 10 false).dtu.recordAt 0 = some (r 2 10) ∧ (s 3 10 false).dtu.recordAt 0 = some (r 3 10)
      ∧ (s 3 2059 true).fiu.state = .completing f 0 3 true ∧ (r 3 2059).lastSequence = some 2059
      ∧ 2048 ≤ (f.frame.sequence - 2059).toNat := by decide +kernel

/-! ## Witnesses: levels and zones -/

theorem witness_EffectiveThresholds :
    (2 : Nat) ≤ (⟨249, 250, 0⟩ : ThresholdSet).alarm ∧ (⟨249, 250, 0⟩ : ThresholdSet).alarm ≤ 250
      ∧ (⟨249, 250, 0⟩ : ThresholdSet).pre < (⟨249, 250, 0⟩ : ThresholdSet).alarm
      ∧ (⟨1, 2, 15⟩ : ThresholdSet).preWith 0 = 1 ∧ (⟨240, 245, 0⟩ : ThresholdSet).preWith 20 = 249
      ∧ (smokeReading .powerOn none 0 .normal 0).level = .normal
      ∧ (multiReading .powerOn none 0 .normal 0 0).level = .normal := by decide +kernel

theorem witness_SmokeBaseline :
    ({ record .smoke with baseline := some 568 } : DetectorRecord).baseline = some 568
      ∧ (4080 : Nat) ≤ 4080 ∧ (255 : Nat) ≤ 255 ∧ (2 : Nat) ≤ 2 ∧ steppedBaseline 4080 255 2 = 4080
      ∧ steppedBaseline 0 255 2 = 1020 ∧ steppedBaseline 4080 0 10 = 4077
      ∧ (smokeReading .powerOn (some 568) 0 .normal 36).drift = some (569, PageLevels.powerOn.smokeDrift.limit) := by
  decide

theorem witness_ZoneTransitionOutcome :
    let s := running.setZone 1 { Zone.powerOn with enabled := false }
      |>.setZone 2 { Zone.powerOn with mode := .persist, state := .verify, first := some 1, deadline := some 30 }
      |>.setZone 3 { Zone.powerOn with mode := .coincidence, state := .verify, first := some 1, deadline := some 30 }
      |>.setZone 4 { Zone.powerOn with mode := .coincidence, state := .pre, raised := 1 }
    (s.zone 1).enabled = false ∧ (s.zone 0).enabled = true ∧ (s.zone 0).mode = .direct ∧ (s.zone 0).state ≠ .alarm
      ∧ (s.zone 4).enabled = true ∧ (s.zone 4).state = .pre ∧ (s.zone 4).mode ≠ .direct
      ∧ (s.zone 2).enabled = true ∧ (s.zone 2).state = .verify ∧ (s.zone 2).mode = .persist
      ∧ (s.zone 3).enabled = true ∧ (s.zone 3).state = .verify ∧ (s.zone 3).mode = .coincidence
      ∧ (s.zone 3).first = some 1 ∧ (s.zone 3).first ≠ some 2 ∧ DetectorKind.smoke ≠ .callpoint := by decide +kernel

/-- Levels whose hysteresis reaches below 0; and zones in VERIFY for detector 000001h: one that PERSIST confirms, and one
that waits for it as its partner. -/
theorem witness_EffectiveThresholds_ZoneTransitionOutcome :
    let s := running.setZone 2
        { Zone.powerOn with mode := .persist, state := .verify, first := some 1, deadline := some 30 }
      |>.setZone 3 { Zone.powerOn with mode := .persist, state := .verify, first := some 2, partner := some 2 }
    channelLevel 0 9 10 15 .alarm = .alarm ∧ (10 : Nat) ≤ 15 ∧ (9 : Nat) ≤ 15 ∧ (0 : Nat) < 10
      ∧ (s.zone 2).enabled = true ∧ (s.zone 2).mode = .persist ∧ (s.zone 2).state = .verify ∧ (s.zone 2).first = some 1
      ∧ (3 : ZoneNo) ≠ 2 ∧ (s.zone 3).enabled = true ∧ (s.zone 3).state = .verify ∧ (s.zone 3).partner = some 2
      ∧ ((s.zoneTransition 2 1 .smoke .pre .alarm).zone 3).state = .alarm
      ∧ ((s.zoneStaysAlarm 2 1 .smoke).zone 2).state = .alarm ∧ s.zoneStaysAlarm 3 1 .smoke = s := by decide +kernel

/-- The call point's zone 5 is QUIET, and zone 6 waits in VERIFY with zone 5 as its partner. -/
theorem witness_CallPointRaisesAlarm :
    let r := record .callpoint
    let f := lane 3 1 0 [1]
    let s := (fiuIn (holding running r) (.completing f 0 3 true)).setZone 6
      { Zone.powerOn with state := .verify, first := some 2, deadline := some 30, partner := some 5 }
    s.fiu.state = .completing f 0 3 true ∧ s.dtu.epochAt 0 = 3 ∧ s.dtu.recordAt 0 = some r
      ∧ r.lastSequence = some 10 ∧ 1 ≤ (f.frame.sequence - 10).toNat ∧ (f.frame.sequence - 10).toNat ≤ 2047
      ∧ (∀ x ∈ s.hcq.entries, ¬ (x.target = r.address ∧ x.state = .sent)) ∧ r.kind = .callpoint ∧ r.enabled = true
      ∧ r.test = false ∧ (r.level = .normal ∨ r.levelEpoch ≠ (s.zone r.zone).epoch) ∧ f.frame.kind = 3 ∧ f.frame.payload = [1]
      ∧ (s.zone r.zone).enabled = true ∧ (s.zone r.zone).state ≠ .alarm
      ∧ (s.zone 6).state = .verify ∧ (s.zone 6).partner = some r.zone := by decide +kernel

/-! ## Witnesses: the panel link -/

/-- A busy link with a full STATUS queue; filter 3 raises every HEAD_UP to FAULT and decides before filter 9. -/
theorem witness_RecordTaken :
    let up : Filter := { Filter.powerOn with enable := true, eventKind := some .headUp, raiseClass := some .fault }
    let off : Filter := { up with raiseClass := none, suppress := true }
    let e : Evu := { running.evu with tx := some ⟨.reply, .reply reply, []⟩,
                                      statusQueue := List.replicate 48 eventRecord }
    let x (f g : Filter) : Evu := { e with filters := (e.filters.set 3 f).set 9 g }
    e.tx.isSome ∧ eventRecord.body.kind ≠ .zoneAlarm ∧ e.contexts = []
      ∧ (∀ i : Fin 16, (e.filters.get i).accepts eventRecord = false)
      ∧ ((x up off).filters.get 3).accepts eventRecord = true ∧ ((x up off).filters.get 3).raiseClass = some .fault
      ∧ ((x up off).filters.get 3).suppress = false ∧ eventRecord.body.kind.baseClass.rank < EventClass.fault.rank
      ∧ (∀ j : Fin 16, ((x up off).filters.get j).accepts eventRecord = true →
          ((x up off).filters.get j).priority = ((x up off).filters.get 3).priority ∧ 3 ≤ j)
      ∧ ((x off up).filters.get 3).suppress = true ∧ eventRecord.body.kind.baseClass = .status := by decide +kernel

/-- A HEAD_UP joins on an idle link: alone; with an earlier STATUS record, which gets the link; with a reply waiting; and
with a filter on a link that is granted, whose record is discarded. -/
theorem witness_RecordTaken_idle :
    let e := running.evu
    let earlier : EventRecord := { eventRecord with body := .headUp 1 }
    let off : Filter := { Filter.powerOn with enable := true, eventKind := some .headUp, suppress := true }
    let w : Evu := { e with statusQueue := [earlier], statusLoss := 2 }
    e.tx = none ∧ e.contexts = [] ∧ e.granted = e ∧ (e.take 0 eventRecord).statusQueue = [eventRecord]
      ∧ (w.take 0 eventRecord).statusQueue = [eventRecord] ∧ (w.take 0 eventRecord).statusLoss = 0
      ∧ (w.take 0 eventRecord).tx.map (·.frame) = some (.record { earlier with lostBefore := 2 })
      ∧ ({ w with replySlot := some reply } : Evu).take 0 eventRecord
          = { w with replySlot := some reply, statusQueue := [earlier, eventRecord],
                     counters := w.counters.countTaken .status }
      ∧ (({ w with filters := w.filters.set 3 off } : Evu).take 0 eventRecord).statusQueue = [earlier] := by
  decide +kernel

/-- An open context of address 000001h with a count of values, and a list of contexts of other addresses. -/
def context (a : Address) (n : Nat) : Context := ⟨a, 5, .smoke, 0, 1, 10, n, 3, 4, 4⟩

/-- Contexts: the list below its bound and at it; gaps of 1, 16, 0 and 17; a count of 15; an urgent match. -/
theorem witness_RecordTaken_contexts :
    let others (n : Nat) : List Context := (List.range n).map fun i => context (BitVec.ofNat 24 (i + 2)) 1
    let c := context 1 15
    let urgent : Filter := { Filter.powerOn with enable := true, eventKind := some .headUp, urgent := true }
    (∀ d ∈ others 16, d.address ≠ 1) ∧ (others 15).length < 16 ∧ (others 16).length = 16
      ∧ others 16 = context 2 1 :: (others 16).drop 1
      ∧ (others 2 ++ c :: []).length ≤ 16 ∧ c.address = 1 ∧ c.kind = .smoke ∧ c.count = 15 ∧ (context 1 14).count ≠ 15
      ∧ ((11 : SeqNo) - c.last).toNat = 1 ∧ ((26 : SeqNo) - c.last).toNat = 16 ∧ ((10 : SeqNo) - c.last).toNat = 0
      ∧ ((27 : SeqNo) - c.last).toNat = 17 ∧ urgent.accepts eventRecord = true ∧ urgent.urgent = true := by
  decide +kernel

/-- Two open contexts: FLUSH_EXPIRY closes both, counts them by their cause and takes a LEVEL_SUMMARY for each; the
context of the second address closes alone; an urgent match finds them open. -/
theorem witness_RecordTaken_TimersExpire_closings :
    let e : Evu := { running.evu with flushTimer := 0, contexts := [context 2 1, context 1 15] }
    let s : State := { running with evu := e }
    e.contexts ≠ [] ∧ s.evu.flushTimer = 0 ∧ e.contexts = [context 2 1] ++ context 1 15 :: []
      ∧ (context 1 15).address = 1 ∧ (∀ d ∈ [context 2 1], d.address ≠ 1) ∧ (∀ d ∈ e.contexts, d.address ≠ 3)
      ∧ (match exec .flushExpiry s with
        | .next t => (t.evu.contexts, t.evu.counters.closedFlush, t.evu.counters.takenLevel)
        | _ => ([], 0, 0)) = ([], 2, 2)
      ∧ (e.closeFor 0 .notice 1).contexts = [context 2 1] := by decide +kernel

/-- One state for each source of the arbiter, the sources before it empty. -/
theorem witness_PanelGrantOrder :
    let e := running.evu
    let z : ZoneSummary := ⟨0, .running, 0, [], []⟩
    e.tx = none ∧ e.alarmQueue = [] ∧ e.replySlot = none ∧ e.summarySlot = none ∧ e.faultQueue = []
      ∧ e.statusQueue = [] ∧ e.levelQueue = [] ∧ running.mex.state = .idle ∧ running.pli.fifo = []
      ∧ ({ e with alarmQueue := [eventRecord] } : Evu).alarmQueue = eventRecord :: []
      ∧ ({ e with replySlot := some reply } : Evu).replySlot = some reply
      ∧ ({ running.pli with fifo := [[7, 0x53]] } : Pli).fifo = [7, 0x53] :: []
      ∧ (taken running [7, 0x53]).mex.state = .executing [7, 0x53]
      ∧ ({ e with summarySlot := some z } : Evu).summarySlot = some z
      ∧ ({ e with faultQueue := [eventRecord] } : Evu).faultQueue = eventRecord :: []
      ∧ ({ e with statusQueue := [eventRecord] } : Evu).statusQueue = eventRecord :: []
      ∧ ({ e with levelQueue := [eventRecord] } : Evu).levelQueue = eventRecord :: [] := by decide +kernel

/-- A ZONE_ALARM joins while a reply, a summary, a FAULT record or nothing waits; a reply that is chosen keeps its place
before an ALARM record. -/
theorem witness_PanelGrantOrder_joining :
    let e := running.evu
    let r : EventRecord := { eventRecord with body := .zoneAlarm .direct .direct none none 1, zone := some 5 }
    let z : ZoneSummary := ⟨0, .running, 0, [], []⟩
    let chosen : Evu := { e with alarmQueue := [r], replySlot := some reply, replyFirst := true }
    r.body.kind = .zoneAlarm ∧ e.alarmQueue = [] ∧ ({ e with replySlot := some reply } : Evu).replySlot = some reply
      ∧ ({ e with summarySlot := some z } : Evu).replySlot = none
      ∧ ({ e with faultQueue := [eventRecord] } : Evu).summarySlot = none
      ∧ chosen.replyFirst = true ∧ chosen.replySlot = some reply ∧ chosen.tx = none := by decide +kernel

/-- A ZONE_ALARM joins while a STATUS or a LEVEL record waits, behind an ALARM record, before which a reply is chosen or
not, and on a busy link. -/
theorem witness_PanelGrantOrder_joining_behind :
    let e := running.evu
    let r : EventRecord :=
      { eventRecord with body := .zoneAlarm .direct .direct none none 1, cls := .alarm, zone := some 5 }
    let busy : Evu := { e with tx := some ⟨.reply, .reply reply, []⟩ }
    let chosen : Evu := { e with alarmQueue := [r], replySlot := some reply, replyFirst := true }
    r.body.kind = .zoneAlarm ∧ e.tx = none ∧ busy.tx ≠ none
      ∧ (({ e with statusQueue := [eventRecord] } : Evu).take 0 r).tx.map (·.source) = some .status
      ∧ (({ e with levelQueue := [eventRecord] } : Evu).take 0 r).tx.map (·.source) = some .level
      ∧ (({ e with alarmQueue := [r] } : Evu).take 0 r).tx.map (·.source) = some .alarm
      ∧ (chosen.take 0 r).tx = none ∧ (chosen.take 0 r).alarmQueue = [r, r] := by decide +kernel

theorem witness_RestartClearsAtGrant :
    let s : State := { running with evu := { running.evu with replySlot := some reply },
                                    mex := { running.mex with state := .restarting } }
    s.evu.tx = none ∧ s.evu.alarmQueue = [] ∧ s.evu.replySlot = some reply ∧ s.mex.state = .restarting := by
  decide +kernel

/-- A ZONE_ALARM record of zone 5, and a reply. -/
theorem witness_TransmissionCompletes :
    let r : EventRecord := { eventRecord with
      body := .zoneAlarm .direct .direct none none 1, cls := .alarm, zone := some 5 }
    let x : PanelTransmission := ⟨.alarm, .record r, (PanelFrame.record r).wire⟩
    let y : PanelTransmission := ⟨.reply, .reply reply, (PanelFrame.reply reply).wire⟩
    ({ running.evu with tx := some x } : Evu).tx = some x ∧ x.frame = .record r ∧ r.body.kind = .zoneAlarm
      ∧ r.zone = some 5 ∧ ({ running.evu with tx := some y } : Evu).tx = some y ∧ y.frame ≠ .record r := by
  decide +kernel

/-- A MANAGEMENT frame with nothing before it; with three and with four payloads waiting behind a busy MEX. -/
theorem witness_ManagementFrameTaken :
    let s (n : Nat) : State :=
      { taken running [7, 0x53] with pli := { running.pli with fifo := List.replicate n [7, 0x53] } }
    running.pli.rx.feed (panelWire 0x01 [9, 0x53]) = (.hunting, [.management [9, 0x53]])
      ∧ running.mex.state = .idle ∧ running.evu.replySlot = none ∧ running.pli.fifo = []
      ∧ (s 3).mex.state ≠ .idle ∧ (s 3).pli.fifo.length < 4 ∧ (s 4).mex.state ≠ .idle ∧ 4 ≤ (s 4).pli.fifo.length
      ∧ (s 4).pli.rx.feed (panelWire 0x01 [9, 0x53]) = (.hunting, [.management [9, 0x53]]) := by decide +kernel

theorem witness_UnknownCommandRefused :
    (taken running [7, 0x54]).mex.state = .executing (7 :: 0x54 :: []) ∧ parseCommand [7, 0x54] = none
      ∧ parseCommand [7, 0x53, 0] = none := by decide +kernel

/-- Payloads too short for a tag or a code, and a PAGE_WRITE of page 4. -/
theorem witness_UnknownCommandRefused_short :
    (taken running []).mex.state = .executing [] ∧ (taken running [7]).mex.state = .executing [7]
      ∧ 4 ≤ (4 : Byte).toNat ∧ parseCommand [7, 0x40, 4] = none := by decide +kernel

/-! ## Witnesses: table commands. The payloads are written out byte by byte from the layouts of R188. -/

/-- Arguments for address 000001h: kind 1, zone 5, key 2A00…01h, P = 65, M = 5. -/
def enrolArgs : EnrolArgs := ⟨1, 1, 5, 0x2A000000000000000000000000000001, 65, 5⟩

/-- The same arguments as bytes. -/
def enrolBytes : List Byte := [0, 0, 1, 1, 5, 0x2A, 0, 0, 0, 0, 0, 0, 0, 0, 0, 0, 0, 0, 0, 0, 1, 0, 65, 5]

/-- ENROL's and AMEND's payloads. -/
def enrolPayload : List Byte := 7 :: 0x01 :: enrolBytes

/-- An AMEND of the same values with fresh start. -/
def amendPayload : List Byte := 7 :: 0x02 :: (enrolBytes ++ [1])

theorem test_ready_enrol (s : State) (h : s.fiu.state.waits = false) :
    Ready (taken s enrolPayload) (.enrol enrolArgs) 7 := ready_taken _ _ _ _ (by decide +kernel) h

theorem test_ready_amend (s : State) (h : s.fiu.state.waits = false) :
    Ready (taken s amendPayload) (.amend enrolArgs true) 7 := ready_taken _ _ _ _ (by decide +kernel) h

/-- The address is absent and index 0 is at the front of the free list, for an ENROL and for an AMEND. -/
theorem witness_EnrolTakesFreeRecord :
    (Ready (taken State.reset enrolPayload) (.enrol enrolArgs) 7
      ∧ Ready (taken State.reset amendPayload) (.amend enrolArgs true) 7)
    ∧ enrolArgs.address ≠ 0 ∧ enrolArgs.address ≠ 0xFFFFFF ∧ DetectorKind.ofCode enrolArgs.kind = some .smoke
      ∧ zoneOf enrolArgs.zone = some 5 ∧ (taken State.reset enrolPayload).findRecord enrolArgs.address = none
      ∧ (taken State.reset amendPayload).findRecord enrolArgs.address = none
      ∧ (taken State.reset enrolPayload).dtu.freeList.head? = some 0 :=
  ⟨⟨test_ready_enrol _ rfl, test_ready_amend _ rfl⟩, by decide +kernel⟩

/-- The free index and the bucket stand in the table, and the data says so: index 0, epoch 1, position 1. -/
theorem witness_EnrolTakesFreeRecord_data :
    let s := taken State.reset enrolPayload
    0 < s.dtu.slots.length ∧ s.bucketOf 1 < s.dtu.chains.length
      ∧ (match exec (.enrol enrolArgs) s with
        | .next t => t.evu.replySlot.map Reply.data
        | _ => none) = some [0, 0, 1, 0, 0, 1, 0, 1, 0, 0, 60, 4] := by decide +kernel

/-- A table with no free index, for an absent address; and a kind code that names no kind. -/
theorem witness_EnrolRefused :
    let full : State := { State.reset with dtu := { State.reset.dtu with freeList := [] } }
    (Ready (taken full enrolPayload) (.enrol enrolArgs) 7 ∧ Ready (taken full amendPayload) (.amend enrolArgs true) 7)
    ∧ (Ready (taken full (7 :: 0x01 :: enrolBytes.set 3 7)) (.enrol { enrolArgs with kind := 7 }) 7
      ∧ Ready (taken full (7 :: 0x02 :: (enrolBytes.set 3 7 ++ [0]))) (.amend { enrolArgs with kind := 7 } false) 7)
    ∧ (taken full enrolPayload).findRecord enrolArgs.address = none ∧ (taken full enrolPayload).dtu.freeList = []
      ∧ ¬ (enrolArgs.address = 0 ∨ enrolArgs.address = 0xFFFFFF ∨ DetectorKind.ofCode enrolArgs.kind = none
        ∨ 64 ≤ enrolArgs.zone.toNat) ∧ DetectorKind.ofCode 7 = none :=
  ⟨⟨test_ready_enrol _ rfl, test_ready_amend _ rfl⟩,
    ⟨ready_taken _ _ _ _ (by decide +kernel) rfl, ready_taken _ _ _ _ (by decide +kernel) rfl⟩, by decide +kernel⟩

/-- A present record, with the stored configuration and with another; index 1 is free for an AMEND. -/
theorem witness_EnrolPresent_AmendMoves :
    let same := { record .smoke with key := enrolArgs.key, misses := 4 }
    let s := taken (holding State.reset same) enrolPayload
    let other := taken (holding State.reset (record .smoke)) enrolPayload
    let amended := taken (holding State.reset (record .smoke)) amendPayload
    (Ready s (.enrol enrolArgs) 7 ∧ Ready other (.enrol enrolArgs) 7 ∧ Ready amended (.amend enrolArgs true) 7)
    ∧ s.findRecord enrolArgs.address = some (0, 1, same) ∧ other.findRecord enrolArgs.address = some (0, 1, record .smoke)
      ∧ amended.findRecord enrolArgs.address = some (0, 1, record .smoke)
      ∧ same.period = max 20 (min enrolArgs.period.toNat 600) / 10 * 10
      ∧ same.misses = max 1 (min enrolArgs.misses.toNat 4) ∧ (record .smoke).key ≠ enrolArgs.key
      ∧ amended.dtu.freeList.head? = some 1 ∧ (1 : Nat) ≠ 0 ∧ 1 < amended.dtu.slots.length :=
  ⟨⟨test_ready_enrol _ rfl, test_ready_enrol _ rfl, test_ready_amend _ rfl⟩, by decide +kernel⟩

/-- AMEND without fresh start, of a record in alarm that keeps its zone and of one that leaves zone 6. -/
theorem witness_AmendMovesRecord_kept (z : ZoneNo) (hz : z = 5 ∨ z = 6) :
    let r := { record .smoke with zone := z, level := .alarm }
    let s := taken (holding State.reset r) (7 :: 0x02 :: (enrolBytes ++ [0]))
    Ready s (.amend enrolArgs false) 7
    ∧ s.findRecord enrolArgs.address = some (0, 1, r) ∧ s.dtu.freeList.head? = some 1 ∧ 1 < s.dtu.slots.length
      ∧ (r.zone = 5 ↔ z = 5) ∧ zoneOf enrolArgs.zone = some 5 ∧ r.counted (s.zone r.zone).epoch = true := by
  rcases hz with rfl | rfl <;> exact ⟨ready_taken _ _ _ _ (by decide +kernel) rfl, by decide +kernel⟩

/-- Present, with the enabled flag at each of its values, for WITHDRAW, LOOKUP, DETECTOR_DISABLE, DETECTOR_ENABLE. -/
theorem witness_present_record (b : Bool) :
    let r := { record .multi with enabled := b, level := if b then .alarm else .normal, presence := .missing }
    let s (code : Byte) := taken (holding running r) [7, code, 0, 0, 1]
    (Ready (s 3) (.withdraw 1) 7 ∧ Ready (s 4) (.lookup 1) 7 ∧ Ready (s 6) (.detectorDisable 1) 7
      ∧ Ready (s 7) (.detectorEnable 1) 7)
    ∧ (∀ code, (s code).findRecord 1 = some (0, 1, r)) ∧ r.enabled = b ∧ (1 : Address) ≠ 0
      ∧ (1 : Address) ≠ 0xFFFFFF := by
  intro r s
  have found : (holding running r).findRecord 1 = some (0, 1, r) := by cases b <;> decide +kernel
  refine ⟨⟨ready_taken _ _ _ _ (by decide +kernel) rfl, ready_taken _ _ _ _ (by decide +kernel) rfl,
    ready_taken _ _ _ _ (by decide +kernel) rfl, ready_taken _ _ _ _ (by decide +kernel) rfl⟩, fun code => ?_, rfl,
    by decide, by decide⟩
  exact found

/-- A counted record whose zone is in PRE with a raised count of 1, with a held entry and an open context. -/
def counted : State :=
  { holding running { record .heat with level := .pre } with
    hcq := { running.hcq with entries := [sentEntry .locate 1] },
    evu := { running.evu with contexts := [context 1 15] } }.setZone 5 { Zone.powerOn with state := .pre, raised := 1 }

/-- Its withdrawal and its disabling both take the zone to QUIET; the withdrawal also closes the context and removes the
entry. -/
theorem witness_Withdraw_Disable_counted :
    let r := { record .heat with level := .pre }
    counted.findRecord 1 = some (0, 1, r) ∧ r.counted (counted.zone r.zone).epoch = true
      ∧ (match exec (.withdraw 1) (taken counted [7, 0x03, 0, 0, 1]) with
        | .next t => ((t.zone 5).state, t.evu.contexts, t.hcq.entries, t.evu.counters.closedNotice,
            t.hcq.counters.failedWithdrawn, t.evu.counters.takenStatus, t.evu.counters.takenFault)
        | _ => (.alarm, [], [], 0, 0, 0, 0)) = (.quiet, [], [], 1, 1, 1, 1)
      ∧ (match exec (.detectorDisable 1) (taken counted [7, 0x06, 0, 0, 1]) with
        | .next t => ((t.zone 5).state, (t.zone 5).raised, t.evu.contexts, t.evu.counters.takenStatus)
        | _ => (.alarm, 9, [], 0)) = (.quiet, 0, [context 1 15], 1) := by decide +kernel

/-- No record, for an address that can be enrolled and one that is reserved; and zone number 64. -/
theorem witness_AddressOrZoneRefused :
    Ready (taken running [7, 0x03, 255, 255, 255]) (.withdraw 0xFFFFFF) 7
      ∧ Ready (taken running [7, 0x04, 0, 0, 1]) (.lookup 1) 7 ∧ (taken running [7, 0x04, 0, 0, 1]).findRecord 1 = none
      ∧ Ready (taken running [7, 0x10, 64, 0, 0, 30, 255, 0]) (.zoneSet ⟨64, 0, 30, 255, 0⟩) 7
      ∧ Ready (taken running [7, 0x12, 64]) (.zoneReset 64) 7 ∧ 64 ≤ (64 : Byte).toNat :=
  ⟨ready_taken _ _ _ _ (by decide +kernel) rfl, ready_taken _ _ _ _ (by decide +kernel) rfl, by decide +kernel,
    ready_taken _ _ _ _ (by decide +kernel) rfl, ready_taken _ _ _ _ (by decide +kernel) rfl, by decide⟩

theorem witness_ClearTableEmpties :
    let s (t : State) := taken (holding t (record .relay)) [7, 0x05]
    Ready (s State.reset) .clearTable 7 ∧ (s State.reset).mode = .loading
      ∧ Ready (s running) .clearTable 7 ∧ (s running).mode = .running :=
  ⟨ready_taken _ _ _ _ (by decide +kernel) rfl, rfl, ready_taken _ _ _ _ (by decide +kernel) rfl, rfl⟩

/-- ENROL of the arguments above as one step from power-on: P is stored as 60 and M as 4, so the reply is ADJUSTED, and
index 0 is taken with epoch 1. -/
theorem test_enrol_step :
    (match exec (.enrol enrolArgs) (taken State.reset enrolPayload) with
      | .next t => (t.evu.replySlot.map fun r => (r.tag, r.code, r.result), (t.findRecord 1).map fun r => (r.1, r.2.1),
          t.dtu.epochAt 0, t.mex.state)
      | _ => (none, none, 0, .restarting))
    = (some (7, 0x01, .adjusted), some (0, 1), 1, .idle) := by decide +kernel

/-! ## Witnesses: head, zone, held command, group order and filter commands -/

theorem witness_HeadResetClears (h : HeadNo) :
    Ready (taken running [7, 0x08, BitVec.ofNat 8 h.val]) (.headReset (BitVec.ofNat 8 h.val)) 7
      ∧ (BitVec.ofNat 8 h.val).toNat = h.val := by
  refine ⟨ready_taken _ _ _ _ rfl rfl, ?_⟩
  revert h; decide

theorem witness_HeadResetClears_refused :
    Ready (taken running [7, 0x08, 4]) (.headReset 4) 7 ∧ 4 ≤ (4 : Byte).toNat :=
  ⟨ready_taken _ _ _ _ (by decide +kernel) rfl, by decide⟩

/-- The power-on configuration of zone 63, and one that is its own partner. -/
theorem witness_ZoneSetStores :
    Ready (taken running [7, 0x10, 63, 0, 0, 30, 255, 0]) (.zoneSet ⟨63, 0, 30, 255, 0⟩) 7
      ∧ Ready (taken running [7, 0x10, 63, 2, 1, 45, 63, 65]) (.zoneSet ⟨63, 2, 301, 63, 65⟩) 7
      ∧ zoneOf 63 = some 63 ∧ ZoneMode.ofCode 2 = some .coincidence ∧ partnerOf 63 = some (some 63)
      ∧ partnerOf 255 = some none ∧ ZoneMode.ofCode 0 = some .direct ∧ ZoneMode.ofCode 3 = none ∧ partnerOf 64 = none
      ∧ Ready (taken running [7, 0x11, 63, 2]) (.zoneService 63 2) 7 ∧ serviceOf 2 = none :=
  ⟨ready_taken _ _ _ _ (by decide +kernel) rfl, ready_taken _ _ _ _ (by decide +kernel) rfl, by decide, by decide,
    by decide, by decide, by decide, by decide, by decide, ready_taken _ _ _ _ (by decide +kernel) rfl, by decide⟩

/-- Zone 0 as at power-on, zone 1 disabled with its count kept, zone 2 in ALARM. -/
theorem witness_ZoneFlagsSet :
    let t := running.setZone 1 { Zone.powerOn with enabled := false, raised := 2 }
      |>.setZone 2 { Zone.powerOn with state := .alarm, raised := 1 }
    let s (z code : Byte) := taken t [7, code, z]
    (Ready (taken t [7, 0x11, 0, 1]) (.zoneService 0 1) 7 ∧ Ready (s 0 0x13) (.zoneDisable 0) 7
      ∧ Ready (s 1 0x13) (.zoneDisable 1) 7 ∧ Ready (s 2 0x13) (.zoneDisable 2) 7 ∧ Ready (s 0 0x14) (.zoneEnable 0) 7
      ∧ Ready (s 1 0x14) (.zoneEnable 1) 7)
    ∧ zoneOf 0 = some 0 ∧ zoneOf 1 = some 1 ∧ zoneOf 2 = some 2 ∧ serviceOf 1 = some true ∧ (t.zone 0).service = false
      ∧ (t.zone 0).state ≠ .alarm ∧ (t.zone 0).enabled = true ∧ (t.zone 1).enabled = false
      ∧ (t.zone 1).state ≠ .alarm ∧ (t.zone 2).state = .alarm :=
  ⟨⟨ready_taken _ _ _ _ (by decide +kernel) rfl, ready_taken _ _ _ _ (by decide +kernel) rfl,
    ready_taken _ _ _ _ (by decide +kernel) rfl, ready_taken _ _ _ _ (by decide +kernel) rfl,
    ready_taken _ _ _ _ (by decide +kernel) rfl, ready_taken _ _ _ _ (by decide +kernel) rfl⟩, by decide +kernel⟩

/-- Zone 5 at epoch 255, whose alarm record is unsent or sent; the record's level carries epoch 0, the next one. -/
theorem witness_ZoneResetClears (b : Bool) :
    let r := { record .smoke with level := .alarm }
    let s := taken ((holding running r).setZone 5 { Zone.powerOn with epoch := 255, alarmUnsent := b }) [7, 0x12, 5]
    Ready s (.zoneReset 5) 7
    ∧ (s.zone 5).alarmUnsent = b ∧ zoneOf 5 = some 5 ∧ s.dtu.recordAt 0 = some r ∧ r.zone = 5 ∧ r.level ≠ .normal
      ∧ r.levelEpoch = (s.zone 5).epoch + 1 :=
  ⟨ready_taken _ _ _ _ (by decide +kernel) rfl, by cases b <;> decide +kernel⟩

/-- SET_PERIOD of 605 for a detector, with 63 entries held. -/
theorem witness_CommandEntered :
    let e : HeldEntry := ⟨2, .locate, 1, 9, .waiting, 0, 600⟩
    let s := taken { holding running (record .smoke) with
      hcq := { running.hcq with entries := List.replicate 63 e, nextNumber := 255 } } [7, 0x20, 0, 0, 1, 5, 2, 0x5D]
    Ready s (.command 1 5 605) 7
    ∧ s.mode = .running ∧ (1 : Address) ≠ 0 ∧ (1 : Address) ≠ 0xFFFFFF ∧ HeldCode.ofCode 5 = some .setPeriod
      ∧ storedArgument .setPeriod 605 = some 600 ∧ s.findRecord 1 = some (0, 1, record .smoke)
      ∧ HeldCode.setPeriod.suits .smoke = true ∧ s.hcq.entries.length < 64 :=
  ⟨ready_taken _ _ _ _ (by decide +kernel) rfl, by decide +kernel⟩

/-- COMMAND in LOADING, for a reserved address, with unknown codes and arguments, for an absent detector, for one it does
not suit, and with 64 entries held. -/
theorem witness_CommandRefused :
    let e : HeldEntry := ⟨2, .locate, 1, 9, .waiting, 0, 600⟩
    let full : State := { holding running (record .smoke) with
      hcq := { running.hcq with entries := List.replicate 64 e } }
    (Ready (taken State.reset [7, 0x20, 0, 0, 1, 5, 2, 0x5D]) (.command 1 5 605) 7
      ∧ Ready (taken running [7, 0x20, 0, 0, 0, 5, 2, 0x5D]) (.command 0 5 605) 7
      ∧ Ready (taken running [7, 0x20, 0, 0, 1, 6, 0, 0]) (.command 1 6 0) 7
      ∧ Ready (taken running [7, 0x20, 0, 0, 1, 2, 0, 2]) (.command 1 2 2) 7
      ∧ Ready (taken running [7, 0x20, 0, 0, 1, 5, 2, 0x5D]) (.command 1 5 605) 7
      ∧ Ready (taken (holding running (record .relay)) [7, 0x20, 0, 0, 1, 2, 0, 1]) (.command 1 2 1) 7
      ∧ Ready (taken full [7, 0x20, 0, 0, 1, 5, 2, 0x5D]) (.command 1 5 605) 7)
    ∧ State.reset.mode = .loading ∧ HeldCode.ofCode 6 = none ∧ HeldCode.ofCode 2 = some .locate
      ∧ 1 < (2 : BitVec 16).toNat ∧ (taken running [7, 0x20, 0, 0, 1, 5, 2, 0x5D]).findRecord 1 = none
      ∧ storedArgument .locate 1 = some 1 ∧ HeldCode.locate.suits .relay = false
      ∧ (taken (holding running (record .relay)) [7, 0x20, 0, 0, 1, 2, 0, 1]).findRecord 1
          = some (0, 1, record .relay)
      ∧ (taken full [7, 0x20, 0, 0, 1, 5, 2, 0x5D]).findRecord 1 = some (0, 1, record .smoke)
      ∧ 64 ≤ (taken full [7, 0x20, 0, 0, 1, 5, 2, 0x5D]).hcq.entries.length :=
  ⟨⟨ready_taken _ _ _ _ (by decide +kernel) rfl, ready_taken _ _ _ _ (by decide +kernel) rfl,
    ready_taken _ _ _ _ (by decide +kernel) rfl, ready_taken _ _ _ _ (by decide +kernel) rfl,
    ready_taken _ _ _ _ (by decide +kernel) rfl, ready_taken _ _ _ _ (by decide +kernel) rfl,
    ready_taken _ _ _ _ (by decide +kernel) rfl⟩, by decide +kernel⟩

/-- The group order table of two orders, and of eight. -/
def twoOrders : List GroupEntry := [⟨.all, 1⟩, ⟨.zone 63, 7⟩]

/-- Eight orders, none for ALL. -/
def eightOrders : List GroupEntry := (List.finRange 8).map fun z => ⟨.zone ⟨z.val, by omega⟩, 7⟩

/-- RUNNING with two orders (the scope held or not) and with eight, pattern 8 or 0; an unknown scope; LOADING. -/
theorem witness_GroupOrderChangesTable :
    let s (l : List GroupEntry) (b x : Byte) := taken { running with hcq := { running.hcq with orders := l } }
      [7, 0x21, b, x]
    (Ready (s twoOrders 255 8) (.groupOrder 255 8) 7 ∧ Ready (s twoOrders 255 1) (.groupOrder 255 1) 7
      ∧ Ready (s twoOrders 255 0) (.groupOrder 255 0) 7 ∧ Ready (s twoOrders 0 8) (.groupOrder 0 8) 7
      ∧ Ready (s twoOrders 0 0) (.groupOrder 0 0) 7 ∧ Ready (s eightOrders 255 8) (.groupOrder 255 8) 7
      ∧ Ready (s twoOrders 64 1) (.groupOrder 64 1) 7
      ∧ Ready (taken State.reset [7, 0x21, 255, 8]) (.groupOrder 255 8) 7)
    ∧ (s twoOrders 255 8).mode = .running ∧ (s twoOrders 255 8).hcq.orders = [] ++ ⟨.all, 1⟩ :: [⟨.zone 63, 7⟩]
      ∧ (∀ y ∈ [(⟨.zone 63, 7⟩ : GroupEntry)], y.scope ≠ .all) ∧ (∀ g ∈ twoOrders, g.scope ≠ .zone 0)
      ∧ twoOrders.length < 8 ∧ (∀ g ∈ eightOrders, g.scope ≠ .all) ∧ 8 ≤ eightOrders.length
      ∧ min (8 : Byte).toNat 7 ≠ 0 ∧ Scope.ofCode 255 = some .all ∧ Scope.ofCode 0 = some (.zone 0)
      ∧ Scope.ofCode 64 = none ∧ State.reset.mode = .loading :=
  ⟨⟨ready_taken _ _ _ _ (by decide +kernel) rfl, ready_taken _ _ _ _ (by decide +kernel) rfl,
    ready_taken _ _ _ _ (by decide +kernel) rfl, ready_taken _ _ _ _ (by decide +kernel) rfl,
    ready_taken _ _ _ _ (by decide +kernel) rfl, ready_taken _ _ _ _ (by decide +kernel) rfl,
    ready_taken _ _ _ _ (by decide +kernel) rfl, ready_taken _ _ _ _ (by decide +kernel) rfl⟩, by decide +kernel⟩

/-- A FILTER_SET of filter 15 that cares for BATTERY_LOW, of the filter's power-on values, and with bad values. -/
theorem witness_FilterSetWrites :
    let a : FilterArgs := ⟨15, true, true, false, false, false, 0x11, 0, 0, 0, 8, 0, true, false⟩
    let p : FilterArgs := ⟨15, false, false, false, false, false, 0, 0, 0, 0, 1, 0, false, false⟩
    Ready (taken running [7, 0x30, 15, 3, 0x11, 0, 0, 0, 0, 0, 8, 0, 1]) (.filterSet a) 7
      ∧ Ready (taken running [7, 0x30, 15, 0, 0, 0, 0, 0, 0, 0, 1, 0, 0]) (.filterSet p) 7
      ∧ Ready (taken running [7, 0x30, 15, 3, 0x11, 0, 0, 0, 0, 0, 8, 1, 1]) (.filterSet { a with raiseClass := 1 }) 7
      ∧ Ready (taken running [7, 0x30, 16, 3, 0x11, 0, 0, 0, 0, 0, 8, 0, 1]) (.filterSet { a with index := 16 }) 7
      ∧ (Filter.store a).isSome ∧ Filter.store a ≠ some (running.evu.filters.get 15)
      ∧ Filter.store p = some (running.evu.filters.get 15) ∧ Filter.store { a with raiseClass := 1 } = none
      ∧ 16 ≤ ({ a with index := 16 } : FilterArgs).index.toNat :=
  ⟨ready_taken _ _ _ _ (by decide +kernel) rfl, ready_taken _ _ _ _ (by decide +kernel) rfl,
    ready_taken _ _ _ _ (by decide +kernel) rfl, ready_taken _ _ _ _ (by decide +kernel) rfl, by decide +kernel,
    by decide +kernel, by decide +kernel, by decide +kernel, by decide⟩

/-- The storing rules at their bounds: arguments of held commands, a filter's cared values and its priority. -/
theorem witness_storing_rules :
    let a : FilterArgs := ⟨15, true, true, true, true, true, 0x30, 6, 63, 0xFFFFFE, 0, 3, false, true⟩
    storedArgument .sounderPattern 7 = some 7 ∧ storedArgument .sounderPattern 8 = some 7
      ∧ storedArgument .locate 1 = some 1 ∧ storedArgument .locate 2 = none ∧ storedArgument .setPeriod 0 = some 20
      ∧ Filter.store a = some ⟨true, some .levelSummary, some .relay, some 63, some 0xFFFFFE, 1, some .status, false, true⟩
      ∧ Filter.store { a with eventKind := 1 } = none ∧ Filter.store { a with eventKind := 0x2F } = none
      ∧ Filter.store { a with detKind := 7 } = none ∧ Filter.store { a with zone := 64 } = none
      ∧ Filter.store { a with address := 0xFFFFFF } = none := by decide +kernel

/-! ## Witnesses: pages and modes -/

theorem witness_PageWriteAirLevels :
    let a : AirArgs := ⟨9, 1, #v[0, 8, 2, 3], 99, 101, 0x80⟩
    Ready (taken State.reset [7, 0x40, 0, 9, 1, 0, 8, 2, 3, 0, 99, 101, 0x80]) (.pageWriteAir a) 7
      ∧ Ready (taken running [7, 0x40, 0, 9, 1, 0, 8, 2, 3, 0, 99, 101, 0x80]) (.pageWriteAir a) 7
      ∧ (PageAir.store a).isSome ∧ PageAir.store { a with order := 2 } = none
      ∧ Ready (taken running ([7, 0x40, 1] ++ levelsBytes PageLevels.powerOn.toArgs))
          (.pageWriteLevels PageLevels.powerOn.toArgs) 7
      ∧ PageLevels.store PageLevels.powerOn.toArgs = some .powerOn
      ∧ PageLevels.store { PageLevels.powerOn.toArgs with heatReport := ⟨3, 4⟩ } = none :=
  ⟨ready_taken _ _ _ _ (by decide +kernel) rfl, ready_taken _ _ _ _ (by decide +kernel) rfl, by decide +kernel,
    by decide +kernel, ready_taken _ _ _ _ (by decide +kernel) rfl, by decide +kernel, by decide +kernel⟩

/-- Pages 0 and 1 at their bounds: MIRROR without and with N a power of two, the slot length rounded down, and a P not
below its A. -/
theorem witness_PageWriteAirLevels_stored :
    let a : AirArgs := ⟨7, 1, #v[7, 8, 6, 0], 124, 49, 0xC5⟩
    PageAir.store a = some ⟨7, .rotate, #v[0, 1, 6, 0], 100, 50, -60⟩
      ∧ PageAir.store { a with channels := 1, margin := 0x9B } = some ⟨2, .mirror, #v[1, 0, 0, 0], 100, 50, -100⟩
      ∧ ThresholdSet.store ⟨45, 45, 16⟩ = ⟨44, 45, 15⟩ ∧ ThresholdSet.store ⟨0, 0, 0⟩ = ⟨1, 2, 0⟩
      ∧ PageLevels.powerOn.toArgs.smokeReport.mode.toNat ≤ 2 := by decide +kernel

theorem witness_PageWriteTimingArms :
    let s (t : State) := taken t [7, 0x40, 2, 0, 4, 61, 0, 14, 17, 0, 29, 9]
    Ready (s State.reset) (.pageWriteTiming ⟨4, 61, 0, 3601, 29, 9⟩) 7 ∧ (s State.reset).mode = .loading
      ∧ Ready (s running) (.pageWriteTiming ⟨4, 61, 0, 3601, 29, 9⟩) 7 ∧ (s running).mode = .running :=
  ⟨ready_taken _ _ _ _ (by decide +kernel) rfl, rfl, ready_taken _ _ _ _ (by decide +kernel) rfl, rfl⟩

/-- The same write in RUNNING with every expiry outstanding; and STOP with the sweep timer's, while a head's FIFO holds
an acknowledgement that carries a SENT entry. -/
theorem witness_PageWriteTimingArms_StopClosesPart_due :
    let s : State := { running with evu := { running.evu with flushTimer := 0, summaryTimer := 0 },
                                    su := { running.su with sweepTimer := some 0, sweep := some 3 },
                                    hcq := { running.hcq with entries := [sentEntry .locate 1] } }
    let u := s.modifyHead 0 fun v => { v with txFifo := [.ack 1 11 0 0 (some ⟨9, .locate, 1⟩)] }
    Ready (taken s [7, 0x40, 2, 0, 4, 61, 0, 14, 17, 0, 29, 9]) (.pageWriteTiming ⟨4, 61, 0, 3601, 29, 9⟩) 7
      ∧ Ready (taken u [7, 0x51]) .stop 7 ∧ u.mode = .running ∧ s.evu.flushTimer = 0 ∧ s.evu.summaryTimer = 0
      ∧ u.su.sweepTimer = some 0 ∧ u.su.sweep.isSome
      ∧ (allHeads.flatMap fun h => acksOf (u.head h).txFifo) = [(1, some ⟨9, .locate, 1⟩)] :=
  ⟨ready_taken _ _ _ _ (by decide +kernel) rfl, ready_taken _ _ _ _ (by decide +kernel) rfl, by decide +kernel⟩

/-- Only the sweep's expiry outstanding, and only the flush's. -/
theorem witness_PageWriteTimingArms_one_due :
    let s (sweep : Option Nat) (flush : Nat) : State := taken { running with
        evu := { running.evu with flushTimer := flush, summaryTimer := 1, contexts := [context 1 3] },
        su := { running.su with sweepTimer := sweep } } [7, 0x40, 2, 0, 4, 61, 0, 14, 17, 0, 29, 9]
    Ready (s (some 0) 1) (.pageWriteTiming ⟨4, 61, 0, 3601, 29, 9⟩) 7
      ∧ Ready (s none 0) (.pageWriteTiming ⟨4, 61, 0, 3601, 29, 9⟩) 7
      ∧ (s (some 0) 1).expiriesTaken.evu = (s (some 0) 1).evu ∧ (s (some 0) 1).expiriesTaken.su.sweep = some 0
      ∧ (s none 0).expiriesTaken.evu.contexts = [] ∧ (s none 0).expiriesTaken.evu.counters.closedFlush = 1 :=
  ⟨ready_taken _ _ _ _ (by decide +kernel) rfl, ready_taken _ _ _ _ (by decide +kernel) rfl, by decide +kernel⟩

/-- Table sizes half way between two take the smaller (R2). -/
theorem witness_PageWriteMemoryEmpties :
    Ready (taken State.reset [7, 0x40, 3, 1, 0x80, 17]) (.pageWriteMemory ⟨384, 17⟩) 7 ∧ State.reset.mode = .loading
      ∧ Ready (taken running [7, 0x40, 3, 1, 0x80, 17]) (.pageWriteMemory ⟨384, 17⟩) 7 ∧ running.mode = .running
      ∧ nearestTableSize 384 = 256 ∧ nearestTableSize 385 = 512 ∧ nearestTableSize 768 = 512
      ∧ nearestTableSize 769 = 1024 :=
  ⟨ready_taken _ _ _ _ (by decide +kernel) rfl, rfl, ready_taken _ _ _ _ (by decide +kernel) rfl, rfl, by decide,
    by decide, by decide, by decide⟩

theorem witness_PageReadReturns :
    Ready (taken running [7, 0x41, 0]) (.pageRead 0) 7 ∧ Ready (taken State.reset [7, 0x41, 3]) (.pageRead 3) 7
      ∧ Ready (taken running [7, 0x41, 4]) (.pageRead 4) 7 ∧ 4 ≤ (4 : Byte).toNat
      ∧ exec .powerOnReset running = .next State.reset
      ∧ exec .frameTake State.reset = .next State.reset ∧ Instr.frameTake ≠ .powerOnReset :=
  ⟨ready_taken _ _ _ _ (by decide +kernel) rfl, ready_taken _ _ _ _ (by decide +kernel) rfl,
    ready_taken _ _ _ _ (by decide +kernel) rfl, by decide, rfl, rfl, by decide⟩

/-- All four pages loaded. -/
def loadedPages : Pages :=
  { Pages.powerOn with airLoaded := true, levelsLoaded := true, timingLoaded := true, memoryLoaded := true }

/-- START in RUNNING, in LOADING with pages missing, and in LOADING with all pages loaded and head 0 UP. -/
theorem witness_StartOpensPart :
    let s := taken (({ State.reset with pages := loadedPages } : State).modifyHead 0 fun v => { v with link := .up })
      [7, 0x50]
    (Ready (taken running [7, 0x50]) .start 7 ∧ Ready (taken State.reset [7, 0x50]) .start 7 ∧ Ready s .start 7)
    ∧ running.mode = .running ∧ State.reset.mode = .loading ∧ State.reset.pages.memoryLoaded = false
      ∧ s.mode = .loading
      ∧ (s.pages.airLoaded && s.pages.levelsLoaded && s.pages.timingLoaded && s.pages.memoryLoaded) = true
      ∧ (s.head 0).link = .up ∧ (s.head 0).txFifo = [] :=
  ⟨⟨ready_taken _ _ _ _ (by decide +kernel) rfl, ready_taken _ _ _ _ (by decide +kernel) rfl,
    ready_taken _ _ _ _ (by decide +kernel) rfl⟩, by decide +kernel⟩

/-- START with what waits in the FIFOs: a BEACON and an acknowledgement at a head in UP, and the same at a head that is
DOWN, whose FIFO gets nothing. -/
theorem witness_StartOpensPart_fifos :
    let v (l : LinkState) (h : Head) : Head := { h with link := l, txFifo := [.beacon 9 [], .ack 1 11 0 7 none] }
    let s := taken ((({ State.reset with pages := loadedPages } : State).modifyHead 0 (v .up)).modifyHead 1 (v .down))
      [7, 0x50]
    (s.head 0).link = .up ∧ (s.head 1).link ≠ .up
      ∧ (match exec .start s with
        | .next t => ((t.head 0).txFifo.length, (t.head 0).counters.late, (t.head 1).txFifo, (t.head 1).counters.late)
        | _ => (0, 0, [], 0)) = (3, 1, [.beacon 9 []], 1) := by decide +kernel

/-- STOP with a context open and a zone in VERIFY: a LEVEL_SUMMARY, counted by its cause, and a ZONE_LAPSE. -/
theorem witness_StopClosesPart_records :
    let s := taken (({ running with evu := { running.evu with contexts := [context 1 3] } } : State).setZone 5
      { Zone.powerOn with mode := .persist, state := .verify, raised := 1, first := some 1, deadline := some 30 }) [7, 0x51]
    s.mode = .running ∧ (s.zone 5).enabled = true ∧ (s.zone 5).state = .verify
      ∧ (match exec .stop s with
        | .next t => (t.evu.contexts, t.evu.counters.closedStop, t.evu.counters.takenStatus, (t.zone 5).state)
        | _ => ([], 0, 0, .alarm)) = ([], 1, 1, .pre) := by decide +kernel

/-- STOP in both modes, RESTART and STATUS_QUERY; STOP and RESTART are taken beside a waiting request of FIU too. -/
theorem witness_StopClosesPart_RestartWaits_StatusQuery :
    let busy := fiuIn running (.completing (lane 0 0 0 []) 0 0 true)
    Ready (taken State.reset [7, 0x51]) .stop 7 ∧ Ready (taken busy [7, 0x51]) .stop 7
      ∧ (taken busy [7, 0x51]).mode = .running ∧ (taken busy [7, 0x51]).fiu.state ≠ .idle
      ∧ (match exec .stop (taken busy [7, 0x51]) with
        | .next t => t.fiu.counters.abandoned
        | _ => 0) = 1
      ∧ Ready (taken busy [7, 0x52]) .restart 7 ∧ Ready (taken running [7, 0x53]) .statusQuery 7 :=
  ⟨ready_taken _ _ _ _ (by decide +kernel) rfl, ⟨⟨[0x51], rfl, by decide +kernel⟩, by decide⟩, rfl,
    by decide +kernel, by decide +kernel, ⟨⟨[0x52], rfl, by decide +kernel⟩, by decide⟩, ready_taken _ _ _ _ (by decide +kernel) rfl⟩

/-! ## Witnesses: the invariants. A step from a state that has them all. -/

/-- The part after power-on with a second to count. -/
def ticking : State := { State.reset with pending := [.secondsTick] }

theorem witness_invariants_step : ∃ t, step ticking = .next t := ⟨_, rfl⟩

theorem witness_ZonesStaySound : ZonesSound ticking := by
  have h : ∀ z : ZoneNo, ticking.zone z = Zone.powerOn := by decide +kernel
  intro z; rw [h z]; exact Zone.powerOn_sound z

/-- The ends of R91's and R92's ranges are sound, and one past each is not. -/
theorem test_zone_ranges :
    let v : Zone := { Zone.powerOn with state := .verify, first := some 1, deadline := some 4294967295, window := 300,
                                        offset := 64 }
    v.Sound 0 ∧ Zone.Sound 0 { v with window := 10 } ∧ ¬ Zone.Sound 0 { v with window := 301 }
      ∧ ¬ Zone.Sound 0 { v with window := 9 } ∧ ¬ Zone.Sound 0 { v with offset := 65 }
      ∧ ¬ Zone.Sound 0 { v with deadline := some 4294967296 } := by
  simp [Zone.Sound, Zone.powerOn]

theorem witness_DepthsStayBounded : WithinDepths ticking := by
  have quiet : ∀ z : ZoneNo, (ticking.zone z).alarmUnsent = false := by decide +kernel
  have apart : ∀ i : Fin 16, (ticking.evu.filters.get i).raiseClass ≠ some .alarm := by decide +kernel
  have none_ : ∀ r ∈ ([] : List EventRecord), r.body.kind = .zoneAlarm ∧ r.zone.isSome := by decide
  have others : ∀ r ∈ ([] : List EventRecord), r.body.kind ≠ .zoneAlarm := by decide
  refine ⟨⟨⟨none_, others, apart⟩, fun z => ⟨?_, fun h => ?_⟩⟩, by decide, by decide, by decide, by decide, by decide,
    by decide, by decide, by decide, by decide +kernel⟩
  · rw [quiet z]; rfl
  · rw [quiet z] at h; cases h

/-- The state of `counted` before a seconds tick, with a second SENT entry for another target, a WAITING one for the same
target, two group orders, a context about to close and one just opened. -/
def listed : State :=
  { counted with
    pending := [.secondsTick],
    hcq := { counted.hcq with
      nextNumber := 255, orders := twoOrders,
      entries := [sentEntry .locate 1, { sentEntry .locate 1 with target := 2 },
        { sentEntry .testEnter 0 with state := .waiting }] },
    evu := { counted.evu with contexts := [context 1 15, context 2 1] } }

theorem witness_DepthsStayBounded_lists : ListsDistinct listed ∧ ∃ t, step listed = .next t := by
  refine ⟨?_, _, rfl⟩
  unfold ListsDistinct Hcq.Distinct Evu.ContextsDistinct; decide +kernel

/-- A second SENT entry of one target, or a second open context of one detector, is what the invariant rules out. -/
theorem test_doubles_ruled_out :
    ¬ Hcq.Distinct { listed.hcq with entries := [sentEntry .locate 1, sentEntry .testEnter 0] }
      ∧ ¬ Evu.ContextsDistinct { listed.evu with contexts := [context 1 15, context 1 1] } := by
  unfold Hcq.Distinct Evu.ContextsDistinct; decide +kernel

/-- The acknowledgements of a FIFO in order, the one without a held command among them; and the urgent flag alone. -/
theorem test_acknowledgements_and_urgent_flag :
    acksOf [.tune 0 0 0, .ack 1 11 0 7 none, .beacon 0 twoOrders, .ack 2 5 0 7 (some ⟨9, .locate, 1⟩)]
        = [(1, none), (2, some ⟨9, .locate, 1⟩)]
      ∧ (frame 3 0x01 0 [1]).urgent = true ∧ (frame 3 0xFE 0 [1]).urgent = false := by decide +kernel

theorem witness_PoolStaysConserved : PoolConserved ticking := by
  refine ⟨by decide +kernel, fun _ => ⟨rfl, rfl, rfl⟩⟩

theorem witness_CountsStayExact : CountsExact ticking ∧ TableExact ticking := by
  have hr : ticking.dtu.records = [] := by decide +kernel
  have hz : ∀ z : ZoneNo, (ticking.zone z).raised = 0 := by decide +kernel
  have counts : CountsExact ticking := by
    refine ⟨Dtu.FreeExact.empty 512, ?_, ?_, ?_⟩
    · unfold MissingCountExact; rw [hr]; rfl
    · intro z; rw [hz, hr]; rfl
    · rw [hr]; simp
  exact ⟨counts, counts, (ChainsExact.iff _).mpr ⟨.inr (.inl rfl), Dtu.Chained.empty 512⟩⟩

end Sys2Proof.Tests
end

