-- ==== Sys2Proof/Proofs/SlotChannels.lean ====
section
/-! The channels of section 2: what `PageAir.channel` gives in each order, and what a PAGE_WRITE of page 0 stores of the
channel count and the head starts (R40, R41). -/

namespace Sys2Proof.Machine

/-! ## The channel of a head in a slot (R41) -/

theorem PageAir.channel_rotate {p : PageAir} (order : p.order = .rotate) (h : HeadNo) (i : BitVec 3) :
    p.channel h i = (p.starts.get h + i.toNat) % p.channels := by
  simp only [PageAir.channel, order]

theorem PageAir.channel_mirror {p : PageAir} (order : p.order = .mirror) (h : HeadNo) (i : BitVec 3) :
    p.channel h i = p.starts.get h ^^^ (i.toNat % p.channels) := by
  simp only [PageAir.channel, order]

theorem PageAir.channel_rotate_lt {p : PageAir} (order : p.order = .rotate) (positive : 0 < p.channels) (h : HeadNo)
    (i : BitVec 3) : p.channel h i < p.channels := by
  rw [channel_rotate order]
  exact Nat.mod_lt _ positive

/-- The counts MIRROR is kept with are powers of two, and XOR stays below a power of two that bounds both operands. -/
theorem PageAir.channel_mirror_lt {p : PageAir} (order : p.order = .mirror)
    (count : p.channels = 2 ∨ p.channels = 4 ∨ p.channels = 8) {h : HeadNo} (start : p.starts.get h < p.channels)
    (i : BitVec 3) : p.channel h i < p.channels := by
  obtain ⟨m, power⟩ : ∃ m, p.channels = 2 ^ m := by
    obtain two | four | eight := count
    · exact ⟨1, two⟩
    · exact ⟨2, four⟩
    · exact ⟨3, eight⟩
  have slot : i.toNat % p.channels < p.channels := Nat.mod_lt _ (by omega)
  rw [channel_mirror order]
  rw [power] at start slot ⊢
  exact Nat.xor_lt_two_pow start slot

/-- The channel depends on the head only through its start. -/
theorem PageAir.channel_eq_of_starts_eq {p : PageAir} {h k : HeadNo} (same : p.starts.get h = p.starts.get k)
    (i : BitVec 3) : p.channel h i = p.channel k i := by
  simp only [PageAir.channel, same]

/-- With three channels, ROTATE advances a head's channel by the slot index modulo 3. -/
theorem PageAir.channel_rotate_three {p : PageAir} (order : p.order = .rotate) (three : p.channels = 3) (h : HeadNo)
    (j : Fin 8) : p.channel h (BitVec.ofNat 3 j.val) = (p.starts.get h + j.val % 3) % 3 := by
  have index : (BitVec.ofNat 3 j.val).toNat = j.val := Nat.mod_eq_of_lt j.isLt
  rw [channel_rotate order, three, index, Nat.add_mod_mod]

theorem PageAir.channels_of_slots_three {p : PageAir} (order : p.order = .rotate) (three : p.channels = 3)
    (h : HeadNo) :
    (List.finRange 8).map (fun j => p.channel h (BitVec.ofNat 3 j.val))
      = [0, 1, 2, 0, 1, 2, 0, 1].map (fun o => (p.starts.get h + o) % 3) := by
  have offsets : [0, 1, 2, 0, 1, 2, 0, 1] = (List.finRange 8).map (fun j => j.val % 3) := by decide
  rw [offsets, List.map_map]
  exact List.map_congr_left fun j _ => channel_rotate_three order three h j

/-! ## Page 0 as a PAGE_WRITE stores it (R40) -/

/-- A page 0 whose order code names an order is stored, whatever its head starts are. -/
theorem PageAir.store_of_order {a : AirArgs} (order : AirOrder.ofCode a.order ≠ none) :
    ∃ p, PageAir.store a = some p :=
  Option.isSome_iff_exists.mp (by rw [PageAir.store, Option.isSome_map]; exact Option.isSome_iff_ne_none.mpr order)

theorem PageAir.store_channels {a : AirArgs} {p : PageAir} (stored : PageAir.store a = some p) :
    p.channels = max 2 (min a.channels.toNat 8) := by
  obtain ⟨_, _, rfl⟩ := Option.map_eq_some_iff.mp stored
  rfl

/-- Each start is reduced by the stored count alone; the other heads' starts are not looked at. -/
theorem PageAir.store_starts {a : AirArgs} {p : PageAir} (stored : PageAir.store a = some p) (h : HeadNo) :
    p.starts.get h = (a.starts.get h).toNat % p.channels := by
  obtain ⟨_, _, rfl⟩ := Option.map_eq_some_iff.mp stored
  match h with
  | 0 | 1 | 2 | 3 => rfl

theorem State.writeAir_stored {a : AirArgs} {s : State} {p : PageAir} (loading : s.mode = .loading)
    (stored : PageAir.store a = some p) :
    State.writeAir a s = (s.setPages { s.pages with air := p, airLoaded := true }).answer (storedResult a p.toArgs)
      (byte1 0 ++ airBytes p.toArgs) := by
  simp [State.writeAir, loading, stored]

theorem exec_pageWriteAir (a : AirArgs) (s : State) : exec (.pageWriteAir a) s = execPageWriteAir a s :=
  rfl

/-- In LOADING a PAGE_WRITE whose page 0 is stored changes that page and its loaded flag, and replies with what was
stored. -/
theorem exec_pageWriteAir_stored {a : AirArgs} {s : State} {tag : Byte} {p : PageAir}
    (ready : Ready s (.pageWriteAir a) tag) (loading : s.mode = .loading) (stored : PageAir.store a = some p) :
    exec (.pageWriteAir a) s = .next (State.replied { s with pages := { s.pages with air := p, airLoaded := true } }
      tag 0x40 (storedResult a p.toArgs) (byte1 0 ++ airBytes p.toArgs)) := by
  rw [exec_pageWriteAir, execPageWriteAir, ready.run, State.writeAir_stored loading stored]
  rfl

end Sys2Proof.Machine

namespace Sys2Proof.Proofs

open Sys2Proof Sys2Proof.Machine

/-- Settles O9: the first half by the two orders of R41; in the second, a page 0 whose order code names an order is
always stored, so heads with equal starts are accepted, and the reply's state is the whole next state. -/
theorem slotChannels : Obligations.SlotChannels := by
  refine ⟨fun p h k i => ⟨fun rotate => PageAir.channel_rotate rotate h i,
    fun mirror => PageAir.channel_mirror mirror h i,
    fun rotate positive => PageAir.channel_rotate_lt rotate positive h i,
    fun mirror count start => PageAir.channel_mirror_lt mirror count start i,
    fun same => PageAir.channel_eq_of_starts_eq same i,
    fun rotate three => PageAir.channels_of_slots_three rotate three h⟩,
    fun s tag a ready loading order => ?_⟩
  obtain ⟨p, stored⟩ := PageAir.store_of_order order
  exact ⟨p, _, _, exec_pageWriteAir_stored ready loading stored, PageAir.store_channels stored,
    PageAir.store_starts stored⟩

end Sys2Proof.Proofs
end

