-- ==== Sys2Proof/Proofs/LevelProcessing.lean ====
section
/-! The Level Processor of section 4: the effective thresholds (R77), the level with its hysteresis (R79), the smoke
baseline's step (R76), and what a reading of each kind comes to (R72, R74 to R80, R83). -/

namespace Sys2Proof.Machine

/-! ## The effective thresholds (R77) -/

theorem ThresholdSet.alarmWith_le (t : ThresholdSet) (S : Nat) : t.alarmWith S ≤ 250 :=
  Nat.min_le_right _ _

theorem ThresholdSet.le_alarmWith {t : ThresholdSet} (bounded : t.alarm ≤ 250) (S : Nat) : t.alarm ≤ t.alarmWith S :=
  Nat.le_min.mpr ⟨Nat.le_add_right _ _, bounded⟩

theorem ThresholdSet.alarmWith_zero {t : ThresholdSet} (bounded : t.alarm ≤ 250) : t.alarmWith 0 = t.alarm :=
  Nat.min_eq_left bounded

/-- P' is below A' because A' is not 0: P' is lowered to A' − 1 where the sum reaches A'. -/
theorem ThresholdSet.preWith_lt_alarmWith {t : ThresholdSet} (two : 2 ≤ t.alarm) (S : Nat) :
    t.preWith S < t.alarmWith S := by
  have positive : 0 < t.alarmWith S := by rw [ThresholdSet.alarmWith]; omega
  rw [ThresholdSet.preWith]
  split
  · exact Nat.sub_one_lt_of_lt positive
  · omega

theorem ThresholdSet.preWith_zero {t : ThresholdSet} (ordered : t.pre < t.alarm) (bounded : t.alarm ≤ 250) :
    t.preWith 0 = t.pre := by
  have uncapped : min (t.pre + 0) 249 = t.pre := by omega
  rw [ThresholdSet.preWith, uncapped, alarmWith_zero bounded]
  exact if_neg (Nat.not_le.mpr ordered)

/-! ## The level of a channel (R79) and the higher of two levels (R80) -/

theorem Level.ne_normal_iff {l : Level} : l ≠ .normal ↔ l = .pre ∨ l = .alarm := by
  cases l <;> decide

theorem channelLevel_eq_alarm_iff {c P A H : Nat} {l : Level} :
    channelLevel c P A H l = .alarm ↔ A ≤ c ∨ (l = .alarm ∧ A - H ≤ c) := by
  unfold channelLevel
  split_ifs with reached held
  · exact iff_of_true rfl reached
  · exact iff_of_false nofun reached
  · exact iff_of_false nofun reached

theorem channelLevel_eq_pre_iff {c P A H : Nat} {l : Level} :
    channelLevel c P A H l = .pre ↔ ¬ (A ≤ c ∨ (l = .alarm ∧ A - H ≤ c))
      ∧ (P ≤ c ∨ ((l = .pre ∨ l = .alarm) ∧ P - H ≤ c)) := by
  rw [← Level.ne_normal_iff]
  unfold channelLevel
  split_ifs with reached held
  · exact iff_of_false nofun fun pre => pre.1 reached
  · exact iff_of_true rfl ⟨reached, held⟩
  · exact iff_of_false nofun fun pre => held pre.2

/-- What is neither ALARM nor PRE is NORMAL. -/
theorem channelLevel_eq_normal_iff {c P A H : Nat} {l : Level} :
    channelLevel c P A H l = .normal ↔ ¬ (A ≤ c ∨ (l = .alarm ∧ A - H ≤ c))
      ∧ ¬ (P ≤ c ∨ ((l = .pre ∨ l = .alarm) ∧ P - H ≤ c)) := by
  rw [← not_ne_iff, Level.ne_normal_iff, channelLevel_eq_pre_iff, channelLevel_eq_alarm_iff]
  tauto

/-- A hysteresis that reaches below 0 never lets an ALARM go. -/
theorem channelLevel_stays_alarm {A H : Nat} (reach : A ≤ H) (c P : Nat) : channelLevel c P A H .alarm = .alarm := by
  have zero : A - H ≤ c := by omega
  exact channelLevel_eq_alarm_iff.mpr (.inr ⟨rfl, zero⟩)

theorem channelLevel_stays_pre {c P A H : Nat} (reach : P ≤ H) (below : c < A) : channelLevel c P A H .pre = .pre := by
  have zero : P - H ≤ c := by omega
  have quiet : ¬ (A ≤ c ∨ (Level.pre = .alarm ∧ A - H ≤ c)) := not_or.mpr ⟨Nat.not_le.mpr below, nofun⟩
  exact channelLevel_eq_pre_iff.mpr ⟨quiet, .inr ⟨.inl rfl, zero⟩⟩

theorem Level.max_eq_alarm_iff {l m : Level} : l.max m = .alarm ↔ l = .alarm ∨ m = .alarm := by
  cases l <;> cases m <;> decide

theorem Level.max_eq_normal_iff {l m : Level} : l.max m = .normal ↔ l = .normal ∧ m = .normal := by
  cases l <;> cases m <;> decide

/-! ## The smoke baseline (R75, R76) -/

theorem rounded_le {b : Nat} (bounded : b ≤ 4080) : rounded b ≤ 255 := by
  rw [rounded]; omega

theorem compensated_eq (b r : Nat) : compensated b r = if r < rounded b then 0 else r - rounded b := by
  rw [compensated]
  split <;> omega

theorem compensated_le (b r : Nat) : compensated b r ≤ r :=
  Nat.sub_le _ _

/-- How far a baseline moves toward a reading `gap` sixteenths away, up or down (R76). -/
def baselineMove (gap shift : Nat) : Nat := max 1 (gap / 2 ^ shift)

theorem baselineMove_eq (gap k : Nat) : baselineMove gap k = if gap < 2 ^ k then 1 else gap / 2 ^ k := by
  rw [baselineMove]
  split
  case isTrue short => rw [Nat.div_eq_of_lt short]; rfl
  case isFalse long => exact Nat.max_eq_right (Nat.div_pos (Nat.not_lt.mp long) (Nat.two_pow_pos k))

theorem baselineMove_pos (gap k : Nat) : 0 < baselineMove gap k :=
  Nat.le_max_left _ _

/-- A move does not pass the reading. -/
theorem baselineMove_le {gap : Nat} (apart : 0 < gap) (k : Nat) : baselineMove gap k ≤ gap :=
  Nat.max_le.mpr ⟨apart, Nat.div_le_self _ _⟩

/-- Truncation toward zero divides the distance and keeps the direction. -/
theorem tdiv_two_pow (delta : Int) (k : Nat) :
    delta.tdiv (2 ^ k : Nat) = delta.sign * (delta.natAbs / 2 ^ k : Nat) := by
  have magnitude := Int.ofNat_tdiv delta.natAbs (2 ^ k)
  rcases lt_trichotomy delta 0 with below | rfl | above
  · have distance : (delta.natAbs : Int) = -delta := Int.ofNat_natAbs_of_nonpos below.le
    rw [Int.sign_eq_neg_one_of_neg below, magnitude, distance, Int.neg_tdiv]
    simp
  · simp
  · rw [Int.sign_eq_one_of_pos above, magnitude, Int.natAbs_of_nonneg above.le, one_mul]

/-- The step of R76 is a move of `baselineMove` in the direction of 16 × r, and none when the baseline is there. -/
theorem baselineStep_eq (b r k : Nat) :
    baselineStep b r k =
      (16 * (r : Int) - b).sign * (baselineMove (16 * (r : Int) - b).natAbs k : Nat) := by
  rw [baselineStep, baselineMove]
  generalize 16 * (r : Int) - b = delta
  simp only [tdiv_two_pow]
  rcases Nat.eq_zero_or_pos (delta.natAbs / 2 ^ k) with short | long
  · by_cases still : delta = 0 <;> simp [short, still]
  · have direct : ¬ (delta ≠ 0 ∧ delta.sign * (delta.natAbs / 2 ^ k : Nat) = 0) := by
      rintro ⟨apart, zero⟩
      rcases Int.mul_eq_zero.mp zero with still | gone
      · exact apart (Int.sign_eq_zero_iff_zero.mp still)
      · omega
    rw [if_neg direct, Nat.max_eq_right long]

theorem steppedBaseline_settled (r k : Nat) : steppedBaseline (16 * r) r k = 16 * r := by
  simp [steppedBaseline, baselineStep_eq]
  omega

theorem steppedBaseline_rising {b r : Nat} (rising : b < 16 * r) (k : Nat) :
    steppedBaseline b r k = b + baselineMove (16 * r - b) k := by
  have distance : (16 * (r : Int) - b).natAbs = 16 * r - b := by omega
  rw [steppedBaseline, baselineStep_eq, Int.sign_eq_one_of_pos (by omega), distance]
  omega

theorem steppedBaseline_falling {b r : Nat} (falling : 16 * r < b) (k : Nat) :
    steppedBaseline b r k = b - baselineMove (b - 16 * r) k := by
  have distance : (16 * (r : Int) - b).natAbs = b - 16 * r := by omega
  rw [steppedBaseline, baselineStep_eq, Int.sign_eq_neg_one_of_neg (by omega), distance]
  omega

/-- The step in the words of R76, by its three cases: the reading above, at or below the baseline. -/
theorem steppedBaseline_eq (b r k : Nat) :
    let d : Int := 16 * (r : Int) - b
    let step : Int := if d = 0 then 0
      else if d.natAbs < 2 ^ k then (if 0 < d then 1 else -1)
      else if 0 < d then (d.natAbs / 2 ^ k : Nat) else -(d.natAbs / 2 ^ k : Nat)
    (steppedBaseline b r k : Int) = b + step := by
  intro d step
  rcases lt_trichotomy b (16 * r) with rising | rfl | falling
  · have apart : d ≠ 0 := by omega
    have above : 0 < d := by omega
    have distance : 16 * r - b = d.natAbs := by omega
    simp only [step, if_neg apart, if_pos above, steppedBaseline_rising rising, distance, baselineMove_eq]
    split <;> simp
  · have still : d = 0 := by omega
    simp only [step, if_pos still, steppedBaseline_settled, add_zero]
  · have apart : d ≠ 0 := by omega
    have below : ¬ 0 < d := by omega
    have distance : b - 16 * r = d.natAbs := by omega
    have inside := baselineMove_le (Nat.sub_pos_of_lt falling) k
    rw [steppedBaseline_falling falling, Nat.cast_sub (inside.trans (Nat.sub_le _ _)), distance, baselineMove_eq]
    simp only [step, if_neg apart, if_neg below]
    split <;> rfl

/-- A baseline below 16 × r rises, and not past it. -/
theorem steppedBaseline_bounds_of_le {b r : Nat} (below : b ≤ 16 * r) (k : Nat) :
    b ≤ steppedBaseline b r k ∧ steppedBaseline b r k ≤ 16 * r ∧ (b < 16 * r → b < steppedBaseline b r k) := by
  rcases below.eq_or_lt with rfl | rising
  · rw [steppedBaseline_settled]
    exact ⟨le_rfl, le_rfl, id⟩
  · have moved := baselineMove_pos (16 * r - b) k
    have inside := baselineMove_le (Nat.sub_pos_of_lt rising) k
    rw [steppedBaseline_rising rising]
    omega

/-- A baseline above 16 × r falls, and not past it. -/
theorem steppedBaseline_bounds_of_ge {b r : Nat} (above : 16 * r ≤ b) (k : Nat) :
    steppedBaseline b r k ≤ b ∧ 16 * r ≤ steppedBaseline b r k ∧ (16 * r < b → steppedBaseline b r k < b) := by
  rcases above.eq_or_lt with rfl | falling
  · rw [steppedBaseline_settled]
    exact ⟨le_rfl, le_rfl, id⟩
  · have moved := baselineMove_pos (b - 16 * r) k
    have inside := baselineMove_le (Nat.sub_pos_of_lt falling) k
    rw [steppedBaseline_falling falling]
    omega

/-- The range 0 to 4080 of a baseline is kept: the step ends between the old baseline and 16 × r. -/
theorem steppedBaseline_le_4080 {b r : Nat} (baseline : b ≤ 4080) (reading : r ≤ 255) (k : Nat) :
    steppedBaseline b r k ≤ 4080 := by
  rcases Nat.le_total b (16 * r) with below | above
  · obtain ⟨-, capped, -⟩ := steppedBaseline_bounds_of_le below k
    omega
  · obtain ⟨capped, -, -⟩ := steppedBaseline_bounds_of_ge above k
    omega

/-! ## What a reading of each kind comes to (R72, R74 to R80, R83) -/

theorem State.readingOf_smoke (s : State) (d : DetectorRecord) (r : Nat) :
    s.readingOf d (.smoke r) = some (smokeReading s.pages.levels d.baseline (s.zone d.zone).smokeOffset
      (d.currentLevel (s.zone d.zone).epoch) r) :=
  rfl

theorem State.readingOf_heat (s : State) (d : DetectorRecord) (r : Nat) :
    s.readingOf d (.heat r) = some (heatReading s.pages.levels (d.currentLevel (s.zone d.zone).epoch) r) :=
  rfl

theorem State.readingOf_both (s : State) (d : DetectorRecord) (r h : Nat) :
    s.readingOf d (.both r h) = some (multiReading s.pages.levels d.baseline (s.zone d.zone).smokeOffset
      (d.currentLevel (s.zone d.zone).epoch) r h) :=
  rfl

theorem State.readingOf_call (s : State) (d : DetectorRecord) (b : Bool) :
    s.readingOf d (.call b) = some (callReading b) :=
  rfl

theorem baselineFor_some (b r pre : Nat) : baselineFor (some b) r pre = b :=
  rfl

/-- The baseline is updated only when the new and the current level are NORMAL (R76). -/
theorem baselineAfter_eq (b r k : Nat) (current new : Level) : baselineAfter b r k current new =
    if new = .normal ∧ current = .normal then steppedBaseline b r k else b :=
  if_congr and_comm rfl rfl

theorem baselineAfter_normal (b r k : Nat) : baselineAfter b r k .normal .normal = steppedBaseline b r k :=
  if_pos ⟨rfl, rfl⟩

theorem smokeReading_level (p : PageLevels) (held : Option Nat) (S : Nat) (c : Level) (r : Nat) :
    (smokeReading p held S c r).level =
      channelLevel (compensated (baselineFor held r p.smoke.pre) r) (p.smoke.preWith S) (p.smoke.alarmWith S)
        p.smoke.hyst c :=
  rfl

theorem smokeReading_smoke (p : PageLevels) (held : Option Nat) (S : Nat) (c : Level) (r : Nat) :
    (smokeReading p held S c r).smoke = some (compensated (baselineFor held r p.smoke.pre) r) :=
  rfl

theorem smokeReading_drift (p : PageLevels) (held : Option Nat) (S : Nat) (c : Level) (r : Nat) :
    (smokeReading p held S c r).drift = some (baselineAfter (baselineFor held r p.smoke.pre) r p.smokeDrift.shift c
      (smokeReading p held S c r).level, p.smokeDrift.limit) :=
  rfl

theorem heatReading_level (p : PageLevels) (c : Level) (r : Nat) :
    (heatReading p c r).level = channelLevel r (p.heat.preWith 0) (p.heat.alarmWith 0) p.heat.hyst c :=
  rfl

theorem multiReading_level (p : PageLevels) (held : Option Nat) (S : Nat) (c : Level) (r h : Nat) :
    (multiReading p held S c r h).level = Level.max
      (channelLevel (compensated (baselineFor held r p.multiSmoke.pre) r) (p.multiSmoke.preWith S)
        (p.multiSmoke.alarmWith S) p.multiSmoke.hyst c)
      (channelLevel h (p.multiHeat.preWith 0) (p.multiHeat.alarmWith 0) p.multiHeat.hyst c) :=
  rfl

theorem multiReading_smoke (p : PageLevels) (held : Option Nat) (S : Nat) (c : Level) (r h : Nat) :
    (multiReading p held S c r h).smoke = some (compensated (baselineFor held r p.multiSmoke.pre) r) :=
  rfl

theorem multiReading_drift (p : PageLevels) (held : Option Nat) (S : Nat) (c : Level) (r h : Nat) :
    (multiReading p held S c r h).drift = some (baselineAfter (baselineFor held r p.multiSmoke.pre) r
      p.multiDrift.shift c (multiReading p held S c r h).level, p.multiDrift.limit) :=
  rfl

/-- From NORMAL to NORMAL the baseline a smoke reading gives is the stepped one. -/
theorem smokeReading_drift_normal {p : PageLevels} {held : Option Nat} {S r : Nat}
    (new : (smokeReading p held S .normal r).level = .normal) : (smokeReading p held S .normal r).drift =
      some (steppedBaseline (baselineFor held r p.smoke.pre) r p.smokeDrift.shift, p.smokeDrift.limit) := by
  rw [smokeReading_drift, new, baselineAfter_normal]

theorem multiReading_drift_normal {p : PageLevels} {held : Option Nat} {S r h : Nat}
    (new : (multiReading p held S .normal r h).level = .normal) : (multiReading p held S .normal r h).drift =
      some (steppedBaseline (baselineFor held r p.multiSmoke.pre) r p.multiDrift.shift, p.multiDrift.limit) := by
  rw [multiReading_drift, new, baselineAfter_normal]

theorem callReading_eq (b : Bool) : callReading b =
    { level := if b then .alarm else .normal, smoke := none, other := some (if b then 1 else 0), drift := none,
      report := none } := by
  cases b <;> rfl

/-- The record takes the baseline a reading gives (R76). -/
theorem Work.applyReading_baseline (w : Work) (q : SeqNo) {x : Reading} {b limit : Nat}
    (given : x.drift = some (b, limit)) : (w.applyReading q x).det.baseline = some b := by
  obtain ⟨det, -⟩ := w.applyReading_spec q x
  rw [det, given]

end Sys2Proof.Machine

namespace Sys2Proof.Proofs

open Sys2Proof Sys2Proof.Machine

/-- Settles O22: the thresholds by the bounds of the capped sums, the level by its three cases, and each kind's reading
by its fields. -/
theorem effectiveThresholds : Obligations.EffectiveThresholds := by
  refine ⟨fun s d r h => ⟨s.readingOf_smoke d r, s.readingOf_both d r h, s.readingOf_heat d h⟩,
    fun t S => ⟨rfl, rfl, fun bounded => t.le_alarmWith bounded S, t.alarmWith_le S,
      fun two => t.preWith_lt_alarmWith two S,
      fun ordered bounded => ⟨t.preWith_zero ordered bounded, t.alarmWith_zero bounded⟩⟩,
    fun c P A H current => ⟨channelLevel_eq_alarm_iff, channelLevel_eq_pre_iff, channelLevel_eq_normal_iff,
      fun reach => channelLevel_stays_alarm reach c P, channelLevel_stays_pre⟩,
    fun H => ⟨rfl, rfl⟩, heatReading_level, fun p held S c r h => ?levels, fun p held S c r h => ?readings,
    callReading_eq, fun l m => ⟨Level.max_eq_alarm_iff, Level.max_eq_normal_iff⟩,
    fun p s d b => ?pages, State.readingOf_call, fun d epoch => rfl⟩
  case levels =>
    refine ⟨smokeReading_level .., multiReading_level .., smokeReading_smoke .., multiReading_smoke .., ?_, ?_⟩
    · rintro rfl new
      exact smokeReading_drift_normal new
    · rintro rfl new
      exact multiReading_drift_normal new
  case readings => exact ⟨rfl, rfl, rfl⟩
  case pages => rw [State.readingOf_call, State.readingOf_call]

/-- Settles O23: the step is a move toward 16 × r by the distance over 2 to the power k, at least one sixteenth and at
most the distance. -/
theorem smokeBaseline : Obligations.SmokeBaseline := by
  refine ⟨fun b r => ⟨rfl, rounded_le, compensated_eq b r, (compensated_le b r).trans⟩, rfl,
    fun s d b r h known => ⟨⟨_, s.readingOf_smoke d r, ?smoke⟩, ⟨_, s.readingOf_both d r h, ?both⟩⟩,
    steppedBaseline_eq, rfl, rfl, rfl, fun p held S c r h => ?updated,
    fun w q x b limit given => w.applyReading_baseline q given, fun b r k baseline reading _ =>
      ⟨steppedBaseline_le_4080 baseline reading k, fun below => steppedBaseline_bounds_of_le below k,
        fun above => steppedBaseline_bounds_of_ge above k⟩⟩
  case smoke => rw [smokeReading_smoke, known, baselineFor_some]
  case both => rw [multiReading_smoke, known, baselineFor_some]
  case updated =>
    refine ⟨?_, ?_⟩
    · rw [smokeReading_drift, baselineAfter_eq, baselineFor]
    · rw [multiReading_drift, baselineAfter_eq, baselineFor]

end Sys2Proof.Proofs
end

