-- ==== Sys2Proof/Proofs/SettingsPages.lean ====
section
/-! Who writes the settings pages (R181, R182), and what PAGE_READ returns of them (R183). -/

namespace Sys2Proof.Machine

/-! ## Operations that leave the pages as they stand -/

/-! ### Heads and intake (sections 2, 3) -/

@[simp] theorem State.placeFrame_pages (s : State) (h : HeadNo) (f : RadioFrame) :
    (s.placeFrame h f).pages = s.pages := by
  unfold State.placeFrame
  dsimp only
  repeat' split
  all_goals rfl

@[simp] theorem State.takeRadio_pages (s : State) (h : HeadNo) (f : RadioFrame) :
    (s.takeRadio h f).pages = s.pages := by
  unfold State.takeRadio
  split
  · rfl
  · split
    · rfl
    · split
      · rfl
      · split
        · rfl
        · exact s.placeFrame_pages h f

@[simp] theorem State.resetHead_pages (s : State) (h : HeadNo) : (s.resetHead h).pages = s.pages :=
  (State.tellsNotSent_frame _ _).pages_eq

theorem State.emptyFifos_frame (s : State) (l : List HeadNo) : OnlyHeads s (l.foldl State.emptyFifo s) :=
  foldl_rel OnlyHeads OnlyHeads.refl (fun _ _ _ => OnlyHeads.trans) _
    (fun _ _ => (State.modifyHead_frame _ _ _).trans (State.tellsNotSent_frame _ _)) _ _

@[simp] theorem State.emptyLanes_pages (s : State) : s.emptyLanes.pages = s.pages := by
  rw [State.emptyLanes, (State.emptyFifos_frame _ _).pages_eq]

@[simp] theorem State.takeFrame_pages (s : State) : s.takeFrame.pages = s.pages := by
  unfold State.takeFrame
  split <;> rfl

@[simp] theorem State.releaseFrame_pages (s : State) : s.releaseFrame.pages = s.pages := rfl

@[simp] theorem State.answerLookup_pages (s : State) (f : LaneFrame) : (s.answerLookup f).pages = s.pages := by
  unfold State.answerLookup
  split <;> rfl

@[simp] theorem State.decideFrame_pages (s : State) (f : LaneFrame) (i : Nat) (e : BitVec 8) (p : Bool) :
    (s.decideFrame f i e p).pages = s.pages :=
  (s.decideFrame_frame f i e p).pages_eq

@[simp] theorem State.abandonFrame_pages (s : State) : s.abandonFrame.pages = s.pages := by
  unfold State.abandonFrame
  split <;> rfl

/-! ### Zones, supervision and held commands (sections 5 to 7) -/

@[simp] theorem State.lapseZone_pages (s : State) (z : ZoneNo) (c : LapseCause) :
    (s.lapseZone z c).pages = s.pages := rfl

@[simp] theorem State.takeDueSweep_pages (s : State) : s.takeDueSweep.pages = s.pages := by
  unfold State.takeDueSweep
  split <;> rfl

@[simp] theorem State.takeDueExpiries_pages (s : State) : s.takeDueExpiries.pages = s.pages := by
  rw [State.takeDueExpiries_eq, State.expiriesTaken]

@[simp] theorem State.advanceClock_pages (s : State) : s.advanceClock.pages = s.pages := rfl

@[simp] theorem State.countEvuTimers_pages (s : State) : s.countEvuTimers.pages = s.pages := rfl

@[simp] theorem State.deliverTick_pages (s : State) : s.deliverTick.pages = s.pages := by
  rw [State.deliverTick, State.countEvuTimers_pages, (State.expireHeld_frame _).pages_eq,
    (State.lapses_frame _ _).pages_eq, (State.heartbeats_frame _ _).pages_eq]

@[simp] theorem State.visit_pages (s : State) (i : Nat) : (s.visit i).pages = s.pages := by
  unfold State.visit
  repeat' split
  all_goals rfl

@[simp] theorem State.advanceSweep_pages (s : State) (i : Nat) : (s.advanceSweep i).pages = s.pages := by
  unfold State.advanceSweep
  split <;> rfl

/-! ### The panel link (section 9) -/

@[simp] theorem State.mexTake_pages (s : State) : s.mexTake.pages = s.pages := by
  unfold State.mexTake
  split <;> rfl

/-- The RESTART clear keeps the pages (R180). -/
@[simp] theorem State.mexTold_pages (s : State) : s.mexTold.pages = s.pages := by
  unfold State.mexTold
  split
  · rfl
  · exact s.mexTake_pages
  · exact s.mexTake_pages

@[simp] theorem State.grant_pages (s : State) : s.grant.pages = s.pages := by
  unfold State.grant
  split
  · exact State.mexTold_pages _
  · rfl

@[simp] theorem State.alarmSent_pages (s : State) (z : Option ZoneNo) : (s.alarmSent z).pages = s.pages := by
  cases z <;> rfl

/-! ### Table commands (section 1) -/

@[simp] theorem State.uncountMissing_pages (s : State) (r : DetectorRecord) : (s.uncountMissing r).pages = s.pages :=
  (s.uncountMissing_rest r).2

@[simp] theorem State.enrolPresent_pages (s : State) (c : Configuration) (i : Nat) (r : DetectorRecord) :
    (s.enrolPresent c i r).state.pages = s.pages := by
  unfold State.enrolPresent
  split <;> rfl

@[simp] theorem State.enrolAbsent_pages (s : State) (c : Configuration) (r : Result) :
    (s.enrolAbsent c r).state.pages = s.pages := by
  unfold State.enrolAbsent
  split <;> rfl

@[simp] theorem State.enrol_pages (a : EnrolArgs) (s : State) : (State.enrol a s).state.pages = s.pages := by
  unfold State.enrol
  split
  · rfl
  · split
    · exact s.enrolPresent_pages ..
    · exact s.enrolAbsent_pages ..

@[simp] theorem State.amendMove_pages (s : State) (c : Configuration) (fresh : Bool) (i : Nat) (old : DetectorRecord)
    (n : Nat) (rest : List Nat) : (s.amendMove c fresh i old n rest).pages = s.pages := by
  have missing : ∀ t : State, (t.amendMissing old fresh).pages = t.pages := fun t => by
    unfold State.amendMissing
    split
    · exact t.uncountMissing_pages old
    · rfl
  unfold State.amendMove
  dsimp only
  split
  · exact (State.noticeZoneAndEvents_frame _ old).pages_eq.trans (missing _)
  · exact missing _

@[simp] theorem State.amendPresent_pages (s : State) (c : Configuration) (fresh : Bool) (r : Result) (i q : Nat)
    (old : DetectorRecord) : (s.amendPresent c fresh r i q old).state.pages = s.pages := by
  unfold State.amendPresent
  split
  · rfl
  · exact s.amendMove_pages ..

@[simp] theorem State.amend_pages (a : EnrolArgs) (fresh : Bool) (s : State) :
    (State.amend a fresh s).state.pages = s.pages := by
  unfold State.amend
  split
  · rfl
  · split
    · exact s.amendPresent_pages ..
    · exact s.enrolAbsent_pages ..

theorem State.answer_pages (s : State) (r : Result) (d : List Byte) : (s.answer r d).state.pages = s.pages := rfl

/-- A command on the record of an address keeps the pages when its effect on the record it finds does. -/
theorem State.onAddress_pages {s : State} {f : Nat → Nat → DetectorRecord → Answer}
    (found : ∀ i q r, (f i q r).state.pages = s.pages) (a : Address) : (s.onAddress a f).state.pages = s.pages := by
  unfold State.onAddress
  split
  · rfl
  · split
    · rfl
    · exact found _ _ _

@[simp] theorem State.withdrawRecord_pages (s : State) (i : Nat) (r : DetectorRecord) :
    (s.withdrawRecord i r).pages = s.pages :=
  (State.removalNotices_frame _ r).pages_eq.trans (State.uncountMissing_pages _ r)

@[simp] theorem State.removeAll_pages (s : State) : s.removeAll.pages = s.pages :=
  s.removeAll_frame.pages_eq

@[simp] theorem State.clearTable_pages (s : State) : s.clearTable.state.pages = s.pages := by
  unfold State.clearTable
  split
  · rfl
  · exact s.removeAll_pages

@[simp] theorem State.disableRecord_pages (s : State) (i : Nat) (r : DetectorRecord) :
    (s.disableRecord i r).pages = s.pages := by
  unfold State.disableRecord
  dsimp only
  split
  · exact (State.zoneDecrement_frame _ _ _ _).pages_eq
  · rfl

/-! ### Zone, held and filter commands (sections 5, 7, 8) -/

/-- A zone command keeps the pages when its effect on the zone it names does. -/
theorem State.onZone_pages {s : State} {f : ZoneNo → Answer} (named : ∀ z, (f z).state.pages = s.pages) (b : Byte) :
    (s.onZone b f).state.pages = s.pages := by
  unfold State.onZone
  split
  · rfl
  · exact named _

@[simp] theorem State.zoneSet_pages (a : ZoneSetArgs) (s : State) : (State.zoneSet a s).state.pages = s.pages := by
  refine State.onZone_pages (fun z => ?_) a.zone
  dsimp only
  repeat' split
  all_goals rfl

@[simp] theorem State.zoneService_pages (b service : Byte) (s : State) :
    (State.zoneService b service s).state.pages = s.pages := by
  refine State.onZone_pages (fun z => ?_) b
  repeat' split
  all_goals rfl

@[simp] theorem State.zoneReset_pages (b : Byte) (s : State) : (State.zoneReset b s).state.pages = s.pages := by
  refine State.onZone_pages (fun z => ?_) b
  split <;> rfl

@[simp] theorem State.zoneDisable_pages (b : Byte) (s : State) : (State.zoneDisable b s).state.pages = s.pages := by
  refine State.onZone_pages (fun z => ?_) b
  repeat' split
  all_goals rfl

@[simp] theorem State.enableZone_pages (s : State) (z : ZoneNo) : (s.enableZone z).pages = s.pages := by
  unfold State.enableZone
  dsimp only
  split <;> rfl

@[simp] theorem State.zoneEnable_pages (b : Byte) (s : State) : (State.zoneEnable b s).state.pages = s.pages := by
  refine State.onZone_pages (fun z => ?_) b
  split
  · rfl
  · exact s.enableZone_pages z

@[simp] theorem State.commandFor_pages (s : State) (a : Address) (code : HeldCode) (argument stored : BitVec 16) :
    (s.commandFor a code argument stored).state.pages = s.pages := by
  unfold State.commandFor
  repeat' split
  all_goals rfl

@[simp] theorem State.command_pages (a : Address) (held : Byte) (argument : BitVec 16) (s : State) :
    (State.command a held argument s).state.pages = s.pages := by
  unfold State.command
  split
  · rfl
  · split
    · rfl
    · split
      · rfl
      · split
        · rfl
        · exact s.commandFor_pages ..

@[simp] theorem State.placeOrder_pages (s : State) (scope : Scope) (pattern : Nat) (success : Result) :
    (s.placeOrder scope pattern success).state.pages = s.pages := by
  unfold State.placeOrder
  dsimp only
  repeat' split
  all_goals rfl

@[simp] theorem State.groupOrder_pages (scope pattern : Byte) (s : State) :
    (State.groupOrder scope pattern s).state.pages = s.pages := by
  unfold State.groupOrder
  split
  · rfl
  · split
    · rfl
    · exact s.placeOrder_pages ..

@[simp] theorem State.filterSet_pages (a : FilterArgs) (s : State) :
    (State.filterSet a s).state.pages = s.pages := by
  unfold State.filterSet
  repeat' split
  all_goals rfl

/-! ### The part (section 9) -/

@[simp] theorem State.startUp_pages (s : State) : s.startUp.pages = s.pages := by
  rw [State.startUp, (State.slotStart_frame _).pages_eq]

@[simp] theorem State.startPart_pages (s : State) : s.startPart.state.pages = s.pages := by
  unfold State.startPart
  split
  · rfl
  · split
    · rfl
    · exact s.startUp_pages

@[simp] theorem State.stopTimers_pages (s : State) : s.stopTimers.pages = s.pages := rfl

@[simp] theorem State.shutDown_pages (s : State) : s.shutDown.pages = s.pages := by
  rw [State.shutDown, (State.stopLapses_frame _ _).pages_eq, State.closeContexts_pages, State.stopTimers_pages,
    State.emptyLanes_pages, State.abandonFrame_pages, State.takeDueSweep_pages]

@[simp] theorem State.stopPart_pages (s : State) : s.stopPart.state.pages = s.pages := by
  unfold State.stopPart
  split
  · rfl
  · exact s.shutDown_pages

/-! ## The pages after a row -/

/-- The outcome is a next state, and its pages satisfy P. -/
def NextPages (P : Pages → Prop) : Host.Outcome State Fault Refusal → Prop
  | .next t => P t.pages
  | .fault _ => False
  | .refused _ => False

/-- A management command leaves the pages as its body does, or, where it may not execute, as they stand. -/
theorem State.runCommand_nextPages {P : Pages → Prop} {s : State} {c : Command} {body : State → Answer}
    (stands : P s.pages) (answered : P (body s).state.pages) : NextPages P (s.runCommand c body) := by
  unfold State.runCommand
  split
  · exact answered
  · exact stands

theorem State.runCommand_keepsPages {s : State} {c : Command} {body : State → Answer}
    (kept : (body s).state.pages = s.pages) : NextPages (· = s.pages) (s.runCommand c body) :=
  State.runCommand_nextPages rfl kept

/-! ## PAGE_WRITE (R181) -/

/-- What a row may do to the pages (R181, R182): POWER_ON_RESET sets them all, a PAGE_WRITE its own page with that
page's loaded flag, and every other row leaves them. -/
def MayWritePages (c : Instr) (p q : Pages) : Prop :=
  match c with
  | .powerOnReset => q = .powerOn
  | .pageWriteAir _ => q = { p with air := q.air, airLoaded := q.airLoaded }
  | .pageWriteLevels _ => q = { p with levels := q.levels, levelsLoaded := q.levelsLoaded }
  | .pageWriteTiming _ => q = { p with timing := q.timing, timingLoaded := q.timingLoaded }
  | .pageWriteMemory _ => q = { p with memory := q.memory, memoryLoaded := q.memoryLoaded }
  | _ => q = p

theorem State.writeAir_pages (a : AirArgs) (s : State) :
    MayWritePages (.pageWriteAir a) s.pages (State.writeAir a s).state.pages := by
  unfold State.writeAir
  split
  · rfl
  · split <;> rfl

theorem State.writeLevels_pages (a : LevelsArgs) (s : State) :
    MayWritePages (.pageWriteLevels a) s.pages (State.writeLevels a s).state.pages := by
  unfold State.writeLevels
  split <;> rfl

@[simp] theorem State.restartSweep_pages (s : State) : s.restartSweep.pages = s.pages := rfl

@[simp] theorem State.armEvuTimers_pages (s : State) : s.armEvuTimers.pages = s.pages := rfl

theorem State.storeTiming_pages (s : State) (p : PageTiming) :
    (s.storeTiming p).pages = { s.pages with timing := p, timingLoaded := true } := by
  have stored : ((s.takeDueExpiries.setPages { s.takeDueExpiries.pages with
      timing := p, timingLoaded := true }).armEvuTimers).pages
        = { s.pages with timing := p, timingLoaded := true } := by
    rw [State.armEvuTimers_pages, State.setPages_pages, State.takeDueExpiries_pages]
  unfold State.storeTiming
  dsimp only
  split
  · rw [State.restartSweep_pages, stored]
  · exact stored

theorem State.writeTiming_pages (a : TimingArgs) (s : State) :
    MayWritePages (.pageWriteTiming a) s.pages (State.writeTiming a s).state.pages := by
  rw [State.writeTiming, State.answer_state, State.storeTiming_pages]
  rfl

theorem State.storeMemory_pages (s : State) (p : PageMemory) :
    (s.storeMemory p).pages = { s.pages with memory := p, memoryLoaded := true } := by
  unfold State.storeMemory
  dsimp only
  rw [State.removeAll_pages]

theorem State.writeMemory_pages (a : MemoryArgs) (s : State) :
    MayWritePages (.pageWriteMemory a) s.pages (State.writeMemory a s).state.pages := by
  unfold State.writeMemory
  split
  · rfl
  · dsimp only
    rw [State.answer_state, State.storeMemory_pages]
    rfl

/-! ## Each row -/

theorem execHeadFrameSend_keepsPages (h : HeadNo) (s : State) : NextPages (· = s.pages) (execHeadFrameSend h s) := by
  unfold execHeadFrameSend
  split <;> rfl

theorem execRadioFrame_keepsPages (h : HeadNo) (bytes : List Byte) (s : State) :
    NextPages (· = s.pages) (execRadioFrame h bytes s) := by
  unfold execRadioFrame
  split
  · exact State.takeRadio_pages _ h _
  · rfl

theorem execHeadStatus_keepsPages (h : HeadNo) (bytes : List Byte) (s : State) :
    NextPages (· = s.pages) (execHeadStatus h bytes s) := by
  unfold execHeadStatus
  split
  · exact (State.takeStatus_frame _ h _).pages_eq
  · rfl

theorem execHeadLinkDiscard_keepsPages (h : HeadNo) (bytes : List Byte) (s : State) :
    NextPages (· = s.pages) (execHeadLinkDiscard h bytes s) := by
  unfold execHeadLinkDiscard
  split <;> rfl

theorem execSecondsTick_keepsPages (s : State) : NextPages (· = s.pages) (execSecondsTick s) := by
  show s.takeDueExpiries.advanceClock.deliverTick.pages = s.pages
  rw [State.deliverTick_pages, State.advanceClock_pages, State.takeDueExpiries_pages]

theorem execHeadLost_keepsPages (h : HeadNo) (s : State) : NextPages (· = s.pages) (execHeadLost h s) := by
  unfold execHeadLost
  split <;> rfl

theorem execVerifyWindowLapse_keepsPages (z : ZoneNo) (s : State) :
    NextPages (· = s.pages) (execVerifyWindowLapse z s) := by
  unfold execVerifyWindowLapse
  split <;> rfl

theorem execHeldCommandExpiry_keepsPages (a : Address) (n : Byte) (s : State) :
    NextPages (· = s.pages) (execHeldCommandExpiry a n s) := by
  unfold execHeldCommandExpiry
  split <;> rfl

theorem execFlushExpiry_keepsPages (s : State) : NextPages (· = s.pages) (execFlushExpiry s) := by
  unfold execFlushExpiry
  split <;> rfl

theorem execSummaryExpiry_keepsPages (s : State) : NextPages (· = s.pages) (execSummaryExpiry s) := by
  unfold execSummaryExpiry
  split <;> rfl

theorem execSweepTimerExpiry_keepsPages (s : State) : NextPages (· = s.pages) (execSweepTimerExpiry s) := by
  unfold execSweepTimerExpiry
  split <;> rfl

theorem execSlotTimerExpiry_keepsPages (s : State) : NextPages (· = s.pages) (execSlotTimerExpiry s) := by
  unfold execSlotTimerExpiry
  split
  · exact (State.slotStart_frame _).pages_eq
  · rfl

theorem execFrameTake_keepsPages (s : State) : NextPages (· = s.pages) (execFrameTake s) := by
  unfold execFrameTake
  split
  · exact s.takeFrame_pages
  all_goals rfl

theorem execLookupRequest_keepsPages (s : State) : NextPages (· = s.pages) (execLookupRequest s) := by
  unfold execLookupRequest
  split
  · exact s.answerLookup_pages _
  all_goals rfl

theorem execIntegrityCheckDone_keepsPages (s : State) : NextPages (· = s.pages) (execIntegrityCheckDone s) := by
  unfold execIntegrityCheckDone
  split <;> rfl

theorem execCompletionRequest_keepsPages (s : State) : NextPages (· = s.pages) (execCompletionRequest s) := by
  unfold execCompletionRequest
  split
  · exact s.decideFrame_pages ..
  all_goals rfl

theorem execVisitRequest_keepsPages (s : State) : NextPages (· = s.pages) (execVisitRequest s) := by
  unfold execVisitRequest
  split
  · rfl
  · split
    · rfl
    · exact (State.advanceSweep_pages _ _).trans (s.visit_pages _)

theorem execPanelGrant_keepsPages (s : State) : NextPages (· = s.pages) (execPanelGrant s) := by
  unfold execPanelGrant
  split
  · rfl
  · exact s.grant_pages

theorem execTransmissionComplete_keepsPages (s : State) : NextPages (· = s.pages) (execTransmissionComplete s) := by
  unfold execTransmissionComplete
  split
  · rfl
  · exact State.alarmSent_pages _ _

theorem execManagementFrame_keepsPages (bytes : List Byte) (s : State) :
    NextPages (· = s.pages) (execManagementFrame bytes s) := by
  unfold execManagementFrame
  split
  · exact State.mexTake_pages _
  · rfl

theorem execBadPanelFrame_keepsPages (bytes : List Byte) (s : State) :
    NextPages (· = s.pages) (execBadPanelFrame bytes s) := by
  unfold execBadPanelFrame
  split <;> rfl

theorem execUnknownCommand_keepsPages (payload : List Byte) (s : State) :
    NextPages (· = s.pages) (execUnknownCommand payload s) := by
  unfold execUnknownCommand
  split <;> rfl

theorem execWithdraw_keepsPages (a : Address) (s : State) : NextPages (· = s.pages) (execWithdraw a s) :=
  State.runCommand_keepsPages (State.onAddress_pages (fun i _ r => s.withdrawRecord_pages i r) a)

theorem execLookup_keepsPages (a : Address) (s : State) : NextPages (· = s.pages) (execLookup a s) :=
  State.runCommand_keepsPages (State.onAddress_pages (fun i q r => s.answer_pages .ok (s.lookupData i q r)) a)

theorem execDetectorDisable_keepsPages (a : Address) (s : State) :
    NextPages (· = s.pages) (execDetectorDisable a s) := by
  refine State.runCommand_keepsPages (State.onAddress_pages (fun i q r => ?_) a)
  split
  · exact s.disableRecord_pages i r
  · rfl

theorem execDetectorEnable_keepsPages (a : Address) (s : State) :
    NextPages (· = s.pages) (execDetectorEnable a s) := by
  refine State.runCommand_keepsPages (State.onAddress_pages (fun i q r => ?_) a)
  split <;> rfl

theorem execHeadReset_keepsPages (b : Byte) (s : State) : NextPages (· = s.pages) (execHeadReset b s) := by
  refine State.runCommand_keepsPages ?_
  split
  · rfl
  · exact s.resetHead_pages _

theorem execPageRead_keepsPages (b : Byte) (s : State) : NextPages (· = s.pages) (execPageRead b s) := by
  refine State.runCommand_keepsPages ?_
  split <;> rfl

theorem execRestart_keepsPages (s : State) : NextPages (· = s.pages) (execRestart s) := by
  unfold execRestart
  split <;> rfl

/-- Every row ends in a next state, and writes no more of the pages than `MayWritePages` says. -/
theorem exec_mayWritePages (c : Instr) (s : State) : NextPages (MayWritePages c s.pages) (exec c s) := by
  cases c with
  | powerOnReset => exact rfl
  | radioFrame h bytes => exact execRadioFrame_keepsPages h bytes s
  | headStatus h bytes => exact execHeadStatus_keepsPages h bytes s
  | headLinkDiscard h bytes => exact execHeadLinkDiscard_keepsPages h bytes s
  | headFrameSend h => exact execHeadFrameSend_keepsPages h s
  | secondsTick => exact execSecondsTick_keepsPages s
  | headLost h => exact execHeadLost_keepsPages h s
  | verifyWindowLapse z => exact execVerifyWindowLapse_keepsPages z s
  | heldCommandExpiry a n => exact execHeldCommandExpiry_keepsPages a n s
  | flushExpiry => exact execFlushExpiry_keepsPages s
  | summaryExpiry => exact execSummaryExpiry_keepsPages s
  | sweepTimerExpiry => exact execSweepTimerExpiry_keepsPages s
  | slotTimerExpiry => exact execSlotTimerExpiry_keepsPages s
  | frameTake => exact execFrameTake_keepsPages s
  | lookupRequest => exact execLookupRequest_keepsPages s
  | integrityCheckDone => exact execIntegrityCheckDone_keepsPages s
  | completionRequest => exact execCompletionRequest_keepsPages s
  | visitRequest => exact execVisitRequest_keepsPages s
  | panelGrant => exact execPanelGrant_keepsPages s
  | transmissionComplete => exact execTransmissionComplete_keepsPages s
  | managementFrame bytes => exact execManagementFrame_keepsPages bytes s
  | badPanelFrame bytes => exact execBadPanelFrame_keepsPages bytes s
  | unknownCommand payload => exact execUnknownCommand_keepsPages payload s
  | enrol a => exact State.runCommand_keepsPages (State.enrol_pages a s)
  | amend a fresh => exact State.runCommand_keepsPages (State.amend_pages a fresh s)
  | withdraw a => exact execWithdraw_keepsPages a s
  | lookup a => exact execLookup_keepsPages a s
  | clearTable => exact State.runCommand_keepsPages s.clearTable_pages
  | detectorDisable a => exact execDetectorDisable_keepsPages a s
  | detectorEnable a => exact execDetectorEnable_keepsPages a s
  | headReset b => exact execHeadReset_keepsPages b s
  | zoneSet a => exact State.runCommand_keepsPages (State.zoneSet_pages a s)
  | zoneService b service => exact State.runCommand_keepsPages (State.zoneService_pages b service s)
  | zoneReset b => exact State.runCommand_keepsPages (State.zoneReset_pages b s)
  | zoneDisable b => exact State.runCommand_keepsPages (State.zoneDisable_pages b s)
  | zoneEnable b => exact State.runCommand_keepsPages (State.zoneEnable_pages b s)
  | command a held argument => exact State.runCommand_keepsPages (State.command_pages a held argument s)
  | groupOrder scope pattern => exact State.runCommand_keepsPages (State.groupOrder_pages scope pattern s)
  | filterSet a => exact State.runCommand_keepsPages (State.filterSet_pages a s)
  | pageWriteAir a => exact State.runCommand_nextPages (P := MayWritePages _ _) rfl (State.writeAir_pages a s)
  | pageWriteLevels a => exact State.runCommand_nextPages (P := MayWritePages _ _) rfl (State.writeLevels_pages a s)
  | pageWriteTiming a => exact State.runCommand_nextPages (P := MayWritePages _ _) rfl (State.writeTiming_pages a s)
  | pageWriteMemory a => exact State.runCommand_nextPages (P := MayWritePages _ _) rfl (State.writeMemory_pages a s)
  | pageRead b => exact execPageRead_keepsPages b s
  | start => exact State.runCommand_keepsPages s.startPart_pages
  | stop => exact State.runCommand_keepsPages s.stopPart_pages
  | restart => exact execRestart_keepsPages s
  | statusQuery => exact State.runCommand_keepsPages (body := fun s => s.answer .ok s.statusReport) rfl
  | headTransmissionComplete h => exact rfl

theorem mayWritePages_of_exec {c : Instr} {s t : State} (h : exec c s = .next t) : MayWritePages c s.pages t.pages := by
  have written := exec_mayWritePages c s
  rw [h] at written
  exact written

/-- Of a row other than POWER_ON_RESET, what is not its own page stands: each page with its flag. -/
theorem MayWritePages.others_stand {c : Instr} {p q : Pages} (h : MayWritePages c p q) (unpowered : c ≠ .powerOnReset) :
    ((∀ a, c ≠ .pageWriteAir a) → q.air = p.air ∧ q.airLoaded = p.airLoaded)
    ∧ ((∀ a, c ≠ .pageWriteLevels a) → q.levels = p.levels ∧ q.levelsLoaded = p.levelsLoaded)
    ∧ ((∀ a, c ≠ .pageWriteTiming a) → q.timing = p.timing ∧ q.timingLoaded = p.timingLoaded)
    ∧ ((∀ a, c ≠ .pageWriteMemory a) → q.memory = p.memory ∧ q.memoryLoaded = p.memoryLoaded) := by
  unfold MayWritePages at h
  split at h
  · exact absurd rfl unpowered
  all_goals
    rw [h]
    simp

/-! ## PAGE_READ (R183) -/

theorem exec_pageRead (b : Byte) (s : State) : exec (.pageRead b) s = execPageRead b s :=
  rfl

theorem exec_pageRead_invalid {s : State} {tag b : Byte} (ready : Ready s (.pageRead b) tag)
    (missing : s.pages.read b = none) :
    exec (.pageRead b) s = .next (s.replied tag 0x41 .invalid []) := by
  rw [exec_pageRead, execPageRead, ready.run]
  simp only [missing]
  rfl

theorem exec_pageRead_ok {s : State} {tag b : Byte} {loaded : Bool} {body : List Byte}
    (ready : Ready s (.pageRead b) tag) (stored : s.pages.read b = some (loaded, body)) :
    exec (.pageRead b) s = .next (s.replied tag 0x41 .ok (b :: boolByte loaded :: body)) := by
  rw [exec_pageRead, execPageRead, ready.run]
  simp only [stored]
  rfl

theorem Pages.read_of_le (p : Pages) {b : Byte} (h : 4 ≤ b.toNat) : p.read b = none := by
  unfold Pages.read
  split
  case h_5 => rfl
  all_goals omega

theorem Pages.read_of_eq (p : Pages) {b : Byte} :
    (b.toNat = 0 → p.read b = some (p.airLoaded, airBytes p.air.toArgs))
    ∧ (b.toNat = 1 → p.read b = some (p.levelsLoaded, levelsBytes p.levels.toArgs))
    ∧ (b.toNat = 2 → p.read b = some (p.timingLoaded, timingBytes p.timing.toArgs))
    ∧ (b.toNat = 3 → p.read b = some (p.memoryLoaded, memoryBytes p.memory.toArgs)) := by
  simp +contextual [Pages.read]

/-! ## The bodies (R188) -/

/-- Two bytes carry a number modulo 65536. -/
theorem byte2_toNat_ofNat (n : Nat) : byte2 (BitVec.ofNat 16 n).toNat = byte2 n := by
  have high : n % 65536 / 256 % 256 = n / 256 % 256 := by omega
  have low : n % 65536 % 256 = n % 256 := by omega
  simp [byte2, ← BitVec.toNat_inj, high, low]

theorem AirOrder.code_eq (o : AirOrder) : o.code = if o = .rotate then 0 else 1 := by
  cases o <;> rfl

theorem airBytes_toArgs (p : PageAir) : airBytes p.toArgs =
    byte1 p.channels ++ [if p.order = .rotate then 0 else 1]
      ++ allHeads.flatMap (fun h => byte1 (p.starts.get h)) ++ byte2 p.slotLength ++ byte1 p.jamThreshold
      ++ [BitVec.ofInt 8 p.signalMargin] := by
  rw [← AirOrder.code_eq, ← byte2_toNat_ofNat]
  rfl

theorem timingBytes_toArgs (p : PageTiming) : timingBytes p.toArgs =
    byte2 p.flush ++ byte1 p.summary ++ byte1 p.sweep ++ byte2 p.grace ++ byte2 p.lifetime
      ++ byte1 p.attemptLimit := by
  rw [← byte2_toNat_ofNat p.flush, ← byte2_toNat_ofNat p.grace, ← byte2_toNat_ofNat p.lifetime]
  rfl

theorem memoryBytes_toArgs (p : PageMemory) : memoryBytes p.toArgs = byte2 p.tableSize ++ byte1 p.advice := by
  rw [← byte2_toNat_ofNat]
  rfl

theorem PageAir.toArgs_eq (p : PageAir) : p.toArgs =
    { channels := BitVec.ofNat 8 p.channels, order := if p.order = .rotate then 0 else 1,
      starts := #v[BitVec.ofNat 8 (p.starts.get 0), BitVec.ofNat 8 (p.starts.get 1),
        BitVec.ofNat 8 (p.starts.get 2), BitVec.ofNat 8 (p.starts.get 3)],
      slotLength := BitVec.ofNat 16 p.slotLength, jam := BitVec.ofNat 8 p.jamThreshold,
      margin := BitVec.ofInt 8 p.signalMargin } := by
  rw [← AirOrder.code_eq]
  rfl

end Sys2Proof.Machine

namespace Sys2Proof.Proofs

open Sys2Proof Sys2Proof.Machine

/-- Settles O52: a PAGE_READ answers what `Pages.read` gives of the page, no row writes more of the pages than its own
page, and the stored values fill the bodies in the widths of the layouts. -/
theorem pageReadReturns : Obligations.PageReadReturns := by
  refine ⟨fun s tag b ready => ?returns, fun c s t h => ⟨?powered, (mayWritePages_of_exec h).others_stand⟩,
    by decide, by decide, by decide, by decide,
    fun p => ⟨airBytes_toArgs p.air, rfl, timingBytes_toArgs p.timing, memoryBytes_toArgs p.memory, p.air.toArgs_eq,
      rfl, rfl, rfl⟩⟩
  case returns =>
    intro reads
    have answered : ∀ {n loaded body}, (b.toNat = n → s.pages.read b = some (loaded, body)) →
        reads n loaded body := by
      rintro _ loaded body stored rfl
      rw [exec_pageRead_ok ready (stored rfl), BitVec.ofNat_toNat, BitVec.setWidth_eq, boolByte]
    obtain ⟨air, levels, timing, memory⟩ := s.pages.read_of_eq (b := b)
    exact ⟨fun absent => exec_pageRead_invalid ready (s.pages.read_of_le absent), answered air, answered levels,
      answered timing, answered memory⟩
  case powered =>
    rintro rfl
    exact mayWritePages_of_exec h

end Sys2Proof.Proofs
end

