-- ==== Sys2Proof/Proofs/Steps.lean ====
section
/-! What a row can do, said once: each row ends in a next state, and that state is one of `Moves`. The invariants of
section "Invariants" of the statements are each one case split over `Moves`. -/

namespace Sys2Proof.Machine

/-- What the body of a management command may make of the part before its reply is placed, with what the body has
checked by then. -/
inductive CommandEffect (s : State) : State → Prop
  | nothing : CommandEffect s s
  | freeValues (n : Nat) : CommandEffect s { s with freeIndex := n }
  | collided {i : Nat} {r : DetectorRecord} : s.dtu.recordAt i = some r →
      CommandEffect s (s.putRecord i { r with collision := true })
  | enrolled {c : Configuration} {i : Nat} {rest : List Nat} : s.findRecord c.address = none →
      s.dtu.freeList = i :: rest →
      CommandEffect s (s.setDtu (s.dtu.join (s.bucketOf c.address) i rest (s.enrolledRecord c)))
  | amended {c : Configuration} (fresh : Bool) {i n : Nat} {rest : List Nat} {old : DetectorRecord} :
      s.dtu.recordAt i = some old → old.address = c.address → s.dtu.freeList = n :: rest →
      CommandEffect s (s.amendMove c fresh i old n rest)
  | withdrawn {i : Nat} {r : DetectorRecord} : s.dtu.recordAt i = some r → CommandEffect s (s.withdrawRecord i r)
  | cleared : CommandEffect s (s.removeAll.setDtu s.removeAll.dtu.cleared)
  | disabled {i : Nat} {r : DetectorRecord} : s.dtu.recordAt i = some r → r.enabled = true →
      CommandEffect s (s.disableRecord i r)
  | enabled {i : Nat} {r : DetectorRecord} : s.dtu.recordAt i = some r → r.enabled = false →
      CommandEffect s (s.putRecord i { r.refreshed s.now with enabled := true })
  | headReset (h : HeadNo) : CommandEffect s (s.resetHead h)
  | zoneSet (z : ZoneNo) (mode : ZoneMode) (partner : Option ZoneNo) (a : ZoneSetArgs) :
      CommandEffect s (s.setZone z ((s.zone z).configured z mode partner a))
  | zoneService (z : ZoneNo) (service : Bool) : CommandEffect s (s.modifyZone z fun v => { v with service := service })
  | zoneReset {z : ZoneNo} : (s.zone z).alarmUnsent = false → CommandEffect s (s.resetZone z)
  | zoneDisabled {z : ZoneNo} : (s.zone z).state ≠ .alarm →
      CommandEffect s (s.modifyZone z fun v => { v.leaveVerify .quiet with enabled := false })
  | zoneEnabled {z : ZoneNo} : (s.zone z).enabled = false → CommandEffect s (s.enableZone z)
  | held (a : Address) (code : HeldCode) (argument : BitVec 16) : s.hcq.entries.length < 64 →
      CommandEffect s (s.enterHeld (s.newEntry a code argument))
  | ordered (scope : Scope) {pattern : Nat} (r : Result) : pattern ≤ 7 →
      CommandEffect s (s.placeOrder scope pattern r).state
  | filtered (i : Fin 16) {f : Filter} : f.raiseClass ≠ some .alarm → CommandEffect s (s.setFilter i f)
  | pages {p : Pages} : p.memory = s.pages.memory → CommandEffect s (s.setPages p)
  | timed (p : PageTiming) : CommandEffect s (s.storeTiming p)
  | split {p : PageMemory} : s.mode = .loading → p.tableSize = 256 ∨ p.tableSize = 512 ∨ p.tableSize = 1024 →
      CommandEffect s (s.storeMemory p)
  | started : CommandEffect s s.startUp
  | stopped : CommandEffect s s.shutDown

/-- What one row may make of the part, with what the row has found by then. -/
inductive Moves (s : State) : State → Prop
  | idle : Moves s s
  | powered : Moves s { State.reset with pending := s.pending, freeIndex := s.freeIndex }
  | radio (h : HeadNo) (rx : HeadReceiver) (f : RadioFrame) : Moves s ((s.setHeadRx h rx).takeRadio h f)
  | status (h : HeadNo) (rx : HeadReceiver) (busy : Nat) : Moves s ((s.setHeadRx h rx).takeStatus h busy)
  | headDiscard (h : HeadNo) (rx : HeadReceiver) (f : HeadCounters → HeadCounters) :
      Moves s ((s.setHeadRx h rx).countHead h f)
  | headSends {h : HeadNo} {f : HeadFrame} {rest : List HeadFrame} : (s.head h).txFifo = f :: rest →
      Moves s (s.modifyHead h fun v => { v with txFifo := rest, sending := some ⟨f, f.wire⟩ })
  | headSent (h : HeadNo) : Moves s (s.modifyHead h fun v => { v with sending := none })
  | ticked : Moves s s.takeDueExpiries.advanceClock.deliverTick
  | headLost (h : HeadNo) : Moves s (s.loseHead h)
  | lapsed {z : ZoneNo} : (s.zone z).enabled = true → (s.zone z).state = .verify → Moves s (s.lapseZone z .expiry)
  | expired (e : HeldEntry) : Moves s ((s.dropEntry e).raiseExpired e)
  | flushed : Moves s s.flushExpiry
  | summarised : Moves s s.summaryExpiry
  | swept : Moves s s.sweepExpiry
  | slotStarted (c : SlotClock) : Moves s ({ s with clock := c } : State).slotStart
  | frameTaken : s.fiu.state = .idle → Moves s s.takeFrame
  | lookedUp {f : LaneFrame} : s.fiu.state = .lookingUp f → Moves s (s.answerLookup f)
  | checked {f : LaneFrame} {i : Nat} {e : BitVec 8} {k : Key} (passed : Bool) : s.fiu.state = .checking f i e k →
      Moves s (s.setFiu (.completing f i e passed))
  | completed {f : LaneFrame} {i : Nat} {e : BitVec 8} {passed : Bool} : s.fiu.state = .completing f i e passed →
      Moves s (s.decideFrame f i e passed).releaseFrame
  | visited (i : Nat) : Moves s ((s.visit i).advanceSweep i)
  | granted : s.evu.tx = none → Moves s s.grant
  | sent {x : PanelTransmission} : s.evu.tx = some x → Moves s
      (({ s with evu := { s.evu with tx := none, counters := s.evu.counters.countSent x.source } } : State).alarmSent
        x.frame.alarmZone)
  | offered (rx : PanelReceiver) (payload : List Byte) :
      Moves s ({ s with pli := { s.pli with rx := rx }.offer payload } : State).mexTake
  | badPanelFrame (rx : PanelReceiver) (n : Nat) : Moves s { s with pli := { s.pli with rx := rx, badFrames := n } }
  | answered (x : Answer) (tag code : Byte) (after : MexState) : CommandEffect s x.state →
      Moves s (x.place tag code after)

/-! ## The bodies of the management commands -/

theorem Moves.run {s : State} {c : Command} {body : State → Answer} (effect : CommandEffect s (body s).state) :
    Leads (s.runCommand c body) (Moves s) := by
  unfold State.runCommand
  split
  · exact ⟨_, rfl, .answered _ _ _ _ effect⟩
  · exact ⟨_, rfl, .idle⟩

theorem State.enrolAbsent_effect {s : State} {c : Configuration} (absent : s.findRecord c.address = none) (r : Result) :
    CommandEffect s (s.enrolAbsent c r).state := by
  unfold State.enrolAbsent
  split
  · exact .nothing
  · next free => exact .enrolled absent free

theorem Configuration.ofArgs_address {a : EnrolArgs} {c : Configuration} (h : Configuration.ofArgs a = some c) :
    c.address = a.address := by
  unfold Configuration.ofArgs at h
  split at h
  · cases h
  · split at h
    · cases h; rfl
    · cases h

theorem State.enrol_effect (a : EnrolArgs) (s : State) : CommandEffect s (State.enrol a s).state := by
  unfold State.enrol
  split
  · exact .nothing
  · split
    · next found =>
      unfold State.enrolPresent
      split
      · exact .nothing
      · exact .collided (State.findRecord_sound found).1
    · next absent => exact State.enrolAbsent_effect absent _

theorem State.amend_effect (a : EnrolArgs) (fresh : Bool) (s : State) :
    CommandEffect s (State.amend a fresh s).state := by
  unfold State.amend
  split
  · exact .nothing
  · split
    · next found =>
      obtain ⟨record, address⟩ := State.findRecord_sound found
      unfold State.amendPresent
      split
      · exact .nothing
      · next free => exact .amended fresh record address free
    · next absent => exact State.enrolAbsent_effect absent _

theorem State.onAddress_effect {s : State} {f : Nat → Nat → DetectorRecord → Answer} (a : Address)
    (found : ∀ i q r, s.dtu.recordAt i = some r → CommandEffect s (f i q r).state) :
    CommandEffect s (s.onAddress a f).state := by
  unfold State.onAddress
  split
  · exact .nothing
  · split
    · exact .nothing
    · next h => exact found _ _ _ (State.findRecord_sound h).1

theorem State.clearTable_effect (s : State) : CommandEffect s s.clearTable.state := by
  unfold State.clearTable
  split
  · exact .nothing
  · exact .cleared

theorem State.onZone_effect {s : State} {f : ZoneNo → Answer} (b : Byte)
    (named : ∀ z, CommandEffect s (f z).state) : CommandEffect s (s.onZone b f).state := by
  unfold State.onZone
  split
  · exact .nothing
  · exact named _

theorem State.zoneSet_effect (a : ZoneSetArgs) (s : State) : CommandEffect s (State.zoneSet a s).state := by
  refine State.onZone_effect _ fun z => ?_
  split
  · next mode partner _ _ =>
    dsimp only
    split
    · exact .nothing
    · exact .zoneSet z mode partner a
  · exact .nothing

theorem State.zoneService_effect (b service : Byte) (s : State) :
    CommandEffect s (State.zoneService b service s).state := by
  refine State.onZone_effect _ fun z => ?_
  split
  · exact .nothing
  · split
    · exact .nothing
    · exact .zoneService z _

theorem State.zoneReset_effect (b : Byte) (s : State) : CommandEffect s (State.zoneReset b s).state := by
  refine State.onZone_effect _ fun z => ?_
  split
  · exact .nothing
  · next sent => exact .zoneReset (Bool.eq_false_iff.mpr sent)

theorem State.zoneDisable_effect (b : Byte) (s : State) : CommandEffect s (State.zoneDisable b s).state := by
  refine State.onZone_effect _ fun z => ?_
  split
  · exact .nothing
  · split
    · exact .nothing
    · next unlatched _ => exact .zoneDisabled unlatched

theorem State.zoneEnable_effect (b : Byte) (s : State) : CommandEffect s (State.zoneEnable b s).state := by
  refine State.onZone_effect _ fun z => ?_
  split
  · exact .nothing
  · next disabled => exact .zoneEnabled (Bool.eq_false_iff.mpr disabled)

theorem State.commandFor_effect (s : State) (a : Address) (code : HeldCode) (argument stored : BitVec 16) :
    CommandEffect s (s.commandFor a code argument stored).state := by
  unfold State.commandFor
  split
  · exact .nothing
  · split
    · exact .nothing
    · split
      · exact .nothing
      · next room => exact .held a code stored (Nat.lt_of_not_le room)

theorem State.command_effect (a : Address) (held : Byte) (argument : BitVec 16) (s : State) :
    CommandEffect s (State.command a held argument s).state := by
  unfold State.command
  split
  · exact .nothing
  · split
    · exact .nothing
    · split
      · exact .nothing
      · split
        · exact .nothing
        · exact s.commandFor_effect a _ argument _

theorem State.groupOrder_effect (scope pattern : Byte) (s : State) :
    CommandEffect s (State.groupOrder scope pattern s).state := by
  unfold State.groupOrder
  split
  · exact .nothing
  · split
    · exact .nothing
    · exact .ordered _ _ (Nat.min_le_right _ _)

theorem raiseClassOf_ne_alarm {b : Byte} {c : Option EventClass} (h : raiseClassOf b = some c) : c ≠ some .alarm := by
  unfold raiseClassOf at h
  split at h <;> cases h <;> decide

theorem Filter.store_raiseClass {a : FilterArgs} {f : Filter} (h : Filter.store a = some f) :
    raiseClassOf a.raiseClass = some f.raiseClass := by
  unfold Filter.store at h
  split at h
  · next stored _ _ _ _ => cases h; exact stored
  · cases h

theorem State.filterSet_effect (a : FilterArgs) (s : State) : CommandEffect s (State.filterSet a s).state := by
  unfold State.filterSet
  split
  · exact .nothing
  · split
    · exact .nothing
    · next stored =>
      split
      · exact .nothing
      · exact .filtered _ (raiseClassOf_ne_alarm (Filter.store_raiseClass stored))

theorem State.writeAir_effect (a : AirArgs) (s : State) : CommandEffect s (State.writeAir a s).state := by
  unfold State.writeAir
  split
  · exact .nothing
  · split
    · exact .nothing
    · exact .pages rfl

theorem State.writeLevels_effect (a : LevelsArgs) (s : State) : CommandEffect s (State.writeLevels a s).state := by
  unfold State.writeLevels
  split
  · exact .nothing
  · exact .pages rfl

theorem PageMemory.store_tableSize (a : MemoryArgs) : (PageMemory.store a).tableSize = 256
    ∨ (PageMemory.store a).tableSize = 512 ∨ (PageMemory.store a).tableSize = 1024 := by
  show nearestTableSize _ = 256 ∨ nearestTableSize _ = 512 ∨ nearestTableSize _ = 1024
  unfold nearestTableSize
  split
  · exact .inl rfl
  · split
    · exact .inr (.inl rfl)
    · exact .inr (.inr rfl)

theorem Mode.loading_of_ne_running {m : Mode} (h : m ≠ .running) : m = .loading := by
  cases m
  · rfl
  · exact absurd rfl h

theorem State.writeMemory_effect (a : MemoryArgs) (s : State) : CommandEffect s (State.writeMemory a s).state := by
  unfold State.writeMemory
  split
  · exact .nothing
  · next stopped => exact .split (Mode.loading_of_ne_running stopped) (PageMemory.store_tableSize a)

theorem State.startPart_effect (s : State) : CommandEffect s s.startPart.state := by
  unfold State.startPart
  split
  · exact .nothing
  · split
    · exact .nothing
    · rw [State.answer_state]
      exact .started

theorem State.stopPart_effect (s : State) : CommandEffect s s.stopPart.state := by
  unfold State.stopPart
  split
  · exact .nothing
  · rw [State.answer_state]
    exact .stopped

/-! ## Each row -/

theorem State.windowReached_verify {s : State} {z : ZoneNo} (h : s.windowReached z = true) :
    (s.zone z).enabled = true ∧ (s.zone z).state = .verify := by
  unfold State.windowReached at h
  simp only [Bool.and_eq_true, beq_iff_eq] at h
  exact h.1

theorem Leads.of_next {p : State → Prop} {t : State} (h : p t) : Leads (.next t) p := ⟨t, rfl, h⟩

theorem execRadioFrame_moves (h : HeadNo) (bytes : List Byte) (s : State) :
    Leads (execRadioFrame h bytes s) (Moves s) := by
  unfold execRadioFrame
  split
  · next rx f _ => exact .of_next (.radio h rx f)
  · exact .of_next .idle

theorem execHeadStatus_moves (h : HeadNo) (bytes : List Byte) (s : State) :
    Leads (execHeadStatus h bytes s) (Moves s) := by
  unfold execHeadStatus
  split
  · next rx busy _ => exact .of_next (.status h rx busy.toNat)
  · exact .of_next .idle

theorem execHeadLinkDiscard_moves (h : HeadNo) (bytes : List Byte) (s : State) :
    Leads (execHeadLinkDiscard h bytes s) (Moves s) := by
  unfold execHeadLinkDiscard
  split
  · next rx _ => exact .of_next (.headDiscard h rx _)
  · exact .of_next .idle

theorem execHeadFrameSend_moves (h : HeadNo) (s : State) : Leads (execHeadFrameSend h s) (Moves s) := by
  unfold execHeadFrameSend
  split
  · next waits => exact .of_next (.headSends waits)
  · exact .of_next .idle

theorem execHeadLost_moves (h : HeadNo) (s : State) : Leads (execHeadLost h s) (Moves s) := by
  unfold execHeadLost
  split
  · exact .of_next (.headLost h)
  · exact .of_next .idle

theorem execVerifyWindowLapse_moves (z : ZoneNo) (s : State) : Leads (execVerifyWindowLapse z s) (Moves s) := by
  unfold execVerifyWindowLapse
  split
  · next reached =>
    obtain ⟨enabled, verify⟩ := State.windowReached_verify reached
    exact .of_next (.lapsed enabled verify)
  · exact .of_next .idle

theorem execHeldCommandExpiry_moves (a : Address) (n : Byte) (s : State) :
    Leads (execHeldCommandExpiry a n s) (Moves s) := by
  unfold execHeldCommandExpiry
  split
  · exact .of_next .idle
  · exact .of_next (.expired _)

theorem execFlushExpiry_moves (s : State) : Leads (execFlushExpiry s) (Moves s) := by
  unfold execFlushExpiry
  split
  · exact .of_next .flushed
  · exact .of_next .idle

theorem execSummaryExpiry_moves (s : State) : Leads (execSummaryExpiry s) (Moves s) := by
  unfold execSummaryExpiry
  split
  · exact .of_next .summarised
  · exact .of_next .idle

theorem execSweepTimerExpiry_moves (s : State) : Leads (execSweepTimerExpiry s) (Moves s) := by
  unfold execSweepTimerExpiry
  split
  · exact .of_next .swept
  · exact .of_next .idle

theorem execSlotTimerExpiry_moves (s : State) : Leads (execSlotTimerExpiry s) (Moves s) := by
  unfold execSlotTimerExpiry
  split
  · exact .of_next (.slotStarted _)
  · exact .of_next .idle

theorem execFrameTake_moves (s : State) : Leads (execFrameTake s) (Moves s) := by
  unfold execFrameTake
  split
  · next idle => exact .of_next (.frameTaken idle)
  all_goals exact .of_next .idle

theorem execLookupRequest_moves (s : State) : Leads (execLookupRequest s) (Moves s) := by
  unfold execLookupRequest
  split
  · next waits => exact .of_next (.lookedUp waits)
  all_goals exact .of_next .idle

theorem execIntegrityCheckDone_moves (s : State) : Leads (execIntegrityCheckDone s) (Moves s) := by
  unfold execIntegrityCheckDone
  split
  · next checks => exact .of_next (.checked _ checks)
  all_goals exact .of_next .idle

theorem execCompletionRequest_moves (s : State) : Leads (execCompletionRequest s) (Moves s) := by
  unfold execCompletionRequest
  split
  · next waits => exact .of_next (.completed waits)
  all_goals exact .of_next .idle

theorem execVisitRequest_moves (s : State) : Leads (execVisitRequest s) (Moves s) := by
  unfold execVisitRequest
  split
  · exact .of_next .idle
  · split
    · exact .of_next .idle
    · exact .of_next (.visited _)

theorem execPanelGrant_moves (s : State) : Leads (execPanelGrant s) (Moves s) := by
  unfold execPanelGrant
  split
  · exact .of_next .idle
  · next free => exact .of_next (.granted (Option.not_isSome_iff_eq_none.mp free))

theorem execTransmissionComplete_moves (s : State) : Leads (execTransmissionComplete s) (Moves s) := by
  unfold execTransmissionComplete
  split
  · exact .of_next .idle
  · next busy => exact .of_next (.sent busy)

theorem execManagementFrame_moves (bytes : List Byte) (s : State) :
    Leads (execManagementFrame bytes s) (Moves s) := by
  unfold execManagementFrame
  split
  · next rx payload _ => exact .of_next (.offered rx payload)
  · exact .of_next .idle

theorem execBadPanelFrame_moves (bytes : List Byte) (s : State) : Leads (execBadPanelFrame bytes s) (Moves s) := by
  unfold execBadPanelFrame
  split
  · next rx _ => exact .of_next (.badPanelFrame rx _)
  · exact .of_next .idle

theorem execUnknownCommand_moves (payload : List Byte) (s : State) :
    Leads (execUnknownCommand payload s) (Moves s) := by
  unfold execUnknownCommand
  split
  · exact .of_next (.answered _ _ _ _ (.freeValues _))
  · exact .of_next .idle

theorem execWithdraw_moves (a : Address) (s : State) : Leads (execWithdraw a s) (Moves s) :=
  Moves.run (State.onAddress_effect a fun _ _ _ record => .withdrawn record)

theorem execLookup_moves (a : Address) (s : State) : Leads (execLookup a s) (Moves s) :=
  Moves.run (State.onAddress_effect a fun _ _ _ _ => .nothing)

theorem execDetectorDisable_moves (a : Address) (s : State) : Leads (execDetectorDisable a s) (Moves s) := by
  refine Moves.run (State.onAddress_effect a fun _ _ _ record => ?_)
  split
  · next enabled => exact .disabled record enabled
  · exact .nothing

theorem execDetectorEnable_moves (a : Address) (s : State) : Leads (execDetectorEnable a s) (Moves s) := by
  refine Moves.run (State.onAddress_effect a fun _ _ _ record => ?_)
  split
  · exact .nothing
  · next disabled => exact .enabled record (Bool.eq_false_iff.mpr disabled)

theorem execHeadReset_moves (b : Byte) (s : State) : Leads (execHeadReset b s) (Moves s) := by
  refine Moves.run ?_
  split
  · exact .nothing
  · exact .headReset _

theorem execPageRead_moves (b : Byte) (s : State) : Leads (execPageRead b s) (Moves s) := by
  refine Moves.run ?_
  split
  · exact .nothing
  · exact .nothing

theorem execRestart_moves (s : State) : Leads (execRestart s) (Moves s) := by
  unfold execRestart
  split
  · exact .of_next (.answered _ _ _ _ .nothing)
  · exact .of_next .idle

/-- Every row ends in a next state, which is one of `Moves`. -/
theorem exec_moves (c : Instr) (s : State) : Leads (exec c s) (Moves s) := by
  cases c with
  | powerOnReset => exact .of_next .powered
  | radioFrame h bytes => exact execRadioFrame_moves h bytes s
  | headStatus h bytes => exact execHeadStatus_moves h bytes s
  | headLinkDiscard h bytes => exact execHeadLinkDiscard_moves h bytes s
  | headFrameSend h => exact execHeadFrameSend_moves h s
  | headTransmissionComplete h => exact .of_next (.headSent h)
  | secondsTick => exact .of_next .ticked
  | headLost h => exact execHeadLost_moves h s
  | verifyWindowLapse z => exact execVerifyWindowLapse_moves z s
  | heldCommandExpiry a n => exact execHeldCommandExpiry_moves a n s
  | flushExpiry => exact execFlushExpiry_moves s
  | summaryExpiry => exact execSummaryExpiry_moves s
  | sweepTimerExpiry => exact execSweepTimerExpiry_moves s
  | slotTimerExpiry => exact execSlotTimerExpiry_moves s
  | frameTake => exact execFrameTake_moves s
  | lookupRequest => exact execLookupRequest_moves s
  | integrityCheckDone => exact execIntegrityCheckDone_moves s
  | completionRequest => exact execCompletionRequest_moves s
  | visitRequest => exact execVisitRequest_moves s
  | panelGrant => exact execPanelGrant_moves s
  | transmissionComplete => exact execTransmissionComplete_moves s
  | managementFrame bytes => exact execManagementFrame_moves bytes s
  | badPanelFrame bytes => exact execBadPanelFrame_moves bytes s
  | unknownCommand payload => exact execUnknownCommand_moves payload s
  | enrol a => exact Moves.run (State.enrol_effect a s)
  | amend a fresh => exact Moves.run (State.amend_effect a fresh s)
  | withdraw a => exact execWithdraw_moves a s
  | lookup a => exact execLookup_moves a s
  | clearTable => exact Moves.run s.clearTable_effect
  | detectorDisable a => exact execDetectorDisable_moves a s
  | detectorEnable a => exact execDetectorEnable_moves a s
  | headReset b => exact execHeadReset_moves b s
  | zoneSet a => exact Moves.run (State.zoneSet_effect a s)
  | zoneService b service => exact Moves.run (State.zoneService_effect b service s)
  | zoneReset b => exact Moves.run (State.zoneReset_effect b s)
  | zoneDisable b => exact Moves.run (State.zoneDisable_effect b s)
  | zoneEnable b => exact Moves.run (State.zoneEnable_effect b s)
  | command a held argument => exact Moves.run (State.command_effect a held argument s)
  | groupOrder scope pattern => exact Moves.run (State.groupOrder_effect scope pattern s)
  | filterSet a => exact Moves.run (State.filterSet_effect a s)
  | pageWriteAir a => exact Moves.run (State.writeAir_effect a s)
  | pageWriteLevels a => exact Moves.run (State.writeLevels_effect a s)
  | pageWriteTiming a => exact Moves.run (.timed _)
  | pageWriteMemory a => exact Moves.run (State.writeMemory_effect a s)
  | pageRead b => exact execPageRead_moves b s
  | start => exact Moves.run s.startPart_effect
  | stop => exact Moves.run s.stopPart_effect
  | restart => exact execRestart_moves s
  | statusQuery => exact Moves.run (body := fun s => s.answer .ok s.statusReport) .nothing

/-! ## Invariants -/

/-- An invariant that every row keeps, and that does not look at the queue, is kept by every step. -/
theorem keptByEveryStep {inv : State → Prop} (moved : ∀ s t, Moves s t → inv s → inv t)
    (unqueued : ∀ (s : State) (rest : List Instr), inv s → inv { s with pending := rest }) : KeptByEveryStep inv := by
  intro s t holds stepped
  unfold step at stepped
  split at stepped
  · exact Host.Outcome.next.inj stepped ▸ holds
  · next c rest _ =>
    obtain ⟨u, led, moves⟩ := exec_moves c { s with pending := rest }
    exact Host.Outcome.next.inj (led.symm.trans stepped) ▸ moved _ _ moves (unqueued s rest holds)

end Sys2Proof.Machine

namespace Sys2Proof.Proofs

open Sys2Proof Sys2Proof.Machine

/-- Settles O2: each row leads to one of `Moves`. -/
theorem noCommandStops : Obligations.NoCommandStops := fun c s =>
  (exec_moves c s).imp fun _ led => led.1

end Sys2Proof.Proofs
end

