-- ==== Sys2Proof/Proofs/RowFrames.lean ====
section
/-! Which parts of the state the larger operations of a row may change, each as "the state after is the state before with
these fields". -/

namespace Sys2Proof.Machine

/-! ## Heads and intake (sections 2, 3) -/

theorem State.placeFrame_frame (s : State) (h : HeadNo) (f : RadioFrame) :
    s.placeFrame h f = { s with heads := (s.placeFrame h f).heads, intake := (s.placeFrame h f).intake } := by
  unfold State.placeFrame
  dsimp only
  split
  · split
    · rfl
    · rfl
  · split
    · rfl
    · rfl

theorem State.takeRadio_frame (s : State) (h : HeadNo) (f : RadioFrame) :
    s.takeRadio h f = { s with heads := (s.takeRadio h f).heads, intake := (s.takeRadio h f).intake } := by
  unfold State.takeRadio
  split
  · rfl
  · split
    · rfl
    · split
      · rfl
      · split
        · rfl
        · exact s.placeFrame_frame h f

theorem State.tellsNotSent_from (s t : State) (l : List (Address × Option Attachment))
    (h : t = { s with heads := t.heads, intake := t.intake }) :
    l.foldl State.tellNotSent t = { s with
      heads := (l.foldl State.tellNotSent t).heads, hcq := (l.foldl State.tellNotSent t).hcq, intake := t.intake } := by
  have told := State.tellsNotSent_frame t l
  unfold OnlyHeads at told
  generalize l.foldl State.tellNotSent t = u at told ⊢
  rw [told, h]

theorem State.resetHead_frame (s : State) (h : HeadNo) : s.resetHead h = { s with
    heads := (s.resetHead h).heads, hcq := (s.resetHead h).hcq, intake := (s.resetHead h).intake } := by
  unfold State.resetHead
  dsimp only
  rw [State.tellsNotSent_from s _ _ rfl]
  rfl

theorem State.emptyLanes_frame (s : State) : s.emptyLanes = { s with
    heads := s.emptyLanes.heads, hcq := s.emptyLanes.hcq,
    intake := ⟨s.intake.freeBlocks + s.intake.urgentLane.length + s.intake.normalLane.length, [], []⟩ } := by
  have emptied := State.emptyFifos_frame { s with
    intake := ⟨s.intake.freeBlocks + s.intake.urgentLane.length + s.intake.normalLane.length, [], []⟩ } allHeads
  exact emptied

theorem State.takeFrame_frame (s : State) :
    s.takeFrame = { s with intake := s.takeFrame.intake, fiu := s.takeFrame.fiu } := by
  unfold State.takeFrame
  split
  · rfl
  · rfl
  · rfl

theorem State.answerLookup_frame (s : State) (f : LaneFrame) :
    s.answerLookup f = { s with intake := (s.answerLookup f).intake, fiu := (s.answerLookup f).fiu } := by
  unfold State.answerLookup
  split
  · rfl
  · rfl

theorem State.abandonFrame_frame (s : State) :
    s.abandonFrame = { s with intake := s.abandonFrame.intake, fiu := s.abandonFrame.fiu } := by
  unfold State.abandonFrame
  split
  · rfl
  all_goals rfl

/-! ## Zones, supervision and held commands (sections 5 to 7) -/

theorem State.takeDueSweep_frame (s : State) : s.takeDueSweep = { s with su := s.takeDueSweep.su } := by
  unfold State.takeDueSweep
  split
  · rfl
  · rfl

theorem State.takeDueExpiries_frame (s : State) :
    s.takeDueExpiries = { s with su := s.takeDueExpiries.su, evu := s.takeDueExpiries.evu } := by
  rw [State.takeDueExpiries_eq]
  rfl

theorem State.deliverTick_frame (s : State) : s.deliverTick = { s with
    heads := s.deliverTick.heads, zones := s.deliverTick.zones, hcq := s.deliverTick.hcq, evu := s.deliverTick.evu } := by
  have beaten := State.heartbeats_frame s allHeads
  have lapsed := State.lapses_frame (allHeads.foldl State.heartbeat s) allZones
  have expired := State.expireHeld_frame (allZones.foldl State.lapseIfReached (allHeads.foldl State.heartbeat s))
  unfold State.deliverTick
  unfold OnlyHealth at beaten
  unfold OnlyZones at lapsed
  unfold OnlyHcq at expired
  generalize allHeads.foldl State.heartbeat s = s1 at *
  generalize allZones.foldl State.lapseIfReached s1 = s2 at *
  generalize s2.expireHeld = s3 at *
  rw [expired, lapsed, beaten]
  rfl

theorem State.visit_frame (s : State) (i : Nat) :
    s.visit i = { s with dtu := (s.visit i).dtu, su := (s.visit i).su, evu := (s.visit i).evu } := by
  unfold State.visit
  split
  · rfl
  · split
    · rfl
    · rfl

theorem State.advanceSweep_frame (s : State) (i : Nat) : s.advanceSweep i = { s with su := (s.advanceSweep i).su } := by
  unfold State.advanceSweep
  split
  · rfl
  · rfl

/-! ## The panel link (section 9) -/

theorem State.mexTake_frame (s : State) : s.mexTake = { s with pli := s.mexTake.pli, mex := s.mexTake.mex } := by
  unfold State.mexTake
  split
  · rfl
  · rfl

theorem State.alarmSent_frame (s : State) (z : Option ZoneNo) :
    s.alarmSent z = { s with zones := (s.alarmSent z).zones } := by
  unfold State.alarmSent
  split
  · rfl
  · rfl

/-! ## Table commands (section 1) -/

theorem State.uncountMissing_frame (s : State) (r : DetectorRecord) :
    s.uncountMissing r = { s with su := (s.uncountMissing r).su } := by
  unfold State.uncountMissing
  split
  · rfl
  · rfl

theorem State.amendMissing_frame (s : State) (r : DetectorRecord) (fresh : Bool) :
    s.amendMissing r fresh = { s with su := (s.amendMissing r fresh).su } := by
  unfold State.amendMissing
  split
  · exact s.uncountMissing_frame r
  · rfl

theorem State.amendMove_frame (s : State) (c : Configuration) (fresh : Bool) (i : Nat) (old : DetectorRecord) (n : Nat)
    (rest : List Nat) : s.amendMove c fresh i old n rest = { s with
      dtu := s.dtu.move (s.bucketOf c.address) i n rest (s.amendedRecord old c fresh),
      zones := (s.amendMove c fresh i old n rest).zones, su := (s.amendMove c fresh i old n rest).su,
      evu := (s.amendMove c fresh i old n rest).evu } := by
  unfold State.amendMove
  dsimp only
  have counted := State.amendMissing_frame
    (s.setDtu (s.dtu.move (s.bucketOf c.address) i n rest (s.amendedRecord old c fresh))) old fresh
  generalize State.amendMissing _ old fresh = s1 at counted ⊢
  have told := s1.noticeZoneAndEvents_frame old
  unfold OnlyZones at told
  split
  · generalize s1.noticeZoneAndEvents old = s2 at told ⊢
    rw [told, counted]
    rfl
  · rw [counted]
    rfl

theorem State.withdrawRecord_frame (s : State) (i : Nat) (r : DetectorRecord) : s.withdrawRecord i r = { s with
    dtu := s.dtu.leave (s.bucketOf r.address) i, zones := (s.withdrawRecord i r).zones,
    su := (s.withdrawRecord i r).su, hcq := (s.withdrawRecord i r).hcq, evu := (s.withdrawRecord i r).evu } := by
  unfold State.withdrawRecord
  have counted := (s.setDtu (s.dtu.leave (s.bucketOf r.address) i)).uncountMissing_frame r
  generalize State.uncountMissing _ r = s1 at counted ⊢
  have told := s1.removalNotices_frame r
  unfold OnlyNotices at told
  generalize s1.removalNotices r = s2 at told ⊢
  rw [told, counted]
  rfl

theorem State.removeOne_frame (s : State) (r : DetectorRecord) : s.removeOne r = { s with
    zones := (s.removeOne r).zones, su := (s.removeOne r).su, hcq := (s.removeOne r).hcq,
    evu := (s.removeOne r).evu } := by
  obtain ⟨-, -, -, -, -, rest⟩ := State.removeOne_removed s r
  exact rest

/-- The form of what the removal of records does outside the table. -/
def OnlyRemoval (s t : State) : Prop := t = { s with zones := t.zones, su := t.su, hcq := t.hcq, evu := t.evu }

theorem OnlyRemoval.trans {s t u : State} (h : OnlyRemoval s t) (k : OnlyRemoval t u) : OnlyRemoval s u := by
  unfold OnlyRemoval at *
  rw [k, h]

theorem State.removeAll_onlyRemoval (s : State) : OnlyRemoval s s.removeAll :=
  foldl_rel OnlyRemoval (fun _ => rfl) (fun _ _ _ => OnlyRemoval.trans) _ State.removeOne_frame _ _

theorem State.disableRecord_frame (s : State) (i : Nat) (r : DetectorRecord) :
    OnlyZones (s.putRecord i { r.levelNormal (s.zone r.zone).epoch with enabled := false }) (s.disableRecord i r) := by
  unfold State.disableRecord
  dsimp only
  split
  · exact State.zoneDecrement_frame _ _ _ _
  · exact OnlyZones.refl _

/-! ## Zone, held and page commands (sections 5, 7, 9) -/

theorem State.enableZone_frame (s : State) (z : ZoneNo) : OnlyZones s (s.enableZone z) := by
  unfold State.enableZone
  dsimp only
  split
  · rfl
  · rfl

theorem State.placeOrder_orders (s : State) (scope : Scope) (pattern : Nat) (r : Result) :
    (s.placeOrder scope pattern r).state = s.setOrders (s.placeOrder scope pattern r).state.hcq.orders := by
  unfold State.placeOrder
  dsimp only
  split
  · split
    · rfl
    · split
      · rfl
      · rfl
  · split
    · rfl
    · split
      · rfl
      · rfl

theorem State.storeTiming_frame (s : State) (p : PageTiming) : s.storeTiming p = { s with
    pages := { s.pages with timing := p, timingLoaded := true }, su := (s.storeTiming p).su,
    evu := (s.storeTiming p).evu } := by
  have stored := s.storeTiming_pages p
  unfold State.storeTiming at stored ⊢
  dsimp only at stored ⊢
  have due := s.takeDueExpiries_frame
  generalize s.takeDueExpiries = s1 at due stored ⊢
  split at stored
  · next running =>
    rw [if_pos running, ← stored, due]
    rfl
  · next running =>
    rw [if_neg running, ← stored, due]
    rfl

theorem State.storeMemory_frame (s : State) (p : PageMemory) : s.storeMemory p = { s with
    dtu := .empty p.tableSize, intake := .empty p.tableSize,
    pages := { s.pages with memory := p, memoryLoaded := true }, zones := s.removeAll.zones, su := s.removeAll.su,
    hcq := s.removeAll.hcq, evu := s.removeAll.evu } := by
  have removed := s.removeAll_onlyRemoval
  unfold OnlyRemoval at removed
  unfold State.storeMemory
  generalize s.removeAll = s1 at removed ⊢
  rw [removed]

theorem State.startUp_frame (s : State) : s.startUp = { s with
    mode := .running, dtu := s.dtu.mapRecords fun r => r.rearmed s.now s.pages.timing.grace,
    heads := s.startUp.heads, hcq := s.startUp.hcq,
    su := { s.su with sweepTimer := some s.pages.timing.sweep },
    clock := { slot := 0, superframe := 0, slotTimer := some s.pages.air.slotLength } } :=
  State.slotStart_frame _

end Sys2Proof.Machine
end

