-- ==== Sys2Proof/Proofs/ZoneInvariant.lean ====
section
/-! The zones stay as R91 and R92 have them, whatever row is taken. -/

namespace Sys2Proof.Machine

/-! ## The operations on zones of the commands (sections 1, 5) -/

theorem ZonesSound.of_frame {s t u : State} (h : ZonesSound s) (frame : t = u) (stands : u.zones = s.zones) :
    ZonesSound t :=
  h.of_zones ((congrArg State.zones frame).trans stands)

theorem ZonesSound.modifyZone {s : State} (h : ZonesSound s) {z : ZoneNo} {f : Zone → Zone}
    (sound : (s.zone z).Sound z → (f (s.zone z)).Sound z) : ZonesSound (s.modifyZone z f) :=
  h.setZone (sound (h z))

theorem Zone.Sound.wasReset {z : ZoneNo} {v : Zone} (h : v.Sound z) : v.wasReset.Sound z := by
  obtain ⟨-, -, -, partner, window⟩ := h
  exact ⟨nofun, fun _ => ⟨rfl, rfl⟩, fun _ => rfl, partner, window⟩

theorem Zone.Sound.disabled {z : ZoneNo} {v : Zone} (h : v.Sound z) :
    Zone.Sound z { v.leaveVerify .quiet with enabled := false } := by
  obtain ⟨-, -, -, partner, window⟩ := h
  exact ⟨nofun, fun _ => ⟨rfl, rfl⟩, fun _ => rfl, partner, window⟩

theorem Zone.Sound.first_none {z : ZoneNo} {v : Zone} (h : v.Sound z) (disabled : v.enabled = false) :
    v.state = .quiet ∧ v.first = none ∧ v.deadline = none := by
  obtain ⟨-, clear, quiet, -⟩ := h
  have state := quiet disabled
  exact ⟨state, clear (by rw [state]; decide)⟩

/-- A disabled zone that is enabled, in QUIET or in PRE. -/
theorem Zone.Sound.enabled {z : ZoneNo} {v : Zone} (h : v.Sound z) (disabled : v.enabled = false) {st : ZoneState}
    (notVerify : st ≠ .verify) : Zone.Sound z { v with enabled := true, state := st } := by
  obtain ⟨-, first, deadline⟩ := h.first_none disabled
  obtain ⟨-, -, -, partner, window⟩ := h
  exact ⟨fun verify => absurd verify notVerify, fun _ => ⟨first, deadline⟩, nofun, partner, window⟩

theorem ZonesSound.enableZone {s : State} (h : ZonesSound s) {z : ZoneNo} (disabled : (s.zone z).enabled = false) :
    ZonesSound (s.enableZone z) := by
  have quiet := ((h z).first_none disabled).1
  unfold State.enableZone
  dsimp only
  split
  · exact (h.setZone ((h z).enabled disabled (by decide))).raise _ _ _ _
  · refine h.setZone ?_
    have sound := (h z).enabled disabled (st := .quiet) (by decide)
    rwa [← quiet] at sound

theorem ZonesSound.noticeZoneAndEvents {s : State} (h : ZonesSound s) (r : DetectorRecord) :
    ZonesSound (s.noticeZoneAndEvents r) := by
  unfold State.noticeZoneAndEvents
  dsimp only
  split
  · exact (State.zoneDecrement_sound h _ _ _).of_zones rfl
  · exact h.of_zones rfl

theorem ZonesSound.removalNotices {s : State} (h : ZonesSound s) (r : DetectorRecord) :
    ZonesSound (s.removalNotices r) :=
  (h.noticeZoneAndEvents r).of_zones (State.withdrawHeld_frame _ _ _).zones_eq

theorem ZonesSound.uncountMissing {s : State} (h : ZonesSound s) (r : DetectorRecord) :
    ZonesSound (s.uncountMissing r) :=
  h.of_frame (s.uncountMissing_frame r) rfl

theorem ZonesSound.removeAll {s : State} (h : ZonesSound s) : ZonesSound s.removeAll :=
  foldl_rel (fun s t => ZonesSound s → ZonesSound t) (fun _ h => h) (fun _ _ _ f g h => g (f h)) _
    (fun _ r sound => (sound.uncountMissing r).removalNotices r) _ _ h

theorem ZonesSound.amendMove {s : State} (h : ZonesSound s) (c : Configuration) (fresh : Bool) (i : Nat)
    (old : DetectorRecord) (n : Nat) (rest : List Nat) : ZonesSound (s.amendMove c fresh i old n rest) := by
  have counted : ZonesSound (State.amendMissing
      (s.setDtu (s.dtu.move (s.bucketOf c.address) i n rest (s.amendedRecord old c fresh))) old fresh) :=
    h.of_frame (State.amendMissing_frame _ old fresh) rfl
  unfold State.amendMove
  dsimp only
  split
  · exact counted.noticeZoneAndEvents old
  · exact counted

theorem ZonesSound.disableRecord {s : State} (h : ZonesSound s) (i : Nat) (r : DetectorRecord) :
    ZonesSound (s.disableRecord i r) := by
  unfold State.disableRecord
  dsimp only
  split
  · refine State.zoneDecrement_sound ?_ _ _ _
    exact h.of_zones rfl
  · exact h.of_zones rfl

theorem ZonesSound.withdrawRecord {s : State} (h : ZonesSound s) (i : Nat) (r : DetectorRecord) :
    ZonesSound (s.withdrawRecord i r) := by
  refine ZonesSound.removalNotices (ZonesSound.uncountMissing ?_ r) r
  exact h.of_zones rfl

theorem ZonesSound.shutDown {s : State} (h : ZonesSound s) : ZonesSound s.shutDown := by
  have swept : ZonesSound s.takeDueSweep := h.of_frame s.takeDueSweep_frame rfl
  unfold State.shutDown
  generalize s.takeDueSweep = s1 at swept ⊢
  have abandoned : ZonesSound (State.abandonFrame { s1 with mode := .loading }) :=
    swept.of_frame (State.abandonFrame_frame _) rfl
  generalize State.abandonFrame _ = s2 at abandoned ⊢
  have emptied : ZonesSound s2.emptyLanes := abandoned.of_frame s2.emptyLanes_frame rfl
  generalize s2.emptyLanes = s3 at emptied ⊢
  have closed : ZonesSound (s3.stopTimers.closeContexts .stop) := emptied.of_zones rfl
  exact State.stopLapses_sound closed allZones

theorem ZonesSound.tick {s : State} (h : ZonesSound s) : ZonesSound s.takeDueExpiries.advanceClock.deliverTick := by
  have taken : ZonesSound s.takeDueExpiries := h.of_frame s.takeDueExpiries_frame rfl
  generalize s.takeDueExpiries = s1 at taken ⊢
  have beaten : ZonesSound (allHeads.foldl State.heartbeat s1.advanceClock) :=
    taken.of_zones (State.heartbeats_frame s1.advanceClock allHeads).zones_eq
  have lapsed := State.lapses_sound beaten allZones
  unfold State.deliverTick
  generalize allZones.foldl State.lapseIfReached _ = s2 at lapsed ⊢
  have expired : ZonesSound s2.expireHeld := lapsed.of_zones s2.expireHeld_frame.zones_eq
  generalize s2.expireHeld = s3 at expired ⊢
  exact expired.of_zones rfl

theorem Zone.Sound.alarmSent {z : ZoneNo} {v : Zone} (h : v.Sound z) : Zone.Sound z { v with alarmUnsent := false } := h

theorem ZonesSound.alarmSent {s : State} (h : ZonesSound s) (z : Option ZoneNo) : ZonesSound (s.alarmSent z) := by
  unfold State.alarmSent
  split
  · exact h
  · exact h.modifyZone Zone.Sound.alarmSent

theorem ZonesSound.restartClear {s : State} (h : ZonesSound s) : ZonesSound s.restartClear := by
  intro z
  show ((mapVector Zone.restarted s.zones).get z).Sound z
  rw [mapVector_get]
  exact (h z).restarted

theorem ZonesSound.mexTake {s : State} (h : ZonesSound s) : ZonesSound s.mexTake :=
  h.of_frame s.mexTake_frame rfl

theorem ZonesSound.grant {s : State} (h : ZonesSound s) : ZonesSound s.grant := by
  unfold State.grant
  split
  · unfold State.mexTold
    split
    · refine ZonesSound.restartClear ?_
      exact h.of_zones rfl
    all_goals
      refine ZonesSound.mexTake ?_
      exact h.of_zones rfl
  · exact h.of_zones rfl

/-! ## Every row -/

theorem ZonesSound.effect {s t : State} (effect : CommandEffect s t) (h : ZonesSound s) : ZonesSound t := by
  cases effect with
  | amended fresh _ _ _ => exact h.amendMove _ fresh _ _ _ _
  | withdrawn _ => exact h.withdrawRecord _ _
  | cleared => exact h.removeAll.of_zones rfl
  | disabled _ _ => exact h.disableRecord _ _
  | headReset hd => exact h.of_frame (s.resetHead_frame hd) rfl
  | zoneSet z mode partner a => exact h.setZone ((h z).configured mode partner a)
  | zoneService z service => exact h.modifyZone fun sound => sound
  | zoneReset _ => exact (h.modifyZone Zone.Sound.wasReset).of_zones rfl
  | zoneDisabled _ => exact h.modifyZone Zone.Sound.disabled
  | zoneEnabled disabled => exact h.enableZone disabled
  | ordered scope r _ => exact h.of_frame (s.placeOrder_orders scope _ r) rfl
  | timed p => exact h.of_frame (s.storeTiming_frame p) rfl
  | split _ _ => exact h.removeAll.of_zones rfl
  | started => exact h.of_frame s.startUp_frame rfl
  | stopped => exact h.shutDown
  | _ => exact h.of_zones rfl

theorem zonesSound_reset : ZonesSound State.reset := by
  intro z
  show ((Vector.replicate 64 Zone.powerOn).get z).Sound z
  have powered : (Vector.replicate 64 Zone.powerOn).get z = Zone.powerOn := Vector.getElem_replicate z.isLt
  rw [powered]
  exact Zone.powerOn_sound z

theorem ZonesSound.moves {s t : State} (moves : Moves s t) (h : ZonesSound s) : ZonesSound t := by
  cases moves with
  | powered => exact zonesSound_reset.of_zones rfl
  | radio hd rx f => exact h.of_frame ((s.setHeadRx hd rx).takeRadio_frame hd f) rfl
  | status hd rx busy => exact h.of_zones (State.takeStatus_frame (s.setHeadRx hd rx) hd busy).zones_eq
  | ticked => exact h.tick
  | lapsed enabled _ => exact State.lapseZone_sound h enabled _
  | slotStarted c => exact h.of_zones (State.slotStart_frame { s with clock := c }).zones_eq
  | frameTaken _ => exact h.of_frame s.takeFrame_frame rfl
  | lookedUp _ => exact h.of_frame (s.answerLookup_frame _) rfl
  | completed _ => exact (ZonesSound.closed.decideFrame s _ _ _ _ h).of_zones rfl
  | visited i =>
    have stood : ZonesSound (s.visit i) := h.of_frame (s.visit_frame i) rfl
    exact stood.of_frame ((s.visit i).advanceSweep_frame i) rfl
  | granted _ => exact h.grant
  | sent _ =>
    refine ZonesSound.alarmSent ?_ _
    exact h.of_zones rfl
  | offered rx payload =>
    refine ZonesSound.mexTake ?_
    exact h.of_zones rfl
  | answered x tag code after effect => exact (h.effect effect).of_zones rfl
  | _ => exact h.of_zones rfl

theorem CountsExact.raised_le {s : State} (h : CountsExact s) (z : ZoneNo) :
    (s.zone z).raised ≤ s.pages.memory.tableSize := by
  obtain ⟨⟨size, -⟩, -, ⟨raised, -⟩⟩ := h
  calc (s.zone z).raised
      = s.dtu.records.countP (fun r => decide (r.zone = z) && r.counted (s.zone z).epoch) := raised z
    _ ≤ s.dtu.records.length := List.countP_le_length
    _ ≤ s.dtu.slots.length := List.length_filterMap_le _ _
    _ = s.pages.memory.tableSize := size

end Sys2Proof.Machine

namespace Sys2Proof.Proofs

open Sys2Proof Sys2Proof.Machine

/-- Settles O56: `ZonesSound` by the split over `Moves`; the raised count is a count of records, of which there are at
most as many as indices. -/
theorem zonesStaySound : Obligations.ZonesStaySound :=
  ⟨keptByEveryStep (fun _ _ => ZonesSound.moves) (fun _ _ h => h.of_zones rfl), fun _ h => h.raised_le⟩

end Sys2Proof.Proofs
end

