-- ==== Sys2Proof/Proofs/PoolInvariant.lean ====
section
/-! The frame pool: every block is free, in a lane or with FIU's frame, whatever row is taken (R35 to R37, R48, R52). -/

namespace Sys2Proof.Machine

theorem PoolConserved.same {s t : State} (h : PoolConserved s) (intake : t.intake = s.intake)
    (fiu : t.fiu.state = s.fiu.state) (memory : t.pages.memory = s.pages.memory) (mode : t.mode = s.mode) :
    PoolConserved t := by
  have pool : t.poolSize = s.poolSize := congrArg (fun m => Config.memoryBlocks - m.tableSize) memory
  unfold PoolConserved at h ⊢
  rwa [intake, fiu, pool, mode]

theorem PoolConserved.of_frame {s t u : State} (h : PoolConserved s) (frame : t = u) (intake : u.intake = s.intake)
    (fiu : u.fiu.state = s.fiu.state) (memory : u.pages.memory = s.pages.memory) (mode : u.mode = s.mode) :
    PoolConserved t :=
  frame ▸ h.same intake fiu memory mode

/-- With no frame held anywhere, the pool is conserved when it is whole. -/
theorem PoolConserved.empty {s : State} (intake : s.intake = .empty s.tableSize) (fiu : s.fiu.state = .idle) :
    PoolConserved s := by
  unfold PoolConserved
  rw [intake, fiu]
  exact ⟨rfl, fun _ => ⟨rfl, rfl, rfl⟩⟩

/-! ## Lanes and FIU (sections 2, 3) -/

theorem PoolConserved.placeFrame {s : State} (h : PoolConserved s) (running : s.mode ≠ .loading) (hd : HeadNo)
    (f : RadioFrame) : PoolConserved (s.placeFrame hd f) := by
  obtain ⟨pool, -⟩ := h
  unfold State.placeFrame
  dsimp only
  split
  · split
    · next room =>
      refine ⟨?_, fun m => absurd m running⟩
      show (s.intake.freeBlocks - 1) + (s.intake.urgentLane ++ [_]).length + s.intake.normalLane.length
        + s.fiu.state.held = s.poolSize
      rw [List.length_append, List.length_singleton]
      omega
    · exact ⟨pool, fun m => absurd m running⟩
  · split
    · next room =>
      refine ⟨?_, fun m => absurd m running⟩
      show (s.intake.freeBlocks - 1) + s.intake.urgentLane.length + (s.intake.normalLane ++ [_]).length
        + s.fiu.state.held = s.poolSize
      rw [List.length_append, List.length_singleton]
      omega
    · exact ⟨pool, fun m => absurd m running⟩

theorem PoolConserved.takeRadio {s : State} (h : PoolConserved s) (hd : HeadNo) (f : RadioFrame) :
    PoolConserved (s.takeRadio hd f) := by
  unfold State.takeRadio
  split
  · exact h.same rfl rfl rfl rfl
  · next running =>
    split
    · exact h.same rfl rfl rfl rfl
    · split
      · exact h.same rfl rfl rfl rfl
      · split
        · exact h.same rfl rfl rfl rfl
        · exact h.placeFrame running hd f

/-- FIU takes a frame of a lane: the block goes with it (R48). In LOADING both lanes are empty. -/
theorem PoolConserved.takeFrame {s : State} (h : PoolConserved s) (idle : s.fiu.state = .idle) :
    PoolConserved s.takeFrame := by
  obtain ⟨pool, loading⟩ := h
  rw [idle] at pool
  unfold State.takeFrame
  split
  · next f rest lane =>
    refine ⟨?_, fun m => absurd ((loading m).1.symm.trans lane) nofun⟩
    rw [lane, List.length_cons] at pool
    show s.intake.freeBlocks + rest.length + s.intake.normalLane.length + 1 = s.poolSize
    have none : FiuState.idle.held = 0 := rfl
    omega
  · next lane =>
    refine ⟨?_, fun m => absurd ((loading m).2.1.symm.trans lane) nofun⟩
    rw [lane, List.length_cons] at pool
    exact pool
  · exact ⟨by rw [idle]; exact pool, loading⟩

/-- FIU's frame is done with and its block freed (R49, R53, R67); FIU has one in RUNNING only. -/
theorem PoolConserved.releaseFrame {s : State} (h : PoolConserved s) (held : s.fiu.state.held = 1) {t : State}
    (intake : t.intake = s.intake) (memory : t.pages.memory = s.pages.memory) (mode : t.mode = s.mode) :
    PoolConserved t.releaseFrame := by
  obtain ⟨pool, loading⟩ := h
  rw [held] at pool
  refine ⟨?_, fun m => ?_⟩
  · show t.intake.freeBlocks + 1 + t.intake.urgentLane.length + t.intake.normalLane.length + 0
      = Config.memoryBlocks - t.pages.memory.tableSize
    rw [intake, memory]
    have size : s.poolSize = Config.memoryBlocks - s.pages.memory.tableSize := rfl
    omega
  · obtain ⟨-, -, idle⟩ := loading (mode.symm.trans m)
    rw [idle] at held
    cases held

theorem PoolConserved.setFiu {s : State} (h : PoolConserved s) {x : FiuState} (held : s.fiu.state.held = 1)
    (holds : x.held = 1) : PoolConserved (s.setFiu x) := by
  obtain ⟨pool, loading⟩ := h
  refine ⟨?_, fun m => ?_⟩
  · show _ + x.held = s.poolSize
    rw [holds, ← pool, held]
    rfl
  · obtain ⟨-, -, idle⟩ := loading m
    rw [idle] at held
    cases held

theorem PoolConserved.answerLookup {s : State} (h : PoolConserved s) {f : LaneFrame}
    (looking : s.fiu.state = .lookingUp f) : PoolConserved (s.answerLookup f) := by
  unfold State.answerLookup
  split
  · exact h.releaseFrame (by rw [looking]; rfl) rfl rfl rfl
  · exact h.setFiu (by rw [looking]; rfl) rfl

theorem PoolConserved.completed {s : State} (h : PoolConserved s) {f : LaneFrame} {i : Nat} {e : BitVec 8}
    {passed : Bool} (completing : s.fiu.state = .completing f i e passed) :
    PoolConserved (s.decideFrame f i e passed).releaseFrame := by
  have decided := State.decideFrame_frame s f i e passed
  exact h.releaseFrame (by rw [completing]; rfl) decided.intake_eq (congrArg Pages.memory decided.pages_eq)
    decided.mode_eq

/-! ## Emptied lanes (R32, R37, R52) -/

/-- A HEAD_RESET frees the blocks of the head's frames in the lanes (R32). -/
theorem PoolConserved.resetHead {s : State} (h : PoolConserved s) (hd : HeadNo) : PoolConserved (s.resetHead hd) := by
  obtain ⟨pool, loading⟩ := h
  have emptied : (s.resetHead hd).intake =
      ⟨s.intake.freeBlocks + ((s.intake.urgentLane.length - (s.intake.urgentLane.filter fun f => f.head != hd).length)
          + (s.intake.normalLane.length - (s.intake.normalLane.filter fun f => f.head != hd).length)),
        s.intake.urgentLane.filter fun f => f.head != hd, s.intake.normalLane.filter fun f => f.head != hd⟩ :=
    (State.tellsNotSent_frame _ _).intake_eq
  have urgent := List.length_filter_le (fun f : LaneFrame => f.head != hd) s.intake.urgentLane
  have normal := List.length_filter_le (fun f : LaneFrame => f.head != hd) s.intake.normalLane
  have frame := s.resetHead_frame hd
  rw [frame]
  refine ⟨?_, fun m => ?_⟩
  · dsimp only
    rw [emptied]
    show _ + s.fiu.state.held = s.poolSize
    dsimp only
    omega
  · obtain ⟨noUrgent, noNormal, idle⟩ := loading m
    dsimp only
    rw [emptied, noUrgent, noNormal]
    exact ⟨rfl, rfl, idle⟩

/-- STOP leaves no frame in FIU, the lanes or the pool (R37, R52). -/
theorem PoolConserved.shutDown {s : State} (h : PoolConserved s) : PoolConserved s.shutDown := by
  have swept : PoolConserved s.takeDueSweep := h.of_frame s.takeDueSweep_frame rfl rfl rfl rfl
  unfold State.shutDown
  generalize s.takeDueSweep = s1 at swept ⊢
  obtain ⟨pool, -⟩ := swept
  have abandoned : (State.abandonFrame { s1 with mode := .loading }).fiu.state = .idle
      ∧ (State.abandonFrame { s1 with mode := .loading }).intake.freeBlocks + s1.intake.urgentLane.length
        + s1.intake.normalLane.length = s1.poolSize
      ∧ (State.abandonFrame { s1 with mode := .loading }).intake.urgentLane = s1.intake.urgentLane
      ∧ (State.abandonFrame { s1 with mode := .loading }).intake.normalLane = s1.intake.normalLane := by
    unfold State.abandonFrame
    split
    · next idle =>
      have idle : s1.fiu.state = .idle := idle
      rw [idle] at pool
      exact ⟨idle, pool, rfl, rfl⟩
    all_goals
      next holds =>
      have held : s1.fiu.state.held = 1 := by rw [show s1.fiu.state = _ from holds]; rfl
      rw [held] at pool
      exact ⟨rfl, (show s1.intake.freeBlocks + 1 + _ + _ = _ by omega), rfl, rfl⟩
  have memory : (State.abandonFrame { s1 with mode := .loading }).poolSize = s1.poolSize := by
    rw [State.abandonFrame_frame]
    rfl
  generalize State.abandonFrame _ = s2 at abandoned memory ⊢
  obtain ⟨idle, blocks, urgent, normal⟩ := abandoned
  have frame := s2.emptyLanes_frame
  generalize s2.emptyLanes = s3 at frame ⊢
  have emptied : PoolConserved s3 := by
    have whole : s3.intake = .empty s3.tableSize := by
      rw [frame, urgent, normal, blocks, ← memory]
      rfl
    exact .empty whole (by rw [frame]; exact idle)
  have closed : PoolConserved (s3.stopTimers.closeContexts .stop) := emptied.same rfl rfl rfl rfl
  generalize s3.stopTimers.closeContexts .stop = s4 at closed ⊢
  have lapsed := State.stopLapses_frame s4 allZones
  exact closed.same lapsed.intake_eq (congrArg Fiu.state lapsed.fiu_eq) (congrArg Pages.memory lapsed.pages_eq)
    lapsed.mode_eq

/-! ## Every row -/

theorem PoolConserved.effect {s t : State} (effect : CommandEffect s t) (h : PoolConserved s) : PoolConserved t := by
  cases effect with
  | amended fresh _ _ _ => exact h.of_frame (s.amendMove_frame _ fresh _ _ _ _) rfl rfl rfl rfl
  | withdrawn _ => exact h.of_frame (s.withdrawRecord_frame _ _) rfl rfl rfl rfl
  | cleared =>
    have removed : PoolConserved s.removeAll := h.of_frame s.removeAll_onlyRemoval rfl rfl rfl rfl
    exact removed.same rfl rfl rfl rfl
  | disabled _ _ => exact h.of_frame (s.disableRecord_frame _ _) rfl rfl rfl rfl
  | headReset hd => exact h.resetHead hd
  | zoneEnabled _ => exact h.of_frame (s.enableZone_frame _) rfl rfl rfl rfl
  | ordered scope r _ => exact h.of_frame (s.placeOrder_orders scope _ r) rfl rfl rfl rfl
  | pages memory => exact h.same rfl rfl memory rfl
  | timed p => exact h.of_frame (s.storeTiming_frame p) rfl rfl rfl rfl
  | split loading _ =>
    obtain ⟨-, -, idle⟩ := h.2 loading
    rw [s.storeMemory_frame]
    exact .empty rfl idle
  | started =>
    rw [s.startUp_frame]
    exact ⟨h.1, nofun⟩
  | stopped => exact h.shutDown
  | _ => exact h.same rfl rfl rfl rfl

theorem PoolConserved.mexTake {s : State} (h : PoolConserved s) : PoolConserved s.mexTake :=
  h.of_frame s.mexTake_frame rfl rfl rfl rfl

theorem PoolConserved.grant {s : State} (h : PoolConserved s) : PoolConserved s.grant := by
  unfold State.grant
  split
  · unfold State.mexTold
    split
    · exact .empty rfl rfl
    all_goals
      refine PoolConserved.mexTake ?_
      exact h.same rfl rfl rfl rfl
  · exact h.same rfl rfl rfl rfl

theorem PoolConserved.tick {s : State} (h : PoolConserved s) :
    PoolConserved s.takeDueExpiries.advanceClock.deliverTick := by
  have taken : PoolConserved s.takeDueExpiries := h.of_frame s.takeDueExpiries_frame rfl rfl rfl rfl
  exact taken.of_frame (State.deliverTick_frame _) rfl rfl rfl rfl

theorem PoolConserved.moves {s t : State} (moves : Moves s t) (h : PoolConserved s) : PoolConserved t := by
  cases moves with
  | powered => exact .empty rfl rfl
  | radio hd rx f =>
    refine PoolConserved.takeRadio ?_ hd f
    exact h.same rfl rfl rfl rfl
  | status hd rx busy => exact h.of_frame (State.takeStatus_frame (s.setHeadRx hd rx) hd busy) rfl rfl rfl rfl
  | ticked => exact h.tick
  | slotStarted c => exact h.of_frame (State.slotStart_frame { s with clock := c }) rfl rfl rfl rfl
  | frameTaken idle => exact h.takeFrame idle
  | lookedUp looking => exact h.answerLookup looking
  | checked passed checking => exact h.setFiu (by rw [checking]; rfl) rfl
  | completed completing => exact h.completed completing
  | visited i =>
    have stood : PoolConserved (s.visit i) := h.of_frame (s.visit_frame i) rfl rfl rfl rfl
    exact stood.of_frame ((s.visit i).advanceSweep_frame i) rfl rfl rfl rfl
  | granted _ => exact h.grant
  | sent _ => exact h.of_frame (State.alarmSent_frame _ _) rfl rfl rfl rfl
  | offered rx payload =>
    refine PoolConserved.mexTake ?_
    exact h.same rfl rfl rfl rfl
  | answered x tag code after effect => exact (h.effect effect).same rfl rfl rfl rfl
  | swept =>
    refine h.same ?_ rfl rfl rfl
    rfl
  | _ => exact h.same rfl rfl rfl rfl

end Sys2Proof.Machine

namespace Sys2Proof.Proofs

open Sys2Proof Sys2Proof.Machine

/-- Settles O58 by the split over `Moves`: a block changes place only where a frame is admitted, taken, released or
discarded. -/
theorem poolStaysConserved : Obligations.PoolStaysConserved :=
  keptByEveryStep (fun _ _ => PoolConserved.moves) (fun _ _ h => h.same rfl rfl rfl rfl)

end Sys2Proof.Proofs
end

