-- ==== Sys2Proof/Proofs/DepthInvariant.lean ====
section
/-! The queues and lists stay within their depths (R44, R134, R145, R157, R162, R172) and free of doubles (R134, R145,
R157), whatever row is taken. -/

namespace Sys2Proof.Machine

/-- A fold of steps that each keep a property keeps it. -/
theorem foldl_keeps {α : Type} {P : State → Prop} {f : State → α → State} (kept : ∀ s x, P s → P (f s x)) (l : List α)
    {s : State} (h : P s) : P (l.foldl f s) :=
  foldl_rel (fun s t => P s → P t) (fun _ h => h) (fun _ _ _ f g h => g (f h)) f kept l s h

/-! ## Lists free of doubles -/

theorem ListsDistinct.of_frame {s t u : State} (h : ListsDistinct s) (frame : t = u) (hcq : u.hcq = s.hcq)
    (contexts : u.evu.contexts = s.evu.contexts) : ListsDistinct t :=
  frame ▸ h.calm (.of_eq hcq contexts)

theorem ListsDistinct.empty {s : State} (hcq : s.hcq = .cleared) (contexts : s.evu.contexts = []) :
    ListsDistinct s := by
  unfold ListsDistinct Evu.ContextsDistinct
  rw [hcq, contexts]
  exact ⟨⟨.nil, by decide, nofun, .nil, nofun⟩, .nil, nofun⟩

theorem ListsDistinct.withdrawRecord {s : State} (h : ListsDistinct s) (i : Nat) (r : DetectorRecord) :
    ListsDistinct (s.withdrawRecord i r) := by
  have left : ListsDistinct (s.setDtu (s.dtu.leave (s.bucketOf r.address) i)) := h.calm (.of_eq rfl rfl)
  exact (left.calm (State.uncountMissing_calm _ r)).removalNotices r

theorem ListsDistinct.amendMove {s : State} (h : ListsDistinct s) (c : Configuration) (fresh : Bool) (i : Nat)
    (old : DetectorRecord) (n : Nat) (rest : List Nat) : ListsDistinct (s.amendMove c fresh i old n rest) := by
  have moved : ListsDistinct (State.amendMissing
      (s.setDtu (s.dtu.move (s.bucketOf c.address) i n rest (s.amendedRecord old c fresh))) old fresh) :=
    h.of_frame (State.amendMissing_frame _ old fresh) rfl rfl
  unfold State.amendMove
  dsimp only
  split
  · exact moved.calm (State.noticeZoneAndEvents_calm _ old)
  · exact moved

theorem ListsDistinct.disableRecord {s : State} (h : ListsDistinct s) (i : Nat) (r : DetectorRecord) :
    ListsDistinct (s.disableRecord i r) := by
  unfold State.disableRecord
  dsimp only
  split
  · refine ListsDistinct.calm ?_ (State.zoneDecrement_calm _ _ _ _)
    exact h.calm (.of_eq rfl rfl)
  · exact h.calm (.of_eq rfl rfl)

theorem State.enableZone_calm (s : State) (z : ZoneNo) : Calm s (s.enableZone z) := by
  unfold State.enableZone
  dsimp only
  split
  · exact Calm.raise (.of_eq rfl rfl) _ _ _ _
  · exact .of_eq rfl rfl

theorem State.storeTiming_calm (s : State) (p : PageTiming) : Calm s (s.storeTiming p) := by
  refine s.takeDueExpiries_calm.trans ?_
  unfold State.storeTiming
  dsimp only
  split
  · exact .of_eq rfl rfl
  · exact .of_eq rfl rfl

theorem State.visit_calm (s : State) (i : Nat) : Calm s (s.visit i) := by
  unfold State.visit
  split
  · exact Calm.refl s
  · split
    · exact Calm.raise (.of_eq rfl rfl) _ _ _ _
    · exact Calm.refl s

theorem ListsDistinct.effect {s t : State} (effect : CommandEffect s t) (h : ListsDistinct s) : ListsDistinct t := by
  cases effect with
  | amended fresh _ _ _ => exact h.amendMove _ fresh _ _ _ _
  | withdrawn _ => exact h.withdrawRecord _ _
  | cleared => exact h.removeAll.calm (.of_eq rfl rfl)
  | disabled _ _ => exact h.disableRecord _ _
  | headReset hd => exact h.resetHead hd
  | zoneEnabled _ => exact h.calm (s.enableZone_calm _)
  | held a code argument _ => exact ⟨h.1.enter rfl rfl _, h.2⟩
  | ordered scope r small =>
    have placed := h.1.placeOrder scope _ small r
    rw [s.placeOrder_orders] at placed ⊢
    exact ⟨placed, h.2⟩
  | timed p => exact h.calm (s.storeTiming_calm p)
  | split _ _ => exact h.removeAll.calm (.of_eq rfl rfl)
  | started =>
    refine ListsDistinct.slotStart ?_
    exact h.calm (.of_eq rfl rfl)
  | stopped => exact h.shutDown
  | _ => exact h.calm (.of_eq rfl rfl)

theorem ListsDistinct.mexTake {s : State} (h : ListsDistinct s) : ListsDistinct s.mexTake :=
  h.of_frame s.mexTake_frame rfl rfl

theorem ListsDistinct.grant {s : State} (h : ListsDistinct s) : ListsDistinct s.grant := by
  unfold State.grant
  split
  · unfold State.mexTold
    split
    · exact .empty rfl rfl
    all_goals
      refine ListsDistinct.mexTake ?_
      exact h.calm (.of_eq rfl rfl)
  · exact h.calm (.of_eq rfl s.evu.grantDue_kept.2)

theorem ListsDistinct.moves {s t : State} (moves : Moves s t) (h : ListsDistinct s) : ListsDistinct t := by
  cases moves with
  | powered => exact .empty rfl rfl
  | radio hd rx f => exact h.of_frame ((s.setHeadRx hd rx).takeRadio_frame hd f) rfl rfl
  | status hd rx busy =>
    refine ListsDistinct.calm ?_ (State.takeStatus_calm (s.setHeadRx hd rx) hd busy)
    exact h.calm (.of_eq rfl rfl)
  | ticked => exact h.tick
  | headLost hd => exact h.calm (s.loseHead_calm hd)
  | lapsed _ _ => exact h.calm (s.lapseZone_calm _ _)
  | expired e => exact (h.dropEntry e).raiseExpired e
  | flushed => exact h.calm s.flushExpiry_calm
  | summarised => exact h.calm s.summaryExpiry_calm
  | slotStarted c =>
    refine ListsDistinct.slotStart ?_
    exact h.calm (.of_eq rfl rfl)
  | frameTaken _ => exact h.of_frame s.takeFrame_frame rfl rfl
  | lookedUp _ => exact h.of_frame (s.answerLookup_frame _) rfl rfl
  | completed _ => exact (ListsDistinct.closed.decideFrame s _ _ _ _ h).calm (.of_eq rfl rfl)
  | visited i =>
    have stood : ListsDistinct (s.visit i) := h.calm (s.visit_calm i)
    exact stood.of_frame ((s.visit i).advanceSweep_frame i) rfl rfl
  | granted _ => exact h.grant
  | sent _ => exact h.of_frame (State.alarmSent_frame _ _) rfl rfl
  | offered rx payload =>
    refine ListsDistinct.mexTake ?_
    exact h.calm (.of_eq rfl rfl)
  | answered x tag code after effect => exact (h.effect effect).calm (.of_eq rfl (Evu.grantDue_kept _).2)
  | _ => exact h.calm (.of_eq rfl rfl)

/-! ## EVU's queues and contexts (R157, R162) -/

/-- EVU's queues but ALARM, and its open contexts, are within their depths. -/
def EvuBounded (s : State) : Prop := s.evu.Bounded

theorem EvuBounded.of_frame {s t u : State} (h : EvuBounded s) (frame : t = u) (evu : u.evu = s.evu) : EvuBounded t := by
  unfold EvuBounded at h ⊢
  rwa [frame, evu]

theorem EvuBounded.raise {s : State} (h : EvuBounded s) (b : EventBody) (z : Option ZoneNo) (a : Option Address)
    (k : Option DetectorKind) : EvuBounded (s.raise b z a k) :=
  Evu.take_bounded h _ _

theorem EvuBounded.closeContexts {s : State} (h : EvuBounded s) (c : CloseCause) : EvuBounded (s.closeContexts c) :=
  Evu.closeAll_bounded h.1 _ _

theorem EvuBounded.closeContext {s : State} (h : EvuBounded s) (c : CloseCause) (a : Address) :
    EvuBounded (s.closeContext c a) :=
  Evu.closeFor_bounded h _ _ _

theorem EvuBounded.zoneDecrement {s : State} (h : EvuBounded s) (z : ZoneNo) (a : Address) (k : Option DetectorKind) :
    EvuBounded (s.zoneDecrement z a k) := by
  unfold State.zoneDecrement
  dsimp only
  split
  · refine EvuBounded.raise ?_ _ _ _ _
    exact h
  · exact h

theorem EvuBounded.enterAlarm {s : State} (h : EvuBounded s) (z : ZoneNo) (a : Address) (k : DetectorKind)
    (c : AlarmCause) (p : Option ZoneNo) : EvuBounded (s.enterAlarm z a k c p) := by
  refine EvuBounded.raise (EvuBounded.closeContexts ?_ _) _ _ _ _
  exact h

theorem EvuBounded.enterVerify {s : State} (h : EvuBounded s) (z : ZoneNo) (a : Address) (k : DetectorKind) :
    EvuBounded (s.enterVerify z a k) := by
  refine EvuBounded.raise ?_ _ _ _ _
  exact h

theorem EvuBounded.zoneIntoAlarm {s : State} (h : EvuBounded s) (z : ZoneNo) (a : Address) (k : DetectorKind) :
    EvuBounded (s.zoneIntoAlarm z a k) := by
  rw [State.zoneIntoAlarm_cases]
  split
  · exact h.enterAlarm _ _ _ _ _
  · split
    · exact h.enterVerify _ _ _
    · exact h

theorem EvuBounded.confirmPartners {s : State} (h : EvuBounded s) (z : ZoneNo) (a : Address) (k : DetectorKind) :
    EvuBounded (s.confirmPartners z a k) := by
  refine foldl_keeps (fun s y bounded => ?_) _ h
  unfold State.confirmPartner
  split
  · exact bounded.enterAlarm _ _ _ _ _
  · exact bounded

theorem EvuBounded.transitionCounted {s : State} (h : EvuBounded s) (z : ZoneNo) (before : Level) :
    EvuBounded (s.transitionCounted z before) := by
  unfold EvuBounded
  rw [(s.transitionCounted_rest z before).1]
  exact h

theorem EvuBounded.zoneTransition {s : State} (h : EvuBounded s) (z : ZoneNo) (a : Address) (k : DetectorKind)
    (before after : Level) : EvuBounded (s.zoneTransition z a k before after) := by
  have counted := h.transitionCounted z before
  cases after with
  | normal => exact h.zoneDecrement _ _ _
  | pre =>
    rw [State.zoneTransition_pre]
    generalize s.transitionCounted z before = s1 at counted ⊢
    split
    · refine EvuBounded.raise ?_ _ _ _ _
      exact counted
    · exact counted
  | alarm =>
    rw [State.zoneTransition_alarm]
    generalize s.transitionCounted z before = s1 at counted ⊢
    split
    · exact (counted.zoneIntoAlarm z a k).confirmPartners z a k
    · exact counted

theorem EvuBounded.zoneStaysAlarm {s : State} (h : EvuBounded s) (z : ZoneNo) (a : Address) (k : DetectorKind) :
    EvuBounded (s.zoneStaysAlarm z a k) := by
  unfold State.zoneStaysAlarm
  dsimp only
  split
  · exact h.enterAlarm _ _ _ _ _
  · exact h

theorem EvuBounded.closed : ClosedUnderCompletion EvuBounded where
  raise _ _ _ _ _ _ h := h.raise _ _ _ _
  decrement _ _ _ _ h := h.zoneDecrement _ _ _
  transition _ _ _ _ _ _ h := h.zoneTransition _ _ _ _ _
  stays _ _ _ _ h := h.zoneStaysAlarm _ _ _
  close _ _ _ h := h.closeContext _ _
  report _ _ _ _ _ _ h := Evu.report_bounded h _ _ _ _ _ _
  missing _ _ h := h
  counters _ _ h := h
  queue _ _ _ _ _ h := h
  hand s hd x a q c h := h.of_frame (s.handAck_frame hd x a q c) rfl
  put _ _ _ h := h

theorem EvuBounded.lapseZone {s : State} (h : EvuBounded s) (z : ZoneNo) (c : LapseCause) :
    EvuBounded (s.lapseZone z c) := by
  refine EvuBounded.raise ?_ _ _ _ _
  exact h

theorem EvuBounded.loseHead {s : State} (h : EvuBounded s) (hd : HeadNo) : EvuBounded (s.loseHead hd) := by
  refine EvuBounded.raise ?_ _ _ _ _
  exact h

theorem EvuBounded.takeStatus {s : State} (h : EvuBounded s) (hd : HeadNo) (busy : Nat) :
    EvuBounded (s.takeStatus hd busy) := by
  have judged : ∀ t : State, EvuBounded t → EvuBounded (t.jamCheck hd busy) := by
    intro t bounded
    unfold State.jamCheck
    dsimp only
    split
    · exact bounded
    · split
      · exact bounded
      · refine EvuBounded.raise ?_ _ _ _ _
        exact bounded
  unfold State.takeStatus
  refine judged _ ?_
  split
  · exact h
  · refine EvuBounded.raise ?_ _ _ _ _
    exact h

theorem EvuBounded.raiseExpired {s : State} (h : EvuBounded s) (e : HeldEntry) : EvuBounded (s.raiseExpired e) := by
  refine EvuBounded.raise ?_ _ _ _ _
  exact h

theorem EvuBounded.expireHeld {s : State} (h : EvuBounded s) : EvuBounded s.expireHeld := by
  refine foldl_keeps (P := EvuBounded) (f := State.raiseExpired) (fun _ e bounded => bounded.raiseExpired e) _ ?_
  exact h

theorem EvuBounded.noticeZoneAndEvents {s : State} (h : EvuBounded s) (r : DetectorRecord) :
    EvuBounded (s.noticeZoneAndEvents r) := by
  unfold State.noticeZoneAndEvents
  dsimp only
  refine EvuBounded.closeContext ?_ _ _
  split
  · exact h.zoneDecrement _ _ _
  · exact h

theorem EvuBounded.removalNotices {s : State} (h : EvuBounded s) (r : DetectorRecord) :
    EvuBounded (s.removalNotices r) := by
  refine foldl_keeps (P := EvuBounded) (f := State.raiseWithdrawn r.zone) (fun s e bounded => ?_) _ ?_
  · refine EvuBounded.raise ?_ _ _ _ _
    exact bounded
  · exact h.noticeZoneAndEvents r

theorem EvuBounded.uncountMissing {s : State} (h : EvuBounded s) (r : DetectorRecord) :
    EvuBounded (s.uncountMissing r) :=
  h.of_frame (s.uncountMissing_frame r) rfl

theorem EvuBounded.removeAll {s : State} (h : EvuBounded s) : EvuBounded s.removeAll :=
  foldl_keeps (P := EvuBounded) (f := State.removeOne) (fun _ r bounded => (bounded.uncountMissing r).removalNotices r)
    s.dtu.records h

theorem EvuBounded.withdrawRecord {s : State} (h : EvuBounded s) (i : Nat) (r : DetectorRecord) :
    EvuBounded (s.withdrawRecord i r) := by
  refine EvuBounded.removalNotices (EvuBounded.uncountMissing ?_ r) r
  exact h

theorem EvuBounded.amendMove {s : State} (h : EvuBounded s) (c : Configuration) (fresh : Bool) (i : Nat)
    (old : DetectorRecord) (n : Nat) (rest : List Nat) : EvuBounded (s.amendMove c fresh i old n rest) := by
  have moved : EvuBounded (State.amendMissing
      (s.setDtu (s.dtu.move (s.bucketOf c.address) i n rest (s.amendedRecord old c fresh))) old fresh) :=
    h.of_frame (State.amendMissing_frame _ old fresh) rfl
  unfold State.amendMove
  dsimp only
  split
  · exact moved.noticeZoneAndEvents old
  · exact moved

theorem EvuBounded.disableRecord {s : State} (h : EvuBounded s) (i : Nat) (r : DetectorRecord) :
    EvuBounded (s.disableRecord i r) := by
  unfold State.disableRecord
  dsimp only
  split
  · refine EvuBounded.zoneDecrement ?_ _ _ _
    exact h
  · exact h

theorem EvuBounded.enableZone {s : State} (h : EvuBounded s) (z : ZoneNo) : EvuBounded (s.enableZone z) := by
  unfold State.enableZone
  dsimp only
  split
  · refine EvuBounded.raise ?_ _ _ _ _
    exact h
  · exact h

theorem EvuBounded.flushExpiry {s : State} (h : EvuBounded s) : EvuBounded s.flushExpiry := h.closeContexts .flush

theorem EvuBounded.summaryExpiry {s : State} (h : EvuBounded s) : EvuBounded s.summaryExpiry :=
  Evu.placeSummary_bounded h s.zoneSummary

theorem EvuBounded.takeDueExpiries {s : State} (h : EvuBounded s) : EvuBounded s.takeDueExpiries := by
  have swept : EvuBounded s.takeDueSweep := h.of_frame s.takeDueSweep_frame rfl
  unfold State.takeDueExpiries
  dsimp only
  generalize s.takeDueSweep = s1 at swept ⊢
  have flushed : EvuBounded (if s1.evu.flushTimer = 0 then s1.flushExpiry else s1) := by
    split
    · exact swept.flushExpiry
    · exact swept
  generalize (if s1.evu.flushTimer = 0 then s1.flushExpiry else s1) = s2 at flushed ⊢
  split
  · exact flushed.summaryExpiry
  · exact flushed

theorem EvuBounded.storeTiming {s : State} (h : EvuBounded s) (p : PageTiming) : EvuBounded (s.storeTiming p) := by
  have taken := h.takeDueExpiries
  unfold State.storeTiming
  dsimp only
  split
  · exact taken
  · exact taken

theorem EvuBounded.heartbeat {s : State} (h : EvuBounded s) (hd : HeadNo) : EvuBounded (s.heartbeat hd) := by
  unfold State.heartbeat
  dsimp only
  split
  · refine EvuBounded.loseHead ?_ _
    exact h
  · exact h

theorem EvuBounded.lapseIfReached {s : State} (h : EvuBounded s) (z : ZoneNo) : EvuBounded (s.lapseIfReached z) := by
  unfold State.lapseIfReached
  split
  · exact h.lapseZone _ _
  · exact h

theorem EvuBounded.lapseAtStop {s : State} (h : EvuBounded s) (z : ZoneNo) : EvuBounded (s.lapseAtStop z) := by
  unfold State.lapseAtStop
  split
  · exact h.lapseZone _ _
  · exact h

theorem EvuBounded.tick {s : State} (h : EvuBounded s) : EvuBounded s.takeDueExpiries.advanceClock.deliverTick := by
  have taken : EvuBounded s.takeDueExpiries.advanceClock := h.takeDueExpiries
  have beaten := foldl_keeps (P := EvuBounded) (fun _ hd bounded => bounded.heartbeat hd) allHeads taken
  have lapsed := foldl_keeps (P := EvuBounded) (fun _ z bounded => bounded.lapseIfReached z) allZones beaten
  unfold State.deliverTick
  generalize allZones.foldl State.lapseIfReached _ = s1 at lapsed ⊢
  have expired := lapsed.expireHeld
  generalize s1.expireHeld = s2 at expired ⊢
  exact expired

theorem EvuBounded.shutDown {s : State} (h : EvuBounded s) : EvuBounded s.shutDown := by
  have swept : EvuBounded s.takeDueSweep := h.of_frame s.takeDueSweep_frame rfl
  unfold State.shutDown
  generalize s.takeDueSweep = s1 at swept ⊢
  have abandoned : EvuBounded (State.abandonFrame { s1 with mode := .loading }) :=
    swept.of_frame (State.abandonFrame_frame _) rfl
  generalize State.abandonFrame _ = s2 at abandoned ⊢
  have emptied : EvuBounded s2.emptyLanes := abandoned.of_frame s2.emptyLanes_frame rfl
  generalize s2.emptyLanes = s3 at emptied ⊢
  have closed : EvuBounded (s3.stopTimers.closeContexts .stop) := by
    refine EvuBounded.closeContexts ?_ _
    exact emptied
  generalize s3.stopTimers.closeContexts .stop = s4 at closed ⊢
  exact foldl_keeps (P := EvuBounded) (fun _ z bounded => bounded.lapseAtStop z) allZones closed

theorem EvuBounded.effect {s t : State} (effect : CommandEffect s t) (h : EvuBounded s) : EvuBounded t := by
  cases effect with
  | amended fresh _ _ _ => exact h.amendMove _ fresh _ _ _ _
  | withdrawn _ => exact h.withdrawRecord _ _
  | cleared => exact h.removeAll
  | disabled _ _ => exact h.disableRecord _ _
  | headReset hd => exact h.of_frame (s.resetHead_frame hd) rfl
  | zoneEnabled _ => exact h.enableZone _
  | ordered scope r _ => exact h.of_frame (s.placeOrder_orders scope _ r) rfl
  | timed p => exact h.storeTiming p
  | split _ _ => exact h.removeAll
  | started => exact h.of_frame s.startUp_frame rfl
  | stopped => exact h.shutDown
  | _ => exact h

theorem EvuBounded.empty {s : State} {filters : Vector Filter 16} {timing : PageTiming} {tx : Option PanelTransmission}
    (evu : s.evu = .cleared filters timing tx) : EvuBounded s := by
  unfold EvuBounded Evu.Bounded Evu.QueuesBounded
  rw [evu]
  exact ⟨⟨Nat.zero_le _, Nat.zero_le _, Nat.zero_le _⟩, Nat.zero_le _⟩

theorem EvuBounded.mexTake {s : State} (h : EvuBounded s) : EvuBounded s.mexTake := h.of_frame s.mexTake_frame rfl

theorem EvuBounded.alarmSent {s : State} (h : EvuBounded s) (z : Option ZoneNo) : EvuBounded (s.alarmSent z) :=
  h.of_frame (s.alarmSent_frame z) rfl

theorem Evu.grantDue_within {e : Evu} (h : e.Bounded) : e.grantDue.Bounded :=
  ⟨e.grantDue_bounded h.1, e.grantDue_kept.2 ▸ h.2⟩

theorem EvuBounded.grant {s : State} (h : EvuBounded s) : EvuBounded s.grant := by
  unfold State.grant
  split
  · unfold State.mexTold
    split
    · exact .empty rfl
    all_goals
      refine EvuBounded.mexTake ?_
      exact h
  · exact Evu.grantDue_within h

theorem EvuBounded.visit {s : State} (h : EvuBounded s) (i : Nat) : EvuBounded (s.visit i) := by
  unfold State.visit
  split
  · exact h
  · split
    · refine EvuBounded.raise ?_ _ _ _ _
      exact h
    · exact h

theorem EvuBounded.moves {s t : State} (moves : Moves s t) (h : EvuBounded s) : EvuBounded t := by
  cases moves with
  | powered => exact .empty rfl
  | radio hd rx f => exact h.of_frame ((s.setHeadRx hd rx).takeRadio_frame hd f) rfl
  | status hd rx busy =>
    refine EvuBounded.takeStatus ?_ hd busy
    exact h
  | ticked => exact h.tick
  | headLost hd => exact h.loseHead hd
  | lapsed _ _ => exact h.lapseZone _ _
  | expired e =>
    refine EvuBounded.raiseExpired ?_ e
    exact h
  | flushed => exact h.flushExpiry
  | summarised => exact h.summaryExpiry
  | slotStarted c => exact h.of_frame (State.slotStart_frame { s with clock := c }) rfl
  | frameTaken _ => exact h.of_frame s.takeFrame_frame rfl
  | lookedUp _ => exact h.of_frame (s.answerLookup_frame _) rfl
  | completed _ => exact EvuBounded.closed.decideFrame s _ _ _ _ h
  | visited i => exact (h.visit i).of_frame ((s.visit i).advanceSweep_frame i) rfl
  | granted _ => exact h.grant
  | sent _ =>
    refine EvuBounded.alarmSent ?_ _
    exact h
  | offered rx payload =>
    refine EvuBounded.mexTake ?_
    exact h
  | answered x tag code after effect => exact Evu.placeReply_bounded (h.effect effect) _
  | _ => exact h

end Sys2Proof.Machine
end

