-- ==== Sys2Proof/Proofs/FifoInvariant.lean ====
section
/-! The depths of HCQ's queue and table, of the management FIFO and of the transmit FIFOs (R44, R134, R145, R172), and all
depths together. -/

namespace Sys2Proof.Machine

/-! ## HCQ (R134, R145) -/

/-- HCQ holds no entry more, and the group orders stand. -/
def Hcq.NoLonger (q r : Hcq) : Prop := r.entries.length ≤ q.entries.length ∧ r.orders = q.orders

theorem Hcq.NoLonger.refl (q : Hcq) : q.NoLonger q := ⟨Nat.le_refl _, rfl⟩

theorem Hcq.NoLonger.trans {p q r : Hcq} (h : p.NoLonger q) (k : q.NoLonger r) : p.NoLonger r :=
  ⟨Nat.le_trans k.1 h.1, k.2.trans h.2⟩

theorem Hcq.notSent_noLonger (q : Hcq) (a : Address) (n : Byte) : q.NoLonger (q.notSent a n) := by
  unfold Hcq.notSent
  split
  · exact ⟨Nat.le_of_eq (modifyFirst_length _ _ _), rfl⟩
  · exact .refl q

theorem Hcq.toldNotSent_noLonger (q : Hcq) (l : List (Address × Option Attachment)) : q.NoLonger (q.toldNotSent l) := by
  obtain ⟨orders, numbers⟩ := Hcq.toldNotSent_keeps l q
  have lengths := congrArg List.length numbers
  rw [List.length_map, List.length_map] at lengths
  exact ⟨Nat.le_of_eq lengths, orders⟩

/-- HCQ's entries are at most 64 and its group orders at most 8. -/
def HeldBounded (s : State) : Prop := s.hcq.entries.length ≤ 64 ∧ s.hcq.orders.length ≤ 8

theorem HeldBounded.noLonger {s t : State} (h : HeldBounded s) (k : s.hcq.NoLonger t.hcq) : HeldBounded t :=
  ⟨Nat.le_trans k.1 h.1, k.2 ▸ h.2⟩

theorem HeldBounded.of_frame {s t u : State} (h : HeldBounded s) (frame : t = u) (hcq : u.hcq = s.hcq) :
    HeldBounded t := by
  unfold HeldBounded at h ⊢
  rwa [frame, hcq]

theorem State.notSent_noLonger (s : State) (a : Address) (held : Option Attachment) :
    s.hcq.NoLonger (s.notSent a held).hcq := by
  unfold State.notSent
  split
  · exact .refl _
  · exact s.hcq.notSent_noLonger _ _

theorem State.handAck_noLonger (s : State) (h : HeadNo) (x : SlotStamp) (a : Address) (q : SeqNo)
    (held : Option Attachment) : s.hcq.NoLonger (s.handAck h x a q held).hcq := by
  unfold State.handAck
  split
  · unfold State.handFrame
    split
    · exact .refl _
    · exact State.notSent_noLonger (s.modifyHead h _) a held
  · exact State.notSent_noLonger (s.modifyHead h _) a held

theorem HeldBounded.closed : ClosedUnderCompletion HeldBounded where
  raise _ _ _ _ _ _ h := h
  decrement s z a k h := h.of_frame (s.zoneDecrement_frame z a k) rfl
  transition s z a k b c h := h.of_frame (s.zoneTransition_frame z a k b c) rfl
  stays s z a k h := h.of_frame (s.zoneStaysAlarm_frame z a k) rfl
  close _ _ _ h := h
  report _ _ _ _ _ _ h := h
  missing _ _ h := h
  counters _ _ h := h
  queue _ _ entries orders _ h := h.noLonger ⟨entries, orders⟩
  hand s hd x a q held h := h.noLonger (s.handAck_noLonger hd x a q held)
  put _ _ _ h := h

theorem HeldBounded.slotStart {s : State} (h : HeldBounded s) : HeldBounded s.slotStart := by
  refine h.noLonger ?_
  rw [s.slotStart_spec.1]
  exact s.hcq.toldNotSent_noLonger _

theorem HeldBounded.tellsNotSent {s : State} (h : HeldBounded s) (l : List (Address × Option Attachment)) :
    HeldBounded (l.foldl State.tellNotSent s) := by
  refine h.noLonger ?_
  rw [State.tellsNotSent_hcq]
  exact s.hcq.toldNotSent_noLonger _

theorem HeldBounded.expireHeld {s : State} (h : HeldBounded s) : HeldBounded s.expireHeld := by
  unfold State.expireHeld
  rw [State.expiredAll_spec]
  exact h.noLonger (t := { s with hcq := _ }) ⟨List.length_filter_le _ _, rfl⟩

theorem State.removeOne_noLonger (s : State) (r : DetectorRecord) : s.hcq.NoLonger (s.removeOne r).hcq := by
  obtain ⟨-, -, -, hcq, -⟩ := State.removeOne_removed s r
  rw [hcq]
  exact ⟨List.length_filter_le _ _, rfl⟩

theorem HeldBounded.removeAll {s : State} (h : HeldBounded s) : HeldBounded s.removeAll :=
  foldl_keeps (P := HeldBounded) (f := State.removeOne) (fun s r held => held.noLonger (s.removeOne_noLonger r))
    s.dtu.records h

theorem HeldBounded.withdrawRecord {s : State} (h : HeldBounded s) (i : Nat) (r : DetectorRecord) :
    HeldBounded (s.withdrawRecord i r) :=
  h.noLonger (State.removeOne_noLonger (s.setDtu (s.dtu.leave (s.bucketOf r.address) i)) r)

theorem State.placeOrder_length (s : State) (scope : Scope) (pattern : Nat) (r : Result)
    (h : s.hcq.orders.length ≤ 8) : (s.placeOrder scope pattern r).state.hcq.orders.length ≤ 8 := by
  unfold State.placeOrder
  dsimp only
  split
  · split
    · exact Nat.le_trans (List.length_filter_le _ _) h
    · split
      · exact h
      · exact (modifyFirst_length _ _ _).symm ▸ h
  · split
    · exact h
    · split
      · next room =>
        show (s.hcq.orders ++ [_]).length ≤ 8
        rw [List.length_append, List.length_singleton]
        exact room
      · exact h

theorem HeldBounded.emptyLanes {s : State} (h : HeldBounded s) : HeldBounded s.emptyLanes := by
  unfold State.emptyLanes
  refine foldl_keeps (P := HeldBounded) (f := State.emptyFifo) (fun s hd held => ?_) allHeads ?_
  · refine HeldBounded.tellsNotSent ?_ _
    exact held
  · exact h

theorem HeldBounded.shutDown {s : State} (h : HeldBounded s) : HeldBounded s.shutDown := by
  have swept : HeldBounded s.takeDueSweep := h.of_frame s.takeDueSweep_frame rfl
  unfold State.shutDown
  generalize s.takeDueSweep = s1 at swept ⊢
  have abandoned : HeldBounded (State.abandonFrame { s1 with mode := .loading }) :=
    swept.of_frame (State.abandonFrame_frame _) rfl
  generalize State.abandonFrame _ = s2 at abandoned ⊢
  have emptied := abandoned.emptyLanes
  generalize s2.emptyLanes = s3 at emptied ⊢
  have closed : HeldBounded (s3.stopTimers.closeContexts .stop) := emptied
  generalize s3.stopTimers.closeContexts .stop = s4 at closed ⊢
  exact closed.of_frame (State.stopLapses_frame s4 allZones) rfl

theorem HeldBounded.tick {s : State} (h : HeldBounded s) : HeldBounded s.takeDueExpiries.advanceClock.deliverTick := by
  have taken : HeldBounded s.takeDueExpiries := h.of_frame s.takeDueExpiries_frame rfl
  generalize s.takeDueExpiries = s1 at taken ⊢
  have advanced : HeldBounded s1.advanceClock := taken
  generalize s1.advanceClock = s2 at advanced ⊢
  have beaten : HeldBounded (allHeads.foldl State.heartbeat s2) :=
    advanced.of_frame (State.heartbeats_frame s2 allHeads) rfl
  unfold State.deliverTick
  generalize allHeads.foldl State.heartbeat s2 = s3 at beaten ⊢
  have lapsed : HeldBounded (allZones.foldl State.lapseIfReached s3) :=
    beaten.of_frame (State.lapses_frame s3 allZones) rfl
  generalize allZones.foldl State.lapseIfReached s3 = s4 at lapsed ⊢
  have expired := lapsed.expireHeld
  generalize s4.expireHeld = s5 at expired ⊢
  exact expired

theorem HeldBounded.effect {s t : State} (effect : CommandEffect s t) (h : HeldBounded s) : HeldBounded t := by
  cases effect with
  | amended fresh _ _ _ => exact h.of_frame (s.amendMove_frame _ fresh _ _ _ _) rfl
  | withdrawn _ => exact h.withdrawRecord _ _
  | cleared => exact h.removeAll
  | disabled _ _ => exact h.of_frame (s.disableRecord_frame _ _) rfl
  | headReset hd =>
    refine HeldBounded.tellsNotSent ?_ (acksOf (s.head hd).txFifo)
    exact h
  | zoneEnabled _ => exact h.of_frame (s.enableZone_frame _) rfl
  | held a code argument room =>
    refine ⟨?_, h.2⟩
    show (s.hcq.entries ++ [_]).length ≤ 64
    rw [List.length_append, List.length_singleton]
    exact room
  | ordered scope r _ =>
    rw [s.placeOrder_orders]
    exact ⟨h.1, s.placeOrder_length scope _ r h.2⟩
  | timed p => exact h.of_frame (s.storeTiming_frame p) rfl
  | split _ _ => exact h.removeAll
  | started =>
    refine HeldBounded.slotStart ?_
    exact h
  | stopped => exact h.shutDown
  | _ => exact h

theorem HeldBounded.mexTake {s : State} (h : HeldBounded s) : HeldBounded s.mexTake := h.of_frame s.mexTake_frame rfl

theorem HeldBounded.empty {s : State} (hcq : s.hcq = .cleared) : HeldBounded s := by
  unfold HeldBounded
  rw [hcq]
  exact ⟨Nat.zero_le _, Nat.zero_le _⟩

theorem HeldBounded.grant {s : State} (h : HeldBounded s) : HeldBounded s.grant := by
  unfold State.grant
  split
  · unfold State.mexTold
    split
    · exact .empty rfl
    all_goals
      refine HeldBounded.mexTake ?_
      exact h
  · exact h

theorem HeldBounded.moves {s t : State} (moves : Moves s t) (h : HeldBounded s) : HeldBounded t := by
  cases moves with
  | powered => exact .empty rfl
  | radio hd rx f => exact h.of_frame ((s.setHeadRx hd rx).takeRadio_frame hd f) rfl
  | status hd rx busy => exact h.of_frame (State.takeStatus_frame (s.setHeadRx hd rx) hd busy) rfl
  | ticked => exact h.tick
  | expired e => exact h.noLonger ⟨List.erase_sublist.length_le, rfl⟩
  | slotStarted c =>
    refine HeldBounded.slotStart ?_
    exact h
  | frameTaken _ => exact h.of_frame s.takeFrame_frame rfl
  | lookedUp _ => exact h.of_frame (s.answerLookup_frame _) rfl
  | completed _ => exact HeldBounded.closed.decideFrame s _ _ _ _ h
  | visited i =>
    have stood : HeldBounded (s.visit i) := h.of_frame (s.visit_frame i) rfl
    exact stood.of_frame ((s.visit i).advanceSweep_frame i) rfl
  | granted _ => exact h.grant
  | sent _ =>
    refine HeldBounded.of_frame ?_ (State.alarmSent_frame _ _) rfl
    exact h
  | offered rx payload =>
    refine HeldBounded.mexTake ?_
    exact h
  | answered x tag code after effect =>
    have effected := h.effect effect
    exact effected
  | _ => exact h

/-! ## Transmit FIFOs and the management FIFO (R44, R172) -/

/-- Every transmit FIFO holds at most 16 frames and the management FIFO at most 4. -/
def FifosBounded (s : State) : Prop := (∀ h : HeadNo, (s.head h).txFifo.length ≤ 16) ∧ s.pli.fifo.length ≤ 4

theorem FifosBounded.same {s t : State} (h : FifosBounded s) (heads : t.heads = s.heads) (pli : t.pli = s.pli) :
    FifosBounded t := by
  unfold FifosBounded State.head at h ⊢
  rwa [heads, pli]

theorem FifosBounded.of_frame {s t u : State} (h : FifosBounded s) (frame : t = u) (heads : u.heads = s.heads)
    (pli : u.pli = s.pli) : FifosBounded t :=
  frame ▸ h.same heads pli

theorem FifosBounded.modifyHead {s : State} (h : FifosBounded s) (hd : HeadNo) {f : Head → Head}
    (short : (f (s.head hd)).txFifo.length ≤ 16) : FifosBounded (s.modifyHead hd f) := by
  refine ⟨fun k => ?_, h.2⟩
  rw [State.head_modifyHead]
  split
  · exact short
  · exact h.1 k

theorem FifosBounded.countHead {s : State} (h : FifosBounded s) (hd : HeadNo) (f : HeadCounters → HeadCounters) :
    FifosBounded (s.countHead hd f) :=
  FifosBounded.modifyHead h hd (f := fun v => { v with counters := f v.counters }) (h.1 hd)

theorem FifosBounded.setHeadRx {s : State} (h : FifosBounded s) (hd : HeadNo) (rx : HeadReceiver) :
    FifosBounded (s.setHeadRx hd rx) :=
  FifosBounded.modifyHead h hd (f := fun v => { v with rx := rx }) (h.1 hd)

theorem FifosBounded.raise {s : State} (h : FifosBounded s) (b : EventBody) (z : Option ZoneNo) (a : Option Address)
    (k : Option DetectorKind) : FifosBounded (s.raise b z a k) := h

theorem FifosBounded.tellsNotSent {s : State} (h : FifosBounded s) (l : List (Address × Option Attachment)) :
    FifosBounded (l.foldl State.tellNotSent s) := by
  have told := (State.tellsNotSent_keeps l s).2
  have pli := (State.tellsNotSent_frame s l).pli_eq
  unfold FifosBounded
  rw [pli]
  exact ⟨fun k => (told k).symm ▸ h.1 k, h.2⟩

theorem FifosBounded.handFrame {s : State} (h : FifosBounded s) (hd : HeadNo) (f : HeadFrame) :
    FifosBounded (s.handFrame hd f) := by
  have pli := (s.handFrame_frame hd f).pli_eq
  unfold FifosBounded
  rw [pli]
  exact ⟨fun k => s.handFrame_depth hd f k (h.1 k), h.2⟩

theorem FifosBounded.lateAck {s : State} (h : FifosBounded s) (hd : HeadNo) (a : Address × Option Attachment) :
    FifosBounded (State.lateAck hd s a) := by
  refine FifosBounded.tellsNotSent ?_ [a]
  exact h.modifyHead hd (h.1 hd)

theorem FifosBounded.handAck {s : State} (h : FifosBounded s) (hd : HeadNo) (x : SlotStamp) (a : Address) (q : SeqNo)
    (held : Option Attachment) : FifosBounded (s.handAck hd x a q held) := by
  unfold State.handAck
  split
  · exact h.handFrame _ _
  · exact h.lateAck _ _

theorem FifosBounded.closed : ClosedUnderCompletion FifosBounded where
  raise _ _ _ _ _ _ h := h
  decrement s z a k h := h.of_frame (s.zoneDecrement_frame z a k) rfl rfl
  transition s z a k b c h := h.of_frame (s.zoneTransition_frame z a k b c) rfl rfl
  stays s z a k h := h.of_frame (s.zoneStaysAlarm_frame z a k) rfl rfl
  close _ _ _ h := h
  report _ _ _ _ _ _ h := h
  missing _ _ h := h
  counters _ _ h := h
  queue _ _ _ _ _ h := h
  hand _ _ _ _ _ _ h := h.handAck _ _ _ _ _
  put _ _ _ h := h

theorem FifosBounded.purgeAcks {s : State} (h : FifosBounded s) (hd : HeadNo) : FifosBounded (s.purgeAcks hd) := by
  refine foldl_keeps (P := FifosBounded) (f := State.lateAck hd) (fun _ a held => held.lateAck hd a) _ ?_
  exact h.modifyHead hd (Nat.le_trans (List.length_filter_le _ _) (h.1 hd))

theorem FifosBounded.tuneHead {s : State} (h : FifosBounded s) (hd : HeadNo) : FifosBounded (s.tuneHead hd) := by
  unfold State.tuneHead
  split
  · exact h.handFrame _ _
  · exact h

theorem FifosBounded.beaconHead {s : State} (h : FifosBounded s) (hd : HeadNo) : FifosBounded (s.beaconHead hd) := by
  unfold State.beaconHead
  split
  · exact h.handFrame _ _
  · exact h

theorem FifosBounded.slotStart {s : State} (h : FifosBounded s) : FifosBounded s.slotStart := by
  have purged := foldl_keeps (P := FifosBounded) (fun _ hd held => held.purgeAcks hd) allHeads h
  have tuned := foldl_keeps (P := FifosBounded) (fun _ hd held => held.tuneHead hd) allHeads purged
  unfold State.slotStart
  dsimp only
  generalize allHeads.foldl State.tuneHead _ = s1 at tuned ⊢
  split
  · exact foldl_keeps (P := FifosBounded) (fun _ hd held => held.beaconHead hd) allHeads tuned
  · exact tuned

theorem FifosBounded.loseHead {s : State} (h : FifosBounded s) (hd : HeadNo) : FifosBounded (s.loseHead hd) := by
  refine FifosBounded.raise (FifosBounded.modifyHead h hd ?_) _ _ _ _
  exact h.1 hd

theorem FifosBounded.heartbeat {s : State} (h : FifosBounded s) (hd : HeadNo) : FifosBounded (s.heartbeat hd) := by
  have counted := h.modifyHead hd (f := fun v => { v with
    missed := if v.link = .up ∧ ¬ v.statusSeen then v.missed + 1 else v.missed, statusSeen := false }) (h.1 hd)
  unfold State.heartbeat
  dsimp only
  generalize s.modifyHead hd _ = s1 at counted ⊢
  split
  · exact counted.loseHead hd
  · exact counted

theorem FifosBounded.tick {s : State} (h : FifosBounded s) : FifosBounded s.takeDueExpiries.advanceClock.deliverTick := by
  have taken : FifosBounded s.takeDueExpiries := h.of_frame s.takeDueExpiries_frame rfl rfl
  generalize s.takeDueExpiries = s1 at taken ⊢
  have advanced : FifosBounded s1.advanceClock := taken
  generalize s1.advanceClock = s2 at advanced ⊢
  have beaten := foldl_keeps (P := FifosBounded) (fun _ hd held => held.heartbeat hd) allHeads advanced
  unfold State.deliverTick
  generalize allHeads.foldl State.heartbeat s2 = s3 at beaten ⊢
  have lapsed : FifosBounded (allZones.foldl State.lapseIfReached s3) :=
    beaten.of_frame (State.lapses_frame s3 allZones) rfl rfl
  generalize allZones.foldl State.lapseIfReached s3 = s4 at lapsed ⊢
  have expired : FifosBounded s4.expireHeld := lapsed.of_frame s4.expireHeld_frame rfl rfl
  generalize s4.expireHeld = s5 at expired ⊢
  exact expired

theorem FifosBounded.takeStatus {s : State} (h : FifosBounded s) (hd : HeadNo) (busy : Nat) :
    FifosBounded (s.takeStatus hd busy) := by
  have judged : ∀ t : State, FifosBounded t → FifosBounded (t.jamCheck hd busy) := by
    intro t bounded
    unfold State.jamCheck
    dsimp only
    split
    · refine bounded.modifyHead hd ?_
      exact bounded.1 hd
    · split
      · refine bounded.modifyHead hd ?_
        exact bounded.1 hd
      · refine FifosBounded.raise (bounded.modifyHead hd ?_) _ _ _ _
        exact bounded.1 hd
  unfold State.takeStatus
  refine judged _ ?_
  split
  · refine h.modifyHead hd ?_
    exact h.1 hd
  · refine FifosBounded.raise (h.modifyHead hd ?_) _ _ _ _
    exact h.1 hd

theorem FifosBounded.placeFrame {s : State} (h : FifosBounded s) (hd : HeadNo) (f : RadioFrame) :
    FifosBounded (s.placeFrame hd f) := by
  unfold State.placeFrame
  dsimp only
  split
  · split
    · refine FifosBounded.countHead ?_ hd _
      exact h
    · exact h.countHead hd _
  · split
    · refine FifosBounded.countHead ?_ hd _
      exact h
    · exact h.countHead hd _

theorem FifosBounded.takeRadio {s : State} (h : FifosBounded s) (hd : HeadNo) (f : RadioFrame) :
    FifosBounded (s.takeRadio hd f) := by
  unfold State.takeRadio
  split
  · exact h.countHead hd _
  · split
    · exact h.countHead hd _
    · split
      · exact h.countHead hd _
      · split
        · exact h.countHead hd _
        · exact h.placeFrame hd f

theorem FifosBounded.emptyLanes {s : State} (h : FifosBounded s) : FifosBounded s.emptyLanes := by
  unfold State.emptyLanes
  refine foldl_keeps (P := FifosBounded) (f := State.emptyFifo) (fun s hd held => ?_) allHeads ?_
  · exact (held.modifyHead hd (Nat.zero_le _)).tellsNotSent _
  · exact h

theorem FifosBounded.shutDown {s : State} (h : FifosBounded s) : FifosBounded s.shutDown := by
  have swept : FifosBounded s.takeDueSweep := h.of_frame s.takeDueSweep_frame rfl rfl
  unfold State.shutDown
  generalize s.takeDueSweep = s1 at swept ⊢
  have abandoned : FifosBounded (State.abandonFrame { s1 with mode := .loading }) :=
    swept.of_frame (State.abandonFrame_frame _) rfl rfl
  generalize State.abandonFrame _ = s2 at abandoned ⊢
  have emptied := abandoned.emptyLanes
  generalize s2.emptyLanes = s3 at emptied ⊢
  have closed : FifosBounded (s3.stopTimers.closeContexts .stop) := emptied
  generalize s3.stopTimers.closeContexts .stop = s4 at closed ⊢
  exact closed.of_frame (State.stopLapses_frame s4 allZones) rfl rfl

theorem FifosBounded.resetHead {s : State} (h : FifosBounded s) (hd : HeadNo) : FifosBounded (s.resetHead hd) := by
  unfold State.resetHead
  dsimp only
  refine FifosBounded.modifyHead (FifosBounded.tellsNotSent ?_ _) hd (Nat.zero_le _)
  exact h

theorem FifosBounded.effect {s t : State} (effect : CommandEffect s t) (h : FifosBounded s) : FifosBounded t := by
  cases effect with
  | amended fresh _ _ _ => exact h.of_frame (s.amendMove_frame _ fresh _ _ _ _) rfl rfl
  | withdrawn _ => exact h.of_frame (s.withdrawRecord_frame _ _) rfl rfl
  | cleared =>
    have removed : FifosBounded s.removeAll := h.of_frame s.removeAll_onlyRemoval rfl rfl
    exact removed
  | disabled _ _ => exact h.of_frame (s.disableRecord_frame _ _) rfl rfl
  | headReset hd => exact h.resetHead hd
  | zoneEnabled _ => exact h.of_frame (s.enableZone_frame _) rfl rfl
  | ordered scope r _ => exact h.of_frame (s.placeOrder_orders scope _ r) rfl rfl
  | timed p => exact h.of_frame (s.storeTiming_frame p) rfl rfl
  | split _ _ => exact h.of_frame (s.storeMemory_frame _) rfl rfl
  | started =>
    refine FifosBounded.slotStart ?_
    exact h
  | stopped => exact h.shutDown
  | _ => exact h

theorem FifosBounded.mexTake {s : State} (h : FifosBounded s) : FifosBounded s.mexTake := by
  unfold State.mexTake
  split
  · next fifo =>
    refine ⟨h.1, Nat.le_trans ?_ h.2⟩
    rw [fifo]
    exact Nat.le_succ _
  · exact h

theorem Pli.offer_length {p : Pli} (h : p.fifo.length ≤ 4) (payload : List Byte) : (p.offer payload).fifo.length ≤ 4 := by
  unfold Pli.offer
  split
  · next room =>
    show (p.fifo ++ [payload]).length ≤ 4
    rw [List.length_append, List.length_singleton]
    exact room
  · exact h

theorem FifosBounded.restartClear {s : State} : FifosBounded s.restartClear := by
  refine ⟨fun h => ?_, Nat.zero_le _⟩
  show ((mapVector Head.restarted s.heads).get h).txFifo.length ≤ 16
  rw [mapVector_get]
  exact Nat.zero_le _

theorem FifosBounded.reset : FifosBounded State.reset := by
  refine ⟨fun h => ?_, Nat.zero_le _⟩
  have powered : (Vector.replicate 4 Head.powerOn).get h = Head.powerOn := Vector.getElem_replicate h.isLt
  show ((Vector.replicate 4 Head.powerOn).get h).txFifo.length ≤ 16
  rw [powered]
  exact Nat.zero_le _

theorem FifosBounded.grant {s : State} (h : FifosBounded s) : FifosBounded s.grant := by
  unfold State.grant
  split
  · unfold State.mexTold
    split
    · exact FifosBounded.restartClear
    all_goals
      refine FifosBounded.mexTake ?_
      exact h
  · exact h

theorem FifosBounded.moves {s t : State} (moves : Moves s t) (h : FifosBounded s) : FifosBounded t := by
  cases moves with
  | powered => exact FifosBounded.reset
  | radio hd rx f => exact (h.setHeadRx hd rx).takeRadio hd f
  | status hd rx busy => exact (h.setHeadRx hd rx).takeStatus hd busy
  | headDiscard hd rx f => exact (h.setHeadRx hd rx).countHead hd f
  | @headSends hd f rest waits =>
    refine h.modifyHead hd (Nat.le_trans (m := (s.head hd).txFifo.length) ?_ (h.1 hd))
    rw [waits]
    exact Nat.le_succ _
  | headSent hd =>
    refine h.modifyHead hd ?_
    exact h.1 hd
  | ticked => exact h.tick
  | headLost hd => exact h.loseHead hd
  | slotStarted c =>
    refine FifosBounded.slotStart ?_
    exact h
  | frameTaken _ => exact h.of_frame s.takeFrame_frame rfl rfl
  | lookedUp _ => exact h.of_frame (s.answerLookup_frame _) rfl rfl
  | completed _ => exact FifosBounded.closed.decideFrame s _ _ _ _ h
  | visited i =>
    have stood : FifosBounded (s.visit i) := h.of_frame (s.visit_frame i) rfl rfl
    exact stood.of_frame ((s.visit i).advanceSweep_frame i) rfl rfl
  | granted _ => exact h.grant
  | sent _ =>
    refine FifosBounded.of_frame ?_ (State.alarmSent_frame _ _) rfl rfl
    exact h
  | offered rx payload => exact FifosBounded.mexTake ⟨h.1, Pli.offer_length (p := { s.pli with rx := rx }) h.2 payload⟩
  | answered x tag code after effect =>
    have effected := h.effect effect
    exact effected
  | _ => exact h

end Sys2Proof.Machine
end

