-- ==== Sys2Proof/Proofs/AlarmInvariant.lean ====
section
/-! Every zone has one ZONE_ALARM waiting or on the link exactly when its unsent flag is set (R107, R113), whatever row is
taken; with it every queue and list stays within its depth. -/

namespace Sys2Proof.Machine

theorem AlarmsTracked.of_frame {s t u : State} (h : AlarmsTracked s) (frame : t = u) (evu : u.evu = s.evu)
    (zones : u.zones = s.zones) : AlarmsTracked t := by
  rw [frame]
  exact h.same evu zones

/-- What is asked of the zones concerns only those whose alarm record is unsent. -/
theorem AlarmsTracked.keptUnsent {s t : State} (h : AlarmsTracked s) (kept : s.evu.AlarmsKept t.evu)
    (zones : ∀ z, (t.zone z).alarmUnsent = (s.zone z).alarmUnsent ∧ ((s.zone z).alarmUnsent = true →
      (s.zone z).state = .alarm → (s.zone z).enabled = true → (t.zone z).state = .alarm ∧ (t.zone z).enabled = true)) :
    AlarmsTracked t := by
  obtain ⟨apart, tracked⟩ := h
  obtain ⟨apart', counts⟩ := kept apart
  refine ⟨apart', fun z => ?_⟩
  obtain ⟨count, inAlarm⟩ := tracked z
  obtain ⟨unsent, stays⟩ := zones z
  rw [counts, unsent]
  exact ⟨count, fun flag => stays flag (inAlarm flag).1 (inAlarm flag).2⟩

theorem AlarmsTracked.not_unsent {s : State} (h : AlarmsTracked s) {z : ZoneNo} (other : (s.zone z).state ≠ .alarm) :
    (s.zone z).alarmUnsent = false :=
  Bool.eq_false_iff.mpr fun unsent => other ((h.2 z).2 unsent).1

/-! ## The commands -/

theorem AlarmsTracked.resetZone {s : State} (h : AlarmsTracked s) {z : ZoneNo} (sent : (s.zone z).alarmUnsent = false) :
    AlarmsTracked (s.resetZone z) := by
  have reset : AlarmsTracked (s.modifyZone z Zone.wasReset) := by
    refine h.keptUnsent (.refl _) fun y => ?_
    rw [State.zone_modifyZone]
    split
    · next same =>
      subst same
      exact ⟨rfl, fun unsent => absurd (sent.symm.trans unsent) Bool.false_ne_true⟩
    · exact ⟨rfl, fun _ alarm enabled => ⟨alarm, enabled⟩⟩
  exact reset

theorem AlarmsTracked.disableZone {s : State} (h : AlarmsTracked s) {z : ZoneNo} (other : (s.zone z).state ≠ .alarm) :
    AlarmsTracked (s.modifyZone z fun v => { v.leaveVerify .quiet with enabled := false }) :=
  h.modifyZone rfl fun alarm => absurd alarm other

theorem AlarmsTracked.enableZone {s : State} (h : AlarmsTracked s) {z : ZoneNo} (disabled : (s.zone z).enabled = false) :
    AlarmsTracked (s.enableZone z) := by
  have vacuous : ∀ {p : Prop}, (s.zone z).state = .alarm → (s.zone z).enabled = true → p :=
    fun _ enabled => absurd (disabled.symm.trans enabled) Bool.false_ne_true
  unfold State.enableZone
  dsimp only
  split
  · exact AlarmsTracked.raise (h.setZone (v := { s.zone z with enabled := true, state := .pre }) rfl vacuous) _ _ _ _
      nofun
  · exact h.setZone (v := { s.zone z with enabled := true }) rfl vacuous

theorem AlarmsTracked.setFilter {s : State} (h : AlarmsTracked s) (i : Fin 16) {f : Filter}
    (raises : f.raiseClass ≠ some .alarm) : AlarmsTracked (s.setFilter i f) := by
  obtain ⟨⟨alarms, others, filters⟩, tracked⟩ := h
  refine ⟨⟨alarms, others, fun j => ?_⟩, tracked⟩
  show ((s.evu.filters.set i f).get j).raiseClass ≠ some .alarm
  rw [vector_get_set]
  split
  · exact raises
  · exact filters j

theorem AlarmsTracked.withdrawRecord {s : State} (h : AlarmsTracked s) (i : Nat) (r : DetectorRecord) :
    AlarmsTracked (s.withdrawRecord i r) := by
  refine State.removalNotices_tracked (State.uncountMissing_tracked ?_ r) r
  exact h

theorem AlarmsTracked.amendMove {s : State} (h : AlarmsTracked s) (c : Configuration) (fresh : Bool) (i : Nat)
    (old : DetectorRecord) (n : Nat) (rest : List Nat) : AlarmsTracked (s.amendMove c fresh i old n rest) := by
  have moved : AlarmsTracked (State.amendMissing
      (s.setDtu (s.dtu.move (s.bucketOf c.address) i n rest (s.amendedRecord old c fresh))) old fresh) :=
    h.of_frame (State.amendMissing_frame _ old fresh) rfl rfl
  unfold State.amendMove
  dsimp only
  split
  · exact State.noticeZoneAndEvents_tracked moved old
  · exact moved

theorem AlarmsTracked.disableRecord {s : State} (h : AlarmsTracked s) (i : Nat) (r : DetectorRecord) :
    AlarmsTracked (s.disableRecord i r) := by
  unfold State.disableRecord
  dsimp only
  split
  · refine State.zoneDecrement_tracked ?_ _ _ _
    exact h
  · exact h

theorem AlarmsTracked.flushExpiry {s : State} (h : AlarmsTracked s) : AlarmsTracked s.flushExpiry := h.closeContexts .flush

theorem AlarmsTracked.summaryExpiry {s : State} (h : AlarmsTracked s) : AlarmsTracked s.summaryExpiry :=
  h.of_zones (s.evu.placeSummary_alarms s.zoneSummary) rfl

theorem AlarmsTracked.takeDueExpiries {s : State} (h : AlarmsTracked s) : AlarmsTracked s.takeDueExpiries := by
  have swept : AlarmsTracked s.takeDueSweep := h.of_frame s.takeDueSweep_frame rfl rfl
  unfold State.takeDueExpiries
  dsimp only
  generalize s.takeDueSweep = s1 at swept ⊢
  have flushed : AlarmsTracked (if s1.evu.flushTimer = 0 then s1.flushExpiry else s1) := by
    split
    · exact swept.flushExpiry
    · exact swept
  generalize (if s1.evu.flushTimer = 0 then s1.flushExpiry else s1) = s2 at flushed ⊢
  split
  · exact flushed.summaryExpiry
  · exact flushed

theorem AlarmsTracked.storeTiming {s : State} (h : AlarmsTracked s) (p : PageTiming) : AlarmsTracked (s.storeTiming p) := by
  have taken := h.takeDueExpiries
  unfold State.storeTiming
  dsimp only
  split
  · exact taken
  · exact taken

theorem AlarmsTracked.shutDown {s : State} (h : AlarmsTracked s) : AlarmsTracked s.shutDown := by
  have swept : AlarmsTracked s.takeDueSweep := h.of_frame s.takeDueSweep_frame rfl rfl
  unfold State.shutDown
  generalize s.takeDueSweep = s1 at swept ⊢
  have abandoned : AlarmsTracked (State.abandonFrame { s1 with mode := .loading }) :=
    swept.of_frame (State.abandonFrame_frame _) rfl rfl
  generalize State.abandonFrame _ = s2 at abandoned ⊢
  have emptied : AlarmsTracked s2.emptyLanes := abandoned.of_frame s2.emptyLanes_frame rfl rfl
  generalize s2.emptyLanes = s3 at emptied ⊢
  have stopped : AlarmsTracked s3.stopTimers := emptied
  exact State.stopLapses_tracked (stopped.closeContexts .stop) allZones

theorem AlarmsTracked.effect {s t : State} (effect : CommandEffect s t) (h : AlarmsTracked s) : AlarmsTracked t := by
  cases effect with
  | amended fresh _ _ _ => exact h.amendMove _ fresh _ _ _ _
  | withdrawn _ => exact h.withdrawRecord _ _
  | cleared => exact State.removeAll_tracked h
  | disabled _ _ => exact h.disableRecord _ _
  | headReset hd => exact h.of_frame (s.resetHead_frame hd) rfl rfl
  | zoneSet z mode partner a =>
    exact h.setZone (v := (s.zone z).configured z mode partner a) rfl fun alarm enabled => ⟨alarm, enabled⟩
  | zoneService z service =>
    exact h.modifyZone (f := fun v => { v with service := service }) rfl fun alarm enabled => ⟨alarm, enabled⟩
  | zoneReset sent => exact h.resetZone sent
  | zoneDisabled other => exact h.disableZone other
  | zoneEnabled disabled => exact h.enableZone disabled
  | ordered scope r _ => exact h.of_frame (s.placeOrder_orders scope _ r) rfl rfl
  | filtered i raises => exact h.setFilter i raises
  | timed p => exact h.storeTiming p
  | split _ _ => exact State.removeAll_tracked h
  | started => exact h.of_frame s.startUp_frame rfl rfl
  | stopped => exact h.shutDown
  | _ => exact h

/-! ## Every row -/

theorem AlarmsTracked.raises_never {s : State} (h : AlarmsTracked s) :
    ∀ i : Fin 16, (s.evu.filters.get i).raiseClass ≠ some .alarm := h.1.2.2

theorem vector_get_replicate {α : Type} (n : Nat) (x : α) (i : Fin n) : (Vector.replicate n x).get i = x := by
  rw [Vector.get_eq_getElem, Vector.getElem_replicate]

theorem Evu.cleared_apart {filters : Vector Filter 16} (timing : PageTiming) (tx : Option PanelTransmission)
    (raises : ∀ i : Fin 16, (filters.get i).raiseClass ≠ some .alarm) :
    (Evu.cleared filters timing tx).AlarmsApart :=
  ⟨fun _ waits => absurd waits List.not_mem_nil, fun _ waits => absurd waits List.not_mem_nil, raises⟩

/-- No record waits, no ZONE_ALARM is on the link and no unsent flag is set. -/
theorem AlarmsTracked.empty {s : State} {filters : Vector Filter 16} {timing : PageTiming}
    {tx : Option PanelTransmission} (evu : s.evu = .cleared filters timing tx)
    (raises : ∀ i : Fin 16, (filters.get i).raiseClass ≠ some .alarm)
    (link : ∀ x, tx = some x → x.frame.alarmZone = none) (sent : ∀ z, (s.zone z).alarmUnsent = false) :
    AlarmsTracked s := by
  unfold AlarmsTracked
  rw [evu]
  refine ⟨Evu.cleared_apart timing tx raises, fun z => ⟨?_, fun unsent => absurd ((sent z).symm.trans unsent) Bool.false_ne_true⟩⟩
  have free : (Evu.cleared filters timing tx).alarmOnLink z = false := by
    cases tx with
    | none => rfl
    | some x =>
      show (x.frame.alarmZone == some z) = false
      rw [link x rfl]
      rfl
  unfold Evu.alarmsOf
  rw [free, sent z]
  rfl

theorem Filter.powerOn_raises_none (i : Fin 16) :
    ((Vector.replicate 16 Filter.powerOn).get i).raiseClass ≠ some .alarm := by
  rw [vector_get_replicate]
  decide

theorem AlarmsTracked.reset {s : State}
    (evu : s.evu = .cleared (Vector.replicate 16 .powerOn) .powerOn none)
    (zones : s.zones = Vector.replicate 64 .powerOn) : AlarmsTracked s := by
  refine .empty evu Filter.powerOn_raises_none (fun _ carries => absurd carries (Option.some_ne_none _).symm) fun z => ?_
  unfold State.zone
  rw [zones, vector_get_replicate]
  rfl

theorem AlarmsTracked.mexTake {s : State} (h : AlarmsTracked s) : AlarmsTracked s.mexTake :=
  h.of_frame s.mexTake_frame rfl rfl

theorem AlarmsTracked.restartClear {s : State} (h : AlarmsTracked s) {r : Reply} {source : Source}
    {wire : List Byte}
    (link : s.evu.tx = some ⟨source, .reply r, wire⟩) : AlarmsTracked s.restartClear := by
  refine .empty rfl h.raises_never (fun x carries => ?_) fun z => ?_
  · cases link.symm.trans carries
    rfl
  · show ((mapVector Zone.restarted s.zones).get z).alarmUnsent = false
    rw [mapVector_get]
    rfl

theorem AlarmsTracked.grant {s : State} (h : AlarmsTracked s) (idle : s.evu.tx = none) : AlarmsTracked s.grant := by
  unfold State.grant
  split
  · next r chosen =>
    have replied : AlarmsTracked { s with evu := s.evu.grantReply r } :=
      h.of_zones (Evu.grantReply_alarms idle r) rfl
    unfold State.mexTold
    split
    · exact replied.restartClear rfl
    all_goals exact replied.mexTake
  · exact h.of_zones (Evu.grantDue_alarms s.evu) rfl

theorem Evu.alarmOnLink_some {e : Evu} {x : PanelTransmission} (carries : e.tx = some x) (z : ZoneNo) :
    e.alarmOnLink z = (x.frame.alarmZone == some z) := by
  unfold Evu.alarmOnLink
  rw [carries]
  rfl

theorem State.alarmSent_zone (s : State) (y z : ZoneNo) : (s.alarmSent (some y)).zone z
    = if z = y then { s.zone y with alarmUnsent := false } else s.zone z :=
  s.zone_modifyZone y z fun v => { v with alarmUnsent := false }

/-- The end of a transmission takes a ZONE_ALARM off the link and clears its zone's unsent flag (R167). -/
theorem AlarmsTracked.sent {s : State} (h : AlarmsTracked s) {x : PanelTransmission} (carries : s.evu.tx = some x)
    (counters : EvuCounters) : AlarmsTracked
      (({ s with evu := { s.evu with tx := none, counters := counters } } : State).alarmSent x.frame.alarmZone) := by
  obtain ⟨apart, tracked⟩ := h
  have counts : ∀ z, s.evu.alarmQueue.countP (fun r => r.zone == some z) + (x.frame.alarmZone == some z).toNat
      = (s.zone z).alarmUnsent.toNat := fun z => Evu.alarmOnLink_some carries z ▸ (tracked z).1
  have freed : ∀ (a : Option ZoneNo) z, (({ s with evu := { s.evu with tx := none, counters := counters } } :
      State).alarmSent a).evu.alarmsOf z = s.evu.alarmQueue.countP (fun r => r.zone == some z) := fun a _ => by
    cases a with
    | none => rfl
    | some _ => rfl
  cases zone : x.frame.alarmZone with
  | none =>
    refine ⟨apart, fun z => ⟨?_, (tracked z).2⟩⟩
    have count := counts z
    rw [zone] at count
    exact count
  | some y =>
    refine ⟨apart, fun z => ?_⟩
    have count := counts z
    rw [zone] at count
    rw [freed, State.alarmSent_zone]
    split
    · next same =>
      subst same
      rw [beq_self_eq_true] at count
      have flag := Bool.toNat_le (s.zone z).alarmUnsent
      have none_waits : s.evu.alarmQueue.countP (fun r => r.zone == some z) = 0 := by
        rw [Bool.toNat_true] at count
        omega
      exact ⟨none_waits, nofun⟩
    · next other =>
      have elsewhere : (some y == some z) = false := beq_false_of_ne fun same => other (Option.some.inj same).symm
      rw [elsewhere] at count
      exact ⟨count, (tracked z).2⟩

theorem AlarmsTracked.loseHead {s : State} (h : AlarmsTracked s) (hd : HeadNo) : AlarmsTracked (s.loseHead hd) := by
  refine AlarmsTracked.raise ?_ _ _ _ _ nofun
  exact h

theorem AlarmsTracked.heartbeat {s : State} (h : AlarmsTracked s) (hd : HeadNo) : AlarmsTracked (s.heartbeat hd) := by
  unfold State.heartbeat
  dsimp only
  split
  · refine AlarmsTracked.loseHead ?_ _
    exact h
  · exact h

theorem AlarmsTracked.takeStatus {s : State} (h : AlarmsTracked s) (hd : HeadNo) (busy : Nat) :
    AlarmsTracked (s.takeStatus hd busy) := by
  have judged : ∀ t : State, AlarmsTracked t → AlarmsTracked (t.jamCheck hd busy) := by
    intro t tracked
    unfold State.jamCheck
    dsimp only
    split
    · exact tracked
    · split
      · exact tracked
      · have toggled : AlarmsTracked (t.modifyHead hd fun v => { v with jamRun := 0, jam := !v.jam }) := tracked
        split
        · exact toggled.raise _ _ _ _ nofun
        · exact toggled.raise _ _ _ _ nofun
  unfold State.takeStatus
  refine judged _ ?_
  split
  · exact h
  · refine AlarmsTracked.raise ?_ _ _ _ _ nofun
    exact h

theorem AlarmsTracked.tick {s : State} (h : AlarmsTracked s) : AlarmsTracked s.takeDueExpiries.advanceClock.deliverTick := by
  have advanced : AlarmsTracked s.takeDueExpiries.advanceClock := h.takeDueExpiries
  have beaten := foldl_keeps (P := AlarmsTracked) (fun _ hd tracked => tracked.heartbeat hd) allHeads advanced
  have lapsed := State.lapses_tracked beaten allZones
  unfold State.deliverTick
  generalize allZones.foldl State.lapseIfReached _ = s1 at lapsed ⊢
  have expired := State.expireHeld_tracked lapsed
  generalize s1.expireHeld = s2 at expired ⊢
  exact expired

theorem AlarmsTracked.visit {s : State} (h : AlarmsTracked s) (i : Nat) : AlarmsTracked (s.visit i) := by
  unfold State.visit
  split
  · exact h
  · split
    · refine AlarmsTracked.raise ?_ _ _ _ _ nofun
      exact h
    · exact h

theorem AlarmsTracked.moves {s t : State} (moves : Moves s t) (h : AlarmsTracked s) : AlarmsTracked t := by
  cases moves with
  | powered => exact .reset rfl rfl
  | radio hd rx f => exact h.of_frame ((s.setHeadRx hd rx).takeRadio_frame hd f) rfl rfl
  | status hd rx busy =>
    refine AlarmsTracked.takeStatus ?_ hd busy
    exact h
  | ticked => exact h.tick
  | headLost hd => exact h.loseHead hd
  | lapsed _ verify => exact State.lapseZone_tracked h verify _
  | expired e =>
    refine AlarmsTracked.raise ?_ _ _ _ _ nofun
    exact h
  | flushed => exact h.flushExpiry
  | summarised => exact h.summaryExpiry
  | slotStarted c => exact h.of_frame (State.slotStart_frame { s with clock := c }) rfl rfl
  | frameTaken _ => exact h.of_frame s.takeFrame_frame rfl rfl
  | lookedUp _ => exact h.of_frame (s.answerLookup_frame _) rfl rfl
  | completed _ => exact AlarmsTracked.closed.decideFrame s _ _ _ _ h
  | visited i =>
    have visited := h.visit i
    exact visited.of_frame ((s.visit i).advanceSweep_frame i) rfl rfl
  | granted idle => exact h.grant idle
  | sent carries => exact h.sent carries _
  | offered rx payload =>
    refine AlarmsTracked.mexTake ?_
    exact h
  | answered x tag code after effect => exact (h.effect effect).of_zones (Evu.placeReply_alarms _ _) rfl
  | _ => exact h

/-! ## All depths -/

theorem withinDepths_iff (s : State) : WithinDepths s ↔
    AlarmsTracked s ∧ EvuBounded s ∧ HeldBounded s ∧ FifosBounded s := by
  constructor
  · rintro ⟨tracked, -, fault, status, level, contexts, entries, orders, management, fifos⟩
    exact ⟨tracked, ⟨⟨fault, status, level⟩, contexts⟩, ⟨entries, orders⟩, fifos, management⟩
  · rintro ⟨tracked, ⟨⟨fault, status, level⟩, contexts⟩, ⟨entries, orders⟩, fifos, management⟩
    exact ⟨tracked, tracked.bounded, fault, status, level, contexts, entries, orders, management, fifos⟩

theorem WithinDepths.moves {s t : State} (moves : Moves s t) (h : WithinDepths s) : WithinDepths t := by
  rw [withinDepths_iff] at h ⊢
  obtain ⟨tracked, queues, held, fifos⟩ := h
  exact ⟨tracked.moves moves, queues.moves moves, held.moves moves, fifos.moves moves⟩

end Sys2Proof.Machine

namespace Sys2Proof.Proofs

open Sys2Proof Sys2Proof.Machine

/-- Settles O57: a case split over what a row can do, for each queue and list. -/
theorem depthsStayBounded : Obligations.DepthsStayBounded :=
  ⟨keptByEveryStep (fun _ _ moves h => WithinDepths.moves moves h) (fun _ _ h => h),
    keptByEveryStep (fun _ _ moves h => ListsDistinct.moves moves h) (fun _ _ h => h)⟩

end Sys2Proof.Proofs
end

