-- ==== Sys2Proof/Proofs/TableInvariant.lean ====
section
/-! The free list, the chains, the missing count and the raised counts stay exact (R5, R7, R94, R131), whatever row is
taken. -/

namespace Sys2Proof.Machine

/-! ## Operations on neither the table nor the counts -/

/-- The table, the split, the missing count and every zone's raised count and epoch stand. -/
structure TableKept (s t : State) : Prop where
  dtu : t.dtu = s.dtu
  memory : t.pages.memory = s.pages.memory
  missing : t.su.missing = s.su.missing
  counts : CountsKept s t

theorem TableKept.refl (s : State) : TableKept s s := ⟨rfl, rfl, rfl, .refl s⟩

theorem TableKept.trans {s t u : State} (h : TableKept s t) (k : TableKept t u) : TableKept s u :=
  ⟨k.dtu.trans h.dtu, k.memory.trans h.memory, k.missing.trans h.missing, h.counts.trans k.counts⟩

theorem TableKept.of_eq {s t : State} (dtu : t.dtu = s.dtu) (memory : t.pages.memory = s.pages.memory)
    (missing : t.su.missing = s.su.missing) (zones : t.zones = s.zones) : TableKept s t :=
  ⟨dtu, memory, missing, .of_zones zones⟩

theorem TableKept.of_frame {s t u : State} (frame : t = u) (dtu : u.dtu = s.dtu)
    (memory : u.pages.memory = s.pages.memory) (missing : u.su.missing = s.su.missing) (zones : u.zones = s.zones) :
    TableKept s t :=
  frame ▸ .of_eq dtu memory missing zones

theorem CountsExact.kept {s t : State} (h : CountsExact s) (k : TableKept s t) : CountsExact t :=
  h.same k.dtu (congrArg PageMemory.tableSize k.memory) k.missing k.counts

theorem ChainsExact.kept {s t : State} (h : ChainsExact s) (k : TableKept s t) : ChainsExact t := h.same k.dtu k.memory

theorem TableKept.setZone {s : State} {z : ZoneNo} {v : Zone} (raised : v.raised = (s.zone z).raised)
    (epoch : v.epoch = (s.zone z).epoch) : TableKept s (s.setZone z v) :=
  ⟨rfl, rfl, rfl, .setZone raised epoch⟩

theorem TableKept.lapseZone (s : State) (z : ZoneNo) (c : LapseCause) : TableKept s (s.lapseZone z c) :=
  ⟨rfl, rfl, rfl, State.lapseZone_counts s z c⟩

theorem TableKept.takeDueSweep (s : State) : TableKept s s.takeDueSweep := by
  refine .of_frame s.takeDueSweep_frame rfl rfl ?_ rfl
  show s.takeDueSweep.su.missing = s.su.missing
  unfold State.takeDueSweep State.sweepExpiry
  split
  · split
    · rfl
    · rfl
  · rfl

theorem TableKept.sweepExpiry (s : State) : TableKept s s.sweepExpiry := by
  unfold State.sweepExpiry
  split
  · exact .of_eq rfl rfl rfl rfl
  · exact .of_eq rfl rfl rfl rfl

theorem TableKept.takeDueExpiries (s : State) : TableKept s s.takeDueExpiries := by
  have swept := TableKept.takeDueSweep s
  unfold State.takeDueExpiries
  dsimp only
  generalize s.takeDueSweep = s1 at swept ⊢
  have flushed : TableKept s1 (if s1.evu.flushTimer = 0 then s1.flushExpiry else s1) := by
    split
    · exact .of_eq rfl rfl rfl rfl
    · exact .refl s1
  generalize (if s1.evu.flushTimer = 0 then s1.flushExpiry else s1) = s2 at flushed ⊢
  split
  · exact (swept.trans flushed).trans (.of_eq rfl rfl rfl rfl)
  · exact swept.trans flushed

theorem Su.abandonSweep_missing (u : Su) : u.abandonSweep.missing = u.missing := by
  unfold Su.abandonSweep
  split
  · rfl
  · rfl

theorem State.restartSweep_missing (s : State) : s.restartSweep.su.missing = s.su.missing :=
  s.su.abandonSweep_missing

theorem TableKept.storeTiming (s : State) (p : PageTiming) : TableKept s (s.storeTiming p) := by
  have taken := TableKept.takeDueExpiries s
  unfold State.storeTiming
  dsimp only
  generalize s.takeDueExpiries = s1 at taken ⊢
  refine taken.trans ?_
  split
  · exact .of_eq rfl rfl (State.restartSweep_missing _) rfl
  · exact .of_eq rfl rfl rfl rfl

theorem TableKept.heartbeats (s : State) (l : List HeadNo) : TableKept s (l.foldl State.heartbeat s) :=
  .of_frame (State.heartbeats_frame s l) rfl rfl rfl rfl

theorem TableKept.lapseIfReached (s : State) (z : ZoneNo) : TableKept s (s.lapseIfReached z) := by
  unfold State.lapseIfReached
  split
  · exact .lapseZone s z .expiry
  · exact .refl s

theorem TableKept.lapseAtStop (s : State) (z : ZoneNo) : TableKept s (s.lapseAtStop z) := by
  unfold State.lapseAtStop
  split
  · exact .lapseZone s z .stop
  · exact .refl s

theorem TableKept.tick (s : State) : TableKept s s.takeDueExpiries.advanceClock.deliverTick := by
  have taken := TableKept.takeDueExpiries s
  generalize s.takeDueExpiries = s1 at taken ⊢
  have advanced : TableKept s1 s1.advanceClock := .of_eq rfl rfl rfl rfl
  generalize s1.advanceClock = s2 at advanced ⊢
  have beaten := TableKept.heartbeats s2 allHeads
  unfold State.deliverTick
  generalize allHeads.foldl State.heartbeat s2 = s3 at beaten ⊢
  have lapsed : TableKept s3 (allZones.foldl State.lapseIfReached s3) :=
    foldl_rel TableKept TableKept.refl (fun _ _ _ => TableKept.trans) _ TableKept.lapseIfReached _ _
  generalize allZones.foldl State.lapseIfReached s3 = s4 at lapsed ⊢
  have expired : TableKept s4 s4.expireHeld := .of_frame s4.expireHeld_frame rfl rfl rfl rfl
  generalize s4.expireHeld = s5 at expired ⊢
  have counted : TableKept s5 s5.countEvuTimers := .of_eq rfl rfl rfl rfl
  exact taken.trans (advanced.trans (beaten.trans (lapsed.trans (expired.trans counted))))

theorem TableKept.shutDown (s : State) : TableKept s s.shutDown := by
  have swept := TableKept.takeDueSweep s
  unfold State.shutDown
  generalize s.takeDueSweep = s1 at swept ⊢
  have abandoned : TableKept s1 (State.abandonFrame { s1 with mode := .loading }) :=
    .of_frame (State.abandonFrame_frame _) rfl rfl rfl rfl
  generalize State.abandonFrame _ = s2 at abandoned ⊢
  have emptied : TableKept s2 s2.emptyLanes := .of_frame s2.emptyLanes_frame rfl rfl rfl rfl
  generalize s2.emptyLanes = s3 at emptied ⊢
  have stopped : TableKept s3 (s3.stopTimers.closeContexts .stop) :=
    .of_eq rfl rfl s3.su.abandonSweep_missing rfl
  generalize s3.stopTimers.closeContexts .stop = s4 at stopped ⊢
  have lapsed : TableKept s4 (allZones.foldl State.lapseAtStop s4) :=
    foldl_rel TableKept TableKept.refl (fun _ _ _ => TableKept.trans) _ TableKept.lapseAtStop _ _
  exact swept.trans (abandoned.trans (emptied.trans (stopped.trans lapsed)))

theorem TableKept.alarmSent (s : State) (z : Option ZoneNo) : TableKept s (s.alarmSent z) := by
  unfold State.alarmSent
  split
  · exact .refl s
  · exact .setZone rfl rfl

theorem TableKept.enableZone (s : State) (z : ZoneNo) : TableKept s (s.enableZone z) := by
  unfold State.enableZone
  dsimp only
  split
  · exact (TableKept.setZone (v := { s.zone z with enabled := true, state := .pre }) rfl rfl).trans
      (.of_eq rfl rfl rfl rfl)
  · exact .setZone rfl rfl

/-! ## Operations on the table -/

/-- A record is written over, and neither its presence nor what counts it changes. -/
theorem CountsExact.putLike {s : State} (h : CountsExact s) {i : Nat} {r : DetectorRecord}
    (record : s.dtu.recordAt i = some r) (q : DetectorRecord) (missing : q.isMissing = r.isMissing)
    (counted : ∀ z e, q.countedIn z e = r.countedIn z e) (quiet : q.enabled = false → q.level = .normal) :
    CountsExact (s.putRecord i q) :=
  h.put record q _ rfl rfl (by rw [missing]; rfl) (fun _ => rfl) (fun z => by rw [counted]; rfl) quiet

theorem CountsExact.quiet {s : State} (h : CountsExact s) {i : Nat} {r : DetectorRecord}
    (record : s.dtu.recordAt i = some r) (disabled : r.enabled = false) : r.level = .normal :=
  ((CountsExact.iff s).mp h).2.2.2 i r record disabled

theorem CountsExact.free {s : State} (h : CountsExact s) : s.dtu.FreeExact s.tableSize := ((CountsExact.iff s).mp h).1

/-- What the head of the free list is: an index of the table that holds no record. -/
theorem Dtu.FreeExact.head {d : Dtu} {size i : Nat} {rest : List Nat} (h : d.FreeExact size)
    (free : d.freeList = i :: rest) : i < d.slots.length ∧ d.recordAt i = none := by
  obtain ⟨length, -, exact⟩ := h
  obtain ⟨within, empty⟩ := (exact i).mp (free ▸ List.mem_cons_self)
  exact ⟨length ▸ within, empty⟩

theorem DetectorRecord.countedIn_normal {r : DetectorRecord} (normal : r.level = .normal) (z : ZoneNo) (e : BitVec 8) :
    r.countedIn z e = false := by
  unfold DetectorRecord.countedIn
  rw [DetectorRecord.counted_normal normal, Bool.and_false]

theorem CountsExact.join {s : State} (h : CountsExact s) {i : Nat} {rest : List Nat} (free : s.dtu.freeList = i :: rest)
    (b : Nat) {q : DetectorRecord} (present : q.isMissing = false) (normal : q.level = .normal) :
    CountsExact (s.setDtu (s.dtu.join b i rest q)) := by
  obtain ⟨within, empty⟩ := h.free.head free
  rw [CountsExact.iff] at h ⊢
  obtain ⟨exact, missing, raised, quiet⟩ := h
  refine ⟨exact.join free b q, ?_, fun z => ?_, fun j r record => ?_⟩
  · show s.su.missing = (s.dtu.join b i rest q).tally _
    rw [Dtu.tally_join within empty, present, missing]
    rfl
  · show (s.zone z).raised = (s.dtu.join b i rest q).tally (fun r => r.countedIn z (s.zone z).epoch)
    rw [Dtu.tally_join within empty, q.countedIn_normal normal, raised z]
    rfl
  · change (s.dtu.join b i rest q).recordAt j = some r at record
    rw [Dtu.recordAt_join] at record
    split at record
    · cases record
      exact fun _ => normal
    · exact quiet j r record

/-- A record moves to a fresh index and is written over there, and the counts follow it. -/
theorem CountsExact.move {s t : State} (h : CountsExact s) {i n b : Nat} {rest : List Nat} {r q : DetectorRecord}
    (record : s.dtu.recordAt i = some r) (free : s.dtu.freeList = n :: rest)
    (dtu : t.dtu = s.dtu.move b i n rest q) (size : t.tableSize = s.tableSize)
    (missing : t.su.missing + r.isMissing.toNat = s.su.missing + q.isMissing.toNat)
    (epoch : ∀ z, (t.zone z).epoch = (s.zone z).epoch)
    (raised : ∀ z, (t.zone z).raised + (r.countedIn z (s.zone z).epoch).toNat =
      (s.zone z).raised + (q.countedIn z (s.zone z).epoch).toNat)
    (quiet : q.enabled = false → q.level = .normal) : CountsExact t := by
  obtain ⟨within, empty⟩ := h.free.head free
  have tallied := fun p => Dtu.tally_move record within empty b rest q p
  rw [CountsExact.iff] at h ⊢
  obtain ⟨exact, missing', raised', quiet'⟩ := h
  rw [dtu, size]
  refine ⟨exact.move record free b q, ?_, fun z => ?_, fun j x present => ?_⟩
  · have count := tallied DetectorRecord.isMissing
    omega
  · rw [epoch]
    have count := tallied fun r => r.countedIn z (s.zone z).epoch
    have before := raised' z
    have change := raised z
    omega
  · rw [Dtu.recordAt_move] at present
    split at present
    · cases present
      exact quiet
    · split at present
      · cases present
      · exact quiet' j x present

/-- Every record is written over, and the counts follow. -/
theorem CountsExact.mapRecords {s t : State} (h : CountsExact s) (f : DetectorRecord → DetectorRecord)
    (dtu : t.dtu = s.dtu.mapRecords f) (size : t.tableSize = s.tableSize)
    (missing : t.su.missing = s.dtu.tally fun r => (f r).isMissing)
    (raised : ∀ z, (t.zone z).raised = s.dtu.tally fun r => (f r).countedIn z (t.zone z).epoch)
    (quiet : ∀ r, (r.enabled = false → r.level = .normal) → (f r).enabled = false → (f r).level = .normal) :
    CountsExact t := by
  rw [CountsExact.iff] at h ⊢
  obtain ⟨exact, -, -, quiet'⟩ := h
  rw [dtu, size]
  refine ⟨exact.mapRecords f, ?_, fun z => ?_, fun j x present => ?_⟩
  · rw [Dtu.tally_mapRecords]
    exact missing
  · rw [Dtu.tally_mapRecords]
    exact raised z
  · rw [Dtu.recordAt_mapRecords] at present
    obtain ⟨r, record, rfl⟩ := Option.map_eq_some_iff.mp present
    exact quiet r (quiet' j r record)

theorem Dtu.tally_false (d : Dtu) {p : DetectorRecord → Bool} (h : ∀ r, p r = false) : d.tally p = 0 := by
  unfold Dtu.tally
  rw [List.countP_eq_zero]
  exact fun r _ counted => Bool.false_ne_true ((h r).symm.trans counted)

/-! ## The commands -/

theorem DetectorRecord.rearmed_like (r : DetectorRecord) (now grace : Nat) : (r.rearmed now grace).isMissing = r.isMissing
    ∧ (∀ z e, (r.rearmed now grace).countedIn z e = r.countedIn z e)
    ∧ (r.rearmed now grace).enabled = r.enabled ∧ (r.rearmed now grace).level = r.level
    ∧ (r.rearmed now grace).address = r.address := by
  unfold DetectorRecord.rearmed
  split
  · split
    all_goals exact ⟨rfl, fun _ _ => rfl, rfl, rfl, rfl⟩
  · exact ⟨rfl, fun _ _ => rfl, rfl, rfl, rfl⟩

theorem CountsExact.startUp {s : State} (h : CountsExact s) : CountsExact s.startUp := by
  obtain ⟨-, missing, raised, -⟩ := (CountsExact.iff s).mp h
  rw [s.startUp_frame]
  refine h.mapRecords (fun r => r.rearmed s.now s.pages.timing.grace) rfl rfl ?_ (fun z => ?_) fun r quiet => ?_
  · rw [funext fun r => (DetectorRecord.rearmed_like r s.now s.pages.timing.grace).1]
    exact missing
  · have counted := funext fun r => (DetectorRecord.rearmed_like r s.now s.pages.timing.grace).2.1 z (s.zone z).epoch
    exact (raised z).trans (congrArg s.dtu.tally counted.symm)
  · obtain ⟨-, -, enabled, level, -⟩ := DetectorRecord.rearmed_like r s.now s.pages.timing.grace
    rw [enabled, level]
    exact quiet

/-- After the reset of its zone a record is not counted in it (R111, R112). -/
theorem DetectorRecord.epochWrapped_counted (r : DetectorRecord) (z : ZoneNo) (e : BitVec 8) :
    (r.epochWrapped z e).countedIn z e = false := by
  unfold DetectorRecord.epochWrapped
  split
  · exact DetectorRecord.countedIn_normal rfl z e
  · next stands =>
    unfold DetectorRecord.countedIn
    by_cases here : r.zone = z
    · have normal : r.currentLevel e = .normal := by
        unfold DetectorRecord.currentLevel
        split
        · next stamped => exact Classical.byContradiction fun raised => stands ⟨here, raised, stamped⟩
        · rfl
      unfold DetectorRecord.counted
      rw [normal, bne_self_eq_false, Bool.and_false, Bool.and_false]
    · rw [decide_eq_false here, Bool.false_and]

theorem DetectorRecord.epochWrapped_elsewhere (r : DetectorRecord) {y z : ZoneNo} (other : y ≠ z) (e f : BitVec 8) :
    (r.epochWrapped z e).countedIn y f = r.countedIn y f := by
  unfold DetectorRecord.epochWrapped
  split
  · next wrapped =>
    have away : ¬ r.zone = y := fun here => other (here.symm.trans wrapped.1)
    unfold DetectorRecord.countedIn
    show (decide (r.zone = y) && _) = _
    rw [decide_eq_false away, Bool.false_and, Bool.false_and]
  · rfl

theorem DetectorRecord.epochWrapped_like (r : DetectorRecord) (z : ZoneNo) (e : BitVec 8) :
    (r.epochWrapped z e).isMissing = r.isMissing ∧ (r.epochWrapped z e).address = r.address
    ∧ ((r.enabled = false → r.level = .normal) →
      (r.epochWrapped z e).enabled = false → (r.epochWrapped z e).level = .normal) := by
  unfold DetectorRecord.epochWrapped
  split
  · exact ⟨rfl, rfl, fun _ _ => rfl⟩
  · exact ⟨rfl, rfl, fun quiet => quiet⟩

theorem CountsExact.resetZone {s : State} (h : CountsExact s) (z : ZoneNo) : CountsExact (s.resetZone z) := by
  obtain ⟨-, missing, raised, -⟩ := (CountsExact.iff s).mp h
  have zones : ∀ y, (s.resetZone z).zone y = if y = z then (s.zone z).wasReset else s.zone y :=
    fun y => s.zone_modifyZone z y Zone.wasReset
  generalize epoch : ((s.modifyZone z Zone.wasReset).zone z).epoch = e
  have e_eq : e = (s.zone z).wasReset.epoch := by rw [← epoch, State.zone_modifyZone, if_pos rfl]
  have dtu : (s.resetZone z).dtu = s.dtu.mapRecords fun r => r.epochWrapped z e := by rw [← epoch]; rfl
  refine h.mapRecords (fun r => r.epochWrapped z e) dtu rfl ?_ (fun y => ?_)
    fun r => (DetectorRecord.epochWrapped_like r z e).2.2
  · rw [funext fun r => (DetectorRecord.epochWrapped_like r z e).1]
    exact missing
  · rw [zones]
    split
    · next here =>
      rw [here, ← e_eq, Dtu.tally_false _ fun r => r.epochWrapped_counted z e]
      rfl
    · next other =>
      rw [funext fun r => DetectorRecord.epochWrapped_elsewhere r other e (s.zone y).epoch]
      exact raised y

theorem State.amendMissing_rest (s : State) (old : DetectorRecord) (fresh : Bool) :
    (s.amendMissing old fresh).su.missing = s.su.missing - (fresh && old.isMissing).toNat := by
  unfold State.amendMissing
  split
  · next starts => rw [State.uncountMissing_missing, starts, Bool.true_and]
  · next carried => rw [Bool.eq_false_iff.mpr carried]; rfl

/-- What the record an AMEND builds counts for: nothing when the old record's zone is notified, else what the old one
counts for (R20). -/
theorem State.amendedRecord_like (s : State) (old : DetectorRecord) (c : Configuration) (fresh : Bool) :
    let q := s.amendedRecord old c fresh
    (q.isMissing = if fresh then false else old.isMissing)
    ∧ (∀ z e, q.countedIn z e = if amendNotifies old c fresh then false else old.countedIn z e)
    ∧ ((old.enabled = false → old.level = .normal) → q.enabled = false → q.level = .normal)
    ∧ q.address = c.address := by
  unfold State.amendedRecord amendNotifies
  cases fresh with
  | true => exact ⟨rfl, fun z e => DetectorRecord.countedIn_normal rfl z e, fun _ _ => rfl, rfl⟩
  | false =>
    by_cases zone : c.zone = old.zone
    · refine ⟨rfl, fun z e => ?_, fun quiet => ?_, rfl⟩
      · simp [DetectorRecord.amended, DetectorRecord.countedIn, DetectorRecord.counted, DetectorRecord.currentLevel, zone]
      · simp only [DetectorRecord.amended, zone, if_true]
        exact quiet
    · have normal : (old.amended c (s.zone c.zone).epoch).level = .normal := if_neg zone
      refine ⟨rfl, fun z e => ?_, fun _ _ => normal, rfl⟩
      have moved : (false || decide (c.zone ≠ old.zone)) = true := decide_eq_true zone
      show (old.amended c (s.zone c.zone).epoch).countedIn z e = if (false || decide (c.zone ≠ old.zone)) = true then _ else _
      rw [if_pos moved]
      exact DetectorRecord.countedIn_normal normal z e

theorem State.amendMove_counts (s : State) (c : Configuration) (fresh : Bool) (i : Nat) (old : DetectorRecord) (n : Nat)
    (rest : List Nat) : let t := s.amendMove c fresh i old n rest
    t.su.missing = s.su.missing - (fresh && old.isMissing).toNat ∧ (∀ z, (t.zone z).epoch = (s.zone z).epoch)
    ∧ ∀ z, (t.zone z).raised
      = (s.zone z).raised - (amendNotifies old c fresh && old.countedIn z (s.zone z).epoch).toNat := by
  have missing := State.amendMissing_rest
    (s.setDtu (s.dtu.move (s.bucketOf c.address) i n rest (s.amendedRecord old c fresh))) old fresh
  have frame := State.amendMissing_frame
    (s.setDtu (s.dtu.move (s.bucketOf c.address) i n rest (s.amendedRecord old c fresh))) old fresh
  unfold State.amendMove
  dsimp only
  generalize State.amendMissing _ old fresh = s1 at missing frame ⊢
  have zones : ∀ z, s1.zone z = s.zone z := fun z => by rw [frame]; rfl
  obtain ⟨epoch, raised⟩ := State.noticeZoneAndEvents_counts s1 old
  have su : (s1.noticeZoneAndEvents old).su = s1.su := (s1.noticeZoneAndEvents_frame old).su_eq
  split
  · next notifies =>
    rw [su, notifies]
    refine ⟨missing, fun z => ?_, fun z => ?_⟩
    · rw [epoch, zones]
    · rw [raised, zones, Bool.true_and]
  · next silent =>
    rw [Bool.eq_false_iff.mpr silent]
    exact ⟨missing, fun z => by rw [zones], fun z => by rw [zones]; rfl⟩

theorem CountsExact.amendMove {s : State} (h : CountsExact s) (c : Configuration) (fresh : Bool) {i n : Nat}
    {rest : List Nat} {old : DetectorRecord} (record : s.dtu.recordAt i = some old)
    (free : s.dtu.freeList = n :: rest) : CountsExact (s.amendMove c fresh i old n rest) := by
  obtain ⟨missingLe, raisedLe⟩ := h.ge record
  obtain ⟨isMissing, counted, quiet, -⟩ := s.amendedRecord_like old c fresh
  obtain ⟨missing, epoch, raised⟩ := s.amendMove_counts c fresh i old n rest
  refine h.move record free (congrArg State.dtu (s.amendMove_frame c fresh i old n rest)) ?_ ?_ epoch (fun z => ?_)
    (quiet (h.quiet record))
  · exact (congrArg State.tableSize (s.amendMove_frame c fresh i old n rest)).trans rfl
  · rw [missing, isMissing]
    cases fresh with
    | true => exact Nat.sub_add_cancel missingLe
    | false => rfl
  · rw [raised, counted]
    cases amendNotifies old c fresh with
    | true => exact Nat.sub_add_cancel (raisedLe z)
    | false => rfl

theorem CountsExact.disableRecord {s : State} (h : CountsExact s) {i : Nat} {r : DetectorRecord}
    (record : s.dtu.recordAt i = some r) : CountsExact (s.disableRecord i r) := by
  obtain ⟨-, raisedLe⟩ := h.ge record
  have frame := s.disableRecord_frame i r
  have count : ∀ z, ((s.disableRecord i r).zone z).epoch = (s.zone z).epoch ∧
      ((s.disableRecord i r).zone z).raised = (s.zone z).raised - (r.countedIn z (s.zone z).epoch).toNat := by
    unfold State.disableRecord
    dsimp only
    intro z
    split
    · next counted =>
      obtain ⟨here, elsewhere, epoch⟩ := State.zoneDecrement_count
        (s.putRecord i { r.levelNormal (s.zone r.zone).epoch with enabled := false }) r.zone r.address (some r.kind)
      refine ⟨epoch z, ?_⟩
      by_cases same : z = r.zone
      · rw [same, here, r.countedIn_home, counted]
        rfl
      · have away : r.countedIn z (s.zone z).epoch = false := by
          unfold DetectorRecord.countedIn
          rw [decide_eq_false (Ne.symm same), Bool.false_and]
        rw [elsewhere z same, away]
        rfl
    · next silent =>
      refine ⟨rfl, ?_⟩
      have uncounted : r.countedIn z (s.zone z).epoch = false := by
        by_cases same : r.zone = z
        · rw [← same, r.countedIn_home]
          exact Bool.eq_false_iff.mpr silent
        · unfold DetectorRecord.countedIn
          rw [decide_eq_false same, Bool.false_and]
      rw [uncounted]
      rfl
  refine h.put record { r.levelNormal (s.zone r.zone).epoch with enabled := false } _ frame.dtu_eq ?_ ?_
    (fun z => (count z).1) (fun z => ?_) fun _ => rfl
  · exact congrArg PageMemory.tableSize (congrArg Pages.memory frame.pages_eq)
  · rw [frame.su_eq]
    rfl
  · rw [(count z).2, DetectorRecord.countedIn_normal (r := { r.levelNormal _ with enabled := false }) rfl]
    exact Nat.sub_add_cancel (raisedLe z)

theorem State.removeAll_dtu (s : State) : s.removeAll.dtu = s.dtu := (congrArg State.dtu s.removeAll_onlyRemoval).trans rfl

theorem CountsExact.cleared {s : State} (h : CountsExact s) : CountsExact (s.removeAll.setDtu s.removeAll.dtu.cleared) := by
  refine h.removeAll (fun i => Dtu.recordAt_cleared _ i) ?_ rfl rfl
  have size : s.removeAll.tableSize = s.tableSize := (congrArg State.tableSize s.removeAll_onlyRemoval).trans rfl
  show s.removeAll.dtu.cleared.FreeExact s.removeAll.tableSize
  rw [size, s.removeAll_dtu]
  exact .cleared h.free.1

theorem CountsExact.effect {s t : State} (effect : CommandEffect s t) (h : CountsExact s) : CountsExact t := by
  cases effect with
  | @collided i r record =>
    have quiet := h.quiet record
    exact h.putLike record { r with collision := true } rfl (fun _ _ => rfl) quiet
  | enrolled _ free => exact h.join free _ rfl rfl
  | amended fresh record _ free => exact h.amendMove _ fresh record free
  | withdrawn record => exact h.leave record
  | cleared => exact h.cleared
  | disabled record _ => exact h.disableRecord record
  | @enabled i r record disabled =>
    have normal := h.quiet record disabled
    refine h.putLike record { r.refreshed s.now with enabled := true } rfl (fun z e => ?_) fun _ => normal
    rw [DetectorRecord.countedIn_normal normal, DetectorRecord.countedIn_normal (r := { r.refreshed _ with enabled := _ }) normal]
  | headReset hd => exact h.kept (.of_frame (s.resetHead_frame hd) rfl rfl rfl rfl)
  | zoneSet z mode partner a => exact h.kept (.setZone rfl rfl)
  | zoneService z service => exact h.kept (.setZone rfl rfl)
  | zoneReset _ => exact h.resetZone _
  | zoneDisabled _ => exact h.kept (.setZone rfl rfl)
  | zoneEnabled _ => exact h.kept (.enableZone s _)
  | ordered scope r _ => exact h.kept (.of_frame (s.placeOrder_orders scope _ r) rfl rfl rfl rfl)
  | pages memory => exact h.kept (.of_eq rfl memory rfl rfl)
  | timed p => exact h.kept (.storeTiming s p)
  | @split p _ _ =>
    exact h.removeAll (t := s.storeMemory p) (fun i => Dtu.recordAt_empty _ i) (.empty _) rfl rfl
  | started => exact h.startUp
  | stopped => exact h.kept (.shutDown s)
  | _ => exact h.kept (.of_eq rfl rfl rfl rfl)

/-! ## Every row, and the counts -/

theorem CountsExact.restartClear {s t : State} (h : CountsExact s)
    (dtu : t.dtu = s.dtu.mapRecords fun r => r.restarted s.pages.timing.grace) (size : t.tableSize = s.tableSize)
    (missing : t.su.missing = 0) (raised : ∀ z, (t.zone z).raised = 0) : CountsExact t := by
  refine h.mapRecords _ dtu size ?_ (fun z => ?_) fun r _ _ => rfl
  · rw [missing, Dtu.tally_false]
    exact fun _ => rfl
  · rw [raised, Dtu.tally_false]
    exact fun r => DetectorRecord.countedIn_normal (r := r.restarted _) rfl z _

theorem TableKept.mexTake (s : State) : TableKept s s.mexTake := .of_frame s.mexTake_frame rfl rfl rfl rfl

theorem Zone.restarted_raised (zones : Vector Zone 64) (z : ZoneNo) : ((mapVector Zone.restarted zones).get z).raised = 0 := by
  rw [mapVector_get]
  rfl

theorem CountsExact.grant {s : State} (h : CountsExact s) : CountsExact s.grant := by
  unfold State.grant
  split
  · unfold State.mexTold
    split
    · exact h.restartClear rfl rfl rfl fun z => Zone.restarted_raised s.zones z
    all_goals
      refine CountsExact.kept ?_ (.mexTake _)
      exact h.kept (.of_eq rfl rfl rfl rfl)
  · exact h.kept (.of_eq rfl rfl rfl rfl)

theorem DetectorRecord.overdue_present (r : DetectorRecord) {now : Nat} (overdue : r.overdue now = true) :
    r.isMissing = false := by
  unfold DetectorRecord.overdue at overdue
  obtain ⟨present, -⟩ := (Bool.and_eq_true_iff.mp overdue)
  obtain ⟨-, present⟩ := (Bool.and_eq_true_iff.mp present)
  exact (Bool.not_eq_true' _).mp present

theorem TableKept.advanceSweep (s : State) (i : Nat) : TableKept s (s.advanceSweep i) := by
  unfold State.advanceSweep
  split
  · exact .of_eq rfl rfl rfl rfl
  · exact .of_eq rfl rfl rfl rfl

/-- A present or awaited record becomes MISSING and the missing count follows (R126, R131). -/
theorem CountsExact.visit {s : State} (h : CountsExact s) (i : Nat) : CountsExact (s.visit i) := by
  unfold State.visit
  split
  · exact h
  · next r record =>
    split
    · next overdue =>
      have quiet := h.quiet record
      refine h.put record { r with presence := .missing } (s.markMissing i r) rfl rfl ?_ (fun _ => rfl) (fun _ => rfl)
        quiet
      rw [r.overdue_present overdue]
      rfl
    · exact h

theorem CountsExact.reset {s : State} (dtu : s.dtu = .empty 512) (pages : s.pages = .powerOn) (su : s.su = .cleared)
    (zones : s.zones = Vector.replicate 64 .powerOn) : CountsExact s := by
  rw [CountsExact.iff]
  unfold State.tableSize State.zone
  rw [dtu, pages, su, zones]
  refine ⟨.empty 512, ?_, fun z => ?_, fun i r record => ?_⟩
  · rw [Dtu.tally_none (Dtu.recordAt_empty 512)]
    rfl
  · rw [Dtu.tally_none (Dtu.recordAt_empty 512), vector_get_replicate]
    rfl
  · exact nomatch (Dtu.recordAt_empty 512 i).symm.trans record

theorem CountsExact.moves {s t : State} (moves : Moves s t) (h : CountsExact s) : CountsExact t := by
  cases moves with
  | powered => exact .reset rfl rfl rfl rfl
  | radio hd rx f => exact h.kept (.of_frame ((s.setHeadRx hd rx).takeRadio_frame hd f) rfl rfl rfl rfl)
  | status hd rx busy =>
    exact h.kept (.of_frame (State.takeStatus_frame (s.setHeadRx hd rx) hd busy) rfl rfl rfl rfl)
  | ticked => exact h.kept (.tick s)
  | lapsed _ _ => exact h.kept (.lapseZone s _ _)
  | swept => exact h.kept (.sweepExpiry s)
  | slotStarted c => exact h.kept (.of_frame (State.slotStart_frame { s with clock := c }) rfl rfl rfl rfl)
  | frameTaken _ => exact h.kept (.of_frame s.takeFrame_frame rfl rfl rfl rfl)
  | lookedUp _ => exact h.kept (.of_frame (s.answerLookup_frame _) rfl rfl rfl rfl)
  | completed _ => exact (h.decideFrame _ _ _ _).kept (.of_eq rfl rfl rfl rfl)
  | visited i => exact (h.visit i).kept (.advanceSweep _ i)
  | granted _ => exact h.grant
  | sent _ =>
    refine CountsExact.kept ?_ (.alarmSent _ _)
    exact h.kept (.of_eq rfl rfl rfl rfl)
  | offered rx payload =>
    refine CountsExact.kept ?_ (.mexTake _)
    exact h.kept (.of_eq rfl rfl rfl rfl)
  | answered x tag code after effect => exact (h.effect effect).kept (.of_eq rfl rfl rfl rfl)
  | _ => exact h.kept (.of_eq rfl rfl rfl rfl)

/-! ## Every row, and the chains -/

theorem ChainsExact.of_frame {s t u : State} (h : ChainsExact s) (frame : t = u) (dtu : u.dtu = s.dtu)
    (memory : u.pages.memory = s.pages.memory) : ChainsExact t := by
  rw [frame]
  exact h.same dtu memory

theorem ChainsExact.putRecord {s : State} (h : ChainsExact s) {i : Nat} {r : DetectorRecord}
    (record : s.dtu.recordAt i = some r) {q : DetectorRecord} (address : q.address = r.address) :
    ChainsExact (s.putRecord i q) :=
  h.table rfl fun chained => chained.putRecord record address

theorem ChainsExact.of_empty {s : State} {size : Nat} (dtu : s.dtu = .empty size) (pages : s.tableSize = size)
    (sized : size = 256 ∨ size = 512 ∨ size = 1024) : ChainsExact s := by
  rw [ChainsExact.iff]
  unfold State.buckets
  rw [dtu, pages]
  exact ⟨sized, .empty size⟩

theorem ChainsExact.disableRecord {s : State} (h : ChainsExact s) {i : Nat} {r : DetectorRecord}
    (record : s.dtu.recordAt i = some r) : ChainsExact (s.disableRecord i r) := by
  have put : ChainsExact (s.putRecord i { r.levelNormal (s.zone r.zone).epoch with enabled := false }) :=
    h.putRecord record rfl
  have frame := s.disableRecord_frame i r
  exact put.same frame.dtu_eq (congrArg Pages.memory frame.pages_eq)

theorem TableExact.effect {s t : State} (effect : CommandEffect s t) (h : TableExact s) : ChainsExact t := by
  obtain ⟨counts, h⟩ := h
  cases effect with
  | collided record => exact h.putRecord record rfl
  | @enrolled c i rest absent free =>
    obtain ⟨within, empty⟩ := counts.free.head free
    exact h.table rfl fun chained => chained.join h.buckets_pos within empty rest (s.enrolledRecord c) (h.absent absent)
  | @amended c fresh i n rest old record address free =>
    obtain ⟨within, empty⟩ := counts.free.head free
    obtain ⟨-, -, -, kept⟩ := s.amendedRecord_like old c fresh
    have moved := fun chained : s.dtu.Chained s.buckets =>
      chained.move h.buckets_pos record within empty (kept.trans address.symm) rest
    rw [kept] at moved
    rw [s.amendMove_frame]
    exact h.table rfl moved
  | @withdrawn i r record =>
    rw [s.withdrawRecord_frame]
    exact h.table rfl fun chained => chained.leave h.buckets_pos record
  | cleared =>
    have removed : ChainsExact s.removeAll := h.of_frame s.removeAll_onlyRemoval rfl rfl
    exact removed.table rfl fun chained => chained.cleared
  | disabled record _ => exact h.disableRecord record
  | enabled record _ => exact h.putRecord record rfl
  | headReset hd => exact h.of_frame (s.resetHead_frame hd) rfl rfl
  | zoneReset _ => exact h.table rfl fun chained => chained.mapRecords fun r => (r.epochWrapped_like _ _).2.1
  | zoneEnabled _ => exact h.of_frame (s.enableZone_frame _) rfl rfl
  | ordered scope r _ => exact h.of_frame (s.placeOrder_orders scope _ r) rfl rfl
  | pages memory => exact h.same rfl memory
  | timed p => exact h.of_frame (s.storeTiming_frame p) rfl rfl
  | split _ sized =>
    rw [s.storeMemory_frame]
    exact .of_empty rfl rfl sized
  | started =>
    rw [s.startUp_frame]
    exact h.table rfl fun chained => chained.mapRecords fun r => (r.rearmed_like _ _).2.2.2.2
  | stopped => exact h.kept (.shutDown s)
  | _ => exact h.same rfl rfl

theorem ChainsExact.grant {s : State} (h : ChainsExact s) : ChainsExact s.grant := by
  unfold State.grant
  split
  · unfold State.mexTold
    split
    · exact h.table rfl fun chained => chained.mapRecords fun _ => rfl
    all_goals
      refine ChainsExact.kept ?_ (.mexTake _)
      exact h.same rfl rfl
  · exact h.same rfl rfl

theorem ChainsExact.visit {s : State} (h : ChainsExact s) (i : Nat) : ChainsExact (s.visit i) := by
  unfold State.visit
  split
  · exact h
  · next record =>
    split
    · exact h.table rfl fun chained => chained.putRecord record rfl
    · exact h

theorem TableExact.moves {s t : State} (moves : Moves s t) (h : TableExact s) : TableExact t := by
  refine ⟨h.1.moves moves, ?_⟩
  have chains := h.2
  cases moves with
  | powered => exact .of_empty rfl rfl (.inr (.inl rfl))
  | radio hd rx f => exact chains.of_frame ((s.setHeadRx hd rx).takeRadio_frame hd f) rfl rfl
  | status hd rx busy => exact chains.of_frame (State.takeStatus_frame (s.setHeadRx hd rx) hd busy) rfl rfl
  | ticked => exact chains.kept (.tick s)
  | lapsed _ _ => exact chains.kept (.lapseZone s _ _)
  | swept => exact chains.kept (.sweepExpiry s)
  | slotStarted c => exact chains.of_frame (State.slotStart_frame { s with clock := c }) rfl rfl
  | frameTaken _ => exact chains.of_frame s.takeFrame_frame rfl rfl
  | lookedUp _ => exact chains.of_frame (s.answerLookup_frame _) rfl rfl
  | completed _ => exact (chains.decideFrame _ _ _ _).same rfl rfl
  | visited i => exact (chains.visit i).kept (.advanceSweep _ i)
  | granted _ => exact chains.grant
  | sent _ =>
    refine ChainsExact.kept ?_ (.alarmSent _ _)
    exact chains.same rfl rfl
  | offered rx payload =>
    refine ChainsExact.kept ?_ (.mexTake _)
    exact chains.same rfl rfl
  | answered x tag code after effect => exact (h.effect effect).same rfl rfl
  | _ => exact chains.same rfl rfl

end Sys2Proof.Machine

namespace Sys2Proof.Proofs

open Sys2Proof Sys2Proof.Machine

/-- Settles O59: each row's change of the table, with the change of the counts that goes with it. -/
theorem countsStayExact : Obligations.CountsStayExact :=
  ⟨keptByEveryStep (fun _ _ moves h => CountsExact.moves moves h) (fun _ _ h => h),
    keptByEveryStep (fun _ _ moves h => TableExact.moves moves h) (fun _ _ h => h)⟩

end Sys2Proof.Proofs
end

