-- ==== Sys2Proof/Proofs/PowerOn.lean ====
section
/-! The queue of waiting commands, power-on reset (R185), and the invariants at power-on. -/

namespace Sys2Proof.Machine

/-! ## The invariants at power-on -/

theorem withinDepths_reset : WithinDepths State.reset :=
  (withinDepths_iff _).mpr ⟨.reset rfl rfl, .empty rfl, .empty rfl, .reset⟩

theorem poolConserved_reset : PoolConserved State.reset := .empty rfl rfl

theorem tableExact_reset : TableExact State.reset := ⟨.reset rfl rfl rfl rfl, .of_empty rfl rfl (.inr (.inl rfl))⟩

theorem listsDistinct_reset : ListsDistinct State.reset :=
  ⟨⟨.nil, by decide, fun _ held => absurd held List.not_mem_nil, .nil, fun _ held => absurd held List.not_mem_nil⟩,
    .nil, fun _ held => absurd held List.not_mem_nil⟩

/-! ## The words of the statements -/

theorem bucketIndex_eq (a : Address) (buckets : Nat) : bucketIndex a buckets
    = ((a.toNat % 256) + 3 * (a.toNat / 256 % 256) + 7 * (a.toNat / 65536)) % buckets := by
  have bytes : a.toNat / 65536 % 256 = a.toNat / 65536 := Nat.mod_eq_of_lt (by have := a.isLt; omega)
  unfold bucketIndex
  simp only [BitVec.extractLsb'_toNat, Nat.shiftRight_eq_div_pow, Nat.reducePow, Nat.div_one, bytes]

theorem Dtu.at_beyond {d : Dtu} {i : Nat} (beyond : d.slots.length ≤ i) : d.recordAt i = none ∧ d.epochAt i = 0 := by
  unfold Dtu.recordAt Dtu.epochAt
  rw [List.getElem?_eq_none beyond]
  exact ⟨rfl, rfl⟩

theorem Dtu.at_slot {d : Dtu} {i : Nat} {x : Slot} (slot : d.slots[i]? = some x) :
    d.recordAt i = x.record ∧ d.epochAt i = x.epoch := by
  unfold Dtu.recordAt Dtu.epochAt
  rw [slot]
  exact ⟨rfl, rfl⟩

theorem PanelFrame.alarmZone_eq (f : PanelFrame) : f.alarmZone = match f with
    | .record r => if r.body.kind = .zoneAlarm then r.zone else none
    | .reply _ => none
    | .summary _ => none := by
  cases f <;> rfl

end Sys2Proof.Machine

namespace Sys2Proof.Proofs

open Sys2Proof Sys2Proof.Machine

/-- Settles O60: each invariant holds of an empty part, and the words are their definitions. -/
theorem invariantsHoldAtReset : Obligations.InvariantsHoldAtReset :=
  ⟨zonesSound_reset, withinDepths_reset, poolConserved_reset, tableExact_reset, listsDistinct_reset, rfl, rfl,
    fun s => ⟨rfl, rfl, rfl, fun a => bucketIndex_eq a s.buckets, fun _ => rfl, fun _ => rfl⟩,
    fun _ => ⟨rfl, fun _ => rfl, fun _ => ⟨Dtu.at_beyond, fun _ => Dtu.at_slot, fun _ => rfl⟩⟩,
    PanelFrame.alarmZone_eq⟩

/-- Settles O3: power-on reset writes out `State.reset`. -/
theorem powerOnResetValues : Obligations.PowerOnResetValues := ⟨fun _ => rfl, fun _ => rfl, rfl⟩

/-- Settles O1 from the two cases of `step`. -/
theorem frontCommandRuns : Obligations.FrontCommandRuns := by
  refine ⟨fun _ _ _ => rfl, fun s empty => ?_⟩
  unfold step
  rw [empty]

end Sys2Proof.Proofs
end

