-- ==== Sys2Proof/Proofs/HeadLinks.lean ====
section
/-! The rows of the head links (section 2): sending, admission, head statuses and slot starts. -/

namespace Sys2Proof.Machine

/-! ## One head -/

theorem HeadBecomes.modifyHead (s : State) (h : HeadNo) (f : Head → Head) :
    HeadBecomes s (s.modifyHead h f) h (f (s.head h)) :=
  ⟨by rw [State.head_modifyHead, if_pos rfl], fun k other => by rw [State.head_modifyHead, if_neg other]⟩

theorem HeadBecomes.trans {s t u : State} {h : HeadNo} {v w : Head} (one : HeadBecomes s t h v)
    (two : HeadBecomes t u h w) : HeadBecomes s u h w :=
  ⟨two.1, fun k other => (two.2 k other).trans (one.2 k other)⟩

theorem HeadBecomes.of_heads {s t u : State} {h : HeadNo} {v : Head} (becomes : HeadBecomes s t h v)
    (heads : u.heads = t.heads) : HeadBecomes s u h v := by
  unfold HeadBecomes State.head at becomes ⊢
  rwa [heads]

/-- A head's receiver is as the bytes left it, then the head is changed. -/
theorem HeadBecomes.received (s : State) (h : HeadNo) (rx : HeadReceiver) (f : Head → Head) :
    HeadBecomes s ((s.setHeadRx h rx).modifyHead h f) h (f { s.head h with rx := rx }) := by
  have received := HeadBecomes.modifyHead s h fun v => { v with rx := rx }
  have changed := HeadBecomes.modifyHead (s.setHeadRx h rx) h f
  have head : (s.setHeadRx h rx).head h = { s.head h with rx := rx } := received.1
  rw [head] at changed
  exact received.trans changed

/-! ## Sending (R44) -/

theorem exec_headFrameSend {s : State} {h : HeadNo} {f : HeadFrame} {rest : List HeadFrame}
    (free : (s.head h).sending = none) (waits : (s.head h).txFifo = f :: rest) :
    exec (.headFrameSend h) s
      = .next (s.modifyHead h fun v => { v with txFifo := rest, sending := some { frame := f, wire := f.wire } }) := by
  show execHeadFrameSend h s = _
  unfold execHeadFrameSend
  rw [free, waits]

theorem exec_headTransmissionComplete (s : State) (h : HeadNo) :
    exec (.headTransmissionComplete h) s = .next (s.modifyHead h fun v => { v with sending := none }) := rfl

/-! ## Admission (R34 to R36) -/

theorem exec_radioFrame {s : State} {h : HeadNo} {bytes : List Byte} {rx : HeadReceiver} {f : RadioFrame}
    (fed : (s.head h).rx.feed bytes = (rx, [.radio f])) :
    exec (.radioFrame h bytes) s = .next ((s.setHeadRx h rx).takeRadio h f) := by
  show execRadioFrame h bytes s = _
  unfold execRadioFrame
  rw [fed]

theorem State.takeRadio_loading {s : State} (loading : s.mode = .loading) (h : HeadNo) (f : RadioFrame) :
    s.takeRadio h f = s.countHead h fun c => { c with notRunning := inc16 c.notRunning } := by
  unfold State.takeRadio
  rw [if_pos loading]

theorem State.takeRadio_unknown {s : State} (running : s.mode = .running) (h : HeadNo) {f : RadioFrame}
    (kind : FrameKind.ofCode f.kind = none) :
    s.takeRadio h f = s.countHead h fun c => { c with unknownKind := inc16 c.unknownKind } := by
  unfold State.takeRadio
  rw [if_neg (by rw [running]; decide), kind]

theorem State.takeRadio_known {s : State} (running : s.mode = .running) (h : HeadNo) {f : RadioFrame} {k : FrameKind}
    (kind : FrameKind.ofCode f.kind = some k) : s.takeRadio h f =
      if 3 < f.hop.toNat then s.countHead h fun c => { c with hopLimit := inc16 c.hopLimit }
      else if f.payload.length ≠ k.payloadLength then s.countHead h fun c => { c with length := inc16 c.length }
      else s.placeFrame h f := by
  unfold State.takeRadio
  rw [if_neg (by rw [running]; decide), kind]

/-- Whether the pool has a block for a frame (R35). -/
def Intake.HasRoom (i : Intake) (f : RadioFrame) : Prop := if f.urgent then 0 < i.freeBlocks else 32 < i.freeBlocks

theorem Intake.not_hasRoom (i : Intake) (f : RadioFrame) :
    ¬ i.HasRoom f ↔ if f.urgent then i.freeBlocks = 0 else i.freeBlocks ≤ 32 := by
  unfold Intake.HasRoom
  split
  · exact Nat.pos_iff_ne_zero.not.trans not_not
  · exact Nat.not_lt

theorem Mode.running_of_ne_loading {m : Mode} (other : m ≠ .loading) : m = .running := by
  cases m with
  | loading => exact absurd rfl other
  | running => rfl

theorem State.placeFrame_roomless {s : State} (h : HeadNo) {f : RadioFrame} (roomless : ¬ s.intake.HasRoom f) :
    s.placeFrame h f = s.countHead h fun c => { c with poolFull := inc16 c.poolFull } := by
  unfold Intake.HasRoom at roomless
  unfold State.placeFrame
  dsimp only
  split
  · next urgent =>
    rw [if_pos urgent] at roomless
    exact if_neg roomless
  · next normal =>
    rw [if_neg normal] at roomless
    exact if_neg roomless

theorem State.placeFrame_room {s : State} (h : HeadNo) {f : RadioFrame} (room : s.intake.HasRoom f) :
    s.placeFrame h f = ({ s with intake :=
      { freeBlocks := s.intake.freeBlocks - 1,
        urgentLane := if f.urgent then s.intake.urgentLane ++ [⟨f, h, s.clock.stamp⟩] else s.intake.urgentLane,
        normalLane := if f.urgent then s.intake.normalLane else s.intake.normalLane ++ [⟨f, h, s.clock.stamp⟩] } } :
      State).countHead h fun c => { c with admitted := inc16 c.admitted } := by
  unfold Intake.HasRoom at room
  unfold State.placeFrame
  dsimp only
  by_cases urgent : f.urgent = true
  · simp only [if_pos urgent] at room ⊢
    exact if_pos room
  · simp only [if_neg urgent] at room ⊢
    exact if_pos room

theorem FrameKind.ofCode_eq (b : Byte) : FrameKind.ofCode b = if b = 0 then some .check
    else if b = 1 then some .reading else if b = 2 then some .dualReading else if b = 3 then some .callState
    else if b = 4 then some .sounderState else none := by
  revert b
  decide

/-! ## Slot starts (R42, R43, R45) -/

theorem exec_slotTimerExpiry {s : State} (armed : s.clock.slotTimer.isSome = true) : exec .slotTimerExpiry s = .next
    ({ s with clock := { s.clock.advance with slotTimer := some s.pages.air.slotLength } } : State).slotStart := by
  show execSlotTimerExpiry s = _
  unfold execSlotTimerExpiry
  rw [if_pos armed]

theorem acksOf_eq (fifo : List HeadFrame) : acksOf fifo = fifo.flatMap fun f => match f with
    | .ack a _ _ _ held => [(a, held)]
    | .tune _ _ _ => []
    | .beacon _ _ => [] := by
  induction fifo with
  | nil => rfl
  | cons f rest ih =>
    unfold acksOf at ih ⊢
    rw [List.filterMap_cons, List.flatMap_cons, ← ih]
    cases f <;> rfl

theorem Hcq.notSent_absent {q : Hcq} {a : Address} {n : Byte}
    (absent : ∀ y ∈ q.entries, ¬ (y.target = a ∧ y.number = n ∧ y.state = .sent)) : q.notSent a n = q := by
  unfold Hcq.notSent
  refine if_neg fun found => ?_
  obtain ⟨y, member, sent⟩ := List.any_eq_true.mp found
  unfold HeldEntry.sentTo at sent
  simp only [Bool.and_eq_true, beq_iff_eq] at sent
  exact absent y member ⟨sent.1.1, sent.2, sent.1.2⟩

/-! ## Head statuses (R29, R31) -/

theorem exec_headStatus {s : State} {h : HeadNo} {bytes : List Byte} {rx : HeadReceiver} {busy : Byte}
    (fed : (s.head h).rx.feed bytes = (rx, [.status busy])) :
    exec (.headStatus h bytes) s = .next ((s.setHeadRx h rx).takeStatus h busy.toNat) := by
  show execHeadStatus h bytes s = _
  unfold execHeadStatus
  rw [fed]

/-- A head, the records raised, and nothing else: what a row of one head makes of the part. -/
def OnlyHeadAndRecords (s t : State) (h : HeadNo) (v : Head)
    (records : List (EventBody × Option ZoneNo × Option Address × Option DetectorKind)) : Prop :=
  HeadBecomes s t h v ∧ t.evu = s.evuAfter records ∧ t = { s with heads := t.heads, evu := t.evu }

theorem OnlyHeadAndRecords.modifyHead (s : State) (h : HeadNo) (f : Head → Head) :
    OnlyHeadAndRecords s (s.modifyHead h f) h (f (s.head h)) [] :=
  ⟨.modifyHead s h f, rfl, rfl⟩

theorem OnlyHeadAndRecords.raised (s : State) (h : HeadNo) (f : Head → Head) (b : EventBody) :
    OnlyHeadAndRecords s ((s.modifyHead h f).raiseHead b) h (f (s.head h)) [(b, none, none, none)] :=
  ⟨HeadBecomes.of_heads (.modifyHead s h f) rfl, rfl, rfl⟩

theorem OnlyHeadAndRecords.trans {s t u : State} {h : HeadNo} {v w : Head}
    {l m : List (EventBody × Option ZoneNo × Option Address × Option DetectorKind)}
    (one : OnlyHeadAndRecords s t h v l) (two : OnlyHeadAndRecords t u h w m) :
    OnlyHeadAndRecords s u h w (l ++ m) := by
  obtain ⟨becomes, evu, frame⟩ := one
  obtain ⟨becomes', evu', frame'⟩ := two
  have now : t.now = s.now := by rw [frame]; rfl
  refine ⟨becomes.trans becomes', evu'.trans (State.evuAfter_after evu now _), ?_⟩
  rw [frame', frame]

/-- Jam detection with one busy level (R31): whether the run of five is complete, and what the head becomes. -/
theorem State.jamCheck_spec (s : State) (h : HeadNo) (busy : Nat) :
    let v := s.head h
    let above := decide (s.pages.air.jamThreshold ≤ min busy 100)
    let flips := above ≠ v.jam ∧ 5 ≤ v.jamRun + 1
    OnlyHeadAndRecords s (s.jamCheck h busy) h
      { v with jam := if flips then !v.jam else v.jam,
               jamRun := if above = v.jam then 0 else if 5 ≤ v.jamRun + 1 then 0 else v.jamRun + 1 }
      (if flips then [(if v.jam then EventBody.headClear h else EventBody.headJammed h, none, none, none)] else []) := by
  dsimp only
  unfold State.jamCheck
  dsimp only
  generalize decide (s.pages.air.jamThreshold ≤ min busy 100) = above
  by_cases same : above = (s.head h).jam
  · have stays : ¬ (above ≠ (s.head h).jam ∧ 5 ≤ (s.head h).jamRun + 1) := fun flips => flips.1 same
    rw [if_pos same, if_pos same, if_neg stays, if_neg stays]
    exact .modifyHead s h _
  · rw [if_neg same, if_neg same]
    by_cases short : (s.head h).jamRun + 1 < 5
    · have stays : ¬ (above ≠ (s.head h).jam ∧ 5 ≤ (s.head h).jamRun + 1) := fun flips => absurd flips.2 (by omega)
      rw [if_pos short, if_neg stays, if_neg stays, if_neg (by omega)]
      exact .modifyHead s h _
    · have flips : above ≠ (s.head h).jam ∧ 5 ≤ (s.head h).jamRun + 1 := ⟨same, by omega⟩
      rw [if_neg short, if_pos flips, if_pos flips, if_pos flips.2]
      exact .raised s h _ _

theorem State.takeStatus_spec (s : State) (h : HeadNo) (busy : Nat) :
    let v := s.head h
    let above := decide (s.pages.air.jamThreshold ≤ min busy 100)
    let flips := above ≠ v.jam ∧ 5 ≤ v.jamRun + 1
    OnlyHeadAndRecords s (s.takeStatus h busy) h
      { v with link := .up, statusSeen := true, missed := 0,
               jam := if flips then !v.jam else v.jam,
               jamRun := if above = v.jam then 0 else if 5 ≤ v.jamRun + 1 then 0 else v.jamRun + 1,
               counters := { v.counters with statuses := inc16 v.counters.statuses } }
      ((if v.link = .up then [] else [(EventBody.headUp h, none, none, none)])
        ++ (if flips then [(if v.jam then EventBody.headClear h else EventBody.headJammed h, none, none, none)]
            else [])) := by
  have risen : OnlyHeadAndRecords s (if (s.head h).link = .up then s.modifyHead h fun v =>
        { v with link := .up, statusSeen := true, missed := 0,
                 counters := { v.counters with statuses := inc16 v.counters.statuses } }
      else (s.modifyHead h fun v =>
        { v with link := .up, statusSeen := true, missed := 0,
                 counters := { v.counters with statuses := inc16 v.counters.statuses } }).raiseHead (.headUp h)) h
      { s.head h with link := .up, statusSeen := true, missed := 0,
                      counters := { (s.head h).counters with statuses := inc16 (s.head h).counters.statuses } }
      (if (s.head h).link = .up then [] else [(EventBody.headUp h, none, none, none)]) := by
    split
    · exact .modifyHead s h _
    · exact .raised s h _ _
  unfold State.takeStatus
  dsimp only
  generalize (if (s.head h).link = .up then _ else State.raiseHead _ _) = t at risen ⊢
  have judged := t.jamCheck_spec h busy
  have air : t.pages.air = s.pages.air := by rw [risen.2.2]
  rw [risen.1.1, air] at judged
  exact risen.trans judged

end Sys2Proof.Machine

namespace Sys2Proof.Proofs

open Sys2Proof Sys2Proof.Machine

/-- Settles O8 from the two rows of a head link; the bytes of a frame are its layout's. -/
theorem headLinkSends : Obligations.HeadLinkSends := by
  refine ⟨fun s h f rest free waits => ?_, fun s h x _ => ?_, fun channel superframe slot orders a q x => ?_⟩
  · exact ⟨_, exec_headFrameSend free waits, .modifyHead s h _, rfl⟩
  · exact ⟨_, exec_headTransmissionComplete s h, .modifyHead s h _, rfl⟩
  · exact ⟨rfl, rfl, rfl, rfl⟩

/-- Settles O4: a frame that passes the checks is placed, and placing it finds room. -/
theorem radioFrameAdmitted : Obligations.RadioFrameAdmitted := by
  refine ⟨fun s h bytes rx f k fed running kind hop length room => ?_, fun _ => rfl⟩
  refine ⟨_, exec_radioFrame fed, ?_⟩
  rw [State.takeRadio_known (s := s.setHeadRx h rx) running h kind, if_neg (Nat.not_lt.mpr hop),
    if_neg (not_not_intro length), State.placeFrame_room (s := s.setHeadRx h rx) h room]
  refine ⟨?_, HeadBecomes.of_heads (HeadBecomes.received s h rx fun v =>
    { v with counters := { v.counters with admitted := inc16 v.counters.admitted } }) rfl, rfl⟩
  rw [← SlotClock.stamp_eq]
  rfl

/-- Settles O5: the checks of R34 in their order, each with the counter of the first that fails. -/
theorem radioFrameNotAdmitted : Obligations.RadioFrameNotAdmitted := by
  refine ⟨fun s h bytes rx f fed => ?_, FrameKind.ofCode_eq, rfl⟩
  intro c roomless badLength refused
  have counted : ∀ g, (s.setHeadRx h rx).takeRadio h f = (s.setHeadRx h rx).countHead h g →
      ∃ t, exec (.radioFrame h bytes) s = .next t ∧ HeadBecomes s t h { s.head h with rx := rx, counters := g c }
        ∧ t = { s with heads := t.heads } := fun g taken =>
    ⟨_, exec_radioFrame fed, taken ▸ HeadBecomes.received s h rx fun v => { v with counters := g v.counters },
      taken ▸ rfl⟩
  by_cases loading : s.mode = .loading
  · obtain ⟨t, stepped, head, frame⟩ := counted _ (State.takeRadio_loading (s := s.setHeadRx h rx) loading h f)
    have notRunning : ∀ {p : Prop}, s.mode = .running → p := fun running => nomatch loading.symm.trans running
    exact ⟨t, _, stepped, head, fun _ => rfl, notRunning, notRunning, notRunning, notRunning, frame⟩
  have running : s.mode = .running := Mode.running_of_ne_loading loading
  cases kind : FrameKind.ofCode f.kind with
  | none =>
    obtain ⟨t, stepped, head, frame⟩ := counted _ (State.takeRadio_unknown (s := s.setHeadRx h rx) running h kind)
    exact ⟨t, _, stepped, head, fun l => absurd l loading, fun _ _ => rfl, fun _ known => absurd rfl known,
      fun _ known => absurd rfl known, fun _ known => absurd rfl known, frame⟩
  | some k =>
    have known := State.takeRadio_known (s := s.setHeadRx h rx) running h kind
    have wrongLength : badLength ↔ f.payload.length ≠ k.payloadLength :=
      ⟨fun bad => bad k kind, fun wrong j named => Option.some.inj (kind.symm.trans named) ▸ wrong⟩
    by_cases hop : 3 < f.hop.toNat
    · rw [if_pos hop] at known
      obtain ⟨t, stepped, head, frame⟩ := counted _ known
      exact ⟨t, _, stepped, head, fun l => absurd l loading, fun _ n => (nomatch n), fun _ _ _ => rfl,
        fun _ _ near => absurd hop (Nat.not_lt.mpr near), fun _ _ near => absurd hop (Nat.not_lt.mpr near), frame⟩
    rw [if_neg hop] at known
    by_cases wrong : f.payload.length ≠ k.payloadLength
    · rw [if_pos wrong] at known
      obtain ⟨t, stepped, head, frame⟩ := counted _ known
      exact ⟨t, _, stepped, head, fun l => absurd l loading, fun _ n => (nomatch n), fun _ _ far => absurd far hop,
        fun _ _ _ _ => rfl, fun _ _ _ good => absurd (wrongLength.mpr wrong) good, frame⟩
    · have full : ¬ s.intake.HasRoom f := by
        have roomless : roomless := by
          rcases refused with l | n | far | bad | roomless
          · exact absurd l loading
          · exact nomatch kind.symm.trans n
          · exact absurd far hop
          · exact absurd (wrongLength.mp bad) wrong
          · exact roomless
        exact (Intake.not_hasRoom s.intake f).mpr roomless
      rw [if_neg wrong, State.placeFrame_roomless (s := s.setHeadRx h rx) h full] at known
      obtain ⟨t, stepped, head, frame⟩ := counted _ known
      exact ⟨t, _, stepped, head, fun l => absurd l loading, fun _ n => (nomatch n), fun _ _ far => absurd far hop,
        fun _ _ _ bad => absurd (wrongLength.mp bad) wrong, fun _ _ _ _ => rfl, frame⟩

/-- Settles O6: a status raises the head to UP, then jam detection judges its busy level. -/
theorem headStatusTaken : Obligations.HeadStatusTaken := by
  intro s h bytes rx busy fed
  have received := HeadBecomes.modifyHead s h fun v => { v with rx := rx }
  have spec := State.takeStatus_spec (s.setHeadRx h rx) h busy.toNat
  have head : (s.setHeadRx h rx).head h = { s.head h with rx := rx } := received.1
  rw [head] at spec
  obtain ⟨becomes, evu, frame⟩ := spec
  exact ⟨_, exec_headStatus fed, received.trans becomes, evu, frame⟩

/-- Settles O10: `State.slotStart_spec` after the clock has advanced. -/
theorem slotTimerStartsSlot : Obligations.SlotTimerStartsSlot := by
  refine ⟨fun s armed => ?_, fun f => ?_, acksOf_eq, fun q a n => ⟨fun absent => ?_, fun before x after q_eq target
    number state none_before => ?_⟩⟩
  · have spec := State.slotStart_spec { s with clock := { s.clock.advance with slotTimer := some s.pages.air.slotLength } }
    have frame := State.slotStart_frame { s with clock := { s.clock.advance with slotTimer := some s.pages.air.slotLength } }
    have stepped := exec_slotTimerExpiry armed
    generalize State.slotStart _ = t at spec frame stepped
    obtain ⟨hcq, heads⟩ := spec
    refine ⟨t, stepped, ?_, ?_, hcq, ?_, heads⟩
    · rw [frame]
      rfl
    · rw [frame]
    · rw [hcq]
      exact (Hcq.toldNotSent_keeps _ s.hcq).1
  · cases f <;> rfl
  · exact Hcq.notSent_absent absent
  · exact Hcq.notSent_split q_eq ⟨target, state, number⟩ fun y member held =>
      none_before y member ⟨held.1, held.2.2, held.2.1⟩

end Sys2Proof.Proofs
end

