-- ==== Sys2Proof/Proofs/LinkFrames.lean ====
section
/-! Which bytes of a head link and of the panel link are which frame (R171, R186 to R188), and what a discarded frame
does (R28, R171). -/

namespace Sys2Proof.Machine

/-! ## Discarded frames -/

theorem exec_headLinkDiscard {s : State} {h : HeadNo} {bytes : List Byte} {rx : HeadReceiver}
    (fed : (s.head h).rx.feed bytes = (rx, [.discard])) : exec (.headLinkDiscard h bytes) s
      = .next ((s.setHeadRx h rx).countHead h fun c => { c with linkError := inc16 c.linkError }) := by
  show execHeadLinkDiscard h bytes s = _
  unfold execHeadLinkDiscard
  rw [fed]

theorem exec_badPanelFrame {s : State} {bytes : List Byte} {rx : PanelReceiver}
    (fed : s.pli.rx.feed bytes = (rx, [.bad])) : exec (.badPanelFrame bytes) s
      = .next { s with pli := { s.pli with rx := rx, badFrames := inc16 s.pli.badFrames } } := by
  show execBadPanelFrame bytes s = _
  unfold execBadPanelFrame
  rw [fed]

/-! ## The check (R186) -/

theorem checkBytes_eq (bs : List Byte) :
    let bits := bs.flatMap fun b => [7, 6, 5, 4, 3, 2, 1, 0].map fun i => b.getLsbD i
    let c : BitVec 16 := bits.foldl (fun r b => if r.getLsbD 15 != b then (r <<< 1) ^^^ 0x1021 else r <<< 1) 0xFFFF
    checkBytes bs = [c.extractLsb' 8 8, c.extractLsb' 0 8] := by
  dsimp only
  rw [← checkByte_bits bs 0xFFFF]
  exact byte2_toNat _

theorem eq_pair_of_length {c : List Byte} (two : c.length = 2) : ∃ c1 c2, c = [c1, c2] := List.length_eq_two.mp two

/-! ## A frame of a head link (R187) -/

theorem HeadReceiver.feed_end (body : List Byte) :
    (HeadReceiver.collecting body false).feed [0xC1] = (.ignoring, [judgeHeadFrame body]) := rfl

theorem HeadReceiver.feed_restart (body : List Byte) :
    (HeadReceiver.collecting body false).feed [0xC0] = (.collecting [] false, [.discard])
    ∧ (HeadReceiver.collecting body false).feed [0xC2, 0xC0] = (.collecting [] false, [.discard]) := ⟨rfl, rfl⟩

theorem HeadReceiver.feed_badEscape (body : List Byte) {b : Byte} (start : b ≠ 0xC0) (zero : b ≠ 0x80) (one : b ≠ 0x81)
    (two : b ≠ 0x82) : (HeadReceiver.collecting body false).feed [0xC2, b] = (.ignoring, [.discard]) := by
  have taken : (HeadReceiver.collecting body true).take b = (.ignoring, some .discard) := by
    refine (if_neg (show ¬ b = headStart from start)).trans ?_
    exact if_neg (not_or.mpr ⟨zero, not_or.mpr ⟨one, two⟩⟩)
  show (((HeadReceiver.collecting body true).take b).1, ((HeadReceiver.collecting body true).take b).2.toList ++ []) = _
  rw [taken]
  rfl

/-- A frame with its four outer fields, as it is judged at the end marker. -/
theorem HeadReceiver.feed_frame {n type c1 c2 : Byte} {payload : List Byte} (short : payload.length ≤ 36) :
    HeadReceiver.ignoring.feed (0xC0 :: ((n :: type :: (payload ++ [c1, c2])).flatMap escapeByte ++ [0xC1]))
      = (.ignoring, [judgeHeadFrame (n :: type :: (payload ++ [c1, c2]))]) := by
  refine HeadReceiver.feed_body _ _ ?_
  simp only [List.length_cons, List.length_append, List.length_nil]
  omega

/-- A frame is good when its length field and its check are (R186, R187). -/
def GoodFrame (n type : Byte) (payload c : List Byte) : Prop :=
  n.toNat = payload.length + 1 ∧ c = checkBytes (n :: type :: payload)

theorem judgeHeadFrame_bad {n type c1 c2 : Byte} {payload : List Byte} (bad : ¬ GoodFrame n type payload [c1, c2]) :
    judgeHeadFrame (n :: type :: (payload ++ [c1, c2])) = .discard := by
  rw [judgeHeadFrame_parts, if_pos]
  by_contra fine
  obtain ⟨length, check⟩ := not_or.mp fine
  exact bad ⟨not_not.mp length, (checkBytes_iff _ c1 c2).mpr (not_not.mp check)⟩

theorem judgeHeadFrame_good {n type c1 c2 : Byte} {payload : List Byte} (good : GoodFrame n type payload [c1, c2]) :
    judgeHeadFrame (n :: type :: (payload ++ [c1, c2])) =
      if type = 0x01 ∧ 18 ≤ payload.length ∧ payload.length ≤ 20 then
        .radio (radioFrameOf (payload ++ [c1, c2]) (payload.length - 18))
      else if type = 0x02 ∧ payload.length = 1 then .status (byteAt payload 0)
      else .discard := by
  obtain ⟨length, check⟩ := good
  rw [judgeHeadFrame_parts, if_neg]
  exact not_or.mpr ⟨not_not.mpr length, not_not.mpr ((checkBytes_iff _ c1 c2).mp check)⟩

/-- The bytes of a RADIO_FRAME after its type (10.2). -/
def RadioFrame.bytes (f : RadioFrame) : List Byte :=
  addressBytes f.address ++ [f.kind] ++ byte2 (f.sequence.toNat * 16 + f.retry.toNat) ++ [f.flags, f.done]
    ++ byte4 f.tag.toNat ++ [f.hop] ++ addressBytes f.relay ++ [f.channel, f.signal] ++ f.payload

theorem RadioFrame.bytes_length (f : RadioFrame) : f.bytes.length = 18 + f.payload.length := by
  unfold RadioFrame.bytes addressBytes byte2 byte4
  simp only [List.length_append, List.length_cons, List.length_nil]

theorem judgeHeadFrame_radio {n c1 c2 : Byte} {f : RadioFrame} (good : GoodFrame n 1 f.bytes [c1, c2])
    (short : f.payload.length ≤ 2) : judgeHeadFrame (n :: 1 :: (f.bytes ++ [c1, c2])) = .radio f := by
  have length := f.bytes_length
  rw [judgeHeadFrame_good good, if_pos ⟨rfl, by omega, by omega⟩, length, Nat.add_sub_cancel_left]
  exact congrArg HeadReceipt.radio (radioFrameOf_fields f [c1, c2])

end Sys2Proof.Machine

namespace Sys2Proof.Proofs

open Sys2Proof Sys2Proof.Machine

/-- Settles O7: the two rows, and the receivers byte by byte. -/
theorem discardedFramesCounted : Obligations.DiscardedFramesCounted := by
  refine ⟨fun s h bytes rx fed => ?_, fun s bytes rx fed => exec_badPanelFrame fed, checkBytes_eq,
    fun n a => ⟨rfl, rfl, rfl, rfl⟩, HeadReceiver.feed_append, HeadReceiver.feed_noise, fun body => ?_,
    PanelReceiver.feed_append, PanelReceiver.feed_noise, fun hi lo => ?_⟩
  · exact ⟨_, exec_headLinkDiscard fed, HeadBecomes.received s h rx fun v =>
      { v with counters := { v.counters with linkError := inc16 v.counters.linkError } }, rfl⟩
  · intro line fed
    have started : ∀ bs, body.length ≤ 40 → fed bs = (HeadReceiver.collecting body false).feed bs :=
      fun bs short => HeadReceiver.feed_body body bs short
    refine ⟨fun short => ⟨started [] short, (started _ short).trans (HeadReceiver.feed_restart body).1,
      (started _ short).trans (HeadReceiver.feed_restart body).2, fun b start zero one two =>
        (started _ short).trans (HeadReceiver.feed_badEscape body start zero one two)⟩, fun long => ?_, fun short => ?_,
      fun n type payload c body_eq two short => ?_⟩
    · have dropped := HeadReceiver.feed_long body long
      show HeadReceiver.ignoring.feed (0xC0 :: (body.flatMap escapeByte ++ [])) = _
      rw [List.append_nil]
      exact dropped
    · rw [started _ (by omega), HeadReceiver.feed_end, judgeHeadFrame_short body short]
    · obtain ⟨c1, c2, rfl⟩ := eq_pair_of_length two
      subst body_eq
      intro ends good
      have judged : ∀ v, judgeHeadFrame (n :: type :: (payload ++ [c1, c2])) = v → ends v :=
        fun v verdict => (HeadReceiver.feed_frame short).trans (verdict ▸ rfl)
      refine ⟨fun bad => judged _ (judgeHeadFrame_bad bad), fun g notRadio notStatus => judged _ ?_,
        fun g radio wrong => judged _ ?_, fun g radio f fits spelled => judged _ ?_, fun g status wrong => judged _ ?_,
        fun busy g status spelled => judged _ ?_⟩
      · rw [judgeHeadFrame_good g, if_neg fun both => notRadio both.1, if_neg fun both => notStatus both.1]
      · rw [judgeHeadFrame_good g, if_neg fun both => absurd both.2 (by omega), if_neg]
        rw [radio]
        exact fun both => absurd both.1 (by decide)
      · subst radio
        have bytes : payload = f.bytes := spelled
        subst bytes
        exact judgeHeadFrame_radio g fits
      · rw [judgeHeadFrame_good g, if_neg, if_neg fun both => wrong both.2]
        rw [status]
        exact fun both => absurd both.1 (by decide)
      · subst status spelled
        rw [judgeHeadFrame_good g, if_neg (fun both => absurd both.1 (by decide)), if_pos ⟨rfl, rfl⟩]
        rfl
  · intro n fed
    refine ⟨fun outside => PanelReceiver.feed_badLength hi lo outside, fun positive within => ⟨fun bs part => ?_,
      fun type payload c length two => ?_⟩⟩
    · show PanelReceiver.hunting.feed (0xA5 :: hi :: lo :: bs) = _
      rw [PanelReceiver.feed_start hi lo positive within]
      exact PanelReceiver.feed_part hi lo positive within [] bs (by rw [List.length_nil]; omega)
    · obtain ⟨c1, c2, rfl⟩ := eq_pair_of_length two
      show PanelReceiver.hunting.feed (0xA5 :: hi :: lo :: type :: (payload ++ [c1, c2])) = _
      rw [PanelReceiver.feed_frame hi lo type c1 c2 payload length within]
      simp only [checkBytes_iff]

end Sys2Proof.Proofs
end

