-- ==== Sys2Proof/Proofs/Timers.lean ====
section
/-! The seconds tick and what it times (sections 5 to 8): the tick, the rows beside it, the expiries of the timers and the
sweep's visit. -/

namespace Sys2Proof.Machine

/-! ## The tick (R118; log 9, log 10) -/

theorem State.takeDueExpiries_none {s : State} (sweep : s.su.sweepTimer ≠ some 0) (flush : s.evu.flushTimer ≠ 0)
    (summary : s.evu.summaryTimer ≠ 0) : s.takeDueExpiries = s := by
  have swept : s.takeDueSweep = s := if_neg sweep
  unfold State.takeDueExpiries
  dsimp only
  rw [swept, if_neg flush, if_neg summary]

theorem Evu.placeSummary_kept (e : Evu) (z : ZoneSummary) : (e.placeSummary z).flushTimer = e.flushTimer
    ∧ (e.placeSummary z).contexts = e.contexts ∧ (e.placeSummary z).filters = e.filters := by
  obtain ⟨kept, contexts⟩ := e.grantDue_kept
  exact ⟨kept.flushTimer, contexts, kept.filters⟩

/-- Once the outstanding expiries are taken no timer stands at 0, the periods being 1 or more. -/
theorem State.expiriesTaken_armed {s : State} (sweep : 0 < s.pages.timing.sweep) (flush : 0 < s.pages.timing.flush)
    (summary : 0 < s.pages.timing.summary) : s.expiriesTaken.su.sweepTimer ≠ some 0
      ∧ s.expiriesTaken.evu.flushTimer ≠ 0 ∧ s.expiriesTaken.evu.summaryTimer ≠ 0 := by
  unfold State.expiriesTaken
  dsimp only
  have flushed : (if s.evu.flushTimer = 0 then
      { s.evu.closeAll s.su.clock .flush with flushTimer := s.pages.timing.flush } else s.evu).flushTimer ≠ 0
      ∧ (if s.evu.flushTimer = 0 then
      { s.evu.closeAll s.su.clock .flush with flushTimer := s.pages.timing.flush } else s.evu).summaryTimer
        = s.evu.summaryTimer := by
    split
    · exact ⟨Nat.pos_iff_ne_zero.mp flush, (s.evu.closeAll_kept s.su.clock .flush).1.summaryTimer⟩
    · next running => exact ⟨running, rfl⟩
  generalize (if s.evu.flushTimer = 0 then _ else s.evu : Evu) = e at flushed ⊢
  obtain ⟨running, kept⟩ := flushed
  refine ⟨?_, ?_, ?_⟩
  · split
    · exact fun zero => absurd (Option.some.inj zero) (Nat.pos_iff_ne_zero.mp sweep)
    · next armed => exact armed
  · split
    · rw [State.summaryBuilt_eq]
      exact fun zero => running ((e.placeSummary_kept s.zoneSummary).1.symm.trans zero)
    · exact running
  · split
    · rw [State.summaryBuilt_eq]
      exact Nat.pos_iff_ne_zero.mp summary
    · next armed => exact kept ▸ armed

theorem State.windowReached_iff (s : State) (z : ZoneNo) : s.windowReached z = decide ((s.zone z).enabled = true
    ∧ (s.zone z).state = .verify ∧ (s.zone z).deadline.any (fun d => decide (d ≤ s.now)) = true) := by
  unfold State.windowReached
  rw [Bool.eq_iff_iff, decide_eq_true_iff]
  simp only [Bool.and_eq_true, beq_iff_eq, and_assoc]
  cases (s.zone z).deadline with
  | none => rfl
  | some d => rfl

theorem State.windowReached_congr (s t : State) (z : ZoneNo) (zone : s.zone z = t.zone z) (now : s.now = t.now) :
    s.windowReached z = t.windowReached z := by
  rw [State.windowReached_iff, State.windowReached_iff, zone, now]

theorem State.lapsesReached_evu (s : State) : (allZones.foldl State.lapseIfReached s).evu = s.evuAfter
    ((allZones.filter s.windowReached).map fun z =>
      (.zoneLapse .expiry (if 0 < (s.zone z).raised then .pre else .quiet) (s.zone z).raised, some z, (s.zone z).first,
        none)) :=
  State.lapses_evu .expiry State.windowReached State.lapseIfReached (fun _ _ => rfl) State.windowReached_congr allZones
    (List.nodup_finRange 64) s

theorem State.lapsesReached_zone (s : State) (z : ZoneNo) : (allZones.foldl State.lapseIfReached s).zone z =
    if s.windowReached z = true then
      { s.zone z with state := if 0 < (s.zone z).raised then .pre else .quiet, first := none, deadline := none }
    else s.zone z := by
  have lapsed := State.lapses_zone .expiry State.windowReached State.lapseIfReached (fun _ _ => rfl)
    State.windowReached_congr allZones (List.nodup_finRange 64) s z
  have all : z ∈ allZones := List.mem_finRange z
  simpa only [all, true_and] using lapsed

/-- The heads a tick finds lost (R30). -/
theorem State.heartbeats_all (s : State) : (allHeads.foldl State.heartbeat s).evu = s.evuAfter
      ((allHeads.filter fun h => decide ((s.head h).link = .up
        ∧ 3 ≤ if (s.head h).statusSeen = false then (s.head h).missed + 1 else (s.head h).missed)).map
        fun h => (.headLost h, none, none, none))
    ∧ ∀ h, (allHeads.foldl State.heartbeat s).head h =
      (let v := s.head h
       let missed := if v.link = .up ∧ v.statusSeen = false then v.missed + 1 else v.missed
       { v with missed := missed, statusSeen := false, link := if v.link = .up ∧ 3 ≤ missed then .lost else v.link }) := by
  obtain ⟨evu, heads⟩ := State.heartbeats_spec allHeads (List.nodup_finRange 4) s
  refine ⟨?_, fun h => ?_⟩
  · rw [evu]
    have same : ∀ v : Head, (v.link = .up ∧ 3 ≤ if v.link = .up ∧ v.statusSeen = false then v.missed + 1 else v.missed)
        ↔ (v.link = .up ∧ 3 ≤ if v.statusSeen = false then v.missed + 1 else v.missed) := fun v =>
      and_congr_right fun up => by simp only [up, true_and]
    simp only [same]
  · rw [heads, if_pos (List.mem_finRange h)]
    exact (s.heartbeat_spec h).1.1

/-- The held entries whose deadline is reached (R142). -/
def State.heldExpired (s : State) : List HeldEntry := s.hcq.entries.filter fun e => decide (e.expiry ≤ s.now)

theorem State.expireHeld_spec (s : State) :
    s.expireHeld = { s with
      hcq := { s.hcq with
        entries := s.hcq.entries.filter fun e => decide (s.now < e.expiry),
        counters := { s.hcq.counters with
          expired := countedUp 4294967295 s.hcq.counters.expired s.heldExpired.length } },
      evu := s.evuAfter (s.heldExpired.map fun e =>
        (.commandExpired ⟨e.number, e.code, e.argument⟩ e.state e.attempts, none, some e.target, none)) } := by
  have kept : (fun e : HeldEntry => !e.expiredAt s.now) = fun e => decide (s.now < e.expiry) := funext fun e => by
    show (!decide (e.expiry ≤ s.now)) = decide (s.now < e.expiry)
    rw [← decide_not]
    exact decide_eq_decide.mpr Nat.not_le
  unfold State.expireHeld
  rw [State.expiredAll_spec, kept]
  rfl

/-- The records of a tick in the model's order: heads lost, windows lapsed, held entries expired (log 9). -/
def State.tickRecords (s : State) : List (EventBody × Option ZoneNo × Option Address × Option DetectorKind) :=
  (allHeads.filter fun h => decide ((s.head h).link = .up
      ∧ 3 ≤ if (s.head h).statusSeen = false then (s.head h).missed + 1 else (s.head h).missed)).map
      (fun h => (.headLost h, none, none, none))
    ++ (allZones.filter s.windowReached).map (fun z =>
      (.zoneLapse .expiry (if 0 < (s.zone z).raised then .pre else .quiet) (s.zone z).raised, some z, (s.zone z).first,
        none))
    ++ s.heldExpired.map (fun e =>
      (.commandExpired ⟨e.number, e.code, e.argument⟩ e.state e.attempts, none, some e.target, none))

theorem State.deliverTick_spec (s : State) :
    let t := s.deliverTick
    t.evu = { s.evuAfter s.tickRecords with
        flushTimer := s.evu.flushTimer - 1, summaryTimer := s.evu.summaryTimer - 1 }
    ∧ t.hcq = { s.hcq with
        entries := s.hcq.entries.filter fun e => decide (s.now < e.expiry),
        counters := { s.hcq.counters with
          expired := countedUp 4294967295 s.hcq.counters.expired s.heldExpired.length } }
    ∧ (∀ h, t.head h =
      (let v := s.head h
       let missed := if v.link = .up ∧ v.statusSeen = false then v.missed + 1 else v.missed
       { v with missed := missed, statusSeen := false, link := if v.link = .up ∧ 3 ≤ missed then .lost else v.link }))
    ∧ (∀ z, t.zone z = if s.windowReached z = true then
        { s.zone z with state := if 0 < (s.zone z).raised then .pre else .quiet, first := none, deadline := none }
      else s.zone z)
    ∧ t = { s with heads := t.heads, zones := t.zones, hcq := t.hcq, evu := t.evu } := by
  have frame := s.deliverTick_frame
  obtain ⟨beatEvu, beatHead⟩ := s.heartbeats_all
  have beatFrame := s.heartbeats_frame allHeads
  have after : (allZones.foldl State.lapseIfReached (allHeads.foldl State.heartbeat s)).expireHeld.countEvuTimers
    = s.deliverTick := rfl
  dsimp only
  generalize s.deliverTick = t at frame after ⊢
  unfold OnlyHealth at beatFrame
  generalize allHeads.foldl State.heartbeat s = s2 at beatEvu beatHead beatFrame after
  have zones2 : ∀ z, s2.zone z = s.zone z := fun z => by rw [beatFrame]; rfl
  have now2 : s2.now = s.now := by rw [beatFrame]; rfl
  have reached2 : s2.windowReached = s.windowReached :=
    funext fun z => State.windowReached_congr s2 s z (zones2 z) now2
  have lapseEvu := s2.lapsesReached_evu
  have lapseZone := s2.lapsesReached_zone
  have lapseFrame := s2.lapses_frame allZones
  simp only [zones2, reached2] at lapseEvu lapseZone
  rw [State.evuAfter_after beatEvu now2] at lapseEvu
  unfold OnlyZones at lapseFrame
  generalize allZones.foldl State.lapseIfReached s2 = s3 at lapseEvu lapseZone lapseFrame after
  have now3 : s3.now = s.now := by rw [lapseFrame, beatFrame]; rfl
  have hcq3 : s3.hcq = s.hcq := by rw [lapseFrame, beatFrame]
  have expired := s3.expireHeld_spec
  have held : s3.heldExpired = s.heldExpired := by
    unfold State.heldExpired
    rw [now3, hcq3]
  rw [held, now3, hcq3, State.evuAfter_after lapseEvu now3] at expired
  rw [expired] at after
  have kept := s.evuAfter_kept s.tickRecords
  refine ⟨?_, ?_, fun h => ?_, fun z => ?_, frame⟩
  · rw [← after, ← kept.flushTimer, ← kept.summaryTimer]
    rfl
  · rw [← after]
    rfl
  · have heads3 : s3.heads = s2.heads := by rw [lapseFrame]
    rw [← after, ← beatHead]
    exact congrArg (fun heads : Vector Head 4 => heads.get h) heads3
  · rw [← after]
    exact lapseZone z

/-! ## The rows beside the tick (log 9) -/

theorem exec_headLost {s : State} {h : HeadNo} (up : (s.head h).link = .up) (missed : 3 ≤ (s.head h).missed) :
    exec (.headLost h) s = .next (s.loseHead h) := by
  refine if_pos ?_
  unfold State.headDue
  rw [up, decide_eq_true missed]
  rfl

theorem exec_verifyWindowLapse {s : State} {z : ZoneNo} {d : Nat} (enabled : (s.zone z).enabled = true)
    (verify : (s.zone z).state = .verify) (deadline : (s.zone z).deadline = some d) (reached : d ≤ s.su.clock) :
    exec (.verifyWindowLapse z) s = .next (s.lapseZone z .expiry) := by
  refine if_pos ?_
  rw [State.windowReached_iff, deadline]
  exact decide_eq_true ⟨enabled, verify, decide_eq_true reached⟩

theorem ZoneBecomes.setZone (s : State) (z : ZoneNo) (v : Zone) : ZoneBecomes s (s.setZone z v) z v :=
  ⟨by rw [State.zone_setZone, if_pos rfl], fun y other => by rw [State.zone_setZone, if_neg other]⟩

theorem ZoneBecomes.of_zones {s t u : State} {z : ZoneNo} {v : Zone} (becomes : ZoneBecomes s t z v)
    (zones : u.zones = t.zones) : ZoneBecomes s u z v := by
  unfold ZoneBecomes State.zone at becomes ⊢
  rwa [zones]

theorem exec_heldCommandExpiry {s : State} {before after : List HeldEntry} {e : HeldEntry}
    (entries : s.hcq.entries = before ++ e :: after) (reached : e.expiry ≤ s.su.clock)
    (first : ∀ x ∈ before, ¬ (x.target = e.target ∧ x.number = e.number ∧ x.expiry ≤ s.su.clock)) :
    exec (.heldCommandExpiry e.target e.number) s
      = .next (State.raiseExpired { s with hcq := { s.hcq with entries := before ++ after } } e) := by
  have found : s.expiredEntry e.target e.number = some e := by
    unfold State.expiredEntry
    rw [entries, List.find?_append, List.find?_eq_none.mpr, Option.none_or, List.find?_cons_of_pos]
    · rw [beq_self_eq_true, beq_self_eq_true]
      exact decide_eq_true reached
    · intro x member matched
      unfold HeldEntry.expiredAt at matched
      simp only [Bool.and_eq_true, beq_iff_eq, decide_eq_true_eq] at matched
      exact first x member ⟨matched.1.1, matched.1.2, matched.2⟩
  have absent : e ∉ before := fun member => first e member ⟨rfl, rfl, reached⟩
  have dropped : s.hcq.entries.erase e = before ++ after := by
    rw [entries, List.erase_append_right _ absent, List.erase_cons_head]
  show execHeldCommandExpiry e.target e.number s = _
  unfold execHeldCommandExpiry
  rw [found]
  show Host.Outcome.next (State.raiseExpired { s with hcq := { s.hcq with entries := s.hcq.entries.erase e } } e) = _
  rw [dropped]

/-! ## The timers' expiries (R124, R161, R164) -/

theorem exec_flushExpiry {s : State} (due : s.evu.flushTimer = 0) : exec .flushExpiry s = .next s.flushExpiry :=
  if_pos due

theorem exec_summaryExpiry {s : State} (due : s.evu.summaryTimer = 0) : exec .summaryExpiry s = .next s.summaryExpiry :=
  if_pos due

theorem exec_sweepTimerExpiry {s : State} (due : s.su.sweepTimer = some 0) :
    exec .sweepTimerExpiry s = .next s.sweepExpiry :=
  if_pos due

theorem Evu.grantDue_keepsCounters (e : Evu) : e.grantDue.counters = e.counters :=
  (congrArg Evu.counters (e.grantDue_counters e.counters)).trans rfl

/-- A waiting summary keeps its slot exactly when the link is busy, a reply is the choice or an ALARM record goes first
(R166; log 11). -/
theorem Evu.grantDue_summaryWaits (e : Evu) : e.grantDue.summarySlot.isSome = true ↔
    e.summarySlot.isSome ∧ (e.tx.isSome ∨ e.replySlot.isSome ∨ e.alarmQueue ≠ []) := by
  unfold Evu.grantDue
  split
  · next stands =>
    have waits : e.tx.isSome = true ∨ e.replySlot.isSome = true := by
      refine (Bool.or_eq_true_iff.mp stands).imp_right fun chosen => ?_
      unfold Evu.replyChosen at chosen
      split at chosen
      · exact chosen
      · exact absurd chosen (by decide)
    exact ⟨fun slot => ⟨slot, waits.imp_right .inl⟩, fun both => both.1⟩
  · next idle =>
    obtain ⟨free, unchosen⟩ := not_or.mp fun either => idle (Bool.or_eq_true_iff.mpr either)
    split
    · next r rest queue => exact ⟨fun slot => ⟨slot, .inr (.inr (by rw [queue]; exact List.cons_ne_nil r rest))⟩,
        fun both => both.1⟩
    · next queue =>
      have reply : ¬ e.replySlot.isSome = true := by
        unfold Evu.replyChosen at unchosen
        rwa [queue, List.isEmpty_nil, Bool.or_true, if_pos rfl] at unchosen
      split
      · exact ⟨fun slot => absurd slot Bool.false_ne_true, fun both => (both.2.elim free fun rest =>
          rest.elim reply fun alarm => alarm queue).elim⟩
      · next slot =>
        have none_waits : e.grantQueues.summarySlot = none := by
          rw [← slot]
          unfold Evu.grantQueues
          split
          · rfl
          · split
            · rfl
            · split
              · rfl
              · rfl
        rw [none_waits, slot]
        exact ⟨fun slot => absurd slot Bool.false_ne_true, fun both => both.1⟩

theorem Evu.placeSummary_replaced (e : Evu) (z : ZoneSummary) : (e.placeSummary z).counters.summariesReplaced =
    if e.summarySlot.isSome ∧ (e.tx.isSome ∨ e.replySlot.isSome ∨ e.alarmQueue ≠ []) then
      min (e.counters.summariesReplaced + 1) 4294967295
    else e.counters.summariesReplaced := by
  show (if e.grantDue.summarySlot.isSome = true then inc32 e.grantDue.counters.summariesReplaced
    else e.grantDue.counters.summariesReplaced) = _
  rw [e.grantDue_keepsCounters]
  exact if_congr e.grantDue_summaryWaits rfl rfl

theorem Evu.placeSummary_built (e : Evu) (z : ZoneSummary) :
    (e.placeSummary z).counters.summariesBuilt = min (e.counters.summariesBuilt + 1) 4294967295 := by
  show inc32 e.grantDue.counters.summariesBuilt = _
  rw [e.grantDue_keepsCounters]
  rfl

/-! ## The sweep's visit (R9, R11, R125, R126) -/

theorem FiuState.waits_iff (x : FiuState) :
    x.waits = true ↔ (∃ f, x = .lookingUp f) ∨ ∃ f i e passed, x = .completing f i e passed := by
  cases x with
  | idle => exact ⟨nofun, fun named => by rcases named with ⟨_, h⟩ | ⟨_, _, _, _, h⟩ <;> cases h⟩
  | lookingUp f => exact ⟨fun _ => .inl ⟨f, rfl⟩, fun _ => rfl⟩
  | checking f i e k => exact ⟨nofun, fun named => by rcases named with ⟨_, h⟩ | ⟨_, _, _, _, h⟩ <;> cases h⟩
  | completing f i e p => exact ⟨fun _ => .inr ⟨f, i, e, p, rfl⟩, fun _ => rfl⟩

theorem State.mexWaits_iff (s : State) :
    s.mexWaits = true ↔ ∃ p c, s.mex.state = .executing p ∧ parseCommand p = some c ∧ c.atDtu = true := by
  unfold State.mexWaits
  split
  · next p executing =>
    constructor
    · intro waits
      obtain ⟨c, parsed, dtu⟩ := (Option.any_eq_true _ _).mp waits
      exact ⟨p, c, executing, parsed, dtu⟩
    · rintro ⟨q, c, executing', parsed, dtu⟩
      cases executing.symm.trans executing'
      rw [parsed]
      exact dtu
  · next idle => exact ⟨nofun, fun ⟨_, _, executing, _⟩ => nomatch idle.symm.trans executing⟩
  · next restarting => exact ⟨nofun, fun ⟨_, _, executing, _⟩ => nomatch restarting.symm.trans executing⟩

theorem exec_visitRequest {s : State} {i : Nat} (sweep : s.su.sweep = some i) (fiu : s.fiu.state.waits = false)
    (mex : s.mexWaits = false) : exec .visitRequest s = .next ((s.visit i).advanceSweep i) := by
  show execVisitRequest s = _
  unfold execVisitRequest
  rw [sweep, fiu, mex]
  rfl

theorem exec_visitRequest_waits {s : State} (waits : s.fiu.state.waits = true ∨ s.mexWaits = true) :
    exec .visitRequest s = .next s := by
  show execVisitRequest s = _
  unfold execVisitRequest
  split
  · rfl
  · exact if_pos (Bool.or_eq_true_iff.mpr waits)

theorem DetectorRecord.overdue_iff (r : DetectorRecord) (now : Nat) :
    r.overdue now = true ↔ r.enabled = true ∧ r.presence ≠ .missing ∧ r.deadline ≤ now := by
  unfold DetectorRecord.overdue
  simp only [Bool.and_eq_true, bne_iff_ne, decide_eq_true_eq, and_assoc]

theorem State.visit_overdue {s : State} {i : Nat} {r : DetectorRecord} (record : s.dtu.recordAt i = some r)
    (overdue : r.overdue s.now = true) : s.visit i = s.markMissing i r := by
  unfold State.visit
  rw [record]
  exact if_pos overdue

theorem State.visit_stands {s : State} {i : Nat} (stands : ∀ r, s.dtu.recordAt i = some r → ¬ r.overdue s.now = true) :
    s.visit i = s := by
  unfold State.visit
  split
  · rfl
  · next r record => exact if_neg (stands r record)

theorem State.advanceSweep_eq (s : State) (i : Nat) : s.advanceSweep i = { s with su := { s.su with
    sweep := if i + 1 < s.pages.memory.tableSize then some (i + 1) else none,
    sweepsCompleted := if i + 1 < s.pages.memory.tableSize then s.su.sweepsCompleted
      else min (s.su.sweepsCompleted + 1) 4294967295 } } := by
  unfold State.advanceSweep
  unfold State.tableSize
  split
  · rfl
  · rfl

end Sys2Proof.Machine

namespace Sys2Proof.Proofs

open Sys2Proof Sys2Proof.Machine

/-- Settles O11: each block's part of the tick in the model's order, its records one after another. -/
theorem secondsTickDelivered : Obligations.SecondsTickDelivered := by
  refine ⟨fun s sweep flush summary => ?_, fun s sweep flush summary => ?_⟩
  · intro now lost lapsing expired raised
    have stepped : exec .secondsTick s = .next s.advanceClock.deliverTick :=
      congrArg (fun t : State => Host.Outcome.next t.advanceClock.deliverTick)
        (State.takeDueExpiries_none sweep flush summary)
    have spec := s.advanceClock.deliverTick_spec
    have records : s.advanceClock.evuAfter s.advanceClock.tickRecords = raised := by
      unfold State.tickRecords
      rw [funext s.advanceClock.windowReached_iff]
      exact State.evuAfter_congr rfl rfl _
    generalize s.advanceClock.deliverTick = t at spec stepped
    obtain ⟨evu, hcq, heads, zones, frame⟩ := spec
    rw [records] at evu
    refine ⟨t, stepped, ?_, ?_, ?_, ?_, ?_, evu, heads, fun z => ⟨fun d enabled verify deadline reached => ?_,
      fun stays => ?_⟩, ?_⟩
    · rw [frame]
      rfl
    · rw [evu]
      rfl
    · rw [evu]
      rfl
    · rw [hcq]
      rfl
    · rw [hcq]
      rfl
    · rw [zones, if_pos]
      · rfl
      · rw [State.windowReached_iff]
        refine decide_eq_true ⟨enabled, verify, ?_⟩
        rw [show (s.advanceClock.zone z).deadline = some d from deadline]
        exact decide_eq_true reached
    · rw [zones, if_neg]
      · rfl
      · rw [State.windowReached_iff, decide_eq_true_iff]
        rintro ⟨enabled, verify, reached⟩
        rcases stays with disabled | other | none_set | ⟨d, deadline, later⟩
        · exact Bool.false_ne_true (disabled.symm.trans enabled)
        · exact other verify
        · rw [show (s.advanceClock.zone z).deadline = none from none_set] at reached
          exact Bool.false_ne_true reached
        · rw [show (s.advanceClock.zone z).deadline = some d from deadline] at reached
          exact absurd (of_decide_eq_true reached) (Nat.not_le.mpr later)
    · rw [frame]
      rfl
  · have armed := State.expiriesTaken_armed sweep flush summary
    obtain ⟨sweep', flush', summary'⟩ := armed
    refine ⟨?_, sweep', flush', summary'⟩
    have none_due := State.takeDueExpiries_none sweep' flush' summary'
    show Host.Outcome.next s.takeDueExpiries.advanceClock.deliverTick
      = Host.Outcome.next s.expiriesTaken.takeDueExpiries.advanceClock.deliverTick
    rw [none_due, State.takeDueExpiries_eq]

/-- Settles O12: each row beside the tick with its condition standing. -/
theorem dueEventsTaken : Obligations.DueEventsTaken := by
  refine ⟨fun s h up missed => ?_, fun s z d enabled verify deadline reached => ?_, fun s before after e entries reached
    first => ?_⟩
  · exact ⟨_, exec_headLost up missed, HeadBecomes.of_heads (.modifyHead s h fun v => { v with link := .lost }) rfl, rfl,
      rfl⟩
  · exact ⟨_, exec_verifyWindowLapse enabled verify deadline reached,
      ZoneBecomes.of_zones (.setZone s z ((s.zone z).leaveVerify (s.zone z).fallen)) rfl, rfl, rfl⟩
  · exact ⟨_, exec_heldCommandExpiry entries reached first, rfl, rfl, rfl⟩

/-- Settles O13 from what closings and a placed summary leave of EVU. -/
theorem timersExpire : Obligations.TimersExpire := by
  refine ⟨fun s due => ?_, fun s due => ?_, fun s due => ⟨fun idle => ?_, fun i running => ?_⟩⟩
  · obtain ⟨kept, contexts⟩ := s.evu.closeAll_kept s.su.clock .flush
    exact ⟨_, exec_flushExpiry due, contexts, rfl, rfl, kept.filters, kept.replySlot, kept.summarySlot, kept.summaryTimer,
      rfl⟩
  · obtain ⟨flush, contexts, filters⟩ := s.evu.placeSummary_kept s.zoneSummary
    refine ⟨_, exec_summaryExpiry due, rfl, s.evu.placeSummary_built s.zoneSummary,
      s.evu.placeSummary_replaced s.zoneSummary, rfl, flush, contexts, filters, ?_⟩
    rw [State.summaryBuilt_eq]
    rfl
  · rw [exec_sweepTimerExpiry due]
    unfold State.sweepExpiry
    rw [idle]
    rfl
  · rw [exec_sweepTimerExpiry due]
    unfold State.sweepExpiry
    rw [running]
    rfl

/-- Settles O14: the visit of the sweep's position, then the position advances. -/
theorem visitMarksMissing : Obligations.VisitMarksMissing := by
  refine ⟨fun s i sweep fiu mex => ?_, fun s => exec_visitRequest_waits, FiuState.waits_iff, State.mexWaits_iff,
    fun c => by cases c <;> rfl⟩
  intro sweeping
  refine ⟨fun r record enabled present reached => ?_, fun stands => ?_⟩
  · rw [exec_visitRequest sweep fiu mex,
      State.visit_overdue record ((r.overdue_iff s.now).mpr ⟨enabled, present, reached⟩), State.advanceSweep_eq]
    rfl
  · rw [exec_visitRequest sweep fiu mex, State.visit_stands, State.advanceSweep_eq]
    intro r record overdue
    obtain ⟨enabled, present, reached⟩ := (r.overdue_iff s.now).mp overdue
    rcases stands with free | ⟨q, record', other⟩
    · exact nomatch free.symm.trans record
    · cases record.symm.trans record'
      rcases other with disabled | missing | later
      · exact Bool.false_ne_true (disabled.symm.trans enabled)
      · exact present missing
      · exact absurd reached (Nat.not_le.mpr later)

end Sys2Proof.Proofs
end

