-- ==== Sys2Proof/Proofs/Completions.lean ====
section
/-! Frame intake (section 3): taking, lookup and check of a frame, and what its completion does by the class of the
frame. -/

namespace Sys2Proof.Machine

/-! ## Taking, lookup, check (R47 to R51) -/

theorem exec_frameTake {s : State} (idle : s.fiu.state = .idle) : exec .frameTake s = .next s.takeFrame := by
  show execFrameTake s = _
  unfold execFrameTake
  rw [idle]

theorem exec_lookupRequest {s : State} {f : LaneFrame} (looking : s.fiu.state = .lookingUp f) :
    exec .lookupRequest s = .next (s.answerLookup f) := by
  show execLookupRequest s = _
  unfold execLookupRequest
  rw [looking]

theorem exec_integrityCheckDone {s : State} {f : LaneFrame} {i : Nat} {e : BitVec 8} {key : Key}
    (checking : s.fiu.state = .checking f i e key) :
    exec .integrityCheckDone s = .next (s.setFiu (.completing f i e (f.frame.tagPasses key))) := by
  show execIntegrityCheckDone s = _
  unfold execIntegrityCheckDone
  rw [checking]

theorem exec_completionRequest {s : State} {f : LaneFrame} {i : Nat} {e : BitVec 8} {passed : Bool}
    (completing : s.fiu.state = .completing f i e passed) :
    exec .completionRequest s = .next (s.decideFrame f i e passed).releaseFrame := by
  show execCompletionRequest s = _
  unfold execCompletionRequest
  rw [completing]

/-! ## The cases of a completion (R53) -/

theorem Dtu.confirmed_some {d : Dtu} {i : Nat} {e : BitVec 8} {r : DetectorRecord} (epoch : d.epochAt i = e)
    (record : d.recordAt i = some r) : d.confirmed i e = some r := by
  unfold Dtu.confirmed
  rw [if_pos epoch, record]

theorem Dtu.confirmed_none {d : Dtu} {i : Nat} {e : BitVec 8} (moved : d.epochAt i ≠ e ∨ d.recordAt i = none) :
    d.confirmed i e = none := by
  unfold Dtu.confirmed
  split
  · next same => exact moved.resolve_left (not_not_intro same)
  · rfl

theorem State.decideFrame_unconfirmed {s : State} {i : Nat} {e : BitVec 8} (unconfirmed : s.dtu.confirmed i e = none)
    (f : LaneFrame) (passed : Bool) : s.decideFrame f i e passed = s.countFiu fun c =>
      { c with integrityFailure := if passed then c.integrityFailure else inc32 c.integrityFailure,
               moved := if passed then inc32 c.moved else c.moved } := by
  unfold State.decideFrame
  rw [unconfirmed]
  cases passed with
  | false => rfl
  | true => rfl

theorem State.decideFrame_forged {s : State} {i : Nat} {e : BitVec 8} {r : DetectorRecord}
    (confirmed : s.dtu.confirmed i e = some r) (f : LaneFrame) :
    s.decideFrame f i e false = s.onRecord i r fun w => w.handleForged f := by
  unfold State.decideFrame
  rw [confirmed]

theorem State.decideFrame_passing {s : State} {i : Nat} {e : BitVec 8} {r : DetectorRecord}
    (confirmed : s.dtu.confirmed i e = some r) (f : LaneFrame) :
    s.decideFrame f i e true = s.onRecord i r fun w => w.handlePassing f := by
  unfold State.decideFrame
  rw [confirmed]

theorem State.onRecord_of_eq {s : State} {r : DetectorRecord} {g : Work → Work} {w : Work} (h : g ⟨s, r⟩ = w) (i : Nat) :
    s.onRecord i r g = w.st.putRecord i w.det := h ▸ rfl

/-! ## The class of a sequence (R57) -/

theorem classifySequence_none (q : SeqNo) : classifySequence q none = .new := rfl

theorem sub_toNat_eq_zero_iff (q l : SeqNo) : (q - l).toNat = 0 ↔ q = l := by
  constructor
  · intro zero
    exact sub_eq_zero.mp (BitVec.eq_of_toNat_eq zero)
  · rintro rfl
    rw [BitVec.sub_self]
    rfl

theorem classifySequence_some (q l : SeqNo) : classifySequence q (some l) =
    if (q - l).toNat = 0 then .repeated else if (q - l).toNat ≤ 2047 then .new else .stale :=
  if_congr (sub_toNat_eq_zero_iff q l).symm rfl rfl

theorem classifySequence_new {q : SeqNo} {last : Option SeqNo}
    (fresh : ∀ l, last = some l → 1 ≤ (q - l).toNat ∧ (q - l).toNat ≤ 2047) : classifySequence q last = .new := by
  cases last with
  | none => rfl
  | some l =>
    obtain ⟨one, most⟩ := fresh l rfl
    rw [classifySequence_some, if_neg (Nat.pos_iff_ne_zero.mp one), if_pos most]

/-! ## Forged, stale and repeated frames (R54, R56, R58, R59) -/

theorem Work.handleForged_eq (w : Work) (f : LaneFrame) : w.handleForged f = {
    st := { w.st with
      fiu := { w.st.fiu with counters :=
        { w.st.fiu.counters with integrityFailure := inc32 w.st.fiu.counters.integrityFailure } },
      evu := w.st.evuAfter (if w.det.failureRun = 2 then
        [w.det.tells (.integrityFault f.head f.frame.hop.toNat)] else []) },
    det := { w.det with failureRun := min (w.det.failureRun + 1) 3 } } := by
  unfold Work.handleForged Work.forged
  dsimp only
  split
  · rfl
  · rfl

theorem Work.passed_eq (w : Work) : w.passed = {
    st := { w.st with
      evu := w.st.evuAfter (if w.det.failureRun = 3 then [w.det.tells .integrityOk] else []) },
    det := { w.det with failureRun := 0 } } := by
  unfold Work.passed
  dsimp only
  split
  · rfl
  · rfl

theorem Work.handlePassing_stale {w : Work} {f : LaneFrame}
    (cls : classifySequence f.frame.sequence w.det.lastSequence = .stale) :
    w.handlePassing f = w.passed.handleStale := by
  unfold Work.handlePassing
  rw [cls]

theorem Work.handlePassing_repeated {w : Work} {f : LaneFrame}
    (cls : classifySequence f.frame.sequence w.det.lastSequence = .repeated) :
    w.handlePassing f = w.passed.handleRepeat f := by
  unfold Work.handlePassing
  rw [cls]

theorem Work.handlePassing_new {w : Work} {f : LaneFrame}
    (cls : classifySequence f.frame.sequence w.det.lastSequence = .new) :
    w.handlePassing f = w.passed.handleNew f := by
  unfold Work.handlePassing
  rw [cls]

theorem LaneFrame.path_eq (f : LaneFrame) : f.path =
    { head := f.head, relay := if f.frame.hop.toNat = 0 then none else some f.frame.relay, hop := f.frame.hop.toNat,
      signal := max (-127) (min f.frame.signal.toInt 0) } := by
  have zero : f.frame.hop = 0 ↔ f.frame.hop.toNat = 0 := by
    rw [← BitVec.toNat_inj]
    rfl
  unfold LaneFrame.path
  rw [if_congr zero rfl rfl]
  rfl

/-- The path a repeat leaves: a better one replaces the record's (R59, R60). -/
def Path.improved (p : Path) : Option Path → Option Path
  | none => none
  | some q => if p.hop < q.hop ∨ (p.hop = q.hop ∧ q.signal < p.signal) then some p else some q

theorem Work.improvePath_eq (w : Work) (p : Path) :
    w.improvePath p = { w with det := { w.det with path := p.improved w.det.path } } := by
  unfold Work.improvePath
  cases path : w.det.path with
  | none =>
    show w = { w with det := { w.det with path := none } }
    rw [← path]
  | some q =>
    by_cases better : p.hop < q.hop ∨ (p.hop = q.hop ∧ q.signal < p.signal)
    · have improved : p.improved (some q) = some p := if_pos better
      rw [if_pos (show Option.any (fun q => p.better q) (some q) = true from decide_eq_true better), improved]
    · have stands : p.improved (some q) = some q := if_neg better
      rw [if_neg (show ¬ Option.any (fun q => p.better q) (some q) = true from fun h => better (of_decide_eq_true h)),
        stands, ← path]

/-- A repeat before its acknowledgement (R59). -/
theorem Work.handleRepeat_eq (w : Work) (f : LaneFrame) : w.handleRepeat f =
    (let u : Work := {
      st := { w.st with fiu := { w.st.fiu with counters :=
        { w.st.fiu.counters with repeated := inc32 w.st.fiu.counters.repeated } } },
      det := { w.det with path := f.path.improved w.det.path } }
     if f.frame.retry = 0 then u else u.acknowledge f) := by
  unfold Work.handleRepeat
  dsimp only
  rw [Work.improvePath_eq]
  rfl

/-- What an acknowledgement does to heads and HCQ depends on them and the slot alone. -/
theorem Acknowledged.congr {q : Hcq} {s s' t t' : State} {f : LaneFrame} {a : Address} (h : Acknowledged q s t f a)
    (heads : s'.heads = s.heads) (clock : s'.clock = s.clock) (heads' : t'.heads = t.heads) (hcq : t'.hcq = t.hcq) :
    Acknowledged q s' t' f a := by
  unfold Acknowledged HeadBecomes State.head at h ⊢
  rwa [heads, clock, heads', hcq]

end Sys2Proof.Machine

namespace Sys2Proof.Proofs

open Sys2Proof Sys2Proof.Machine

/-- Settles O15: the urgent lane is looked at first. -/
theorem frameTakeOrder : Obligations.FrameTakeOrder := by
  intro s f rest idle
  refine ⟨fun urgent => ?_, fun none_urgent normal => ?_⟩
  · rw [exec_frameTake idle]
    unfold State.takeFrame
    rw [urgent]
    rfl
  · rw [exec_frameTake idle]
    unfold State.takeFrame
    rw [none_urgent, normal]
    rfl

/-- Settles O16 from the two answers to a lookup. -/
theorem lookupRequestAnswered : Obligations.LookupRequestAnswered := by
  intro s f looking
  refine ⟨fun absent => ?_, fun i p r found => ?_⟩
  · rw [exec_lookupRequest looking]
    unfold State.answerLookup
    rw [absent]
    rfl
  · rw [exec_lookupRequest looking]
    unfold State.answerLookup
    rw [found]
    rfl

/-- Settles O17: the covered bytes are those of the statement. -/
theorem integrityCheckVerdict : Obligations.IntegrityCheckVerdict :=
  fun _ _ _ _ _ checking => exec_integrityCheckDone checking

/-- Settles O21: a failing tag and a stale frame, each with its record and its event. -/
theorem droppedFrameEffects : Obligations.DroppedFrameEffects := by
  intro s f i e r epoch record raised intake
  have confirmed := Dtu.confirmed_some epoch record
  refine ⟨fun completing => ?_, fun l completing last far => ?_⟩
  · rw [exec_completionRequest completing, State.decideFrame_forged confirmed]
    rw [State.onRecord_of_eq (g := fun w => w.handleForged f) (Work.handleForged_eq ⟨s, r⟩ f)]
    have fault : raised (r.failureRun == 2) (.integrityFault f.head f.frame.hop.toNat) = s.evuAfter
        (if r.failureRun = 2 then [r.tells (.integrityFault f.head f.frame.hop.toNat)] else []) :=
      congrArg s.evuAfter (if_congr beq_iff_eq rfl rfl)
    rw [fault]
    rfl
  · have stale : classifySequence f.frame.sequence r.lastSequence = .stale := by
      rw [last, classifySequence_some, if_neg (by omega), if_neg (by omega)]
    have handled : (Work.mk s r).handlePassing f = Work.handleStale _ :=
      (Work.handlePassing_stale stale).trans (congrArg Work.handleStale (Work.passed_eq ⟨s, r⟩))
    rw [exec_completionRequest completing, State.decideFrame_passing confirmed, State.onRecord_of_eq (g := fun w => w.handlePassing f) handled]
    have ends : raised (r.failureRun == 3) .integrityOk = s.evuAfter
        (if r.failureRun = 3 then [r.tells .integrityOk] else []) :=
      congrArg s.evuAfter (if_congr beq_iff_eq rfl rfl)
    rw [ends]
    rfl

end Sys2Proof.Proofs
end

