-- ==== Sys2Proof/Proofs/NewFrames.lean ====
section
/-! A new frame (R61 to R67): what it leaves of its record, what it tells, and its acknowledgement. -/

namespace Sys2Proof.Machine

/-! ## The stages -/

/-- A new frame accepted, weighed, counted where it suits no record of its kind, and supervised (R61 to R64). -/
def Work.arrived (w : Work) (f : LaneFrame) : Work :=
  (((w.passed.accept f).weigh f.path).countMismatch (contentOf w.det.kind f.frame)).supervise f.frame

/-- A new frame with its echo judged too (R140). -/
def Work.judged (w : Work) (f : LaneFrame) : Work := (w.arrived f).judgeEcho f.frame.done

theorem Work.handlePassing_stages {w : Work} {f : LaneFrame}
    (cls : classifySequence f.frame.sequence w.det.lastSequence = .new) : w.handlePassing f =
      (((w.judged f).level f.frame.sequence (contentOf w.det.kind f.frame)).checkPattern
        (contentOf w.det.kind f.frame)).acknowledge f := by
  have kind : w.passed.det.kind = w.det.kind := by rw [Work.passed_eq]
  rw [Work.handlePassing_new cls]
  unfold Work.handleNew Work.dispatch Work.judged Work.arrived
  dsimp only
  rw [kind]

theorem Work.countMismatch_eq (w : Work) (c : Content) : w.countMismatch c = { w with
    st := { w.st with fiu := { w.st.fiu with counters := { w.st.fiu.counters with
      kindMismatch := if c = .mismatch then inc32 w.st.fiu.counters.kindMismatch
        else w.st.fiu.counters.kindMismatch } } } } := by
  unfold Work.countMismatch
  split
  · rfl
  · rfl

theorem Work.Raises.then {w v u : Work} {l m n : List EventBody} (h : w.Raises v l) (k : v.Raises u m)
    (e : l ++ m = n) : w.Raises u n := e ▸ h.trans k

theorem Work.arrived_spec (w : Work) (f : LaneFrame) :
    let r := w.det
    let s := w.st
    let weak := f.path.signal < s.pages.air.signalMargin
    let low := f.frame.batteryLow
    let isOpen := f.frame.tamperOpen
    let u := w.arrived f
    u.det = { r.refreshed s.now with
        failureRun := 0, lastSequence := some f.frame.sequence, path := some f.path,
        weakCount := if weak then min (r.weakCount + 1) 8 else 0,
        presence := if r.enabled then .present else r.presence,
        battery := if r.enabled then (if low then .low else .ok) else r.battery,
        tamper := if r.enabled then (if isOpen then .opened else .closed) else r.tamper }
    ∧ u.st = { s with
        fiu := { s.fiu with counters := { s.fiu.counters with
          new := inc32 s.fiu.counters.new,
          kindMismatch := if contentOf r.kind f.frame = .mismatch then inc32 s.fiu.counters.kindMismatch
            else s.fiu.counters.kindMismatch } },
        su := { s.su with missing := if r.enabled = true ∧ r.presence = .missing then s.su.missing - 1
          else s.su.missing },
        evu := u.st.evu }
    ∧ w.Raises u
        ((if r.failureRun = 3 then [.integrityOk] else [])
          ++ (if weak then (if r.weakCount = 3 then [.lowSignal f.path.signal f.path.hop] else [])
              else if 4 ≤ r.weakCount then [.signalOk f.path.signal f.path.hop] else [])
          ++ (if r.enabled then
              (if r.presence = .missing then [.detectorPresent r.deadline] else [])
                ++ (if low ∧ r.battery = .ok then [.batteryLow] else [])
                ++ (if ¬ low ∧ r.battery = .low then [.batteryOk] else [])
                ++ (if isOpen ∧ r.tamper = .closed then [.tamperOpen] else [])
                ++ (if ¬ isOpen ∧ r.tamper = .opened then [.tamperClosed] else [])
              else [])) := by
  intro r s weak low isOpen u
  obtain ⟨det1, st1, raises1⟩ := w.passed_spec
  have arrives : u = (((w.passed.accept f).weigh f.path).countMismatch (contentOf r.kind f.frame)).supervise f.frame := rfl
  generalize w.passed = w1 at det1 st1 raises1 arrives
  unfold OnlyEvu at st1
  have raises2 : w1.Raises (w1.accept f) [] := .none rfl rfl rfl rfl rfl
  have det2 : (w1.accept f).det = { r with
      failureRun := 0, lastSequence := some f.frame.sequence, path := some f.path } := by
    show { w1.det with lastSequence := some f.frame.sequence, path := some f.path } = _
    rw [det1]
  have st2 : (w1.accept f).st = { s with
      fiu := { s.fiu with counters := { s.fiu.counters with new := inc32 s.fiu.counters.new } },
      evu := (w1.accept f).st.evu } := by
    unfold Work.accept State.countFiu
    rw [st1]
  generalize w1.accept f = w2 at raises2 det2 st2 arrives
  obtain ⟨det3, st3, raises3⟩ := w2.weigh_spec f.path
  unfold OnlyEvu at st3
  have margin : w2.st.pages.air.signalMargin = s.pages.air.signalMargin := by rw [st2]
  rw [det2, margin] at det3
  rw [margin, det2] at raises3
  generalize w2.weigh f.path = w3 at det3 st3 raises3 arrives
  have raises4 : w3.Raises (w3.countMismatch (contentOf r.kind f.frame)) [] := by
    rw [Work.countMismatch_eq]
    exact .none rfl rfl rfl rfl rfl
  have eq4 := w3.countMismatch_eq (contentOf r.kind f.frame)
  generalize w3.countMismatch (contentOf r.kind f.frame) = w4 at raises4 eq4 arrives
  have det4 : w4.det = { r with
      failureRun := 0, lastSequence := some f.frame.sequence, path := some f.path,
      weakCount := if weak then min (r.weakCount + 1) 8 else 0 } := by
    rw [eq4, det3]
  have st4 : w4.st = { s with
      fiu := { s.fiu with counters := { s.fiu.counters with
        new := inc32 s.fiu.counters.new,
        kindMismatch := if contentOf r.kind f.frame = .mismatch then inc32 s.fiu.counters.kindMismatch
          else s.fiu.counters.kindMismatch } },
      evu := w4.st.evu } := by
    rw [eq4, st3, st2]
  obtain ⟨det5, st5, raises5⟩ := w4.supervise_spec f.frame
  rw [← arrives] at det5 st5 raises5
  have now4 : w4.st.now = s.now := by rw [st4]; rfl
  refine ⟨?_, ?_, ?_⟩
  · rw [det5, now4, det4]
    rfl
  · rw [st5, st4, det4]
  · rw [det4] at raises5
    refine (((raises1.trans raises2).trans raises3).trans raises4).then raises5 ?_
    rw [List.append_nil, List.append_nil]

/-! ## The echo judgement (R140, R141) -/

/-- Whether the done number of a frame completes the SENT entry of an address, a command of a code. -/
def Hcq.completes (q : Hcq) (a : Address) (done : Byte) (code : HeldCode) : Bool :=
  (q.sentEntry a).any fun x => done == x.number && x.code == code

/-- The check-in period of a record once the echo is judged. -/
def Hcq.periodAfter (q : Hcq) (a : Address) (done : Byte) (period : Nat) : Nat :=
  match q.sentEntry a with
  | none => period
  | some x => if done = x.number ∧ x.code = .setPeriod then x.argument.toNat else period

/-- The event of an echo judgement: COMMAND_DONE, or COMMAND_FAILED at the attempt limit. -/
def Hcq.echoEvents (q : Hcq) (a : Address) (done : Byte) (limit : Nat) : List EventBody :=
  match q.sentEntry a with
  | none => []
  | some x =>
    if done = x.number then [.commandDone ⟨x.number, x.code, x.argument⟩ x.attempts]
    else if limit ≤ x.attempts + 1 then [.commandFailed .noEcho ⟨x.number, x.code, x.argument⟩ none (x.attempts + 1)]
    else []

/-- Whether a decrement lets a zone fall to QUIET (R95). -/
abbrev Zone.Falls (v : Zone) : Prop := v.raised ≤ 1 ∧ v.enabled = true ∧ v.state = .pre

/-- Whether the echo takes a record out of its zone's count: TEST_ENTER of a counted record. -/
abbrev Hcq.Uncounts (q : Hcq) (done : Byte) (r : DetectorRecord) (epoch : BitVec 8) : Prop :=
  q.completes r.address done .testEnter = true ∧ r.counted epoch = true

/-- Whether the echo takes a record into test or out of it (R88). -/
abbrev Hcq.Crosses (q : Hcq) (done : Byte) (r : DetectorRecord) : Prop :=
  q.completes r.address done .testEnter = true ∨ (q.completes r.address done .testExit = true ∧ r.test = true)

/-- A record once the echo is judged. -/
def DetectorRecord.echoed (r : DetectorRecord) (q : Hcq) (done : Byte) (now : Nat) (epoch : BitVec 8) : DetectorRecord :=
  { r with
    period := q.periodAfter r.address done r.period,
    deadline := if q.completes r.address done .setPeriod
      then clockAdd now (q.periodAfter r.address done r.period * r.misses) else r.deadline,
    test := if q.completes r.address done .testEnter then true
      else if q.completes r.address done .testExit then false else r.test,
    level := if q.Crosses done r then .normal else r.level,
    levelEpoch := if q.Crosses done r then epoch else r.levelEpoch }

/-- What the echo judgement of w makes of it, u. -/
structure Work.Echoed (w u : Work) (done : Byte) : Prop where
  det : u.det = w.det.echoed w.st.hcq done w.st.now (w.st.zone w.det.zone).epoch
  frame : OnlyNotices w.st u.st
  orders : u.st.hcq.orders = w.st.hcq.orders
  zones : ¬ w.st.hcq.Uncounts done w.det (w.st.zone w.det.zone).epoch → u.st.zones = w.st.zones
  becomes : w.st.hcq.Uncounts done w.det (w.st.zone w.det.zone).epoch → ZoneBecomes w.st u.st w.det.zone
    { w.st.zone w.det.zone with
      raised := (w.st.zone w.det.zone).raised - 1,
      state := if (w.st.zone w.det.zone).Falls then .quiet else (w.st.zone w.det.zone).state }
  raises : w.Raises u (w.st.hcq.echoEvents w.det.address done w.st.pages.timing.attemptLimit
    ++ if w.st.hcq.Uncounts done w.det (w.st.zone w.det.zone).epoch ∧ (w.st.zone w.det.zone).Falls
      then [.zoneQuiet] else [])

theorem Work.judgeEcho_echoed_none {w : Work} (absent : w.st.hcq.sentEntry w.det.address = none) (done : Byte) :
    w.Echoed (w.judgeEcho done) done := by
  have unnamed : ∀ code, ¬ w.st.hcq.completes w.det.address done code = true := fun code => by
    unfold Hcq.completes
    rw [absent]
    exact Bool.false_ne_true
  have counts : ¬ w.st.hcq.Uncounts done w.det (w.st.zone w.det.zone).epoch := fun h => unnamed _ h.1
  have crosses : ¬ w.st.hcq.Crosses done w.det := fun h => h.elim (unnamed _) fun k => unnamed _ k.1
  rw [w.judgeEcho_none done absent]
  refine ⟨?_, .refl _, rfl, fun _ => rfl, fun h => absurd h counts, (Work.Raises.refl w).of_eq ?_⟩
  · unfold DetectorRecord.echoed Hcq.periodAfter
    rw [absent, if_neg (unnamed _), if_neg (unnamed _), if_neg (unnamed _), if_neg crosses, if_neg crosses]
  · unfold Hcq.echoEvents
    have silent : ¬ (w.st.hcq.Uncounts done w.det (w.st.zone w.det.zone).epoch ∧ (w.st.zone w.det.zone).Falls) :=
      fun h => counts h.1
    rw [absent, if_neg silent]
    rfl

theorem Work.judgeEcho_echoed_done {w : Work} {x : HeldEntry} (found : w.st.hcq.sentEntry w.det.address = some x)
    {done : Byte} (number : done = x.number) : w.Echoed (w.judgeEcho done) done := by
  have named : ∀ code, w.st.hcq.completes w.det.address done code = true ↔ x.code = code := fun code => by
    unfold Hcq.completes
    rw [found]
    show (done == x.number && x.code == code) = true ↔ _
    rw [beq_iff_eq.mpr number, Bool.true_and, beq_iff_eq]
  obtain ⟨det, frame, hcq, zones, becomes, raises⟩ := w.judgeEcho_done done x found number
  have counts : w.st.hcq.Uncounts done w.det (w.st.zone w.det.zone).epoch
      ↔ x.code = .testEnter ∧ w.det.counted (w.st.zone w.det.zone).epoch = true := and_congr_left' (named .testEnter)
  have crosses : w.st.hcq.Crosses done w.det ↔ x.code = .testEnter ∨ (x.code = .testExit ∧ w.det.test = true) :=
    or_congr (named .testEnter) (and_congr_left' (named .testExit))
  refine ⟨?_, frame, (congrArg Hcq.orders hcq).trans rfl, fun h => zones (mt counts.mpr h),
    fun h => becomes (counts.mp h), raises.of_eq ?_⟩
  · have renewed : w.st.hcq.periodAfter w.det.address done w.det.period
        = if x.code = .setPeriod then x.argument.toNat else w.det.period := by
      unfold Hcq.periodAfter
      rw [found]
      exact if_congr (and_iff_right number) rfl rfl
    have deadline : (if w.st.hcq.completes w.det.address done .setPeriod
          then clockAdd w.st.now ((if x.code = .setPeriod then x.argument.toNat else w.det.period) * w.det.misses)
          else w.det.deadline)
        = if x.code = .setPeriod then clockAdd w.st.now (x.argument.toNat * w.det.misses) else w.det.deadline := by
      by_cases set : x.code = .setPeriod
      · rw [if_pos ((named .setPeriod).mpr set), if_pos set, if_pos set]
      · rw [if_neg (mt (named .setPeriod).mp set), if_neg set]
    rw [det]
    unfold DetectorRecord.echoed
    rw [renewed, deadline, if_congr crosses rfl rfl, if_congr crosses rfl rfl, if_congr (named .testEnter) rfl rfl,
      if_congr (named .testExit) rfl rfl]
    rfl
  · unfold Hcq.echoEvents
    rw [found, if_congr (and_congr_left' counts) rfl rfl]
    dsimp only
    rw [if_pos number]
    rfl

theorem Work.judgeEcho_echoed_missed {w : Work} {x : HeldEntry} (found : w.st.hcq.sentEntry w.det.address = some x)
    {done : Byte} (number : done ≠ x.number) : w.Echoed (w.judgeEcho done) done := by
  have unnamed : ∀ code, ¬ w.st.hcq.completes w.det.address done code = true := fun code => by
    unfold Hcq.completes
    rw [found]
    exact fun both => number (beq_iff_eq.mp (Bool.and_eq_true_iff.mp both).1)
  have counts : ¬ w.st.hcq.Uncounts done w.det (w.st.zone w.det.zone).epoch := fun h => unnamed _ h.1
  have crosses : ¬ w.st.hcq.Crosses done w.det := fun h => h.elim (unnamed _) fun k => unnamed _ k.1
  obtain ⟨det, frame, failed, waits, raises⟩ := w.judgeEcho_missed done x found number
  have orders : (w.judgeEcho done).st.hcq.orders = w.st.hcq.orders := by
    by_cases limit : w.st.pages.timing.attemptLimit ≤ x.attempts + 1
    · exact (congrArg Hcq.orders (failed limit)).trans rfl
    · exact (congrArg Hcq.orders (waits limit)).trans rfl
  refine ⟨?_, frame.notices, orders, fun _ => frame.zones_eq, fun h => absurd h counts, raises.of_eq ?_⟩
  · have kept : w.st.hcq.periodAfter w.det.address done w.det.period = w.det.period := by
      unfold Hcq.periodAfter
      rw [found]
      exact if_neg fun h => number h.1
    rw [det]
    unfold DetectorRecord.echoed
    rw [kept, if_neg (unnamed _), if_neg (unnamed _), if_neg (unnamed _), if_neg crosses, if_neg crosses]
  · unfold Hcq.echoEvents
    have silent : ¬ (w.st.hcq.Uncounts done w.det (w.st.zone w.det.zone).epoch ∧ (w.st.zone w.det.zone).Falls) :=
      fun h => counts h.1
    rw [found, if_neg silent, List.append_nil]
    dsimp only
    rw [if_neg number]

/-- The echo judgement of a new frame, with a SENT entry of its address or without (R140, R141). -/
theorem Work.judgeEcho_echoed (w : Work) (done : Byte) : w.Echoed (w.judgeEcho done) done := by
  cases found : w.st.hcq.sentEntry w.det.address with
  | none => exact Work.judgeEcho_echoed_none found done
  | some x =>
    by_cases number : done = x.number
    · exact Work.judgeEcho_echoed_done found number
    · exact Work.judgeEcho_echoed_missed found number

end Sys2Proof.Machine
end

