-- ==== Sys2Proof/Proofs/ZoneCommands.lean ====
section
/-! The zone commands (R108 to R114): the configuration stored, the flags set, the reset, and their refusals. -/

namespace Sys2Proof.Machine

/-! ## A command's step -/

/-- A command whose body gives an answer. -/
theorem Ready.answered {s t : State} {c : Command} {tag : Byte} {body : State → Answer} {r : Result} {d : List Byte}
    (ready : Ready s c tag) (gives : body s = t.answer r d) :
    s.runCommand c body = .next (State.replied t tag c.code r d) := by
  rw [ready.run body, gives]
  rfl

/-- A zone command that leaves a state and carries the zone's record in it. -/
theorem Ready.zoneAnswered {s t : State} {c : Command} {tag : Byte} {body : State → Answer} {z : ZoneNo} {r : Result}
    {v : Zone} (ready : Ready s c tag) (gives : body s = t.zoneAnswer z r) (becomes : t.zone z = v) :
    s.runCommand c body = .next (State.replied t tag c.code r (v.bytes z)) :=
  ready.answered (gives.trans (becomes ▸ rfl))

/-! ## Codes of zone commands (R108, R188) -/

theorem zoneOf_none {b : Byte} (high : 64 ≤ b.toNat) : zoneOf b = none := dif_neg (Nat.not_lt.mpr high)

theorem zoneOf_eq_some_iff {b : Byte} {z : ZoneNo} : zoneOf b = some z ↔ b.toNat = z.val := by
  unfold zoneOf
  split
  · next low => rw [Option.some_inj, Fin.ext_iff]
  · next high => exact ⟨fun h => (nomatch h), fun h => absurd z.isLt (h ▸ high)⟩

theorem zoneOf_eq_none_iff {b : Byte} : zoneOf b = none ↔ 64 ≤ b.toNat := by
  unfold zoneOf
  split
  · next low => exact ⟨fun h => (nomatch h), fun h => absurd low (Nat.not_lt.mpr h)⟩
  · next high => exact ⟨fun _ => Nat.not_lt.mp high, fun _ => rfl⟩

theorem ZoneMode.ofCode_eq (b : Byte) : ZoneMode.ofCode b =
    if b = 0 then some .direct else if b = 1 then some .persist else if b = 2 then some .coincidence else none := by
  revert b
  decide

theorem serviceOf_eq (b : Byte) : serviceOf b = if b = 0 then some false else if b = 1 then some true else none := by
  revert b
  decide

theorem partnerOf_eq_none_partner_iff {b : Byte} : partnerOf b = some none ↔ b = 0xFF := by
  unfold partnerOf
  split
  · next all => exact ⟨fun _ => all, fun _ => rfl⟩
  · next one =>
    refine ⟨fun h => ?_, fun h => absurd h one⟩
    obtain ⟨z, _, absurdity⟩ := Option.map_eq_some_iff.mp h
    exact nomatch absurdity

theorem partnerOf_eq_some_iff {b : Byte} {z : ZoneNo} : partnerOf b = some (some z) ↔ b.toNat = z.val := by
  unfold partnerOf
  split
  · next all =>
    refine ⟨fun h => (nomatch h), fun h => ?_⟩
    have low := z.isLt
    rw [← h, all] at low
    exact absurd low (by decide)
  · rw [Option.map_eq_some_iff, ← zoneOf_eq_some_iff]
    exact ⟨fun ⟨y, named, same⟩ => Option.some_inj.mp same ▸ named, fun named => ⟨z, named, rfl⟩⟩

theorem partnerOf_eq_none_iff {b : Byte} : partnerOf b = none ↔ b ≠ 0xFF ∧ 64 ≤ b.toNat := by
  unfold partnerOf
  split
  · next all => exact ⟨fun h => (nomatch h), fun h => absurd all h.1⟩
  · next one => rw [Option.map_eq_none_iff, zoneOf_eq_none_iff, and_iff_right one]

theorem State.onZone_named {zone : Byte} {z : ZoneNo} (named : zoneOf zone = some z) (s : State) (f : ZoneNo → Answer) :
    s.onZone zone f = f z := by
  unfold State.onZone
  rw [named]

theorem State.onZone_unnamed {zone : Byte} (high : 64 ≤ zone.toNat) (s : State) (f : ZoneNo → Answer) :
    s.onZone zone f = s.answer .invalid [] := by
  unfold State.onZone
  rw [zoneOf_none high]

/-! ## The rows -/

theorem exec_zoneSet (a : ZoneSetArgs) (s : State) :
    exec (.zoneSet a) s = s.runCommand (.zoneSet a) (State.zoneSet a) := rfl

theorem exec_zoneService (b x : Byte) (s : State) :
    exec (.zoneService b x) s = s.runCommand (.zoneService b x) (State.zoneService b x) := rfl

theorem exec_zoneReset (b : Byte) (s : State) :
    exec (.zoneReset b) s = s.runCommand (.zoneReset b) (State.zoneReset b) := rfl

theorem exec_zoneDisable (b : Byte) (s : State) :
    exec (.zoneDisable b) s = s.runCommand (.zoneDisable b) (State.zoneDisable b) := rfl

theorem exec_zoneEnable (b : Byte) (s : State) :
    exec (.zoneEnable b) s = s.runCommand (.zoneEnable b) (State.zoneEnable b) := rfl

/-! ## ZONE_SET (R109) -/

theorem State.zoneSet_named {a : ZoneSetArgs} {z : ZoneNo} {m : ZoneMode} {p : Option ZoneNo}
    (named : zoneOf a.zone = some z) (mode : ZoneMode.ofCode a.mode = some m) (partner : partnerOf a.partner = some p)
    (s : State) : State.zoneSet a s =
      if (s.zone z).configured z m p a = s.zone z then s.zoneAnswer z .unchanged
      else (s.setZone z ((s.zone z).configured z m p a)).zoneAnswer z
        (if zoneSetReplaced a z p then .adjusted else .ok) := by
  unfold State.zoneSet
  rw [State.onZone_named named, mode, partner]

theorem State.zoneSet_invalid {a : ZoneSetArgs} {z : ZoneNo} (named : zoneOf a.zone = some z)
    (missing : ZoneMode.ofCode a.mode = none ∨ partnerOf a.partner = none) (s : State) :
    State.zoneSet a s = s.zoneAnswer z .invalid := by
  unfold State.zoneSet
  rw [State.onZone_named named]
  rcases missing with none | none
  · rw [none]
  · rw [none]
    cases ZoneMode.ofCode a.mode with
    | none => rfl
    | some m => rfl

theorem zoneSetReplaced_iff (a : ZoneSetArgs) (z : ZoneNo) (p : Option ZoneNo) : zoneSetReplaced a z p = true ↔
    ¬ (storedWindow a.window.toNat = a.window.toNat ∧ storedOffset a.offset.toNat = a.offset.toNat
      ∧ storedPartner z p = p) := by
  unfold zoneSetReplaced
  rw [Bool.or_eq_true, Bool.or_eq_true, bne_iff_ne, bne_iff_ne, bne_iff_ne]
  tauto

theorem zoneSetResult_eq (a : ZoneSetArgs) (z : ZoneNo) (p : Option ZoneNo) :
    (if zoneSetReplaced a z p then Result.adjusted else .ok) =
      if storedWindow a.window.toNat = a.window.toNat ∧ storedOffset a.offset.toNat = a.offset.toNat
        ∧ storedPartner z p = p then .ok else .adjusted := by
  rw [if_congr (zoneSetReplaced_iff a z p) rfl rfl, ite_not]

theorem partnerByte_eq (p : Option ZoneNo) : (p.map zoneByte).getD 0xFF = match p with
    | none => (0xFF : Byte)
    | some y => BitVec.ofNat 8 y.val := by
  cases p with
  | none => rfl
  | some y => rfl

theorem Zone.flags_eq (v : Zone) :
    [v.flags] = byte1 (v.service.toNat + 2 * v.enabled.toNat + 4 * v.alarmUnsent.toNat) := by
  unfold Zone.flags flagByte byte1
  congr 2
  simp only [List.foldr]
  omega

/-- The 18 bytes of a zone record (R189). -/
theorem Zone.bytes_eq (v : Zone) (z : ZoneNo) : v.bytes z = [zoneByte z, v.mode.code] ++ byte2 v.window
    ++ [(v.partner.map zoneByte).getD 0xFF] ++ byte1 v.offset
    ++ byte1 (v.service.toNat + 2 * v.enabled.toNat + 4 * v.alarmUnsent.toNat) ++ [v.state.code] ++ byte2 v.raised
    ++ [v.epoch] ++ addressBytes (v.first.getD 0) ++ byte4 (v.deadline.getD 0) := by
  rw [← v.flags_eq]
  rfl

/-! ## ZONE_SERVICE (R110) -/

theorem State.zoneService_named {b x : Byte} {z : ZoneNo} {f : Bool} (named : zoneOf b = some z)
    (service : serviceOf x = some f) (s : State) : State.zoneService b x s =
      if (s.zone z).service = f then s.zoneAnswer z .unchanged
      else (s.modifyZone z fun v => { v with service := f }).zoneAnswer z .ok := by
  unfold State.zoneService
  rw [State.onZone_named named, service]

theorem State.zoneService_invalid {b x : Byte} {z : ZoneNo} (named : zoneOf b = some z) (missing : serviceOf x = none)
    (s : State) : State.zoneService b x s = s.zoneAnswer z .invalid := by
  unfold State.zoneService
  rw [State.onZone_named named, missing]

/-! ## ZONE_RESET (R111, R112) -/

theorem State.zoneReset_named {b : Byte} {z : ZoneNo} (named : zoneOf b = some z) (s : State) :
    State.zoneReset b s =
      if (s.zone z).alarmUnsent then s.zoneAnswer z .notDelivered else (s.resetZone z).zoneAnswer z .ok :=
  State.onZone_named named s _

theorem State.resetZone_becomes (s : State) (z : ZoneNo) : ZoneBecomes s (s.resetZone z) z (s.zone z).wasReset :=
  (ZoneBecomes.setZone s z (s.zone z).wasReset).of_zones rfl

theorem State.resetZone_record (s : State) (z : ZoneNo) (i : Nat) :
    (s.resetZone z).dtu.recordAt i = (s.dtu.recordAt i).map fun r => r.epochWrapped z ((s.zone z).epoch + 1) := by
  have epoch : ((s.modifyZone z Zone.wasReset).zone z).epoch = (s.zone z).epoch + 1 := by
    rw [State.zone_modifyZone, if_pos rfl]
    rfl
  rw [← epoch]
  exact Dtu.recordAt_mapRecords _ _ _

/-- A record at NORMAL has no level for the epoch to stamp anew: the write of R112 touches the level alone. -/
theorem DetectorRecord.epochWrapped_pos {r : DetectorRecord} {z : ZoneNo} {epoch : BitVec 8}
    (named : r.zone = z ∧ r.level ≠ .normal ∧ r.levelEpoch = epoch) :
    r.epochWrapped z epoch = { r with level := .normal } := by
  unfold DetectorRecord.epochWrapped DetectorRecord.levelNormal
  rw [if_pos named, ← named.2.2]

theorem DetectorRecord.epochWrapped_neg {r : DetectorRecord} {z : ZoneNo} {epoch : BitVec 8}
    (other : ¬ (r.zone = z ∧ r.level ≠ .normal ∧ r.levelEpoch = epoch)) : r.epochWrapped z epoch = r := if_neg other

/-! ## ZONE_DISABLE and ZONE_ENABLE (R113, R114) -/

theorem State.zoneDisable_named {b : Byte} {z : ZoneNo} (named : zoneOf b = some z) (s : State) :
    State.zoneDisable b s =
      if (s.zone z).state = .alarm then s.zoneAnswer z .alarmLatched
      else if ¬ (s.zone z).enabled then s.zoneAnswer z .unchanged
      else (s.modifyZone z fun v => { v.leaveVerify .quiet with enabled := false }).zoneAnswer z .ok :=
  State.onZone_named named s _

theorem State.zoneEnable_named {b : Byte} {z : ZoneNo} (named : zoneOf b = some z) (s : State) :
    State.zoneEnable b s =
      if (s.zone z).enabled then s.zoneAnswer z .unchanged else (s.enableZone z).zoneAnswer z .ok :=
  State.onZone_named named s _

theorem State.enableZone_spec (s : State) (z : ZoneNo) :
    let v := s.zone z
    ZoneBecomes s (s.enableZone z) z { v with enabled := true, state := if 0 < v.raised then .pre else v.state }
    ∧ (s.enableZone z).evu =
        s.evuAfter (if 0 < v.raised then [(.zonePre v.raised, some z, none, none)] else [])
    ∧ s.enableZone z = { s with zones := (s.enableZone z).zones, evu := (s.enableZone z).evu } := by
  intro v
  unfold State.enableZone
  by_cases raised : 0 < v.raised
  · rw [if_pos raised, if_pos raised, if_pos raised]
    exact ⟨(ZoneBecomes.setZone s z _).of_zones rfl, rfl, rfl⟩
  · rw [if_neg raised, if_neg raised, if_neg raised]
    exact ⟨ZoneBecomes.setZone s z _, rfl, rfl⟩

end Sys2Proof.Machine

namespace Sys2Proof.Proofs

open Sys2Proof Sys2Proof.Machine

/-- Settles O42, each outcome of ZONE_SET by the stored configuration it compares. -/
theorem zoneSetStores : Obligations.ZoneSetStores := by
  unfold Obligations.ZoneSetStores
  refine ⟨fun s tag a z named => ⟨fun m p ready mode partner => ?_, fun ready missing => ?_, fun x ready missing => ?_⟩,
    fun b => ⟨ZoneMode.ofCode_eq b, serviceOf_eq b, partnerOf_eq_none_partner_iff, fun z => partnerOf_eq_some_iff,
      partnerOf_eq_none_iff⟩, fun v z => ?_⟩
  · have outcome := State.zoneSet_named named mode partner s
    refine ⟨fun same => ?_, fun differs => ⟨s.setZone z ((s.zone z).configured z m p a), ?_, .setZone s z _, rfl⟩⟩
    · exact ready.zoneAnswered (outcome.trans (if_pos same)) same.symm
    · rw [if_neg (show ¬ (s.zone z).configured z m p a = s.zone z from differs), zoneSetResult_eq] at outcome
      exact ready.zoneAnswered outcome (ZoneBecomes.setZone s z _).1
  · exact ready.zoneAnswered (State.zoneSet_invalid named missing s) rfl
  · exact ready.zoneAnswered (State.zoneService_invalid named missing s) rfl
  · rw [v.bytes_eq z, partnerByte_eq]
    rfl

/-- Settles O43, each flag command by its branches. -/
theorem zoneFlagsSet : Obligations.ZoneFlagsSet := by
  unfold Obligations.ZoneFlagsSet
  intro s tag b z named v serving disabled enabled
  refine ⟨fun x f ready service => ?_, fun ready => ?_, fun ready => ?_⟩
  · have outcome := State.zoneService_named named service s
    refine ⟨fun same => ?_, fun differs => ⟨s.setZone z (serving f), ?_, .setZone s z _, rfl⟩⟩
    · exact ready.zoneAnswered (outcome.trans (if_pos same)) rfl
    · exact ready.zoneAnswered (outcome.trans (if_neg differs)) (ZoneBecomes.setZone s z _).1
  · have outcome := State.zoneDisable_named named s
    refine ⟨fun latched => ?_, fun unlatched off => ?_, fun unlatched on =>
      ⟨s.setZone z disabled, ?_, .setZone s z _, rfl⟩⟩
    · exact ready.zoneAnswered (outcome.trans (if_pos latched)) rfl
    · rw [if_neg unlatched, if_pos (Bool.eq_false_iff.mp off)] at outcome
      exact ready.zoneAnswered outcome rfl
    · rw [if_neg unlatched, if_neg (not_not.mpr on)] at outcome
      exact ready.zoneAnswered outcome (ZoneBecomes.setZone s z _).1
  · have outcome := State.zoneEnable_named named s
    refine ⟨fun on => ?_, fun off => ?_⟩
    · exact ready.zoneAnswered (outcome.trans (if_pos on)) rfl
    · obtain ⟨becomes, evu, frame⟩ := s.enableZone_spec z
      exact ⟨s.enableZone z, ready.zoneAnswered (outcome.trans (if_neg (Bool.eq_false_iff.mp off))) becomes.1,
        becomes, evu, frame⟩

/-- Settles O44, by the zone and the records the reset leaves. -/
theorem zoneResetClears : Obligations.ZoneResetClears := by
  unfold Obligations.ZoneResetClears
  intro s tag b z ready named epoch v
  have outcome := State.zoneReset_named named s
  refine ⟨fun unsent => ?_, fun sent => ⟨s.resetZone z, ?_, s.resetZone_becomes z, fun i r record => ?_, rfl, rfl, rfl,
    fun i => Dtu.epochAt_mapRecords _ _ _, rfl⟩⟩
  · exact ready.zoneAnswered (outcome.trans (if_pos unsent)) rfl
  · exact ready.zoneAnswered (outcome.trans (if_neg (Bool.eq_false_iff.mp sent))) (s.resetZone_becomes z).1
  · rw [s.resetZone_record z i, record]
    exact ⟨fun wrapped => congrArg some (DetectorRecord.epochWrapped_pos wrapped),
      fun other => congrArg some (DetectorRecord.epochWrapped_neg other)⟩

end Sys2Proof.Proofs
end

