-- ==== Sys2Proof/Proofs/HeadAndHeldCommands.lean ====
section
/-! HEAD_RESET (R32) and COMMAND (R135, R136). -/

namespace Sys2Proof.Machine

/-! ## HEAD_RESET (R32) -/

theorem exec_headReset (b : Byte) (s : State) : exec (.headReset b) s = s.runCommand (.headReset b) fun s =>
    match headOf b with
    | none => s.answer .invalid []
    | some h => (s.resetHead h).answer .ok [] := rfl

theorem headOf_none {b : Byte} (high : 4 ≤ b.toNat) : headOf b = none := dif_neg (Nat.not_lt.mpr high)

theorem headOf_some {b : Byte} {h : HeadNo} (same : b.toNat = h.val) : headOf b = some h :=
  (dif_pos (same ▸ h.isLt)).trans (congrArg some (Fin.ext same))

/-- The lanes without the frames of a head, the blocks of those free (R32). -/
def Intake.without (k : Intake) (h : HeadNo) : Intake :=
  let urgent := k.urgentLane.filter (fun f => f.head != h)
  let normal := k.normalLane.filter (fun f => f.head != h)
  ⟨k.freeBlocks + ((k.urgentLane.length - urgent.length) + (k.normalLane.length - normal.length)), urgent, normal⟩

theorem Intake.without_total (k : Intake) (h : HeadNo) :
    (k.without h).freeBlocks + (k.without h).urgentLane.length + (k.without h).normalLane.length
      = k.freeBlocks + k.urgentLane.length + k.normalLane.length := by
  have urgent := List.length_filter_le (fun f : LaneFrame => f.head != h) k.urgentLane
  have normal := List.length_filter_le (fun f : LaneFrame => f.head != h) k.normalLane
  unfold Intake.without
  dsimp only
  omega

theorem State.resetHead_spec (s : State) (h : HeadNo) :
    HeadBecomes s (s.resetHead h) h { Head.powerOn with rx := (s.head h).rx, sending := (s.head h).sending }
      ∧ (s.resetHead h).hcq = s.hcq.toldNotSent (acksOf (s.head h).txFifo)
      ∧ s.resetHead h = { s with heads := (s.resetHead h).heads, intake := s.intake.without h,
                                 hcq := (s.resetHead h).hcq } := by
  have told := State.tellsNotSent_frame { s with intake := s.intake.without h } (acksOf (s.head h).txFifo)
  have hcq := State.tellsNotSent_hcq (acksOf (s.head h).txFifo) { s with intake := s.intake.without h }
  obtain ⟨_, heads⟩ := State.tellsNotSent_keeps (acksOf (s.head h).txFifo) { s with intake := s.intake.without h }
  have reset : s.resetHead h =
      ((acksOf (s.head h).txFifo).foldl State.tellNotSent { s with intake := s.intake.without h }).modifyHead h
        fun v => { Head.powerOn with rx := v.rx, sending := v.sending } := rfl
  rw [reset]
  generalize (acksOf (s.head h).txFifo).foldl State.tellNotSent { s with intake := s.intake.without h } = t
    at told hcq heads
  have own : t.head h = s.head h := heads h
  have becomes := HeadBecomes.modifyHead t h fun v => { Head.powerOn with rx := v.rx, sending := v.sending }
  unfold OnlyHeads at told
  refine ⟨?_, hcq, ?_⟩
  · rw [own] at becomes
    exact ⟨becomes.1, fun k other => (becomes.2 k other).trans (heads k)⟩
  · unfold State.modifyHead State.setHead
    rw [told]

/-! ## The codes and arguments of held commands (R135) -/

theorem HeldCode.ofCode_eq (b : Byte) : HeldCode.ofCode b =
    if b = 1 then some .sounderPattern else if b = 2 then some .locate else if b = 3 then some .testEnter
    else if b = 4 then some .testExit else if b = 5 then some .setPeriod else none := by
  revert b
  decide

theorem storedArgument_sounderPattern (x : BitVec 16) :
    storedArgument .sounderPattern x = some (if 7 < x.toNat then 7 else x) := by
  show some (BitVec.ofNat 16 (min x.toNat 7)) = _
  split
  · next high => rw [Nat.min_eq_right (Nat.le_of_lt high)]; rfl
  · next low => rw [Nat.min_eq_left (Nat.not_lt.mp low), BitVec.ofNat_toNat, BitVec.setWidth_eq]

theorem storedArgument_locate (x : BitVec 16) :
    storedArgument .locate x = if x = 0 ∨ x = 1 then some x else none := by
  have bit : x.toNat ≤ 1 ↔ x = 0 ∨ x = 1 := by bv_omega
  exact if_congr bit rfl rfl

theorem storedPeriod_le (n : Nat) : storedPeriod n ≤ 600 := by
  unfold storedPeriod clamp
  omega

theorem storedArgument_setPeriod (x : BitVec 16) :
    ∃ p, storedArgument .setPeriod x = some p ∧ p.toNat = max 20 (min x.toNat 600) / 10 * 10 := by
  have low := storedPeriod_le x.toNat
  exact ⟨_, rfl, (BitVec.toNat_ofNat _ _).trans (Nat.mod_eq_of_lt (by omega))⟩

theorem argumentReplaced_iff (x y : BitVec 16) {c : HeldCode}
    (carried : c = .sounderPattern ∨ c = .locate ∨ c = .setPeriod) : argumentReplaced c x y = true ↔ y ≠ x := by
  rcases carried with rfl | rfl | rfl
  · exact bne_iff_ne
  · exact bne_iff_ne
  · exact bne_iff_ne

theorem HeldCode.suits_eq (k : DetectorKind) :
    let senses := k = .smoke ∨ k = .heat ∨ k = .multi ∨ k = .callpoint
    (HeldCode.sounderPattern.suits k = true ↔ k = .sounder) ∧ (HeldCode.locate.suits k = true ↔ k ≠ .relay)
      ∧ (HeldCode.testEnter.suits k = true ↔ senses) ∧ (HeldCode.testExit.suits k = true ↔ senses)
      ∧ HeldCode.setPeriod.suits k = true := by
  cases k <;> decide

/-! ## COMMAND (R136) -/

theorem exec_command (a : Address) (b : Byte) (x : BitVec 16) (s : State) :
    exec (.command a b x) s = s.runCommand (.command a b x) (State.command a b x) := rfl

section

variable {s : State} {a : Address} {b : Byte} {x stored : BitVec 16} {code : HeldCode}

theorem reservedAddress_of {a : Address} (reserved : a = 0 ∨ a = 0xFFFFFF) : reservedAddress a = true := by
  rw [reservedAddress_eq]
  exact decide_eq_true reserved

theorem reservedAddress_not {a : Address} (h0 : a ≠ 0) (h1 : a ≠ 0xFFFFFF) : ¬ reservedAddress a = true := by
  rw [reservedAddress_eq, decide_eq_true_iff]
  exact not_or.mpr ⟨h0, h1⟩

theorem State.command_loading (loading : s.mode = .loading) : State.command a b x s = s.answer .wrongMode [] :=
  if_pos loading

theorem State.command_running (running : s.mode = .running) : State.command a b x s =
    if reservedAddress a then s.answer .invalid []
    else match HeldCode.ofCode b with
      | none => s.answer .invalid []
      | some code =>
        match storedArgument code x with
        | none => s.answer .invalid []
        | some stored => s.commandFor a code x stored := by
  have started : ¬ s.mode = .loading := fun loading => absurd (running.symm.trans loading) (by decide)
  unfold State.command
  exact (if_neg started).trans rfl

theorem State.command_reserved (running : s.mode = .running) (reserved : a = 0 ∨ a = 0xFFFFFF) :
    State.command a b x s = s.answer .invalid [] :=
  (State.command_running running).trans (if_pos (reservedAddress_of reserved))

/-- A code that names no command, and an argument that its command cannot store, are refused at any address. -/
theorem State.command_uncoded (running : s.mode = .running)
    (unstored : ∀ code, HeldCode.ofCode b = some code → storedArgument code x = none) :
    State.command a b x s = s.answer .invalid [] := by
  rw [State.command_running running]
  split
  · rfl
  · cases named : HeldCode.ofCode b with
    | none => rfl
    | some code =>
      dsimp only
      rw [unstored code named]

theorem State.command_judged (running : s.mode = .running) (h0 : a ≠ 0) (h1 : a ≠ 0xFFFFFF)
    (named : HeldCode.ofCode b = some code) (stores : storedArgument code x = some stored) :
    State.command a b x s = s.commandFor a code x stored := by
  rw [State.command_running running, if_neg (reservedAddress_not h0 h1), named]
  dsimp only
  rw [stores]

theorem State.commandFor_absent (absent : s.findRecord a = none) :
    s.commandFor a code x stored = s.answer .absent [] := by
  unfold State.commandFor
  rw [absent]

theorem State.commandFor_found {i q : Nat} {r : DetectorRecord} (found : s.findRecord a = some (i, q, r)) :
    s.commandFor a code x stored =
      if ¬ code.suits r.kind then s.answer .invalid []
      else if 64 ≤ s.hcq.entries.length then s.answer .queueFull []
      else (s.enterHeld (s.newEntry a code stored)).answer
        (if argumentReplaced code x stored then .adjusted else .ok) (s.hcq.nextNumber :: byte2 stored.toNat) := by
  unfold State.commandFor
  rw [found]
  rfl

end

end Sys2Proof.Machine

namespace Sys2Proof.Proofs

open Sys2Proof Sys2Proof.Machine

/-- Settles O41, by the head, the lanes and the notices of the reset. -/
theorem headResetClears : Obligations.HeadResetClears := by
  unfold Obligations.HeadResetClears
  intro s tag b ready
  refine ⟨fun high => ?_, fun h same => ?_⟩
  · rw [exec_headReset]
    refine ready.answered ?_
    rw [headOf_none high]
  · obtain ⟨becomes, hcq, frame⟩ := s.resetHead_spec h
    have intake : (s.resetHead h).intake = s.intake.without h := (congrArg State.intake frame).trans rfl
    refine ⟨s.resetHead h, ?_, becomes, ?_, ?_, ?_, hcq, ?_⟩
    · rw [exec_headReset]
      refine ready.answered ?_
      rw [headOf_some same]
    · rw [intake]; rfl
    · rw [intake]; rfl
    · rw [intake]; exact s.intake.without_total h
    · rw [intake]; exact frame

/-- Settles O45, by COMMAND's body once every check of R136 has passed. -/
theorem commandEntered : Obligations.CommandEntered := by
  unfold Obligations.CommandEntered
  refine ⟨fun s tag b a x stored code i q r ready running h0 h1 named stores found suits room => ?_,
    HeldCode.ofCode_eq, fun x y => ⟨storedArgument_sounderPattern x, storedArgument_locate x,
      storedArgument_setPeriod x, rfl, rfl, rfl, rfl, fun c => argumentReplaced_iff x y⟩, HeldCode.suits_eq⟩
  intro n entry
  have outcome := State.command_judged running h0 h1 named stores
  rw [State.commandFor_found found, if_neg (not_not.mpr suits), if_neg (Nat.not_le.mpr room)] at outcome
  exact ready.answered outcome

/-- Settles O46, check by check in the order of R136. -/
theorem commandRefused : Obligations.CommandRefused := by
  unfold Obligations.CommandRefused
  intro s tag b a x ready refused
  have refuse : ∀ {r : Result}, State.command a b x s = s.answer r [] → refused r := ready.answered
  refine ⟨fun loading => refuse (State.command_loading loading),
    fun running reserved => refuse (State.command_reserved running reserved), fun running unnamed => refuse ?_,
    fun running locate high => refuse ?_, fun code y running h0 h1 named stores => ?_⟩
  · exact State.command_uncoded running fun code named => (nomatch unnamed.symm.trans named)
  · refine State.command_uncoded running fun code named => ?_
    obtain rfl := Option.some_inj.mp (locate.symm.trans named)
    exact if_neg (Nat.not_le.mpr high)
  · have judged := State.command_judged running h0 h1 named stores
    refine ⟨fun absent => refuse (judged.trans (State.commandFor_absent absent)), fun i q r found => ?_⟩
    rw [State.commandFor_found found] at judged
    refine ⟨fun unsuited => refuse (judged.trans (if_pos (Bool.eq_false_iff.mp unsuited))), fun suits full => ?_⟩
    rw [if_neg (not_not.mpr suits), if_pos full] at judged
    exact refuse judged

end Sys2Proof.Proofs
end

