-- ==== Sys2Proof/Proofs/OrdersAndFilters.lean ====
section
/-! GROUP_ORDER (R145, R146) and FILTER_SET (R156). -/

namespace Sys2Proof.Machine

/-! ## GROUP_ORDER (R146) -/

theorem exec_groupOrder (b x : Byte) (s : State) :
    exec (.groupOrder b x) s = s.runCommand (.groupOrder b x) (State.groupOrder b x) := rfl

theorem Scope.ofCode_eq_all_iff {b : Byte} : Scope.ofCode b = some .all ↔ b = 0xFF := by
  unfold Scope.ofCode
  split
  · next all => exact ⟨fun _ => all, fun _ => rfl⟩
  · next one =>
    refine ⟨fun h => ?_, fun h => absurd h one⟩
    obtain ⟨z, _, absurdity⟩ := Option.map_eq_some_iff.mp h
    exact nomatch absurdity

theorem Scope.ofCode_eq_zone_iff {b : Byte} {z : ZoneNo} : Scope.ofCode b = some (.zone z) ↔ b.toNat = z.val := by
  unfold Scope.ofCode
  split
  · next all =>
    refine ⟨fun h => (nomatch h), fun h => ?_⟩
    have low := z.isLt
    rw [← h, all] at low
    exact absurd low (by decide)
  · rw [Option.map_eq_some_iff, ← zoneOf_eq_some_iff]
    exact ⟨fun ⟨y, named, same⟩ => Scope.zone.inj same ▸ named, fun named => ⟨z, named, rfl⟩⟩

theorem Scope.ofCode_eq_none_iff {b : Byte} : Scope.ofCode b = none ↔ b ≠ 0xFF ∧ 64 ≤ b.toNat := by
  unfold Scope.ofCode
  split
  · next all => exact ⟨fun h => (nomatch h), fun h => absurd all h.1⟩
  · next one => rw [Option.map_eq_none_iff, zoneOf_eq_none_iff, and_iff_right one]

theorem State.groupOrder_placed {b x : Byte} {sc : Scope} {s : State} (running : s.mode = .running)
    (named : Scope.ofCode b = some sc) : State.groupOrder b x s =
      s.placeOrder sc (min x.toNat 7) (if 7 < x.toNat then .adjusted else .ok) := by
  have started : ¬ s.mode = .loading := fun loading => absurd (running.symm.trans loading) (by decide)
  unfold State.groupOrder
  rw [if_neg started, named]

theorem State.groupOrder_invalid {b x : Byte} {s : State} (running : s.mode = .running)
    (unnamed : Scope.ofCode b = none) : State.groupOrder b x s = s.ordersAnswer .invalid := by
  have started : ¬ s.mode = .loading := fun loading => absurd (running.symm.trans loading) (by decide)
  unfold State.groupOrder
  rw [if_neg started, unnamed]

section

variable {s : State} {sc : Scope} {p : Nat} {r : Result}

theorem State.placeOrder_held {before after : List GroupEntry} {g : GroupEntry}
    (split : s.hcq.orders = before ++ g :: after) (own : g.scope = sc) (earlier : ∀ y ∈ before, y.scope ≠ sc)
    (later : ∀ y ∈ after, y.scope ≠ sc) : s.placeOrder sc p r =
      if p = 0 then (s.setOrders (before ++ after)).ordersAnswer .ok
      else if g.pattern = p then s.ordersAnswer .unchanged
      else (s.setOrders (before ++ ⟨sc, p⟩ :: after)).ordersAnswer r := by
  have found : s.hcq.orders.find? (fun g => g.scope == sc) = some g := by
    rw [split, List.find?_eq_some_iff_append]
    exact ⟨beq_iff_eq.mpr own, before, after, rfl, fun y hy => by rw [beq_false_of_ne (earlier y hy)]; rfl⟩
  have others : ∀ {l : List GroupEntry}, (∀ y ∈ l, y.scope ≠ sc) → l.filter (fun g => g.scope != sc) = l :=
    fun apart => List.filter_eq_self.mpr fun y hy => bne_iff_ne.mpr (apart y hy)
  have removed : s.hcq.orders.filter (fun g => g.scope != sc) = before ++ after := by
    have dropped : ¬ (g.scope != sc) = true := fun ne => bne_iff_ne.mp ne own
    rw [split, List.filter_append, List.filter_cons_of_neg (p := fun g : GroupEntry => g.scope != sc) dropped, others earlier, others later]
  have changed : modifyFirst (fun g => g.scope == sc) (fun g => { g with pattern := p }) s.hcq.orders
      = before ++ ⟨sc, p⟩ :: after := by
    rw [split, modifyFirst_split _ _ before g after (fun y hy => beq_false_of_ne (earlier y hy)) (beq_iff_eq.mpr own),
      own]
  unfold State.placeOrder
  dsimp only
  rw [found]
  dsimp only
  rw [removed, changed]

theorem State.placeOrder_absent (absent : ∀ g ∈ s.hcq.orders, g.scope ≠ sc) : s.placeOrder sc p r =
    if p = 0 then s.ordersAnswer .unchanged
    else if s.hcq.orders.length < 8 then (s.setOrders (s.hcq.orders ++ [⟨sc, p⟩])).ordersAnswer r
    else s.ordersAnswer .queueFull := by
  have none : s.hcq.orders.find? (fun g => g.scope == sc) = none :=
    List.find?_eq_none.mpr fun g hg same => absent g hg (beq_iff_eq.mp same)
  unfold State.placeOrder
  dsimp only
  rw [none]
  rfl

end

theorem ordersBytes_eq (orders : List GroupEntry) : ordersBytes orders = byte1 orders.length ++ orders.flatMap fun g =>
    (match g.scope with
      | .all => 0xFF
      | .zone z => BitVec.ofNat 8 z.val) :: byte1 g.pattern := rfl

/-! ## The values of a filter (R152, R156) -/

theorem raiseClassOf_eq (b : Byte) : raiseClassOf b =
    if b = 0 then some none else if b = 2 then some (some .fault) else if b = 3 then some (some .status) else none := by
  revert b
  decide

theorem filterKindOf_eq_none_iff (b : Byte) : filterKindOf b = none ↔
    ¬ (0x10 ≤ b.toNat ∧ b.toNat ≤ 0x1A ∨ 0x20 ≤ b.toNat ∧ b.toNat ≤ 0x2E ∨ b = 0x30) := by
  revert b
  decide

theorem filterKindOf_sound {b : Byte} {k : EventKind} (named : filterKindOf b = some k) :
    k.code = b ∧ k ≠ .zoneAlarm := by
  have listed := List.mem_of_find?_eq_some named
  have coded : (k.code == b) = true := List.find?_some (p := fun k : EventKind => k.code == b) named
  exact ⟨beq_iff_eq.mp coded, fun alarm => absurd (alarm ▸ listed) (by decide)⟩

theorem DetectorKind.ofCode_eq_none_iff {b : Byte} : DetectorKind.ofCode b = none ↔ b = 0 ∨ 6 < b.toNat := by
  revert b
  decide

theorem DetectorKind.code_ofCode (b : Byte) :
    (DetectorKind.ofCode b).map DetectorKind.code = if b = 0 ∨ 6 < b.toNat then none else some b := by
  revert b
  decide

theorem filterAddressOf_eq (a : Address) : filterAddressOf a = if a = 0 ∨ a = 0xFFFFFF then none else some a := by
  unfold filterAddressOf
  rw [reservedAddress_eq]
  exact if_congr decide_eq_true_iff rfl rfl

theorem caredField_none_iff {α : Type} {care : Bool} {value : Option α} :
    caredField care value = none ↔ care = true ∧ value = none := by
  unfold caredField
  cases care with
  | true => rw [if_pos rfl, Option.map_eq_none_iff, and_iff_right rfl]
  | false => exact ⟨fun h => (nomatch h), fun h => (nomatch h.1)⟩

theorem caredField_eq {α : Type} {care : Bool} {value : Option α} (possible : ¬ (care = true ∧ value = none)) :
    caredField care value = some (if care then value else none) := by
  cases care with
  | false => rfl
  | true =>
    cases value with
    | none => exact absurd ⟨rfl, rfl⟩ possible
    | some x => rfl

/-- A value of a FILTER_SET names no possible thing. -/
def ImpossibleFilter (a : FilterArgs) : Prop :=
  (a.raiseClass ≠ 0 ∧ a.raiseClass ≠ 2 ∧ a.raiseClass ≠ 3)
    ∨ (a.careEvent = true ∧ filterKindOf a.eventKind = none)
    ∨ (a.careKind = true ∧ (a.detKind = 0 ∨ 6 < a.detKind.toNat))
    ∨ (a.careZone = true ∧ 64 ≤ a.zone.toNat)
    ∨ (a.careAddress = true ∧ (a.address = 0 ∨ a.address = 0xFFFFFF))

theorem Filter.store_impossible {a : FilterArgs} (impossible : ImpossibleFilter a) : Filter.store a = none := by
  unfold Filter.store
  split
  · next rc ek dk z ad hrc hek hdk hz had =>
    rcases impossible with ⟨h0, h2, h3⟩ | event | ⟨care, kind⟩ | ⟨care, zone⟩ | ⟨care, address⟩
    · rw [raiseClassOf_eq, if_neg h0, if_neg h2, if_neg h3] at hrc
      exact nomatch hrc
    · exact nomatch hek.symm.trans (caredField_none_iff.mpr event)
    · exact nomatch hdk.symm.trans (caredField_none_iff.mpr ⟨care, DetectorKind.ofCode_eq_none_iff.mpr kind⟩)
    · exact nomatch hz.symm.trans (caredField_none_iff.mpr ⟨care, zoneOf_none zone⟩)
    · exact nomatch had.symm.trans (caredField_none_iff.mpr ⟨care, (filterAddressOf_eq _).trans (if_pos address)⟩)
  · rfl

/-- The filter as stored when every value cared for names a thing. -/
def storedFilter (a : FilterArgs) : Filter :=
  { enable := a.enable, eventKind := if a.careEvent then filterKindOf a.eventKind else none,
    detKind := if a.careKind then DetectorKind.ofCode a.detKind else none,
    zone := if a.careZone then zoneOf a.zone else none, address := if a.careAddress then some a.address else none,
    priority := max 1 (min a.priority.toNat 7),
    raiseClass := if a.raiseClass = 2 then some .fault else if a.raiseClass = 3 then some .status else none,
    suppress := a.suppress, urgent := a.urgent }

theorem Filter.store_possible {a : FilterArgs} (possible : ¬ ImpossibleFilter a) : Filter.store a = some (storedFilter a) := by
  unfold ImpossibleFilter at possible
  obtain ⟨raise, possible⟩ := not_or.mp possible
  obtain ⟨event, possible⟩ := not_or.mp possible
  obtain ⟨kind, possible⟩ := not_or.mp possible
  obtain ⟨zone, address⟩ := not_or.mp possible
  have hrc : raiseClassOf a.raiseClass = some (storedFilter a).raiseClass := by
    rw [raiseClassOf_eq]
    unfold storedFilter
    by_cases h0 : a.raiseClass = 0
    · rw [h0]; rfl
    · by_cases h2 : a.raiseClass = 2
      · rw [h2]; rfl
      · rw [if_neg h0, if_neg h2, if_pos (not_not.mp fun h3 => raise ⟨h0, h2, h3⟩)]
        rw [not_not.mp fun h3 => raise ⟨h0, h2, h3⟩]
        rfl
  have hdk := caredField_eq (mt (and_congr_right' DetectorKind.ofCode_eq_none_iff).mp kind)
  have hz := caredField_eq (mt (and_congr_right' zoneOf_eq_none_iff).mp zone)
  have had : caredField a.careAddress (filterAddressOf a.address) = some (storedFilter a).address := by
    rw [filterAddressOf_eq]
    cases care : a.careAddress with
    | false => unfold storedFilter; rw [care]; rfl
    | true =>
      rw [if_neg fun reserved => address ⟨care, reserved⟩]
      unfold storedFilter
      rw [care]
      rfl
  unfold Filter.store
  rw [hrc, caredField_eq event, hdk, hz, had]
  rfl

/-! ## FILTER_SET (R156) -/

theorem exec_filterSet (a : FilterArgs) (s : State) :
    exec (.filterSet a) s = s.runCommand (.filterSet a) (State.filterSet a) := rfl

theorem filterIndexOf_none {b : Byte} (high : 16 ≤ b.toNat) : filterIndexOf b = none := dif_neg (Nat.not_lt.mpr high)

theorem filterIndexOf_some {b : Byte} {i : Fin 16} (same : b.toNat = i.val) : filterIndexOf b = some i :=
  (dif_pos (same ▸ i.isLt)).trans (congrArg some (Fin.ext same))

theorem storedPriority_eq_iff (n : Nat) : storedPriority n = n ↔ 1 ≤ n ∧ n ≤ 7 := by
  unfold storedPriority clamp
  omega

theorem State.filterSet_noIndex {a : FilterArgs} (high : 16 ≤ a.index.toNat) (s : State) :
    State.filterSet a s = s.answer .invalid [] := by
  unfold State.filterSet
  rw [filterIndexOf_none high]

theorem State.filterSet_impossible {a : FilterArgs} {i : Fin 16} (same : a.index.toNat = i.val)
    (unstored : Filter.store a = none) (s : State) : State.filterSet a s = s.filterAnswer i .invalid := by
  unfold State.filterSet
  rw [filterIndexOf_some same, unstored]

theorem State.filterSet_stored {a : FilterArgs} {i : Fin 16} {f : Filter} (same : a.index.toNat = i.val)
    (stored : Filter.store a = some f) (s : State) : State.filterSet a s =
      if f = s.evu.filters.get i then s.filterAnswer i .unchanged
      else (s.setFilter i f).filterAnswer i (if 1 ≤ a.priority.toNat ∧ a.priority.toNat ≤ 7 then .ok else .adjusted) := by
  unfold State.filterSet
  rw [filterIndexOf_some same, stored]
  dsimp only
  rw [if_congr (storedPriority_eq_iff _) rfl rfl]

theorem raiseByte_eq (c : Option EventClass) : (c.map EventClass.code).getD 0 = match c with
    | none => (0 : Byte)
    | some .alarm => 1
    | some .fault => 2
    | some .status => 3
    | some .level => 4 := by
  cases c with
  | none => rfl
  | some c => cases c <;> rfl

theorem Filter.careByte_eq (f : Filter) : [f.careByte] = byte1 (f.enable.toNat + 2 * f.eventKind.isSome.toNat
    + 4 * f.detKind.isSome.toNat + 8 * f.zone.isSome.toNat + 16 * f.address.isSome.toNat) := by
  unfold Filter.careByte flagByte byte1
  congr 2
  simp only [List.foldr]
  omega

theorem Filter.actionByte_eq (f : Filter) : [f.actionByte] = byte1 (f.suppress.toNat + 2 * f.urgent.toNat) := by
  unfold Filter.actionByte flagByte byte1
  congr 2

/-- The ten bytes of a stored filter (R189). -/
theorem Filter.bytes_eq (f : Filter) : f.bytes = byte1 (f.enable.toNat + 2 * f.eventKind.isSome.toNat
      + 4 * f.detKind.isSome.toNat + 8 * f.zone.isSome.toNat + 16 * f.address.isSome.toNat)
    ++ [(f.eventKind.map EventKind.code).getD 0, (f.detKind.map DetectorKind.code).getD 0,
        (f.zone.map zoneByte).getD 0]
    ++ addressBytes (f.address.getD 0) ++ byte1 f.priority
    ++ [(f.raiseClass.map EventClass.code).getD 0] ++ byte1 (f.suppress.toNat + 2 * f.urgent.toNat) := by
  rw [← f.careByte_eq, ← f.actionByte_eq]
  unfold Filter.bytes
  rw [List.append_assoc _ [(f.raiseClass.map EventClass.code).getD 0] [f.actionByte]]
  rfl

end Sys2Proof.Machine

namespace Sys2Proof.Proofs

open Sys2Proof Sys2Proof.Machine

/-- Settles O47, with an entry of the scope in the table and without one. -/
theorem groupOrderChangesTable : Obligations.GroupOrderChangesTable := by
  unfold Obligations.GroupOrderChangesTable
  refine ⟨fun s tag b x ready => ?_, fun b => ⟨Scope.ofCode_eq_all_iff, fun z => Scope.ofCode_eq_zone_iff,
    Scope.ofCode_eq_none_iff⟩, ordersBytes_eq⟩
  intro p result answers
  have answer : ∀ {orders : List GroupEntry} {r : Result},
      State.groupOrder b x s = (s.setOrders orders).ordersAnswer r → answers orders r := ready.answered
  refine ⟨fun loading => answer (if_pos loading),
    fun running unnamed => answer (State.groupOrder_invalid running unnamed), fun sc running named => ?_⟩
  have placed := State.groupOrder_placed (x := x) running named
  refine ⟨fun before g after split own earlier later => ?_, fun absent => ?_⟩
  · rw [State.placeOrder_held split own earlier later] at placed
    refine ⟨fun clears => answer (placed.trans (if_pos clears)), fun sets same => answer ?_,
      fun sets differs => answer ?_⟩
    · exact placed.trans ((if_neg sets).trans (if_pos same))
    · exact placed.trans ((if_neg sets).trans (if_neg differs))
  · rw [State.placeOrder_absent absent] at placed
    refine ⟨fun clears => answer (placed.trans (if_pos clears)), fun sets room => answer ?_,
      fun sets full => answer ?_⟩
    · exact placed.trans ((if_neg sets).trans (if_pos room))
    · exact placed.trans ((if_neg sets).trans (if_neg (Nat.not_lt.mpr full)))

/-- Settles O48, by the stored form of a filter and the one slot that takes it. -/
theorem filterSetWrites : Obligations.FilterSetWrites := by
  unfold Obligations.FilterSetWrites
  refine ⟨fun s tag a ready => ⟨fun high => ready.answered (State.filterSet_noIndex high s), fun i same =>
    ⟨fun unstored => ready.answered (State.filterSet_impossible same unstored s), fun f stored => ?_⟩⟩,
    fun a => ?_, fun b => ⟨filterKindOf_eq_none_iff b, fun k => filterKindOf_sound⟩, rfl, rfl, rfl, fun f => ?_⟩
  · have outcome := State.filterSet_stored same stored s
    refine ⟨fun held => ?_, fun differs => ⟨s.setFilter i f, ?_, ?_, fun j other => ?_, rfl⟩⟩
    · rw [if_pos held] at outcome
      rw [held]
      exact ready.answered outcome
    · rw [if_neg differs] at outcome
      have kept : (s.setFilter i f).evu.filters.get i = f := (vector_get_set _ _ _ _).trans (if_pos rfl)
      unfold State.filterAnswer at outcome
      rw [kept] at outcome
      exact ready.answered outcome
    · exact (vector_get_set _ _ _ _).trans (if_pos rfl)
    · exact (vector_get_set _ _ _ _).trans (if_neg other)
  · refine ⟨fun impossible => Filter.store_impossible impossible, fun possible =>
      ⟨(storedFilter a), Filter.store_possible possible, rfl, ?_, ?_⟩⟩
    · unfold storedFilter
      cases care : a.careKind with
      | false => rfl
      | true =>
        refine (DetectorKind.code_ofCode a.detKind).trans (if_neg fun missing => possible ?_)
        exact .inr (.inr (.inl ⟨care, missing⟩))
    · unfold storedFilter
      cases care : a.careZone with
      | false => rfl
      | true =>
        have low : a.zone.toNat < 64 := Nat.not_le.mp fun high => possible (.inr (.inr (.inr (.inl ⟨care, high⟩))))
        rw [if_pos rfl, if_pos rfl, show zoneOf a.zone = some ⟨a.zone.toNat, low⟩ from dif_pos low]
        rfl
  · rw [f.bytes_eq, raiseByte_eq]
    rfl

end Sys2Proof.Proofs
end

