-- ==== Sys2Proof/Proofs/EnrolCommands.lean ====
section
/-! ENROL and AMEND (R12 to R20): the free record taken, the record present, the move, and their refusals. -/

namespace Sys2Proof.Machine

/-! ## The configuration given (R12, R15) -/

/-- The configuration an ENROL or AMEND of a kind and a zone stores. -/
def storedConfiguration (a : EnrolArgs) (k : DetectorKind) (z : ZoneNo) : Configuration :=
  { address := a.address, kind := k, zone := z, key := a.key, period := storedPeriod a.period.toNat,
    misses := storedMisses a.misses.toNat }

section

variable {a : EnrolArgs} {k : DetectorKind} {z : ZoneNo}

theorem Configuration.ofArgs_some (h0 : a.address ≠ 0) (h1 : a.address ≠ 0xFFFFFF)
    (kind : DetectorKind.ofCode a.kind = some k) (zone : zoneOf a.zone = some z) :
    Configuration.ofArgs a = some (storedConfiguration a k z) := by
  unfold Configuration.ofArgs
  rw [if_neg (reservedAddress_not h0 h1), kind, zone]
  rfl

theorem Configuration.ofArgs_none (invalid : a.address = 0 ∨ a.address = 0xFFFFFF ∨ DetectorKind.ofCode a.kind = none
    ∨ 64 ≤ a.zone.toNat) : Configuration.ofArgs a = none := by
  unfold Configuration.ofArgs
  rcases or_assoc.mpr invalid with reserved | unnamed
  · exact if_pos (reservedAddress_of reserved)
  · split
    · rfl
    · split
      · next hk hz =>
        rcases unnamed with kind | zone
        · exact nomatch hk.symm.trans kind
        · exact nomatch hz.symm.trans (zoneOf_none zone)
      · rfl

theorem Configuration.ofArgs_valid (valid : ¬ (a.address = 0 ∨ a.address = 0xFFFFFF ∨ DetectorKind.ofCode a.kind = none
    ∨ 64 ≤ a.zone.toNat)) : ∃ k z, Configuration.ofArgs a = some (storedConfiguration a k z) := by
  obtain ⟨h0, valid⟩ := not_or.mp valid
  obtain ⟨h1, valid⟩ := not_or.mp valid
  obtain ⟨kind, zone⟩ := not_or.mp valid
  obtain ⟨k, hk⟩ := Option.ne_none_iff_exists'.mp kind
  exact ⟨k, ⟨a.zone.toNat, Nat.not_le.mp zone⟩, Configuration.ofArgs_some h0 h1 hk (dif_pos (Nat.not_le.mp zone))⟩

theorem DetectorKind.ofCode_eq (b : Byte) : DetectorKind.ofCode b = if b = 1 then some .smoke
    else if b = 2 then some .heat else if b = 3 then some .multi else if b = 4 then some .callpoint
    else if b = 5 then some .sounder else if b = 6 then some .relay else none := by
  revert b
  decide

/-! ## The rows -/

theorem exec_enrol (a : EnrolArgs) (s : State) : exec (.enrol a) s = s.runCommand (.enrol a) (State.enrol a) := rfl

theorem exec_amend (a : EnrolArgs) (fresh : Bool) (s : State) :
    exec (.amend a fresh) s = s.runCommand (.amend a fresh) (State.amend a fresh) := rfl

theorem State.enrol_invalid (none : Configuration.ofArgs a = none) (s : State) :
    State.enrol a s = s.answer .invalid (addressBytes a.address) := by
  unfold State.enrol
  rw [none]

theorem State.amend_invalid (none : Configuration.ofArgs a = none) (fresh : Bool) (s : State) :
    State.amend a fresh s = s.answer .invalid (addressBytes a.address) := by
  unfold State.amend
  rw [none]

variable {s : State} {c : Configuration}

theorem State.enrol_absent (given : Configuration.ofArgs a = some c) (absent : s.findRecord c.address = none) :
    State.enrol a s = s.enrolAbsent c (enrolSuccess a) := by
  unfold State.enrol
  rw [given]
  dsimp only
  rw [absent]

theorem State.amend_absent (given : Configuration.ofArgs a = some c) (fresh : Bool)
    (absent : s.findRecord c.address = none) : State.amend a fresh s = s.enrolAbsent c (enrolSuccess a) := by
  unfold State.amend
  rw [given]
  dsimp only
  rw [absent]

theorem State.enrol_present {i q : Nat} {r : DetectorRecord} (given : Configuration.ofArgs a = some c)
    (found : s.findRecord c.address = some (i, q, r)) : State.enrol a s = s.enrolPresent c i r := by
  unfold State.enrol
  rw [given]
  dsimp only
  rw [found]

theorem State.amend_present {i q : Nat} {r : DetectorRecord} (given : Configuration.ofArgs a = some c) (fresh : Bool)
    (found : s.findRecord c.address = some (i, q, r)) :
    State.amend a fresh s = s.amendPresent c fresh (enrolSuccess a) i q r := by
  unfold State.amend
  rw [given]
  dsimp only
  rw [found]

theorem State.enrolAbsent_full (full : s.dtu.freeList = []) (r : Result) :
    s.enrolAbsent c r = s.answer .tableFull (addressBytes c.address) := by
  unfold State.enrolAbsent
  rw [full]

theorem State.enrolAbsent_free {i : Nat} {rest : List Nat} (free : s.dtu.freeList = i :: rest) (r : Result) :
    let t := s.setDtu (s.dtu.join (s.bucketOf c.address) i rest (s.enrolledRecord c))
    s.enrolAbsent c r = t.answer r (t.enrolData c i (t.dtu.chainAt (s.bucketOf c.address)).length) := by
  intro t
  unfold State.enrolAbsent
  rw [free]

theorem State.amendPresent_full (full : s.dtu.freeList = []) (fresh : Bool) (r : Result) (i q : Nat)
    (old : DetectorRecord) : s.amendPresent c fresh r i q old = s.answer .tableFull (addressBytes c.address) := by
  unfold State.amendPresent
  rw [full]

theorem State.amendPresent_free {n : Nat} {rest : List Nat} (free : s.dtu.freeList = n :: rest) (fresh : Bool)
    (r : Result) (i q : Nat) (old : DetectorRecord) : s.amendPresent c fresh r i q old =
      (s.amendMove c fresh i old n rest).answer r ((s.amendMove c fresh i old n rest).enrolData c n q) := by
  unfold State.amendPresent
  rw [free]

end

/-! ## The reply data (R16, R19, R189) -/

theorem flagByte_decide (p : Prop) [Decidable p] : flagByte [decide p] = if p then 1 else 0 := by
  by_cases h : p
  · rw [if_pos h, decide_eq_true h]; rfl
  · rw [if_neg h, decide_eq_false h]; rfl

theorem State.enrolData_eq (s : State) (c : Configuration) (i q : Nat) : s.enrolData c i q =
    addressBytes c.address ++ byte2 i ++ [s.dtu.epochAt i] ++ byte2 q
      ++ [if s.pages.memory.advice < q then 1 else 0] ++ byte2 c.period ++ byte1 c.misses := by
  unfold State.enrolData
  rw [flagByte_decide]

theorem State.bucketOf_eq (s : State) (a : Address) : s.bucketOf a =
    ((a.toNat % 256) + 3 * (a.toNat / 256 % 256) + 7 * (a.toNat / 65536)) % (s.pages.memory.tableSize / 4) :=
  bucketIndex_eq a s.buckets

theorem Dtu.join_epochAt {d : Dtu} {i : Nat} (within : i < d.slots.length) (b : Nat) (rest : List Nat)
    (r : DetectorRecord) : (d.join b i rest r).epochAt i = d.epochAt i + 1 :=
  (epochAt_set d _ rfl i i _ _ _ _).trans (if_pos ⟨rfl, within⟩)

theorem Dtu.join_chainAt {d : Dtu} {b : Nat} (within : b < d.chains.length) (i : Nat) (rest : List Nat)
    (r : DetectorRecord) : (d.join b i rest r).chainAt b = d.chainAt b ++ [i] :=
  (chainAt_set d.chains _ _ _ b b _).trans (if_pos ⟨rfl, within⟩)

theorem Dtu.move_epochAt {d : Dtu} {n : Nat} (within : n < d.slots.length) (b i : Nat) (rest : List Nat)
    (r : DetectorRecord) : (d.move b i n rest r).epochAt n = d.epochAt n + 1 := by
  have inner : n < (d.slots.set i ⟨d.epochAt i, none⟩).length := by rwa [List.length_set]
  exact (epochAt_set ⟨d.slots.set i ⟨d.epochAt i, none⟩, [], [], 0⟩ _ rfl n n _ _ _ _).trans (if_pos ⟨rfl, inner⟩)

/-! ## The record present -/

theorem DetectorRecord.configuration_eq_iff {r : DetectorRecord} {a : EnrolArgs} {k : DetectorKind} {z : ZoneNo}
    (address : r.address = a.address) : r.configuration = storedConfiguration a k z ↔
      r.kind = k ∧ r.zone = z ∧ r.key = a.key ∧ r.period = storedPeriod a.period.toNat
        ∧ r.misses = storedMisses a.misses.toNat := by
  unfold DetectorRecord.configuration storedConfiguration
  rw [Configuration.mk.injEq, and_iff_right address]

/-! ## The move of an AMEND (R19, R20, R22, R131) -/

theorem State.amendMissing_eq (s : State) (old : DetectorRecord) (fresh : Bool) : s.amendMissing old fresh = { s with
    su := { s.su with missing := if fresh ∧ old.presence = .missing then s.su.missing - 1 else s.su.missing } } := by
  unfold State.amendMissing State.uncountMissing
  cases fresh with
  | false => rfl
  | true =>
    by_cases missing : old.presence = .missing
    · rw [if_pos rfl, if_pos missing, if_pos ⟨rfl, missing⟩]
    · rw [if_pos rfl, if_neg missing, if_neg fun h => missing h.2]

/-- The table and the missing count of an AMEND, before its notices. -/
def State.amendTable (s : State) (c : Configuration) (fresh : Bool) (i : Nat) (old : DetectorRecord) (n : Nat)
    (rest : List Nat) : State :=
  { s with
    dtu := s.dtu.move (s.bucketOf c.address) i n rest (s.amendedRecord old c fresh),
    su := { s.su with missing := if fresh ∧ old.presence = .missing then s.su.missing - 1 else s.su.missing } }

theorem State.amendMove_eq (s : State) (c : Configuration) (fresh : Bool) (i : Nat) (old : DetectorRecord) (n : Nat)
    (rest : List Nat) : s.amendMove c fresh i old n rest =
      if fresh = true ∨ old.zone ≠ c.zone then (s.amendTable c fresh i old n rest).noticeZoneAndEvents old
      else s.amendTable c fresh i old n rest := by
  have notifies : amendNotifies old c fresh = true ↔ fresh = true ∨ old.zone ≠ c.zone := by
    unfold amendNotifies
    rw [Bool.or_eq_true, decide_eq_true_iff, ne_comm]
  unfold State.amendMove
  rw [State.amendMissing_eq, if_congr notifies rfl rfl]
  rfl

theorem DetectorRecord.amended_eq {old : DetectorRecord} {c : Configuration} (address : old.address = c.address)
    (epoch : BitVec 8) : old.amended c epoch = { old with
      kind := c.kind, zone := c.zone, key := c.key, period := c.period, misses := c.misses, collision := false,
      baseline := if c.kind = old.kind then old.baseline else none,
      driftFault := if c.kind = old.kind then old.driftFault else false,
      lastReported := if c.kind = old.kind then old.lastReported else none,
      sounderPattern := if c.kind = old.kind then old.sounderPattern else 0,
      mismatchRun := if c.kind = old.kind then old.mismatchRun else 0,
      level := if c.zone = old.zone then old.level else .normal,
      levelEpoch := if c.zone = old.zone then old.levelEpoch else epoch } := by
  unfold DetectorRecord.amended
  rw [← address]

end Sys2Proof.Machine

namespace Sys2Proof.Proofs

open Sys2Proof Sys2Proof.Machine

/-- Settles O32, both commands by the enrolment of an absent address. -/
theorem enrolTakesFreeRecord : Obligations.EnrolTakesFreeRecord := by
  unfold Obligations.EnrolTakesFreeRecord
  intro s tag a k z i rest h0 h1 kind zone absent free p m record bucket chain enrolled result full standing
  have given := Configuration.ofArgs_some h0 h1 kind zone
  have joined := State.enrolAbsent_free (c := storedConfiguration a k z) free (enrolSuccess a)
  have at_bucket : s.bucketOf a.address = bucket := s.bucketOf_eq a.address
  have state : s.setDtu (s.dtu.join (s.bucketOf a.address) i rest (s.enrolledRecord (storedConfiguration a k z)))
      = enrolled := by rw [at_bucket]; rfl
  have data : standing → enrolled.enrolData (storedConfiguration a k z) i
      (enrolled.dtu.chainAt (s.bucketOf a.address)).length = full := fun ⟨slot, inside⟩ => by
    have epoch : enrolled.dtu.epochAt i = s.dtu.epochAt i + 1 := Dtu.join_epochAt slot bucket rest record
    have position : enrolled.dtu.chainAt bucket = chain := Dtu.join_chainAt inside i rest record
    rw [State.enrolData_eq, at_bucket, epoch, position]
    rfl
  dsimp only at joined
  rw [show (storedConfiguration a k z).address = a.address from rfl, state] at joined
  exact ⟨fun ready => ⟨_, ready.answered ((State.enrol_absent given absent).trans joined), data⟩,
    fun fresh ready => ⟨_, ready.answered ((State.amend_absent given fresh absent).trans joined), data⟩⟩

/-- Settles O33, by the configuration that an invalid argument lacks and the free record that a full table lacks. -/
theorem enrolRefused : Obligations.EnrolRefused := by
  unfold Obligations.EnrolRefused
  refine ⟨fun s tag a fresh => ⟨fun ready => ⟨fun bad => ?_, fun valid absent full => ?_⟩,
    fun ready => ⟨fun bad => ?_, fun valid full => ?_⟩⟩, DetectorKind.ofCode_eq,
    fun b => ⟨fun z => zoneOf_eq_some_iff, zoneOf_eq_none_iff⟩⟩
  · exact ready.answered (State.enrol_invalid (Configuration.ofArgs_none bad) s)
  · obtain ⟨k, z, given⟩ := Configuration.ofArgs_valid valid
    exact ready.answered ((State.enrol_absent given absent).trans (State.enrolAbsent_full full _))
  · exact ready.answered (State.amend_invalid (Configuration.ofArgs_none bad) fresh s)
  · obtain ⟨k, z, given⟩ := Configuration.ofArgs_valid valid
    cases found : s.findRecord a.address with
    | none => exact ready.answered ((State.amend_absent given fresh found).trans (State.enrolAbsent_full full _))
    | some x =>
      exact ready.answered ((State.amend_present given fresh found).trans (State.amendPresent_full full _ _ _ _ _))

/-- Settles O34, by whether the record holds the configuration given. -/
theorem enrolPresentAnswered : Obligations.EnrolPresentAnswered := by
  unfold Obligations.EnrolPresentAnswered
  intro s tag a k z i q r ready h0 h1 kind zone found p m same
  obtain ⟨-, address⟩ := State.findRecord_sound found
  have outcome := State.enrol_present (Configuration.ofArgs_some h0 h1 kind zone) found
  have held : r.configuration = storedConfiguration a k z ↔ same := DetectorRecord.configuration_eq_iff address
  unfold State.enrolPresent at outcome
  exact ⟨fun h => ready.answered (outcome.trans (if_pos (held.mpr h))),
    fun h => ready.answered (outcome.trans (if_neg (mt held.mp h)))⟩

/-- Settles O35, with the notices of a fresh start or a change of zone and without them. -/
theorem amendMovesRecord : Obligations.AmendMovesRecord := by
  unfold Obligations.AmendMovesRecord
  intro s tag a fresh k z i q n rest r ready h0 h1 kind zone found free apart within
    p m v r' bucket moved result data falls
  obtain ⟨-, address⟩ := State.findRecord_sound found
  have outcome := (State.amend_present (Configuration.ofArgs_some h0 h1 kind zone) fresh found).trans
    (State.amendPresent_free free fresh (enrolSuccess a) i q r)
  have at_bucket : s.bucketOf a.address = bucket := s.bucketOf_eq a.address
  have record : s.amendedRecord r (storedConfiguration a k z) fresh = r' :=
    if_congr Iff.rfl rfl (r.amended_eq (c := storedConfiguration a k z) address _)
  have table : s.amendTable (storedConfiguration a k z) fresh i r n rest = moved := by
    unfold State.amendTable
    rw [show (storedConfiguration a k z).address = a.address from rfl, at_bucket, record]
    rfl
  have reply : ∀ {t : State}, t = { moved with zones := t.zones, evu := t.evu } →
      t.enrolData (storedConfiguration a k z) n q = data := fun {t} frame => by
    have epoch : t.dtu.epochAt n = s.dtu.epochAt n + 1 := by
      rw [frame]
      exact Dtu.move_epochAt within bucket i rest r'
    rw [State.enrolData_eq, epoch, frame]
    rfl
  rw [State.amendMove_eq, table, show (storedConfiguration a k z).zone = z from rfl] at outcome
  refine ⟨fun kept same => ?_, fun notified => ?_⟩
  · have silent : ¬ (fresh = true ∨ r.zone ≠ z) := not_or.mpr ⟨Bool.eq_false_iff.mp kept, not_not.mpr same⟩
    rw [if_neg silent, reply (t := moved) rfl] at outcome
    exact ready.answered outcome
  · obtain ⟨becomes, zones, evu⟩ := moved.noticeZoneAndEvents_spec r
    have frame : moved.noticeZoneAndEvents r = { moved with
        zones := (moved.noticeZoneAndEvents r).zones, evu := (moved.noticeZoneAndEvents r).evu } :=
      moved.noticeZoneAndEvents_frame r
    have noticed : (moved.noticeZoneAndEvents r).evu = (s.evuAfter (if r.counted v.epoch = true ∧ falls then
        [(.zoneQuiet, some r.zone, some a.address, none)] else [])).closeFor s.su.clock .notice a.address := by
      rw [← address]
      exact evu
    rw [if_pos notified, reply frame] at outcome
    refine ⟨moved.noticeZoneAndEvents r, ready.answered outcome, frame, fun uncounted => ⟨zones uncounted, ?_⟩,
      fun counted => ⟨becomes counted, ?_⟩, ?_⟩
    · rw [noticed, if_neg fun h => Bool.eq_false_iff.mp uncounted h.1]
      rfl
    · rw [noticed, if_congr (and_iff_right counted) rfl rfl]
    · rw [noticed]
      exact fun c hc => ((Evu.closeFor_kept _ _ _ _).2 c hc).2

end Sys2Proof.Proofs
end

