-- ==== Sys2Proof/Proofs/Lookups.lean ====
section
/-! Lookups, LOOKUP, and the refusals of the commands that name an address or a zone (R6, R15, R23, R108). -/

namespace Sys2Proof.Machine

/-! ## The walk of a chain (R6) -/

/-- The index a walk yields splits the chain: its position, the index before it, and no record of the address ahead. -/
theorem Dtu.walk_split {d : Dtu} {a : Address} {x : Lookup} : ∀ {l : List Nat} {p : Nat} {b : Option Nat},
    d.walk a p b l = some x → ∃ before after, l = before ++ x.index :: after ∧ x.position = p + before.length
      ∧ x.before = before.getLast?.or b ∧ ∀ j ∈ before, ∀ r, d.recordAt j = some r → r.address ≠ a := by
  intro l
  induction l with
  | nil => intro p b h; exact nomatch h
  | cons i rest ih =>
    intro p b h
    unfold Dtu.walk at h
    by_cases here : (d.recordAt i).any (fun r => r.address == a) = true
    · rw [if_pos here] at h
      obtain rfl := Option.some_inj.mp h
      exact ⟨[], rest, rfl, rfl, rfl, fun j hj => nomatch hj⟩
    · rw [if_neg here] at h
      obtain ⟨before, after, split, position, previous, ahead⟩ := ih h
      refine ⟨i :: before, after, congrArg (i :: ·) split, ?_, ?_, fun j hj r record same => ?_⟩
      · rw [position, List.length_cons]
        omega
      · rw [previous, List.getLast?_cons]
        cases before.getLast? with
        | none => rfl
        | some j => rfl
      · rcases List.mem_cons.mp hj with rfl | later
        · exact here (by rw [record]; exact beq_iff_eq.mpr same)
        · exact ahead j later r record same

theorem State.findRecord_lookup {s : State} {a : Address} {i q : Nat} {r : DetectorRecord}
    (found : s.findRecord a = some (i, q, r)) : ∃ before, s.lookup a = some ⟨i, q, before⟩ := by
  unfold State.findRecord at found
  obtain ⟨x, walked, record⟩ := Option.bind_eq_some_iff.mp found
  obtain ⟨r', _, same⟩ := Option.map_eq_some_iff.mp record
  obtain ⟨rfl, rfl, rfl⟩ := Prod.mk.inj same |>.imp_right Prod.mk.inj
  exact ⟨x.before, walked⟩

theorem State.lookup_eq_none_iff (s : State) (a : Address) : s.lookup a = none ↔
    ∀ j ∈ s.dtu.chainAt (s.bucketOf a), ∀ r, s.dtu.recordAt j = some r → r.address ≠ a := by
  refine ⟨Dtu.walk_none _ 1 none, fun absent => Option.eq_none_iff_forall_ne_some.mpr fun x found => ?_⟩
  obtain ⟨chained, r, record, same⟩ := Dtu.walk_some _ 1 none x found
  exact absent x.index chained r record same

theorem State.findRecord_eq_none_iff (s : State) (a : Address) : s.findRecord a = none ↔ s.lookup a = none := by
  unfold State.findRecord
  cases found : s.lookup a with
  | none => exact ⟨fun _ => rfl, fun _ => rfl⟩
  | some x =>
    obtain ⟨_, r, record, _⟩ := Dtu.walk_some _ 1 none x found
    rw [Option.bind_some, record]
    exact ⟨fun h => (nomatch h), fun h => (nomatch h)⟩

/-! ## Commands that name an address (R15) -/

theorem State.onAddress_reserved {a : Address} (reserved : a = 0 ∨ a = 0xFFFFFF) (s : State)
    (f : Nat → Nat → DetectorRecord → Answer) : s.onAddress a f = s.answer .invalid (addressBytes a) :=
  if_pos (reservedAddress_of reserved)

theorem State.onAddress_absent {s : State} {a : Address} (h0 : a ≠ 0) (h1 : a ≠ 0xFFFFFF)
    (absent : s.findRecord a = none) (f : Nat → Nat → DetectorRecord → Answer) :
    s.onAddress a f = s.answer .absent (addressBytes a) := by
  unfold State.onAddress
  rw [if_neg (reservedAddress_not h0 h1), absent]

theorem exec_withdraw (a : Address) (s : State) : exec (.withdraw a) s = s.runCommand (.withdraw a) fun s =>
    s.onAddress a fun i _ r => (s.withdrawRecord i r).answer .ok (addressBytes a) := rfl

theorem exec_lookup (a : Address) (s : State) : exec (.lookup a) s = s.runCommand (.lookup a) fun s =>
    s.onAddress a fun i q r => s.answer .ok (s.lookupData i q r) := rfl

theorem exec_detectorDisable (a : Address) (s : State) :
    exec (.detectorDisable a) s = s.runCommand (.detectorDisable a) fun s => s.onAddress a fun i _ r =>
      if r.enabled then (s.disableRecord i r).answer .ok (addressBytes a)
      else s.answer .unchanged (addressBytes a) := rfl

theorem exec_detectorEnable (a : Address) (s : State) :
    exec (.detectorEnable a) s = s.runCommand (.detectorEnable a) fun s => s.onAddress a fun i _ r =>
      if r.enabled then s.answer .unchanged (addressBytes a)
      else (s.putRecord i { r.refreshed s.now with enabled := true }).answer .ok (addressBytes a) := rfl

/-- The two refusals of a command that names an address. -/
theorem Ready.refusesAddress {s : State} {c : Command} {tag : Byte} {a : Address}
    {f : State → Nat → Nat → DetectorRecord → Answer} (ready : Ready s c tag) :
    ((a = 0 ∨ a = 0xFFFFFF) →
      s.runCommand c (fun s => s.onAddress a (f s)) = .next (s.replied tag c.code .invalid (addressBytes a)))
    ∧ (a ≠ 0 → a ≠ 0xFFFFFF → s.findRecord a = none →
      s.runCommand c (fun s => s.onAddress a (f s)) = .next (s.replied tag c.code .absent (addressBytes a))) :=
  ⟨fun reserved => ready.answered (State.onAddress_reserved reserved s _),
    fun h0 h1 absent => ready.answered (State.onAddress_absent h0 h1 absent _)⟩

/-! ## The report of a record (R23, R148, R189) -/

theorem DetectorRecord.flags_eq (r : DetectorRecord) : [r.flags] =
    byte1 (r.enabled.toNat + 2 * (if r.key = 0 then 0 else 1) + 4 * r.collision.toNat + 8 * r.test.toNat
      + 16 * (if r.battery = .low then 1 else 0) + 32 * (if r.tamper = .opened then 1 else 0)
      + 64 * r.driftFault.toNat) := by
  have key : (r.key != 0).toNat = if r.key = 0 then 0 else 1 := by
    by_cases h : r.key = 0
    · rw [if_pos h, h]; rfl
    · rw [if_neg h, bne_iff_ne.mpr h]; rfl
  have battery : (r.battery == .low).toNat = if r.battery = .low then 1 else 0 := by
    cases r.battery <;> rfl
  have tamper : (r.tamper == .opened).toNat = if r.tamper = .opened then 1 else 0 := by
    cases r.tamper <;> rfl
  unfold DetectorRecord.flags flagByte byte1
  congr 2
  simp only [List.foldr, key, battery, tamper]
  omega

theorem pathBytes_length (p : Option Path) : (pathBytes p).length = 6 := by
  cases p with
  | none => rfl
  | some p => rfl

theorem Hcq.lookupBytes_length (q : Hcq) (a : Address) : (q.lookupBytes a).length = 4 := by
  unfold Hcq.lookupBytes
  cases q.sentEntry a with
  | none => rfl
  | some e => rfl

theorem State.lookupData_length (s : State) (i q : Nat) (r : DetectorRecord) : (s.lookupData i q r).length = 41 := by
  unfold State.lookupData
  simp only [List.length_append, pathBytes_length, Hcq.lookupBytes_length]
  rfl

theorem Hcq.sentEntry_eq (q : Hcq) (a : Address) :
    q.sentEntry a = q.entries.find? fun x => decide (x.target = a ∧ x.state = .sent) := by
  refine congrArg (fun p => q.entries.find? p) (funext fun x => ?_)
  unfold HeldEntry.sentTo
  rw [Bool.decide_and]
  rfl

theorem Hcq.held_eq (q : Hcq) (a : Address) :
    q.entries.countP (fun e => e.target == a) = (q.entries.filter fun x => decide (x.target = a)).length :=
  List.countP_eq_length_filter

end Sys2Proof.Machine

namespace Sys2Proof.Proofs

open Sys2Proof Sys2Proof.Machine

/-- Settles O37, by the walk of the chain and the layout of the report. -/
theorem lookupReports : Obligations.LookupReports := by
  unfold Obligations.LookupReports
  refine ⟨fun s tag a i q r found => ?_, fun s a => ?_⟩
  · intro bucket
    have at_bucket : s.bucketOf a = bucket := s.bucketOf_eq a
    obtain ⟨record, address⟩ := State.findRecord_sound found
    obtain ⟨b, looked⟩ := State.findRecord_lookup found
    refine ⟨?_, record, address, fun ready h0 h1 => ⟨?_, s.lookupData_length i q r⟩, ?_⟩
    · obtain ⟨before, after, split, position, previous, ahead⟩ := Dtu.walk_split looked
      refine ⟨before, after, at_bucket ▸ split, position.trans (Nat.add_comm _ _), ?_, ahead⟩
      rw [looked, show b = before.getLast?.or none from previous, Option.or_none]
    · rw [exec_lookup]
      exact ready.answered (State.onAddress_found h0 h1 found _)
    · unfold State.lookupData Hcq.lookupBytes
      rw [r.flags_eq, Hcq.sentEntry_eq, Hcq.held_eq]
      exact (List.append_assoc _ _ _).symm.trans rfl
  · intro bucket
    have at_bucket : s.bucketOf a = bucket := s.bucketOf_eq a
    refine ⟨?_, (s.findRecord_eq_none_iff a).symm⟩
    rw [s.findRecord_eq_none_iff, s.lookup_eq_none_iff, at_bucket]
    rfl

/-- Settles O38, each command by its two refusals. -/
theorem addressOrZoneRefused : Obligations.AddressOrZoneRefused := by
  unfold Obligations.AddressOrZoneRefused
  refine ⟨fun s tag a => ⟨fun ready => ?_, fun ready => ?_, fun ready => ?_, fun ready => ?_⟩,
    fun s tag b x a high same => ⟨fun ready => ?_, fun ready => ?_, fun ready => ?_, fun ready => ?_, fun ready => ?_⟩⟩
  · rw [exec_withdraw]
    exact ready.refusesAddress
  · rw [exec_lookup]
    exact ready.refusesAddress
  · rw [exec_detectorDisable]
    exact ready.refusesAddress
  · rw [exec_detectorEnable]
    exact ready.refusesAddress
  · exact ready.answered (State.onZone_unnamed (same ▸ high) s _)
  · exact ready.answered (State.onZone_unnamed high s _)
  · exact ready.answered (State.onZone_unnamed high s _)
  · exact ready.answered (State.onZone_unnamed high s _)
  · exact ready.answered (State.onZone_unnamed high s _)

end Sys2Proof.Proofs
end

