-- ==== Sys2Proof/Proofs/RemovalCommands.lean ====
section
/-! WITHDRAW, CLEAR_TABLE, DETECTOR_DISABLE and DETECTOR_ENABLE (R21, R22, R24 to R26). -/

namespace Sys2Proof.Machine

/-! ## Contexts and the records taken after -/

/-- Records taken open no context. -/
theorem State.evuAfter_fewer (l : List (EventBody × Option ZoneNo × Option Address × Option DetectorKind)) :
    ∀ s : State, s.evu.Fewer (s.evuAfter l) := by
  induction l with
  | nil => exact fun s => .refl _
  | cons x rest ih => exact fun s => (Evu.take_fewer s.evu s.now _).trans (ih (s.raise x.1 x.2.1 x.2.2.1 x.2.2.2))

/-! ## One removal (R21, R22, R131) -/

/-- What a removal does is the same whatever the table holds. -/
theorem Removed.anyTable {s t : State} {d : Dtu} {r : DetectorRecord} (removed : Removed { s with dtu := d } t r) :
    Removed s { t with dtu := s.dtu } r := by
  obtain ⟨counted, uncounted, su, hcq, evu, frame⟩ := removed
  exact ⟨counted, uncounted, su, hcq, evu, by rw [frame]⟩

theorem Removed.contexts {s t : State} {r : DetectorRecord} (removed : Removed s t r) :
    ∀ c ∈ t.evu.contexts, c ∈ s.evu.contexts ∧ c.address ≠ r.address := by
  obtain ⟨_, _, _, _, evu, _⟩ := removed
  intro c hc
  rw [evu] at hc
  obtain ⟨before, apart⟩ := (Evu.closeFor_kept _ _ _ _).2 c ((State.evuAfter_fewer _ _).subset hc)
  exact ⟨(State.evuAfter_fewer _ _).subset before, apart⟩

theorem Removed.entries {s t : State} {r : DetectorRecord} (removed : Removed s t r) :
    t.hcq.entries = s.hcq.entries.filter fun e => e.target != r.address := by
  obtain ⟨_, _, _, hcq, _, _⟩ := removed
  rw [hcq]

theorem Removed.other {s t : State} {r : DetectorRecord} (removed : Removed s t r) {y : ZoneNo} (other : y ≠ r.zone) :
    t.zone y = s.zone y := by
  obtain ⟨counted, uncounted, _⟩ := removed
  cases is : r.counted (s.zone r.zone).epoch with
  | true => exact (counted is).2 y other
  | false => exact congrArg (·.get y) (uncounted is)

theorem State.withdrawRecord_removed (s : State) (i : Nat) (r : DetectorRecord) :
    Removed s { s.withdrawRecord i r with dtu := s.dtu } r :=
  Removed.anyTable (State.removeOne_removed (s.setDtu (s.dtu.leave (s.bucketOf r.address) i)) r)

theorem DetectorRecord.counted_iff (r : DetectorRecord) (epoch : BitVec 8) : r.counted epoch = true ↔
    r.enabled = true ∧ r.test = false ∧ r.levelEpoch = epoch ∧ r.level ≠ .normal := by
  have current : r.currentLevel epoch ≠ .normal ↔ r.levelEpoch = epoch ∧ r.level ≠ .normal := by
    unfold DetectorRecord.currentLevel
    by_cases stamped : r.levelEpoch = epoch
    · rw [if_pos stamped, and_iff_right stamped]
    · rw [if_neg stamped]
      exact ⟨fun h => absurd rfl h, fun h => absurd h.1 stamped⟩
  unfold DetectorRecord.counted
  rw [Bool.and_eq_true, Bool.and_eq_true, bne_iff_ne, Bool.not_eq_true', current, and_assoc]

theorem Dtu.leave_epochAt (d : Dtu) (b i j : Nat) : (d.leave b i).epochAt j = d.epochAt j := by
  refine (epochAt_set d _ rfl i j _ _ _ _).trans ?_
  split
  · next same => rw [same.1]
  · rfl

/-! ## Removals one after another (R24) -/

theorem State.removeOnes_entries (l : List DetectorRecord) : ∀ s : State, (l.foldl State.removeOne s).hcq.entries =
    s.hcq.entries.filter fun e => l.all fun r => r.address != e.target := by
  induction l with
  | nil => exact fun s => (List.filter_true _).symm
  | cons r rest ih =>
    intro s
    refine (ih (s.removeOne r)).trans ?_
    rw [(s.removeOne_removed r).entries, List.filter_filter]
    refine List.filter_congr fun e _ => ?_
    rw [List.all_cons, Bool.and_comm, bne_comm]

theorem State.removeOnes_contexts (l : List DetectorRecord) : ∀ s : State, ∀ c ∈ (l.foldl State.removeOne s).evu.contexts,
    c ∈ s.evu.contexts ∧ ∀ r ∈ l, c.address ≠ r.address := by
  induction l with
  | nil => exact fun s c hc => ⟨hc, fun r hr => nomatch hr⟩
  | cons r rest ih =>
    intro s c hc
    obtain ⟨left, later⟩ := ih (s.removeOne r) c hc
    obtain ⟨before, apart⟩ := (s.removeOne_removed r).contexts c left
    exact ⟨before, List.forall_mem_cons.mpr ⟨apart, later⟩⟩

theorem exec_clearTable (s : State) : exec .clearTable s = s.runCommand .clearTable State.clearTable := rfl

theorem Dtu.cleared_chain (d : Dtu) (b : Nat) : d.cleared.chains.getD b [] = [] := by
  unfold Dtu.cleared
  rw [List.getD_eq_getElem?_getD, List.getElem?_map]
  cases d.chains[b]? with
  | none => rfl
  | some l => rfl

theorem State.clearTable_loading {s : State} (loading : s.mode = .loading) : s.clearTable =
    (s.removeAll.setDtu s.dtu.cleared).answer .ok (byte2 s.dtu.chained) := by
  unfold State.clearTable
  rw [loading]
  dsimp only
  rw [s.removeAll_dtu]

theorem State.clearTable_running {s : State} (running : s.mode = .running) :
    s.clearTable = s.answer .wrongMode (byte2 0) := by
  unfold State.clearTable
  rw [running]

/-! ## DETECTOR_DISABLE (R25) -/

/-- A record as DETECTOR_DISABLE leaves it. -/
def DetectorRecord.disabled (r : DetectorRecord) (epoch : BitVec 8) : DetectorRecord :=
  { r with enabled := false, level := .normal, levelEpoch := epoch }

theorem State.disableRecord_counted {s : State} {r : DetectorRecord} (counted : r.counted (s.zone r.zone).epoch = true)
    (i : Nat) : s.disableRecord i r =
      (s.putRecord i (r.disabled (s.zone r.zone).epoch)).zoneDecrement r.zone r.address (some r.kind) :=
  if_pos counted

theorem State.disableRecord_uncounted {s : State} {r : DetectorRecord}
    (uncounted : r.counted (s.zone r.zone).epoch = false) (i : Nat) :
    s.disableRecord i r = s.putRecord i (r.disabled (s.zone r.zone).epoch) :=
  if_neg (Bool.eq_false_iff.mp uncounted)

end Sys2Proof.Machine

namespace Sys2Proof.Proofs

open Sys2Proof Sys2Proof.Machine

/-- Settles O36, by the removal of one record and the table it leaves. -/
theorem withdrawRemovesRecord : Obligations.WithdrawRemovesRecord := by
  unfold Obligations.WithdrawRemovesRecord
  refine ⟨fun s tag a i q r ready h0 h1 found => ?_, State.removeOne_removed, DetectorRecord.counted_iff⟩
  intro bucket v
  obtain ⟨record, address⟩ := State.findRecord_sound found
  have removed := s.withdrawRecord_removed i r
  have frame := s.withdrawRecord_frame i r
  have at_bucket : s.bucketOf r.address = bucket := by rw [address]; exact s.bucketOf_eq a
  have table : (s.withdrawRecord i r).dtu = s.dtu.leave bucket i := by rw [frame, at_bucket]
  have outcome : exec (.withdraw a) s = .next (State.replied (s.withdrawRecord i r) tag 0x03 .ok (addressBytes a)) := by
    rw [exec_withdraw]
    exact ready.answered (State.onAddress_found h0 h1 found _)
  generalize s.withdrawRecord i r = t at removed frame table outcome
  have contexts := removed.contexts
  have entries := removed.entries
  obtain ⟨counted, uncounted, su, hcq, evu, rest⟩ := id removed
  refine ⟨t, outcome, table, ?_, ?_, fun j other => ⟨?_, ?_⟩, fun e he => ?_, ?_, fun c hc => ?_, su, fun is => (counted is).1,
    fun is => congrArg (·.get r.zone) (uncounted is), fun y other => removed.other other, address, removed, ?_⟩
  · rw [table, Dtu.recordAt_leave, if_pos ⟨rfl, Dtu.recordAt_lt record⟩]
  · rw [table, Dtu.leave_epochAt]
  · rw [table, Dtu.recordAt_leave, if_neg fun h => other h.1]
  · rw [table, Dtu.leave_epochAt]
  · rw [show t.hcq.entries = _ from entries, address] at he
    exact bne_iff_ne.mp (List.mem_filter.mp he).2
  · rw [← address]; exact entries
  · rw [← address]; exact (contexts c hc).2
  · exact frame.trans (by rw [table, at_bucket])

/-- Settles O39, by the removals one after another and the table rebuilt. -/
theorem clearTableEmpties : Obligations.ClearTableEmpties := by
  unfold Obligations.ClearTableEmpties
  intro s tag ready
  refine ⟨fun loading => ⟨s.removeAll.setDtu s.dtu.cleared, ready.answered (State.clearTable_loading loading),
    fun i => ⟨Dtu.recordAt_cleared _ i, Dtu.epochAt_cleared _ i⟩, rfl, rfl, Dtu.cleared_chain _, ?_, ?_, ?_, ?_,
    ⟨rfl, rfl, rfl, rfl⟩, ?_⟩, fun running => ready.answered (State.clearTable_running running)⟩
  · exact State.removeOnes_entries _ _
  · exact fun c hc => (State.removeOnes_contexts _ _ c hc).2
  · exact (State.removeAll_counts _ _).2.2
  · exact fun z => (State.removeAll_counts _ _).2.1 z
  · show s.removeAll.setDtu s.dtu.cleared = { s with
      dtu := s.dtu.cleared, zones := s.removeAll.zones, su := s.removeAll.su, hcq := s.removeAll.hcq,
      evu := s.removeAll.evu }
    have frame := s.removeAll_onlyRemoval
    unfold OnlyRemoval at frame
    unfold State.setDtu
    rw [frame]

/-- Settles O40, the disabling with the zone's decrement and without it. -/
theorem detectorDisableEnable : Obligations.DetectorDisableEnable := by
  unfold Obligations.DetectorDisableEnable
  intro s tag a i q r h0 h1 found v epoch falls disabled enabled
  obtain ⟨-, address⟩ := State.findRecord_sound found
  refine ⟨fun ready => ?_, fun ready => ?_⟩
  · rw [exec_detectorDisable]
    have outcome := State.onAddress_found h0 h1 found fun i _ r =>
      if r.enabled then (s.disableRecord i r).answer .ok (addressBytes a) else s.answer .unchanged (addressBytes a)
    refine ⟨fun off => ready.answered (outcome.trans (if_neg (Bool.eq_false_iff.mp off))), fun on =>
      ⟨s.disableRecord i r, ready.answered (outcome.trans (if_pos on)), ?_⟩⟩
    cases counted : r.counted epoch with
    | true =>
      obtain ⟨becomes, evu, frame⟩ := (s.putRecord i disabled).zoneDecrement_spec r.zone r.address (some r.kind)
      rw [State.disableRecord_counted counted]
      refine ⟨frame, ?_, becomes.2, fun _ => ⟨becomes, ?_⟩, fun h => nomatch h⟩
      · exact congrArg Zone.raised becomes.1
      · rw [← address]
        exact evu
    | false =>
      rw [State.disableRecord_uncounted counted]
      exact ⟨rfl, rfl, fun y _ => rfl, fun h => (nomatch h), fun _ => ⟨rfl, rfl⟩⟩
  · rw [exec_detectorEnable]
    have outcome := State.onAddress_found h0 h1 found fun i _ r =>
      if r.enabled then s.answer .unchanged (addressBytes a)
      else (s.putRecord i { r.refreshed s.now with enabled := true }).answer .ok (addressBytes a)
    exact ⟨fun on => ready.answered (outcome.trans (if_pos on)),
      fun off => ready.answered (outcome.trans (if_neg (Bool.eq_false_iff.mp off)))⟩

end Sys2Proof.Proofs
end

