-- ==== Sys2Proof/Proofs/PageWrites.lean ====
section
/-! PAGE_WRITE of each page (R2, R40, R73, R119, R128, R181). -/

namespace Sys2Proof.Machine

/-! ## Page 0 (R40) -/

theorem exec_pageWriteLevels (a : LevelsArgs) (s : State) :
    exec (.pageWriteLevels a) s = s.runCommand (.pageWriteLevels a) (State.writeLevels a) := rfl

theorem exec_pageWriteTiming (a : TimingArgs) (s : State) :
    exec (.pageWriteTiming a) s = s.runCommand (.pageWriteTiming a) (State.writeTiming a) := rfl

theorem exec_pageWriteMemory (a : MemoryArgs) (s : State) :
    exec (.pageWriteMemory a) s = s.runCommand (.pageWriteMemory a) (State.writeMemory a) := rfl

theorem State.writeAir_running {s : State} (running : s.mode = .running) (a : AirArgs) :
    State.writeAir a s = s.answer .wrongMode [] := if_pos running

theorem State.writeAir_unstored {s : State} {a : AirArgs} (loading : s.mode = .loading)
    (unstored : PageAir.store a = none) : State.writeAir a s = s.answer .invalid [] := by
  have stopped : ¬ s.mode = .running := fun running => absurd (loading.symm.trans running) (by decide)
  unfold State.writeAir
  rw [if_neg stopped, unstored]

theorem AirOrder.ofCode_eq (b : Byte) :
    AirOrder.ofCode b = if b = 0 then some .rotate else if b = 1 then some .mirror else none := by
  revert b
  decide

theorem PageAir.store_none {a : AirArgs} (unnamed : a.order ≠ 0 ∧ a.order ≠ 1) : PageAir.store a = none := by
  unfold PageAir.store
  rw [AirOrder.ofCode_eq, if_neg unnamed.1, if_neg unnamed.2]
  rfl

theorem PageAir.store_some {a : AirArgs} (named : a.order = 0 ∨ a.order = 1) :
    let n := max 2 (min a.channels.toNat 8)
    PageAir.store a = some
      { channels := n, order := if a.order = 1 ∧ (n = 2 ∨ n = 4 ∨ n = 8) then .mirror else .rotate,
        starts := #v[(a.starts.get 0).toNat % n, (a.starts.get 1).toNat % n, (a.starts.get 2).toNat % n,
          (a.starts.get 3).toNat % n],
        slotLength := max 100 (min a.slotLength.toNat 500) / 25 * 25,
        jamThreshold := max 50 (min a.jam.toNat 100),
        signalMargin := max (-100) (min a.margin.toInt (-60)) } := by
  intro n
  have order : ∃ o, AirOrder.ofCode a.order = some o
      ∧ (if o = .mirror ∧ ¬ (n = 2 ∨ n = 4 ∨ n = 8) then .rotate else o)
        = if a.order = 1 ∧ (n = 2 ∨ n = 4 ∨ n = 8) then AirOrder.mirror else .rotate := by
    rcases named with rotate | mirror
    · exact ⟨.rotate, by rw [AirOrder.ofCode_eq, if_pos rotate],
        (if_neg fun h => nomatch h.1).trans (if_neg fun h => absurd (rotate.symm.trans h.1) (by decide)).symm⟩
    · refine ⟨.mirror, by rw [AirOrder.ofCode_eq, mirror]; rfl, ?_⟩
      rw [if_congr (and_iff_right rfl) rfl rfl, if_congr (and_iff_right mirror) rfl rfl, ite_not]
  obtain ⟨o, coded, kept⟩ := order
  unfold PageAir.store
  rw [coded, ← kept]
  rfl

/-! ## Page 1 (R73) -/

theorem ThresholdSet.store_eq (t : ThresholdArgs) :
    let P := max 1 (min t.pre.toNat 254)
    let A := max 2 (min t.alarm.toNat 250)
    ThresholdSet.store t = { pre := if A ≤ P then A - 1 else P, alarm := A, hyst := min t.hyst.toNat 15 } := by
  intro P A
  have ordered : (if P < A then P else A - 1) = if A ≤ P then A - 1 else P := by
    rw [← ite_not, if_congr Nat.not_lt rfl rfl]
  have low : clamp 0 15 t.hyst.toNat = min t.hyst.toNat 15 := Nat.zero_max _
  unfold ThresholdSet.store
  rw [low, ← ordered]
  rfl

theorem ReportMode.ofCode_eq (b : Byte) : ReportMode.ofCode b =
    if b.toNat ≤ 2 then some (if b = 0 then .off else if b = 1 then .band else .all) else none := by
  revert b
  decide

theorem ReportSet.store_none {r : ReportArgs} (unnamed : ¬ r.mode.toNat ≤ 2) : ReportSet.store r = none := by
  unfold ReportSet.store
  rw [ReportMode.ofCode_eq, if_neg unnamed]
  rfl

theorem ReportSet.store_some {r : ReportArgs} (named : r.mode.toNat ≤ 2) : ReportSet.store r = some
    { mode := if r.mode = 0 then .off else if r.mode = 1 then .band else .all,
      delta := max 1 (min r.delta.toNat 64) } := by
  unfold ReportSet.store
  rw [ReportMode.ofCode_eq, if_pos named]
  rfl

theorem PageLevels.store_none {a : LevelsArgs} (unnamed : ¬ (a.smokeReport.mode.toNat ≤ 2
    ∧ a.heatReport.mode.toNat ≤ 2 ∧ a.multiReport.mode.toNat ≤ 2)) : PageLevels.store a = none := by
  unfold PageLevels.store
  split
  · next hs hh hm =>
    refine absurd ⟨?_, ?_, ?_⟩ unnamed
    · exact not_not.mp fun high => nomatch hs.symm.trans (ReportSet.store_none high)
    · exact not_not.mp fun high => nomatch hh.symm.trans (ReportSet.store_none high)
    · exact not_not.mp fun high => nomatch hm.symm.trans (ReportSet.store_none high)
  · rfl

theorem State.writeLevels_none {a : LevelsArgs} (unstored : PageLevels.store a = none) (s : State) :
    State.writeLevels a s = s.answer .invalid [] := by
  unfold State.writeLevels
  rw [unstored]

theorem State.writeLevels_some {a : LevelsArgs} {p : PageLevels} (stored : PageLevels.store a = some p) (s : State) :
    State.writeLevels a s = (s.setPages { s.pages with levels := p, levelsLoaded := true }).answer
      (storedResult a p.toArgs) (byte1 1 ++ levelsBytes p.toArgs) := by
  unfold State.writeLevels
  rw [stored]

/-! ## Page 2 (R119, R128, R161, R164) -/

theorem PageTiming.store_eq (a : TimingArgs) : PageTiming.store a =
    { flush := max 5 (min a.flush.toNat 300), summary := max 2 (min a.summary.toNat 60),
      sweep := max 1 (min a.sweep.toNat 10), grace := min a.grace.toNat 3600,
      lifetime := max 30 (min a.lifetime.toNat 3600), attemptLimit := max 1 (min a.attempts.toNat 8) } := by
  have low : clamp 0 3600 a.grace.toNat = min a.grace.toNat 3600 := Nat.zero_max _
  unfold PageTiming.store
  rw [low]
  rfl

theorem Su.restarted_eq (u : Su) (n : Nat) : ({ u.abandonSweep.startSweep with sweepTimer := some n } : Su) = { u with
    sweepTimer := some n, sweep := some 0, sweepsStarted := min (u.sweepsStarted + 1) 4294967295,
    sweepsAbandoned := if u.sweep.isSome then min (u.sweepsAbandoned + 1) 4294967295 else u.sweepsAbandoned } := by
  unfold Su.startSweep Su.abandonSweep
  cases running : u.sweep with
  | none => rfl
  | some i => rfl

theorem State.storeTiming_loading {s : State} (loading : s.mode = .loading) (p : PageTiming) : s.storeTiming p =
    { s.expiriesTaken with
      pages := { s.pages with timing := p, timingLoaded := true },
      evu := { s.expiriesTaken.evu with flushTimer := p.flush, summaryTimer := p.summary } } := by
  have stopped : ¬ s.mode = .running := fun running => absurd (loading.symm.trans running) (by decide)
  unfold State.storeTiming
  rw [State.takeDueExpiries_eq]
  exact if_neg stopped

theorem State.storeTiming_running {s : State} (running : s.mode = .running) (p : PageTiming) : s.storeTiming p =
    { s.expiriesTaken with
      pages := { s.pages with timing := p, timingLoaded := true },
      su := { s.expiriesTaken.su with
        sweepTimer := some p.sweep, sweep := some 0,
        sweepsStarted := min (s.expiriesTaken.su.sweepsStarted + 1) 4294967295,
        sweepsAbandoned := if s.expiriesTaken.su.sweep.isSome then
            min (s.expiriesTaken.su.sweepsAbandoned + 1) 4294967295 else s.expiriesTaken.su.sweepsAbandoned },
      evu := { s.expiriesTaken.evu with flushTimer := p.flush, summaryTimer := p.summary } } := by
  rw [← Su.restarted_eq]
  unfold State.storeTiming
  rw [State.takeDueExpiries_eq]
  exact if_pos running

section

variable {s : State}

theorem State.expiriesTaken_evu_flush (due : s.evu.flushTimer = 0) (waits : s.evu.summaryTimer ≠ 0) :
    s.expiriesTaken.evu = { s.evu.closeAll s.su.clock .flush with flushTimer := s.pages.timing.flush } := by
  unfold State.expiriesTaken
  dsimp only
  rw [if_neg waits, if_pos due]

theorem State.expiriesTaken_evu_none (running : s.evu.flushTimer ≠ 0) (waits : s.evu.summaryTimer ≠ 0) :
    s.expiriesTaken.evu = s.evu := by
  unfold State.expiriesTaken
  dsimp only
  rw [if_neg waits, if_neg running]

theorem State.expiriesTaken_su_none (running : s.su.sweepTimer ≠ some 0) : s.expiriesTaken.su = s.su := if_neg running

theorem State.summaryBuilt_contexts (s : State) (e : Evu) : (s.summaryBuilt e).contexts = e.contexts := by
  rw [State.summaryBuilt_eq]
  exact (e.placeSummary_kept s.zoneSummary).2.1

theorem State.expiriesTaken_contexts (s : State) : s.expiriesTaken.evu.contexts =
    if s.evu.flushTimer = 0 then [] else s.evu.contexts := by
  have flushed : (if s.evu.flushTimer = 0 then
      { s.evu.closeAll s.su.clock .flush with flushTimer := s.pages.timing.flush } else s.evu).contexts
        = if s.evu.flushTimer = 0 then [] else s.evu.contexts := by
    split
    · exact (s.evu.closeAll_kept s.su.clock .flush).2
    · rfl
  unfold State.expiriesTaken
  dsimp only
  split
  · exact (s.summaryBuilt_contexts _).trans flushed
  · exact flushed

theorem State.expiriesTaken_summary (due : s.evu.summaryTimer = 0) :
    s.expiriesTaken.evu.summarySlot = some s.zoneSummary := by
  unfold State.expiriesTaken
  dsimp only
  rw [if_pos due]
  rfl

end

/-! ## Page 3 (R2) -/

theorem PageMemory.toArgs_eq_iff {T L : Nat} {a : MemoryArgs} (table : T ≤ 1024) (advice : L ≤ 16) :
    PageMemory.toArgs ⟨T, L⟩ = a ↔ T = a.tableSize.toNat ∧ L = a.advice.toNat := by
  obtain ⟨size, given⟩ := a
  unfold PageMemory.toArgs
  rw [MemoryArgs.mk.injEq]
  dsimp only
  bv_omega

theorem State.writeMemory_running {s : State} (running : s.mode = .running) (a : MemoryArgs) :
    State.writeMemory a s = s.answer .wrongMode [] := if_pos running

theorem State.writeMemory_loading {s : State} (loading : s.mode = .loading) (a : MemoryArgs) :
    State.writeMemory a s = (s.storeMemory (PageMemory.store a)).answer (storedResult a (PageMemory.store a).toArgs)
      (byte1 3 ++ memoryBytes (PageMemory.store a).toArgs) :=
  if_neg fun running => absurd (loading.symm.trans running) (by decide)

end Sys2Proof.Machine

namespace Sys2Proof.Proofs

open Sys2Proof Sys2Proof.Machine

/-- Settles O49, by the stored form of each page. -/
theorem pageWriteAirLevels : Obligations.PageWriteAirLevels := by
  unfold Obligations.PageWriteAirLevels
  refine ⟨fun s tag => ⟨fun a ready => ⟨fun running => ready.answered (State.writeAir_running running a),
      fun loading unstored => ready.answered (State.writeAir_unstored loading unstored),
      fun p loading stored => ready.answered (State.writeAir_stored loading stored)⟩,
    fun a ready => ⟨fun unstored => ready.answered (State.writeLevels_none unstored s),
      fun p stored => ready.answered (State.writeLevels_some stored s)⟩⟩,
    fun a => ⟨PageAir.store_none, PageAir.store_some⟩, fun a => ?_, by decide, by decide⟩
  intro thresholds drift report named
  refine ⟨PageLevels.store_none, fun ⟨smoke, heat, multi⟩ => ?_⟩
  unfold PageLevels.store
  rw [ReportSet.store_some smoke, ReportSet.store_some heat, ReportSet.store_some multi]
  dsimp only
  rw [ThresholdSet.store_eq, ThresholdSet.store_eq, ThresholdSet.store_eq, ThresholdSet.store_eq]
  rfl

/-- Settles O50, by the expiries taken and the timers armed after them. -/
theorem pageWriteTimingArms : Obligations.PageWriteTimingArms := by
  unfold Obligations.PageWriteTimingArms
  intro s tag a ready p result
  have stored : PageTiming.store a = p := PageTiming.store_eq a
  have outcome : State.writeTiming a s = (s.storeTiming p).answer result (2 :: timingBytes p.toArgs) := by
    unfold State.writeTiming
    rw [stored]
    rfl
  refine ⟨s.expiriesTaken, rfl, State.expiriesTaken_evu_none, State.expiriesTaken_evu_flush,
    fun sweep flush summary => ?_, State.expiriesTaken_su_none, fun due => if_pos due, fun due => ?_, fun running => ?_,
    State.expiriesTaken_summary, rfl, fun loading => ?_, fun running => ?_⟩
  · rw [← State.takeDueExpiries_eq]
    exact State.takeDueExpiries_none sweep flush summary
  · exact s.expiriesTaken_contexts.trans (if_pos due)
  · exact s.expiriesTaken_contexts.trans (if_neg running)
  · rw [State.storeTiming_loading loading] at outcome
    exact ready.answered outcome
  · rw [State.storeTiming_running running] at outcome
    exact ready.answered outcome

/-- Settles O51, by the removals one after another and the new split. -/
theorem pageWriteMemoryEmpties : Obligations.PageWriteMemoryEmpties := by
  unfold Obligations.PageWriteMemoryEmpties
  intro s tag a ready size T L
  refine ⟨fun running => ready.answered (State.writeMemory_running running a), fun loading =>
    ⟨s.storeMemory ⟨T, L⟩, ?_, ?_, rfl, rfl, State.removeOnes_entries _ _, (State.removeAll_counts _ _).2.2,
      ⟨rfl, rfl, rfl, rfl⟩, ?_⟩⟩
  · have table : T ≤ 1024 := by
      show (if size ≤ 384 then 256 else if size ≤ 768 then 512 else 1024) ≤ 1024
      split
      · omega
      · split <;> omega
    have advice : L ≤ 16 := by
      show max 1 (min a.advice.toNat 16) ≤ 16
      omega
    have outcome := State.writeMemory_loading loading a
    have result : storedResult a (PageMemory.toArgs ⟨T, L⟩) =
        if T = size ∧ L = a.advice.toNat then .ok else .adjusted :=
      if_congr (PageMemory.toArgs_eq_iff table advice) rfl rfl
    rw [show PageMemory.store a = ⟨T, L⟩ from rfl, result] at outcome
    exact ready.answered outcome
  · exact s.storeMemory_pages ⟨T, L⟩
  · have frame := s.removeAll_onlyRemoval
    unfold OnlyRemoval at frame
    unfold State.storeMemory
    dsimp only
    rw [frame]

end Sys2Proof.Proofs
end

