-- ==== Sys2Proof/Proofs/StartAndStop.lean ====
section
/-! START and STOP (R177, R178). -/

namespace Sys2Proof.Machine

theorem exec_start (s : State) : exec .start s = s.runCommand .start State.startPart := rfl

theorem exec_stop (s : State) : exec .stop s = s.runCommand .stop State.stopPart := rfl

/-! ## START (R177) -/

theorem Pages.missing_eq_nil_iff (p : Pages) : p.missing = [] ↔
    (p.airLoaded && p.levelsLoaded && p.timingLoaded && p.memoryLoaded) = true := by
  unfold Pages.missing
  cases p.airLoaded <;> cases p.levelsLoaded <;> cases p.timingLoaded <;> cases p.memoryLoaded <;> decide

section

variable {s : State}

theorem State.startPart_running (running : s.mode = .running) : s.startPart = s.answer .wrongMode [] := if_pos running

theorem State.startPart_missing (loading : s.mode = .loading) (missing : s.pages.missing ≠ []) : s.startPart =
    s.answer .pagesMissing (byte1 s.pages.missing.length ++ s.pages.missing) :=
  (if_neg fun running => absurd (loading.symm.trans running) (by decide)).trans (if_pos missing)

theorem State.startPart_loaded (loading : s.mode = .loading) (loaded : s.pages.missing = []) :
    s.startPart = s.startUp.answer .ok [] :=
  (if_neg fun running => absurd (loading.symm.trans running) (by decide)).trans (if_neg (not_not.mpr loaded))

end

/-! ## STOP (R178) -/

theorem State.stopPart_loading {s : State} (loading : s.mode = .loading) : s.stopPart = s.answer .wrongMode [] :=
  if_pos loading

theorem State.stopPart_running {s : State} (running : s.mode = .running) : s.stopPart = s.shutDown.answer .ok [] :=
  if_neg fun loading => absurd (running.symm.trans loading) (by decide)

/-! ### The transmit FIFOs (R37, R46) -/

theorem State.emptyFifo_spec (s : State) (h : HeadNo) :
    (s.emptyFifo h).hcq = s.hcq.toldNotSent (acksOf (s.head h).txFifo)
      ∧ ∀ k, (s.emptyFifo h).head k = if k = h then { s.head h with txFifo := [] } else s.head k :=
  ⟨State.tellsNotSent_hcq _ _, fun k => ((State.tellsNotSent_keeps _ _).2 k).trans (State.head_modifyHead _ _ _ _)⟩

theorem State.emptyFifos_spec (l : List HeadNo) : l.Nodup → ∀ s : State,
    (l.foldl State.emptyFifo s).hcq = s.hcq.toldNotSent (l.flatMap fun h => acksOf (s.head h).txFifo)
      ∧ ∀ k, (l.foldl State.emptyFifo s).head k = if k ∈ l then { s.head k with txFifo := [] } else s.head k := by
  induction l with
  | nil => exact fun _ s => ⟨rfl, fun k => (if_neg List.not_mem_nil).symm⟩
  | cons h rest ih =>
    intro distinct s
    obtain ⟨apart, distinct⟩ := List.nodup_cons.mp distinct
    obtain ⟨told, emptied⟩ := s.emptyFifo_spec h
    obtain ⟨toldRest, emptiedRest⟩ := ih distinct (s.emptyFifo h)
    have others : (rest.flatMap fun k => acksOf ((s.emptyFifo h).head k).txFifo)
        = rest.flatMap fun k => acksOf (s.head k).txFifo := List.flatMap_congr fun k hk => by
      have other : k ≠ h := fun same => apart (same ▸ hk)
      rw [emptied, if_neg other]
    refine ⟨?_, fun k => ?_⟩
    · rw [List.foldl_cons, toldRest, told, others, List.flatMap_cons, Hcq.toldNotSent_append]
    · rw [List.foldl_cons, emptiedRest, emptied]
      by_cases own : k = h
      · rw [if_pos own, if_neg (own ▸ apart), if_pos (own ▸ List.mem_cons_self), own]
      · rw [if_neg own, if_congr (List.mem_cons.trans (or_iff_right own)) rfl rfl]

theorem State.emptyLanes_spec (s : State) :
    s.emptyLanes.hcq = s.hcq.toldNotSent (allHeads.flatMap fun h => acksOf (s.head h).txFifo)
      ∧ ∀ h, s.emptyLanes.head h = { s.head h with txFifo := [] } := by
  obtain ⟨told, emptied⟩ := State.emptyFifos_spec allHeads (List.nodup_finRange 4)
    { s with intake := ⟨s.intake.freeBlocks + s.intake.urgentLane.length + s.intake.normalLane.length, [], []⟩ }
  exact ⟨told, fun h => (emptied h).trans (if_pos (List.mem_finRange h))⟩

/-! ### FIU and SU (R52, R130) -/

/-- FIU once a frame it held is abandoned. -/
def Fiu.abandoned (u : Fiu) : Fiu :=
  if u.state = .idle then u
  else { state := .idle, counters := { u.counters with abandoned := inc32 u.counters.abandoned } }

theorem State.abandonFrame_eq (s : State) : s.abandonFrame = { s with
    intake := { s.intake with freeBlocks := s.intake.freeBlocks + s.fiu.state.held }, fiu := s.fiu.abandoned } := by
  unfold State.abandonFrame Fiu.abandoned
  split
  · next idle => rw [if_pos idle, idle]; rfl
  all_goals
    next holds =>
    have busy : ¬ s.fiu.state = .idle := fun idle => by
      rw [holds] at idle
      exact nomatch idle
    rw [if_neg busy, holds]
    rfl

/-- SU at STOP: a due expiry of its timer taken, its sweep abandoned and its timer stopped. -/
def State.suStopped (s : State) : Su := { s.takeDueSweep.su.abandonSweep with sweepTimer := none }

theorem Su.abandonSweep_eq (u : Su) : u.abandonSweep = { u with
    sweep := none,
    sweepsAbandoned := if u.sweep.isSome then min (u.sweepsAbandoned + 1) 4294967295 else u.sweepsAbandoned } := by
  obtain ⟨clock, timer, sweep, missing, started, completed, abandoned, overlaps⟩ := u
  cases sweep with
  | none => rfl
  | some i => rfl

theorem State.sweepExpiry_su (s : State) : s.sweepExpiry.su = { s.su with
    sweepTimer := some s.pages.timing.sweep,
    sweep := some (s.su.sweep.getD 0),
    sweepsStarted := if s.su.sweep = none then min (s.su.sweepsStarted + 1) 4294967295 else s.su.sweepsStarted,
    overlaps := if s.su.sweep.isSome then min (s.su.overlaps + 1) 4294967295 else s.su.overlaps } := by
  unfold State.sweepExpiry
  cases running : s.su.sweep with
  | none => rfl
  | some i =>
    exact congrArg (fun x => ({ s.su with
      sweepTimer := some s.pages.timing.sweep, sweep := x, overlaps := inc32 s.su.overlaps } : Su)) running

theorem State.suStopped_eq (s : State) : s.suStopped = { s.su with
    sweepTimer := none, sweep := none,
    sweepsStarted := if s.su.sweepTimer = some 0 ∧ s.su.sweep = none then min (s.su.sweepsStarted + 1) 4294967295
      else s.su.sweepsStarted,
    overlaps := if s.su.sweepTimer = some 0 ∧ s.su.sweep.isSome then min (s.su.overlaps + 1) 4294967295
      else s.su.overlaps,
    sweepsAbandoned := if s.su.sweepTimer = some 0 ∨ s.su.sweep.isSome then min (s.su.sweepsAbandoned + 1) 4294967295
      else s.su.sweepsAbandoned } := by
  unfold State.suStopped State.takeDueSweep
  rw [Su.abandonSweep_eq]
  by_cases due : s.su.sweepTimer = some 0
  · have abandons : s.su.sweepTimer = some 0 ∨ s.su.sweep.isSome = true := .inl due
    rw [if_pos due, State.sweepExpiry_su, if_congr (and_iff_right due) rfl rfl, if_congr (and_iff_right due) rfl rfl,
      if_pos abandons]
    rfl
  · have starts : ¬ (s.su.sweepTimer = some 0 ∧ s.su.sweep = none) := fun h => due h.1
    have overlaps : ¬ (s.su.sweepTimer = some 0 ∧ s.su.sweep.isSome) := fun h => due h.1
    rw [if_neg due, if_neg starts, if_neg overlaps, if_congr (or_iff_right due) rfl rfl]

/-! ### The part up to the zones -/

/-- The part at STOP before its zones lapse (R178 steps 1 to 6). -/
def State.stopped (s : State) : State :=
  ((({ s.takeDueSweep with mode := .loading } : State).abandonFrame.emptyLanes).stopTimers).closeContexts .stop

theorem State.shutDown_eq (s : State) : s.shutDown = allZones.foldl State.lapseAtStop s.stopped := rfl

theorem State.stopped_spec (s : State) :
    s.stopped = { s with
      mode := .loading, heads := s.stopped.heads,
      intake := { freeBlocks := s.intake.freeBlocks + s.intake.urgentLane.length + s.intake.normalLane.length
                    + s.fiu.state.held, urgentLane := [], normalLane := [] },
      clock := { s.clock with slotTimer := none }, fiu := s.fiu.abandoned, su := s.suStopped, hcq := s.stopped.hcq,
      evu := s.evu.closeAll s.su.clock .stop }
    ∧ (∀ h, s.stopped.head h = { s.head h with txFifo := [] })
    ∧ s.stopped.hcq = s.hcq.toldNotSent (allHeads.flatMap fun h => acksOf (s.head h).txFifo) := by
  have swept := s.takeDueSweep_frame
  have clock : s.suStopped.clock = s.su.clock := by rw [s.suStopped_eq]
  have abandoned : ({ s.takeDueSweep with mode := .loading } : State).abandonFrame = { s with
      mode := .loading, intake := { s.intake with freeBlocks := s.intake.freeBlocks + s.fiu.state.held },
      fiu := s.fiu.abandoned, su := s.takeDueSweep.su } := by
    rw [State.abandonFrame_eq, swept]
  unfold State.stopped
  rw [abandoned]
  have frame := State.emptyLanes_frame { s with
      mode := .loading, intake := { s.intake with freeBlocks := s.intake.freeBlocks + s.fiu.state.held },
      fiu := s.fiu.abandoned, su := s.takeDueSweep.su }
  obtain ⟨told, emptied⟩ := State.emptyLanes_spec { s with
      mode := .loading, intake := { s.intake with freeBlocks := s.intake.freeBlocks + s.fiu.state.held },
      fiu := s.fiu.abandoned, su := s.takeDueSweep.su }
  generalize State.emptyLanes _ = u at frame told emptied ⊢
  refine ⟨?_, emptied, told⟩
  have blocks : s.intake.freeBlocks + s.fiu.state.held + s.intake.urgentLane.length + s.intake.normalLane.length
      = s.intake.freeBlocks + s.intake.urgentLane.length + s.intake.normalLane.length + s.fiu.state.held := by omega
  rw [← clock, ← blocks]
  unfold State.closeContexts State.stopTimers
  rw [frame]
  rfl

theorem Fiu.abandoned_spec (u : Fiu) : (u.state = .idle → u.abandoned = u) ∧ (u.state ≠ .idle → u.abandoned =
    { state := .idle, counters := { u.counters with abandoned := min (u.counters.abandoned + 1) 4294967295 } }) :=
  ⟨fun idle => if_pos idle, fun busy => if_neg busy⟩

theorem Fiu.abandoned_idle (u : Fiu) : u.abandoned.state = .idle := by
  by_cases idle : u.state = .idle
  · rw [u.abandoned_spec.1 idle, idle]
  · rw [u.abandoned_spec.2 idle]

/-! ### The zones (R115) -/

/-- Whether STOP lapses a zone. -/
def State.lapsesAtStop (s : State) (z : ZoneNo) : Bool :=
  decide ((s.zone z).enabled = true ∧ (s.zone z).state = .verify)

theorem State.lapseAtStop_eq (s : State) (z : ZoneNo) :
    s.lapseAtStop z = if s.lapsesAtStop z then s.lapseZone z .stop else s :=
  (if_congr decide_eq_true_iff rfl rfl).symm

theorem State.lapsesAtStop_congr (s t : State) (z : ZoneNo) (zone : s.zone z = t.zone z) (_ : s.now = t.now) :
    s.lapsesAtStop z = t.lapsesAtStop z := by
  unfold State.lapsesAtStop
  rw [zone]

theorem State.stopLapses_evu (s : State) : (allZones.foldl State.lapseAtStop s).evu = s.evuAfter
    ((allZones.filter s.lapsesAtStop).map fun z =>
      (.zoneLapse .stop (if 0 < (s.zone z).raised then .pre else .quiet) (s.zone z).raised, some z, (s.zone z).first,
        none)) :=
  State.lapses_evu .stop State.lapsesAtStop State.lapseAtStop State.lapseAtStop_eq State.lapsesAtStop_congr allZones
    (List.nodup_finRange 64) s

theorem State.stopLapses_zone (s : State) (z : ZoneNo) : (allZones.foldl State.lapseAtStop s).zone z =
    if (s.zone z).enabled = true ∧ (s.zone z).state = .verify then
      { s.zone z with state := if 0 < (s.zone z).raised then .pre else .quiet, first := none, deadline := none }
    else s.zone z := by
  have all : z ∈ allZones := List.mem_finRange z
  exact (State.lapses_zone .stop State.lapsesAtStop State.lapseAtStop State.lapseAtStop_eq State.lapsesAtStop_congr
    allZones (List.nodup_finRange 64) s z).trans (if_congr ((and_iff_right all).trans decide_eq_true_iff) rfl rfl)

end Sys2Proof.Machine

namespace Sys2Proof.Proofs

open Sys2Proof Sys2Proof.Machine

/-- Settles O53, by the records rearmed and the start of superframe 0, slot 0. -/
theorem startOpensPart : Obligations.StartOpensPart := by
  unfold Obligations.StartOpensPart
  intro s tag ready p allLoaded
  refine ⟨fun running => ready.answered (State.startPart_running running), fun loading unloaded => ?_,
    fun loading loaded => ⟨s.startUp, ?_, ?_⟩⟩
  · have missing : s.pages.missing ≠ [] := fun none =>
      Bool.eq_false_iff.mp unloaded (s.pages.missing_eq_nil_iff.mp none)
    exact ready.answered (State.startPart_missing loading missing)
  · exact ready.answered (State.startPart_loaded loading (s.pages.missing_eq_nil_iff.mpr loaded))
  · have frame := s.startUp_frame
    obtain ⟨hcq, heads⟩ := State.slotStart_spec { s with
      mode := .running, dtu := s.dtu.mapRecords fun r => r.rearmed s.now p.timing.grace,
      su := { s.su with sweepTimer := some p.timing.sweep },
      clock := { slot := 0, superframe := 0, slotTimer := some p.air.slotLength } }
    have dtu : s.startUp.dtu = s.dtu.mapRecords fun r => r.rearmed s.now p.timing.grace :=
      (congrArg State.dtu frame).trans rfl
    refine ⟨(congrArg State.mode frame).trans rfl, (congrArg State.su frame).trans rfl,
      (congrArg State.clock frame).trans rfl, fun i => ?_, ?_, ?_, ?_, ?_, fun i => ?_, fun h up clear => ?_, hcq, heads,
      ?_⟩
    · rw [dtu]
      exact Dtu.recordAt_mapRecords _ _ i
    · rw [dtu]; rfl
    · rw [dtu]; rfl
    · rw [dtu]; rfl
    · rw [dtu]; exact List.length_map _
    · rw [dtu]; exact Dtu.epochAt_mapRecords _ _ i
    · refine (congrArg Head.txFifo ((heads h).2 up)).trans ?_
      show (s.head h).txFifo.filter _ ++ List.take (16 - ((s.head h).txFifo.filter _).length) _ = _
      rw [clear]
      rfl
    · generalize s.startUp = t at frame ⊢
      rw [frame]

/-- Settles O54, by the part up to its zones and the zones' lapses. -/
theorem stopClosesPart : Obligations.StopClosesPart := by
  unfold Obligations.StopClosesPart
  intro s tag ready
  refine ⟨fun loading => ready.answered (State.stopPart_loading loading), fun running => ⟨s.shutDown,
    ready.answered (State.stopPart_running running), ?_⟩⟩
  obtain ⟨frame, heads, hcq⟩ := s.stopped_spec
  have lapsed := State.stopLapses_frame s.stopped allZones
  have zones := State.stopLapses_zone s.stopped
  have evu := State.stopLapses_evu s.stopped
  rw [← State.shutDown_eq] at lapsed zones evu
  have fiu : s.shutDown.fiu = s.fiu.abandoned := lapsed.fiu_eq.trans ((congrArg State.fiu frame).trans rfl)
  have su : s.shutDown.su = s.suStopped := lapsed.su_eq.trans ((congrArg State.su frame).trans rfl)
  have told : s.shutDown.hcq = s.hcq.toldNotSent (allHeads.flatMap fun h => acksOf (s.head h).txFifo) :=
    lapsed.hcq_eq.trans hcq
  have closed : s.stopped.evu = s.evu.closeAll s.su.clock .stop := (congrArg State.evu frame).trans rfl
  obtain ⟨orders, numbers⟩ := Hcq.toldNotSent_keeps (allHeads.flatMap fun h => acksOf (s.head h).txFifo) s.hcq
  have now : s.stopped.now = s.su.clock := by
    refine (congrArg State.now frame).trans ?_
    show s.suStopped.clock = _
    rw [s.suStopped_eq]
  have same : ∀ z, s.stopped.zone z = s.zone z := fun z => (congrArg (State.zone · z) frame).trans rfl
  rw [s.suStopped_eq] at su
  refine ⟨lapsed.mode_eq.trans ((congrArg State.mode frame).trans rfl), ?_, fun idle => ?_, fun busy => ?_,
    lapsed.intake_eq.trans ((congrArg State.intake frame).trans rfl), fun h => ?_,
    lapsed.clock_eq.trans ((congrArg State.clock frame).trans rfl), ?_, ?_, ?_, ?_, ?_, ?_, ?_, ?_, ?_, ?_, fun z => ?_,
    told, ?_, ?_, ?_⟩
  · rw [fiu]; exact s.fiu.abandoned_idle
  · rw [fiu]; exact s.fiu.abandoned_spec.1 idle
  · rw [fiu]; exact s.fiu.abandoned_spec.2 busy
  · exact (congrArg (·.get h) lapsed.heads_eq).trans (heads h)
  · rw [su]
  · rw [su]
  · rw [su]
  · rw [su]
  · rw [su]
  · rw [su]
  · rw [su]
  · rw [su]
  · have opened := State.evuAfter_fewer ((allZones.filter s.stopped.lapsesAtStop).map fun z =>
      (.zoneLapse .stop (if 0 < (s.stopped.zone z).raised then .pre else .quiet) (s.stopped.zone z).raised, some z,
        (s.stopped.zone z).first, none)) s.stopped
    unfold Evu.Fewer at opened
    rw [← evu, closed, (s.evu.closeAll_kept s.su.clock .stop).2] at opened
    exact List.sublist_nil.mp opened
  · unfold State.lapsesAtStop at evu
    simp only [same] at evu
    exact evu.trans
      (State.evuAfter_congr (t := { s with evu := s.evu.closeAll s.su.clock .stop }) closed now _)
  · rw [zones, same]
  · rw [told, orders]
  · rw [told, numbers]
  · unfold OnlyZones at lapsed
    clear fiu su told numbers orders zones evu now same heads hcq closed
    generalize s.shutDown = t at lapsed ⊢
    generalize s.stopped = u at frame lapsed
    rw [lapsed, frame]

end Sys2Proof.Proofs
end

