-- ==== Sys2Proof/Proofs/PanelCommands.lean ====
section
/-! The panel link's events (R167, R171 to R173), a command that names nothing (R174, R188), and STATUS_QUERY (R184). -/

namespace Sys2Proof.Machine

/-! ## TRANSMISSION_COMPLETE (R107, R167) -/

/-- The part once a frame has left the link. -/
def State.frameLeft (s : State) (x : PanelTransmission) : State :=
  State.alarmSent { s with evu := { s.evu with tx := none, counters := s.evu.counters.countSent x.source } }
    x.frame.alarmZone

theorem exec_transmissionComplete {s : State} {x : PanelTransmission} (busy : s.evu.tx = some x) :
    exec .transmissionComplete s = .next (s.frameLeft x) := by
  show execTransmissionComplete s = _
  unfold execTransmissionComplete
  rw [busy]
  rfl

theorem PanelFrame.alarmZone_none {f : PanelFrame} (other : ∀ r, f = .record r → r.body.kind ≠ .zoneAlarm) :
    f.alarmZone = none := by
  cases f with
  | record r => exact if_neg (other r rfl)
  | reply _ => rfl
  | summary _ => rfl

/-! ## MANAGEMENT_FRAME (R171 to R173) -/

theorem exec_managementFrame {s : State} {bytes payload : List Byte} {rx : PanelReceiver}
    (frame : s.pli.rx.feed bytes = (rx, [.management payload])) : exec (.managementFrame bytes) s =
      .next (State.mexTake { s with pli := { s.pli with rx := rx }.offer payload }) := by
  show execManagementFrame bytes s = _
  unfold execManagementFrame
  rw [frame]

theorem State.mexTake_takes {s : State} {p : List Byte} {rest : List (List Byte)} (idle : s.mex.state = .idle)
    (empty : s.evu.replySlot = none) (waits : s.pli.fifo = p :: rest) : s.mexTake = { s with
      pli := { s.pli with fifo := rest },
      mex := { state := .executing p, commandsTaken := inc32 s.mex.commandsTaken } } := by
  unfold State.mexTake
  rw [idle, empty, waits]

theorem State.mexTake_busy {s : State} (busy : s.mex.state ≠ .idle ∨ s.evu.replySlot ≠ none) : s.mexTake = s := by
  unfold State.mexTake
  split
  · next idle empty _ => exact busy.elim (fun h => absurd idle h) fun h => absurd empty h
  · rfl

theorem Pli.offer_room {p : Pli} (room : p.fifo.length < 4) (payload : List Byte) :
    p.offer payload = { p with fifo := p.fifo ++ [payload] } := if_pos room

theorem Pli.offer_full {p : Pli} (full : 4 ≤ p.fifo.length) (payload : List Byte) :
    p.offer payload = { p with overflows := min (p.overflows + 1) 65535 } := if_neg (Nat.not_lt.mpr full)

/-! ## UNKNOWN_COMMAND (R174) -/

theorem exec_unknownCommand {s : State} {payload : List Byte} (executes : s.mex.state = .executing payload)
    (unnamed : parseCommand payload = none) : exec (.unknownCommand payload) s =
      .next (State.replied { s with freeIndex := s.freeIndex + 2 } (s.echoByte payload 0) (s.echoByte payload 1)
        .invalid []) := by
  show execUnknownCommand payload s = _
  unfold execUnknownCommand
  rw [if_pos ⟨executes, unnamed⟩]
  rfl

/-! ## The commands of R188 -/

theorem ite_some_ne_none {α : Type} {p : Prop} [Decidable p] (x : α) : (if p then some x else none) ≠ none ↔ p := by
  by_cases h : p
  · rw [if_pos h]; exact ⟨fun _ => h, fun _ => Option.some_ne_none x⟩
  · rw [if_neg h]; exact ⟨fun ne => absurd rfl ne, fun holds => absurd holds h⟩

theorem parsePageWrite_ne_none_iff (page : Byte) (body : List Byte) : parsePageWrite page body ≠ none ↔
    (page.toNat, body.length) ∈ [(0, 10), (1, 22), (2, 9), (3, 3)] := by
  unfold parsePageWrite
  split
  case h_5 h0 h1 h2 h3 =>
    refine iff_of_false (fun some => some rfl) fun named => ?_
    simp only [List.mem_cons, Prod.mk.injEq, List.not_mem_nil, or_false] at named
    tauto
  all_goals
    next named => rw [ite_some_ne_none, named]; simp

theorem parseArguments_ne_none_iff (code : Byte) (args : List Byte) : parseArguments code args ≠ none ↔
    (code.toNat, args.length) ∈ [(0x01, 24), (0x02, 25), (0x03, 3), (0x04, 3), (0x05, 0), (0x06, 3), (0x07, 3),
        (0x08, 1), (0x10, 6), (0x11, 2), (0x12, 1), (0x13, 1), (0x14, 1), (0x20, 6), (0x21, 2), (0x30, 11), (0x41, 1),
        (0x50, 0), (0x51, 0), (0x52, 0), (0x53, 0)]
      ∨ code = 0x40 ∧ (args.head?.map BitVec.toNat, args.length) ∈ [(some 0, 11), (some 1, 23), (some 2, 10),
        (some 3, 4)] := by
  have coded : code = 0x40 ↔ code.toNat = 0x40 := BitVec.toNat_inj.symm
  rw [coded]
  unfold parseArguments
  split
  case h_17 named =>
    rw [named]
    cases args with
    | nil => simp
    | cons page body => simp [parsePageWrite_ne_none_iff]
  case h_23 =>
    refine iff_of_false (fun some => some rfl) fun named => ?_
    simp only [List.mem_cons, Prod.mk.injEq, List.not_mem_nil, or_false] at named
    tauto
  all_goals
    next named => rw [ite_some_ne_none, named]; simp

theorem byteAt_tail {pre key : List Byte} (post : List Byte) {n : Nat} (length : pre.length + key.length = n) (i : Nat) :
    byteAt (pre ++ key ++ post) (n + i) = byteAt post i := by
  unfold byteAt
  rw [List.getD_append_right _ _ _ _ (by rw [List.length_append]; omega), List.length_append, length,
    Nat.add_sub_cancel_left]

theorem enrolArgsOf_eq {key : List Byte} (length : key.length = 16) (b0 b1 b2 b3 b4 b5 b6 b7 : Byte) (rest : List Byte) :
    enrolArgsOf ([b0, b1, b2, b3, b4] ++ key ++ b5 :: b6 :: b7 :: rest) =
      { address := b0 ++ b1 ++ b2, kind := b3, zone := b4,
        key := BitVec.ofNat 128 (key.foldl (fun n b => n * 256 + b.toNat) 0), period := b5 ++ b6, misses := b7 } := by
  have before : [b0, b1, b2, b3, b4].length + key.length = 21 := by rw [length]; rfl
  have tail := byteAt_tail (b5 :: b6 :: b7 :: rest) before
  unfold enrolArgsOf word16At
  rw [keyAt_eq _ _ _ length rfl, show byteAt _ 21 = b5 from tail 0, show byteAt _ (21 + 1) = b6 from tail 1,
    show byteAt _ 23 = b7 from tail 2]
  rfl

theorem parseCommand_enrol (tag : Byte) {args : List Byte} (length : args.length = 24) :
    parseCommand (tag :: 0x01 :: args) = some (.enrol (enrolArgsOf args)) := if_pos length

theorem parseCommand_amend (tag : Byte) {args : List Byte} (length : args.length = 25) :
    parseCommand (tag :: 0x02 :: args) = some (.amend (enrolArgsOf args) ((byteAt args 24).getLsbD 0)) := if_pos length

/-! ## The report (R184, R189) -/

theorem exec_statusQuery (s : State) :
    exec .statusQuery s = s.runCommand .statusQuery fun s => s.answer .ok s.statusReport := rfl

theorem Mode.code_eq (m : Mode) : m.code = if m = .loading then 0 else 1 := by
  cases m <;> rfl

theorem Hcq.countState_eq (q : Hcq) (st : HeldState) :
    q.countState st = (q.entries.filter fun x => decide (x.state = st)).length :=
  List.countP_eq_length_filter

theorem State.reportMex_eq (s : State) : s.reportMex =
    [if s.mode = .loading then 0 else 1, boolByte s.pages.airLoaded, boolByte s.pages.levelsLoaded,
      boolByte s.pages.timingLoaded, boolByte s.pages.memoryLoaded]
    ++ byte1 s.pli.fifo.length ++ byte2 s.pli.badFrames ++ byte2 s.pli.overflows ++ byte4 s.mex.commandsTaken := by
  rw [← s.mode.code_eq]
  rfl

theorem State.reportHcq_eq (s : State) : s.reportHcq =
    byte1 s.hcq.entries.length ++ byte1 (s.hcq.entries.filter fun x => decide (x.state = .waiting)).length
      ++ byte1 (s.hcq.entries.filter fun x => decide (x.state = .sent)).length ++ [s.hcq.nextNumber]
      ++ byte1 s.hcq.orders.length
      ++ [s.hcq.counters.entered, s.hcq.counters.attached, s.hcq.counters.reverted, s.hcq.counters.done,
        s.hcq.counters.failedNoEcho, s.hcq.counters.failedWithdrawn, s.hcq.counters.expired].flatMap byte4 := by
  rw [← Hcq.countState_eq, ← Hcq.countState_eq]
  rfl

theorem byte4s_length (l : List Nat) : (l.flatMap byte4).length = 4 * l.length := by
  induction l with
  | nil => rfl
  | cons n rest ih =>
    rw [List.flatMap_cons, List.length_append, ih, List.length_cons]
    show 4 + 4 * rest.length = 4 * (rest.length + 1)
    omega

theorem State.statusReport_length (s : State) : s.statusReport.length = 354 := by
  have mex : s.reportMex.length = 14 := rfl
  have dtu : s.reportDtu.length = 11 := rfl
  have head : ∀ h, (s.head h).report.length = 23 := fun _ => rfl
  have hli : s.reportHli.length = 100 := by
    unfold State.reportHli
    simp only [List.length_append, List.length_flatMap, head]
    rfl
  have fiu : s.reportFiu.length = 45 := by
    unfold State.reportFiu
    rw [List.length_append, byte4s_length]
    rfl
  have su : s.reportSu.length = 26 := rfl
  have hcq : s.reportHcq.length = 33 := rfl
  have evu : s.reportEvu.length = 125 := by
    unfold State.reportEvu EvuCounters.report
    simp only [List.length_append, byte4s_length]
    rfl
  unfold State.statusReport
  simp only [List.length_append, mex, dtu, hli, fiu, su, hcq, evu]

end Sys2Proof.Machine

namespace Sys2Proof.Proofs

open Sys2Proof Sys2Proof.Machine

/-- Settles O29, by the zone that the frame names. -/
theorem transmissionCompletes : Obligations.TransmissionCompletes := by
  unfold Obligations.TransmissionCompletes
  refine ⟨fun s x busy => ?_, fun c => ⟨rfl, rfl, rfl, rfl, rfl, rfl⟩⟩
  have frame := State.alarmSent_frame
    { s with evu := { s.evu with tx := none, counters := s.evu.counters.countSent x.source } } x.frame.alarmZone
  have evu : (s.frameLeft x).evu = { s.evu with tx := none, counters := s.evu.counters.countSent x.source } :=
    (congrArg State.evu frame).trans rfl
  refine ⟨s.frameLeft x, exec_transmissionComplete busy, ?_, ?_, ?_, fun r z record alarm zone => ?_,
    fun other => ?_, ?_⟩
  · rw [evu]
  · rw [evu]
  · rw [evu]
  · have named : x.frame.alarmZone = some z := by
      rw [record]
      exact (if_pos alarm).trans zone
    unfold State.frameLeft
    rw [named]
    exact ZoneBecomes.setZone _ z _
  · unfold State.frameLeft
    rw [PanelFrame.alarmZone_none other]
    rfl
  · rw [evu]
    exact frame

/-- Settles O30, with MEX free to take the frame and with the FIFO behind it. -/
theorem managementFrameTaken : Obligations.ManagementFrameTaken := by
  unfold Obligations.ManagementFrameTaken
  intro s bytes payload rx frame
  have outcome := exec_managementFrame frame
  refine ⟨fun idle empty clear => ?_, fun busy room => ?_, fun busy full => ?_⟩
  · have room : ({ s.pli with rx := rx } : Pli).fifo.length < 4 := by
      show s.pli.fifo.length < 4
      rw [clear]
      decide
    rw [Pli.offer_room room] at outcome
    have waits : s.pli.fifo ++ [payload] = payload :: s.pli.fifo := by rw [clear]; rfl
    exact outcome.trans (congrArg _ (State.mexTake_takes (rest := s.pli.fifo) idle empty waits))
  · rw [Pli.offer_room (p := { s.pli with rx := rx }) room] at outcome
    exact outcome.trans (congrArg _ (State.mexTake_busy busy))
  · rw [Pli.offer_full (p := { s.pli with rx := rx }) full] at outcome
    exact outcome.trans (congrArg _ (State.mexTake_busy busy))

/-- Settles O31, by the table of the commands. -/
theorem unknownCommandRefused : Obligations.UnknownCommandRefused := by
  unfold Obligations.UnknownCommandRefused
  refine ⟨fun s tag code args executes unnamed => exec_unknownCommand executes unnamed,
    fun s executes => ⟨_, _, exec_unknownCommand executes rfl⟩, fun s tag executes => ⟨_, exec_unknownCommand executes rfl⟩,
    fun tag page args high => ?_, fun tag code args => parseArguments_ne_none_iff code args, ?_⟩
  · refine not_not.mp fun some => ?_
    have named := (parsePageWrite_ne_none_iff page args).mp some
    simp only [List.mem_cons, Prod.mk.injEq, List.not_mem_nil, or_false] at named
    omega
  · intro tag b0 b1 b2 b3 b4 b5 b6 b7 b8 b9 b10 key parses big enrolment
    refine ⟨fun length => ⟨?_, ?_⟩, rfl, rfl, rfl, rfl, rfl, rfl, rfl, rfl, rfl, rfl, rfl, rfl, rfl, rfl, rfl, fun c => rfl,
      rfl, rfl, rfl, rfl, rfl, rfl, rfl⟩
    · have whole : ([b0, b1, b2, b3, b4] ++ key ++ [b5, b6, b7]).length = 24 := by
        rw [List.length_append, List.length_append, length]
        rfl
      exact (parseCommand_enrol tag whole).trans
        (congrArg (fun e => some (Command.enrol e)) (enrolArgsOf_eq length b0 b1 b2 b3 b4 b5 b6 b7 []))
    · have whole : ([b0, b1, b2, b3, b4] ++ key ++ [b5, b6, b7, b8]).length = 25 := by
        rw [List.length_append, List.length_append, length]
        rfl
      have before : [b0, b1, b2, b3, b4].length + key.length = 21 := by rw [length]; rfl
      have last : byteAt ([b0, b1, b2, b3, b4] ++ key ++ [b5, b6, b7, b8]) 24 = b8 := byteAt_tail _ before 3
      refine (parseCommand_amend tag whole).trans ?_
      rw [last, enrolArgsOf_eq length]

/-- Settles O55, block by block. -/
theorem statusQueryReports : Obligations.StatusQueryReports := by
  unfold Obligations.StatusQueryReports
  intro s tag ready flag mode mex dtu head hli f fiuState fiu su q among hcq e c evu
  have report : s.statusReport = mex ++ dtu ++ hli ++ fiu ++ su ++ hcq ++ evu := by
    unfold State.statusReport
    rw [show s.reportMex = mex from s.reportMex_eq, show s.reportHcq = hcq from s.reportHcq_eq]
    rfl
  rw [exec_statusQuery, ← report]
  refine ⟨?_, s.statusReport_length, List.countP_eq_length_filter⟩
  exact ready.answered rfl

end Sys2Proof.Proofs
end

