-- ==== Sys2Proof/Proofs/PanelGrants.lean ====
section
/-! The arbiter's grants (R163, R166; log 11), a ZONE_ALARM taken on an idle link, and the bytes of the frames (R189). -/

namespace Sys2Proof.Machine

/-! ## The choice (R166) -/

theorem Evu.replyChosen_some {e : Evu} {r : Reply} (choice : e.alarmQueue = [] ∨ e.replyFirst = true)
    (slot : e.replySlot = some r) : e.replyChosen = some r := by
  have chosen : (e.replyFirst || e.alarmQueue.isEmpty) = true :=
    Bool.or_eq_true_iff.mpr (choice.symm.imp_right List.isEmpty_iff.mpr)
  exact (if_pos chosen).trans slot

theorem Evu.replyChosen_none {e : Evu} (free : e.replySlot = none ∨ (e.replyFirst = false ∧ e.alarmQueue ≠ [])) :
    e.replyChosen = none := by
  unfold Evu.replyChosen
  rcases free with empty | ⟨later, waits⟩
  · rw [empty, ite_self]
  · rw [later, List.isEmpty_eq_false_iff.mpr waits]
    rfl

section

variable {e : Evu}

theorem Evu.grantDue_chosen {r : Reply} (chosen : e.replyChosen = some r) : e.grantDue = e := by
  unfold Evu.grantDue
  rw [chosen]
  exact if_pos (Bool.or_true _)

theorem Evu.grantDue_open (idle : e.tx = none) (free : e.replyChosen = none) : e.grantDue =
    match e.alarmQueue with
    | r :: rest => e.grantAlarm r rest
    | [] =>
      match e.summarySlot with
      | some z => e.grantSummary z
      | none => e.grantQueues := by
  unfold Evu.grantDue
  rw [idle, free]
  exact (if_neg Bool.false_ne_true).trans rfl

theorem Evu.grantDue_alarm {r : EventRecord} {rest : List EventRecord} (idle : e.tx = none)
    (waits : e.alarmQueue = r :: rest) (free : e.replySlot = none ∨ e.replyFirst = false) :
    e.grantDue = e.grantAlarm r rest := by
  have other : e.replyChosen = none := Evu.replyChosen_none (free.imp_right fun later =>
    ⟨later, fun empty => List.cons_ne_nil _ _ (waits.symm.trans empty)⟩)
  rw [Evu.grantDue_open idle other, waits]

variable (idle : e.tx = none) (calm : e.alarmQueue = []) (free : e.replySlot = none)

include idle calm free

theorem Evu.grantDue_summary {z : ZoneSummary} (waits : e.summarySlot = some z) : e.grantDue = e.grantSummary z := by
  rw [Evu.grantDue_open idle (Evu.replyChosen_none (.inl free)), calm, waits]

theorem Evu.grantDue_queues (empty : e.summarySlot = none) : e.grantDue = e.grantQueues := by
  rw [Evu.grantDue_open idle (Evu.replyChosen_none (.inl free)), calm, empty]

end

section

variable {e : Evu} {r : EventRecord} {rest : List EventRecord}

theorem Evu.grantQueues_fault (waits : e.faultQueue = r :: rest) : e.grantQueues = e.grantFault r rest := by
  unfold Evu.grantQueues
  rw [waits]

theorem Evu.grantQueues_status (fault : e.faultQueue = []) (waits : e.statusQueue = r :: rest) :
    e.grantQueues = e.grantStatus r rest := by
  unfold Evu.grantQueues
  rw [fault, waits]

theorem Evu.grantQueues_level (fault : e.faultQueue = []) (status : e.statusQueue = [])
    (waits : e.levelQueue = r :: rest) : e.grantQueues = e.grantLevel r rest := by
  unfold Evu.grantQueues
  rw [fault, status, waits]

theorem Evu.grantQueues_none (fault : e.faultQueue = []) (status : e.statusQueue = []) (level : e.levelQueue = []) :
    e.grantQueues = e := by
  unfold Evu.grantQueues
  rw [fault, status, level]

end

/-! ## PANEL_GRANT (R166, R173) -/

theorem exec_panelGrant_busy {s : State} (busy : s.evu.tx ≠ none) : exec .panelGrant s = .next s :=
  if_pos (Option.isSome_iff_ne_none.mpr busy)

theorem exec_panelGrant_other {s : State} (idle : s.evu.tx = none) (free : s.evu.replyChosen = none) :
    exec .panelGrant s = .next { s with evu := s.evu.grantDue } := by
  show execPanelGrant s = _
  unfold execPanelGrant State.grant
  rw [idle, free]
  rfl

theorem exec_panelGrant_reply {s : State} {r : Reply} (idle : s.evu.tx = none) (chosen : s.evu.replyChosen = some r) :
    exec .panelGrant s = .next (State.mexTold { s with evu := s.evu.grantReply r }) := by
  show execPanelGrant s = _
  unfold execPanelGrant State.grant
  rw [idle, chosen]
  rfl

theorem State.mexTold_running {s : State} (running : s.mex.state ≠ .restarting) : s.mexTold = s.mexTake := by
  unfold State.mexTold
  split
  · next clears => exact absurd clears running
  · rfl
  · rfl

theorem State.mexTake_none {s : State} (clear : s.pli.fifo = []) : s.mexTake = s := by
  unfold State.mexTake
  split
  · next _ _ waits => exact nomatch clear.symm.trans waits
  · rfl

/-! ## A ZONE_ALARM (R151, R162; log 11) -/

/-- A ZONE_ALARM joins the ALARM queue after the grant that was due; a reply that waits on the idle link stays the
arbiter's choice. -/
theorem Evu.take_zoneAlarm {r : EventRecord} (alarm : r.body.kind = .zoneAlarm) (e : Evu) (now : Nat) :
    e.take now r = { e.grantDue with
      alarmQueue := e.grantDue.alarmQueue ++ [{ r with cls := .alarm }],
      replyFirst := e.grantDue.replyFirst || (e.grantDue.tx.isNone && e.grantDue.replySlot.isSome),
      counters := { e.counters with takenAlarm := min (e.counters.takenAlarm + 1) 4294967295 } } := by
  have unmatched : ¬ (r.body.kind ≠ .zoneAlarm ∧ e.urgentMatch r = true) := fun h => h.1 alarm
  unfold Evu.take Evu.queue Evu.countTaken
  rw [if_neg unmatched, if_pos alarm, alarm]
  show Evu.joinAlarm (Evu.grantDue { e with counters := e.counters.countTaken .alarm }) _ = _
  rw [Evu.grantDue_counters]
  rfl

/-- A ZONE_ALARM that finds no reply waiting on the idle link, or one that is the choice already. -/
theorem Evu.take_zoneAlarm_joins {e g : Evu} {r : EventRecord} (alarm : r.body.kind = .zoneAlarm)
    (due : e.grantDue = g) (stands : g.tx.isNone = false ∨ g.replySlot = none ∨ g.replyFirst = true) (now : Nat) :
    e.take now r = { g with
      alarmQueue := g.alarmQueue ++ [{ r with cls := .alarm }],
      counters := { e.counters with takenAlarm := min (e.counters.takenAlarm + 1) 4294967295 } } := by
  have first : (g.replyFirst || (g.tx.isNone && g.replySlot.isSome)) = g.replyFirst := by
    rcases stands with busy | empty | chosen
    · rw [busy, Bool.false_and, Bool.or_false]
    · rw [empty, Option.isSome_none, Bool.and_false, Bool.or_false]
    · rw [chosen, Bool.true_or]
  rw [Evu.take_zoneAlarm alarm, due, first]

theorem Evu.take_zoneAlarm_first {e g : Evu} {r : EventRecord} (alarm : r.body.kind = .zoneAlarm)
    (due : e.grantDue = g) (stands : g.tx.isNone = false ∨ g.replySlot = none ∨ g.replyFirst = true)
    (empty : g.alarmQueue = []) (now : Nat) :
    e.take now r = { g with
      alarmQueue := [{ r with cls := .alarm }],
      counters := { e.counters with takenAlarm := min (e.counters.takenAlarm + 1) 4294967295 } } := by
  rw [Evu.take_zoneAlarm_joins alarm due stands, empty]
  rfl

theorem Evu.take_zoneAlarm_behindReply {e : Evu} {r : EventRecord} {p : Reply} (alarm : r.body.kind = .zoneAlarm)
    (idle : e.tx = none) (empty : e.alarmQueue = []) (slot : e.replySlot = some p) (now : Nat) :
    e.take now r = { e with
      replyFirst := true, alarmQueue := [{ r with cls := .alarm }],
      counters := { e.counters with takenAlarm := min (e.counters.takenAlarm + 1) 4294967295 } } := by
  have first : (e.replyFirst || (e.tx.isNone && e.replySlot.isSome)) = true := by
    rw [idle, slot]
    exact Bool.or_true _
  rw [Evu.take_zoneAlarm alarm, Evu.grantDue_chosen (Evu.replyChosen_some (.inl empty) slot), first, empty]
  rfl

/-! ## The bytes of the upstream frames (R189) -/

theorem removalByte_eq (st : Option HeldState) : (st.map HeldState.code).getD 0xFF = match st with
    | some .waiting => (0 : Byte)
    | some .sent => 1
    | none => 0xFF := by
  rcases st with _ | _ | _ <;> rfl

theorem LapseCause.code_eq (c : LapseCause) : c.code = if c = .expiry then 1 else 2 := by
  cases c <;> rfl

theorem FailCause.code_eq (c : FailCause) : c.code = if c = .noEcho then 1 else 2 := by
  cases c <;> rfl

theorem Mode.code_running (m : Mode) : m.code = if m = .running then 1 else 0 := by
  cases m <;> rfl

theorem heldDetail_eq (x : Attachment) {st : Option HeldState} {removal cause cause' : Byte} (attempts : Nat)
    (removed : (st.map HeldState.code).getD 0xFF = removal) (causes : cause = cause') :
    heldDetail x st attempts cause =
      [x.number, x.code.code] ++ byte2 x.argument.toNat ++ [removal] ++ byte1 attempts ++ [cause'] := by
  rw [← removed, ← causes]
  rfl

theorem EventRecord.presenceByte_eq (r : EventRecord) :
    [r.presenceByte] = byte1 (r.zone.isSome.toNat + 2 * r.address.isSome.toNat + 4 * r.kind.isSome.toNat) := by
  unfold EventRecord.presenceByte flagByte byte1
  congr 2
  simp only [List.foldr]
  omega

theorem EventRecord.payload_eq (r : EventRecord) : r.payload =
    [r.body.kind.code, r.cls.code] ++ byte4 r.time
      ++ byte1 (r.zone.isSome.toNat + 2 * r.address.isSome.toNat + 4 * r.kind.isSome.toNat)
      ++ [(r.zone.map zoneByte).getD 0] ++ addressOrZero r.address ++ [(r.kind.map DetectorKind.code).getD 0]
      ++ byte1 r.lostBefore ++ byte1 r.body.detail.length ++ r.body.detail := by
  unfold EventRecord.payload
  rw [← r.presenceByte_eq]
  simp only [List.append_assoc, List.cons_append, List.nil_append]

end Sys2Proof.Machine

namespace Sys2Proof.Proofs

open Sys2Proof Sys2Proof.Machine

/-- Settles O27, source by source. -/
theorem panelGrantOrder : Obligations.PanelGrantOrder := by
  unfold Obligations.PanelGrantOrder
  refine ⟨fun s idle => ?_, fun s busy => exec_panelGrant_busy busy, fun e now r alarm => ?_,
    fun e r => ?_, fun b => ?_, fun r p z => ?_⟩
  · intro e
    refine ⟨fun r rest waits free => ?_, fun r choice slot => ?_, fun z calm free waits => ?_,
      fun calm free empty => ?_, fun now r alarm calm => ?_⟩
    · have other : s.evu.replyChosen = none := Evu.replyChosen_none (free.imp_right fun later =>
        ⟨later, fun none => List.cons_ne_nil _ _ (waits.symm.trans none)⟩)
      have outcome := exec_panelGrant_other idle other
      rw [Evu.grantDue_alarm idle waits free] at outcome
      exact outcome
    · have outcome := exec_panelGrant_reply idle (Evu.replyChosen_some choice slot)
      let granted : State := { s with evu := s.evu.grantReply r }
      refine ⟨fun rests => ?_, fun q rest mexIdle waits => ?_⟩
      · refine outcome.trans (congrArg _ ?_)
        rcases rests with ⟨mexIdle, clear⟩ | ⟨q, executes⟩
        · have running : s.mex.state ≠ .restarting := by rw [mexIdle]; decide
          exact (State.mexTold_running (s := granted) running).trans (State.mexTake_none (s := granted) clear)
        · have running : s.mex.state ≠ .restarting := by rw [executes]; exact fun clears => nomatch clears
          have busy : s.mex.state ≠ .idle := by rw [executes]; exact fun rests => nomatch rests
          exact (State.mexTold_running (s := granted) running).trans (State.mexTake_busy (s := granted) (.inl busy))
      · have running : s.mex.state ≠ .restarting := by rw [mexIdle]; decide
        exact outcome.trans (congrArg _ ((State.mexTold_running (s := granted) running).trans
          (State.mexTake_takes (s := granted) mexIdle rfl waits)))
    · have outcome := exec_panelGrant_other idle (Evu.replyChosen_none (.inl free))
      rw [Evu.grantDue_summary idle calm free waits] at outcome
      exact outcome
    · have outcome := exec_panelGrant_other idle (Evu.replyChosen_none (.inl free))
      rw [Evu.grantDue_queues idle calm free empty] at outcome
      refine ⟨fun r rest waits => ?_, fun r rest fault waits => ?_, fun r rest fault status waits => ?_,
        fun fault status level => ?_⟩
      · rw [Evu.grantQueues_fault waits] at outcome
        exact outcome
      · rw [Evu.grantQueues_status fault waits] at outcome
        exact outcome
      · rw [Evu.grantQueues_level fault status waits] at outcome
        exact outcome
      · rw [Evu.grantQueues_none fault status level] at outcome
        exact outcome
    · intro joined
      have queues := Evu.grantDue_queues idle calm
      refine ⟨fun p slot => Evu.take_zoneAlarm_behindReply alarm idle calm slot now,
        fun z free waits => Evu.take_zoneAlarm_first alarm (Evu.grantDue_summary idle calm free waits) (.inl rfl) calm now,
        fun x rest free none waits => ?_, fun x rest free none fault waits => ?_,
        fun x rest free none fault status waits => ?_, fun free none fault status level => ?_⟩
      · exact Evu.take_zoneAlarm_first alarm ((queues free none).trans (Evu.grantQueues_fault waits)) (.inl rfl) calm now
      · exact Evu.take_zoneAlarm_first alarm ((queues free none).trans (Evu.grantQueues_status fault waits)) (.inl rfl)
          calm now
      · exact Evu.take_zoneAlarm_first alarm ((queues free none).trans (Evu.grantQueues_level fault status waits))
          (.inl rfl) calm now
      · exact Evu.take_zoneAlarm_first alarm ((queues free none).trans (Evu.grantQueues_none fault status level))
          (.inr (.inl free)) calm now
  · intro counters
    refine ⟨fun busy => ?_, fun x rest idle waits => ⟨fun free => ?_, fun slot chosen => ?_⟩⟩
    · have taken : e.tx.isSome = true := Option.isSome_iff_ne_none.mpr busy
      have full : e.tx.isNone = false := Option.isNone_eq_false_iff.mpr taken
      exact Evu.take_zoneAlarm_joins alarm (Evu.grantDue_busy taken) (.inl full) now
    · exact Evu.take_zoneAlarm_joins alarm (Evu.grantDue_alarm idle waits free) (.inl rfl) now
    · obtain ⟨p, slot⟩ := Option.ne_none_iff_exists'.mp slot
      exact Evu.take_zoneAlarm_joins alarm (Evu.grantDue_chosen (Evu.replyChosen_some (.inr chosen) slot))
        (.inr (.inr chosen)) now
  · rw [Evu.granted_eq]
    rfl
  · cases b <;> rfl
  · intro sent zoneOr level state mode presence link removal held detail clsByte result
    have details : r.body.detail = detail := by
      obtain ⟨body, _⟩ := r
      cases body with
      | zoneLapse cause fallen raised => exact congrArg (fun b => [b, _] ++ _) (LapseCause.code_eq cause)
      | commandFailed cause x st attempts => exact heldDetail_eq x attempts (removalByte_eq st) (FailCause.code_eq cause)
      | commandExpired x st attempts => exact heldDetail_eq x attempts (removalByte_eq (some st)) rfl
      | _ => rfl
    refine ⟨congrArg (sent 0x81) (r.payload_eq.trans ?_), rfl, congrArg (sent 0x83) ?_⟩
    · rw [details]
      rfl
    · unfold ZoneSummary.payload
      rw [Mode.code_running]
      rfl

end Sys2Proof.Proofs
end

