-- ==== Sys2Proof/Proofs/RestartClear.lean ====
section
/-! RESTART: the reply that is placed first, and the clear made when that reply is granted (R180). -/

namespace Sys2Proof.Machine

theorem exec_restart {s : State} {tag : Byte} (ready : Ready s .restart tag) : exec .restart s = .next { s with
    evu := s.evu.placeReply { tag := tag, code := 0x52, result := .ok, data := [] },
    mex := { s.mex with state := .restarting } } := by
  show execRestart s = _
  unfold execRestart
  rw [if_pos ready.mayExecute, ready.tag_eq]
  rfl

theorem State.mexTold_restarting {s : State} (clears : s.mex.state = .restarting) : s.mexTold = s.restartClear := by
  unfold State.mexTold
  rw [clears]

/-- What RESTART makes of a detector record: the configuration with its two flags, and the rest as at an enrolment at
clock 0. -/
theorem DetectorRecord.restarted_eq (d : DetectorRecord) (grace : Nat) : d.restarted grace =
    { d with test := false, lastSequence := none, path := none, weakCount := 0, failureRun := 0,
             presence := .awaited, deadline := min (grace + d.period * d.misses) 4294967295,
             battery := .ok, tamper := .closed, baseline := none, driftFault := false, level := .normal,
             levelEpoch := 0, lastReported := none, sounderPattern := 0, mismatchRun := 0 } := by
  have deadline : clockAdd 0 (grace + d.configuration.period * d.configuration.misses) =
      min (grace + d.period * d.misses) 4294967295 := congrArg (min · 4294967295) (Nat.zero_add _)
  unfold DetectorRecord.restarted Configuration.enrolled
  rw [deadline]
  rfl

theorem State.restartClear_records (s : State) (i : Nat) : s.restartClear.dtu.recordAt i =
    (s.dtu.recordAt i).map (DetectorRecord.restarted · s.pages.timing.grace) :=
  s.dtu.recordAt_mapRecords _ i

theorem State.restartClear_head (s : State) (h : HeadNo) : s.restartClear.head h = (s.head h).restarted :=
  mapVector_get Head.restarted s.heads h

theorem State.restartClear_zone (s : State) (z : ZoneNo) : s.restartClear.zone z = (s.zone z).restarted :=
  mapVector_get Zone.restarted s.zones z

end Sys2Proof.Machine

namespace Sys2Proof.Proofs

open Sys2Proof Sys2Proof.Machine

/-- Settles O28: the grant of RESTART's reply is the clear of every block. -/
theorem restartClearsAtGrant : Obligations.RestartClearsAtGrant := by
  unfold Obligations.RestartClearsAtGrant
  refine ⟨fun s tag ready => exec_restart ready, fun s r idle choice slot clears => ?_⟩
  let granted : State := { s with evu := s.evu.grantReply r }
  have outcome : exec .panelGrant s = .next granted.restartClear :=
    (exec_panelGrant_reply idle (Evu.replyChosen_some choice slot)).trans
      (congrArg _ (State.mexTold_restarting (s := granted) clears))
  refine ⟨_, outcome, rfl, List.length_map _, Dtu.epochAt_mapRecords _ _, fun i => ?_,
    granted.restartClear_head, granted.restartClear_zone⟩
  rw [granted.restartClear_records]
  exact congrArg (fun f => (s.dtu.recordAt i).map f) (funext fun d => d.restarted_eq _)

end Sys2Proof.Proofs
end

