-- ==== Sys2Proof/Proofs/RecordsTaken.lean ====
section
/-! What EVU does with a record and with a reported value (R151, R153 to R155, R158 to R162, R170). -/

namespace Sys2Proof.Machine

/-! ## The filters that match (R153 to R155) -/

section

variable {e : Evu} {r : EventRecord}

theorem Evu.urgentMatch_iff : e.urgentMatch r = true ↔
    ∃ i : Fin 16, (e.filters.get i).accepts r = true ∧ (e.filters.get i).urgent = true := by
  unfold Evu.urgentMatch
  rw [List.any_eq_true]
  constructor
  · rintro ⟨f, held, matching⟩
    obtain ⟨i, bound, rfl⟩ := Vector.mem_iff_getElem.mp (Vector.mem_toList_iff.mp held)
    exact ⟨⟨i, bound⟩, Bool.and_eq_true_iff.mp matching⟩
  · rintro ⟨i, accepts, urgent⟩
    exact ⟨_, Vector.mem_toList_iff.mpr (Vector.getElem_mem i.isLt), Bool.and_eq_true_iff.mpr ⟨accepts, urgent⟩⟩

theorem Filter.acts_iff (f : Filter) : f.acts = true ↔ f.raiseClass ≠ none ∨ f.suppress = true := by
  unfold Filter.acts
  rw [Bool.or_eq_true_iff, Option.isSome_iff_ne_none]

/-- Filter `i` of `e` matches `r` and has an action on its class. -/
def Evu.Acting (e : Evu) (r : EventRecord) (i : Fin 16) : Prop := (e.filters.get i).accepts r = true
  ∧ ((e.filters.get i).raiseClass ≠ none ∨ (e.filters.get i).suppress = true)

theorem Evu.acting_iff {i : Fin 16} :
    e.Acting r i ↔ ((e.filters.get i).accepts r && (e.filters.get i).acts) = true := by
  unfold Evu.Acting
  rw [Bool.and_eq_true_iff, Filter.acts_iff]

theorem Evu.deciding_none (unfiltered : ∀ i, ¬ e.Acting r i) : e.deciding r = none := by
  have unmatched : e.filters.toList.filter (fun f => f.accepts r && f.acts) = [] := by
    refine List.filter_eq_nil_iff.mpr fun f held acting => ?_
    obtain ⟨i, bound, rfl⟩ := Vector.mem_iff_getElem.mp (Vector.mem_toList_iff.mp held)
    exact unfiltered ⟨i, bound⟩ (Evu.acting_iff.mpr acting)
  unfold Evu.deciding
  rw [unmatched]
  rfl

theorem Evu.deciding_some {i : Fin 16} (acting : e.Acting r i)
    (first : ∀ j, e.Acting r j → (e.filters.get j).priority < (e.filters.get i).priority
      ∨ ((e.filters.get j).priority = (e.filters.get i).priority ∧ i ≤ j)) :
    e.deciding r = some (e.filters.get i) :=
  deciding_eq e.filters (fun f => f.accepts r && f.acts) i (Evu.acting_iff.mp acting)
    fun j matching => first j (Evu.acting_iff.mpr matching)

end

/-! ## The class of a record (R150, R155) -/

theorem EventKind.baseClass_iff (k : EventKind) : (k.baseClass = .alarm ↔ k = .zoneAlarm)
      ∧ (k.baseClass = .level ↔ k = .levelSummary)
      ∧ (k.baseClass = .fault ↔ k ∈ [.detectorMissing, .batteryLow, .tamperOpen, .driftLimit, .integrityFault,
          .lowSignal, .headLost, .headJammed, .commandFailed, .commandExpired, .sounderMismatch])
      ∧ (k.baseClass = .status ↔ k ∈ [.zonePre, .zoneVerify, .zoneLapse, .zoneQuiet, .detectorState, .detectorPresent,
          .batteryOk, .tamperClosed, .driftCleared, .integrityOk, .signalOk, .headUp, .headClear, .commandDone,
          .sounderMatch]) := by
  cases k <;> decide

section

variable {base : EventClass} {f : Filter}

theorem decidedClass_suppressed (suppresses : f.suppress = true) (low : base = .status ∨ base = .level) :
    decidedClass base (some f) = none := if_pos ⟨suppresses, low⟩

variable (kept : f.suppress = false ∨ base = .fault)

include kept

theorem decidedClass_unsuppressed : decidedClass base (some f) = match f.raiseClass with
    | none => some base
    | some c => if base.rank < c.rank then some c else some base := by
  have standing : ¬ (f.suppress = true ∧ (base = .status ∨ base = .level)) := by
    rintro ⟨suppresses, low⟩
    rcases kept with passes | rfl
    · exact absurd (passes.symm.trans suppresses) Bool.false_ne_true
    · exact low.elim (nomatch ·) (nomatch ·)
  unfold decidedClass
  exact (if_neg standing).trans rfl

theorem decidedClass_raised {c : EventClass} (raises : f.raiseClass = some c) (higher : base.rank < c.rank) :
    decidedClass base (some f) = some c := by
  rw [decidedClass_unsuppressed kept, raises]
  exact if_pos higher

theorem decidedClass_base (leaves : f.raiseClass = none ∨ ∃ c, f.raiseClass = some c ∧ c.rank ≤ base.rank) :
    decidedClass base (some f) = some base := by
  rw [decidedClass_unsuppressed kept]
  rcases leaves with unraised | ⟨c, raises, lower⟩
  · rw [unraised]
  · rw [raises]
    exact if_neg (Nat.not_lt.mpr lower)

end

/-! ## Joining a queue (R162) -/

/-- A record that joins the queue of class `c`, or is dropped with the loss counted. -/
def Evu.joins (e : Evu) (r : EventRecord) (c : EventClass) : Evu :=
  let q := { r with cls := c }
  match c with
  | .alarm => e.joinAlarm q
  | .fault => e.joinFault q
  | .status => e.joinStatus q
  | .level => e.joinLevel q

theorem Evu.join_eq (e : Evu) (cs : EvuCounters) (r : EventRecord) (c : EventClass) :
    Evu.join { e with counters := cs } { r with cls := c } = Evu.joins { e.granted with counters := cs } r c := by
  have due := (e.grantDue_counters cs).trans (congrArg (fun g : Evu => { g with counters := cs }) e.granted_eq.symm)
  cases c with
  | alarm => exact congrArg (Evu.joinAlarm · _) due
  | fault => exact congrArg (Evu.joinFault · _) due
  | status => exact congrArg (Evu.joinStatus · _) due
  | level => exact congrArg (Evu.joinLevel · _) due

section

variable {e : Evu} {r : EventRecord} (plain : r.body.kind ≠ .zoneAlarm)

include plain

theorem Evu.queue_suppressed (decided : decidedClass r.body.kind.baseClass (e.deciding r) = none) :
    e.queue r = (e.countTaken r).suppressed := by
  unfold Evu.queue
  rw [if_neg plain, decided]

theorem Evu.queue_base (decided : decidedClass r.body.kind.baseClass (e.deciding r) = some r.body.kind.baseClass) :
    e.queue r = Evu.joins { e.granted with counters := e.counters.countTaken r.body.kind.baseClass } r
      r.body.kind.baseClass := by
  unfold Evu.queue
  rw [if_neg plain, decided]
  exact (if_pos rfl).trans (e.join_eq _ r _)

theorem Evu.queue_raised {c : EventClass} (decided : decidedClass r.body.kind.baseClass (e.deciding r) = some c)
    (higher : r.body.kind.baseClass.rank < c.rank) :
    let counted := e.counters.countTaken r.body.kind.baseClass
    e.queue r = Evu.joins { e.granted with counters :=
      { counted with classRaised := min (counted.classRaised + 1) 4294967295 } } r c := by
  have raises : c ≠ r.body.kind.baseClass := fun same => Nat.lt_irrefl _ (same ▸ higher)
  unfold Evu.queue
  rw [if_neg plain, decided]
  exact (if_neg raises).trans (e.join_eq _ r c)

theorem Evu.take_urgent_contexts (now : Nat) (urgent : e.urgentMatch r = true) : (e.take now r).contexts = [] := by
  unfold Evu.take
  rw [if_pos ⟨plain, urgent⟩]
  exact ((e.urgentClosing now).queue_kept r).2.trans (e.urgentClosing_kept now).2

omit plain in
theorem Evu.take_calm (now : Nat) (calm : e.contexts = [] ∨ e.urgentMatch r ≠ true) : e.take now r = e.queue r := by
  unfold Evu.take
  split
  · next urgent =>
    have closed : e.contexts = [] := calm.resolve_right fun not => not urgent.2
    rw [Evu.urgentClosing_none closed]
  · rfl

end

/-! ## Values reported (R158) -/

section

variable {e : Evu} {a : Address}

theorem Evu.contextOf_none (absent : ∀ d ∈ e.contexts, d.address ≠ a) : e.contextOf a = none :=
  List.find?_eq_none.mpr fun d held => fun same => absent d held (beq_iff_eq.mp same)

theorem Evu.contextOf_some {before after : List Context} {c : Context} (split : e.contexts = before ++ c :: after)
    (own : c.address = a) (earlier : ∀ d ∈ before, d.address ≠ a) : e.contextOf a = some c :=
  List.find?_eq_some_iff_append.mpr
    ⟨beq_iff_eq.mpr own, before, after, split, fun d held => bne_iff_ne.mpr (earlier d held)⟩

theorem Evu.openContext_room (now : Nat) (c : Context) (room : e.contexts.length < 16) : e.openContext now c =
    { e with contexts := e.contexts ++ [c],
             counters := { e.counters with contextsOpened := min (e.counters.contextsOpened + 1) 4294967295 } } := by
  have stays : e.evict now = e := if_pos room
  unfold Evu.openContext
  rw [stays]
  rfl

theorem Evu.evict_full (now : Nat) {c : Context} {rest : List Context} (oldest : e.contexts = c :: rest)
    (full : e.contexts.length = 16) : e.evict now = e.closeOne now .eviction c := by
  have roomless : ¬ e.contexts.length < Config.contextMax := Nat.not_lt.mpr full.ge
  unfold Evu.evict
  rw [if_neg roomless, oldest]

/-- The closing of a context makes room for another. -/
theorem Evu.closeOne_room {c : Context} (held : c ∈ e.contexts) (bounded : e.contexts.length ≤ 16) (now : Nat)
    (cause : CloseCause) : (e.closeOne now cause c).contexts.length < 16 := by
  let others := e.contexts.filter fun d => d.address != c.address
  have fewer : others.length < e.contexts.length :=
    List.length_filter_lt_length_iff_exists.mpr ⟨c, held, fun differs => bne_iff_ne.mp differs rfl⟩
  have room : others.length < 16 := by omega
  rcases (Evu.take_kept (Evu.countClosed { e with contexts := others } cause) now (c.summary now cause)).2 with
    kept | emptied
  · exact (congrArg List.length kept).trans_lt room
  · exact (congrArg List.length emptied).trans_lt (by decide)

theorem Evu.report_opens {now : Nat} {z : ZoneNo} {k : DetectorKind} {seq : SeqNo} {v : Nat}
    (absent : ∀ d ∈ e.contexts, d.address ≠ a) :
    e.report now a z k seq v = e.openContext now (.opening now a z k seq v) := by
  unfold Evu.report
  rw [Evu.contextOf_none absent]

variable {before after : List Context} {c : Context} (split : e.contexts = before ++ c :: after)
  (own : c.address = a) (earlier : ∀ d ∈ before, d.address ≠ a) {now : Nat} {z : ZoneNo} {k : DetectorKind}
  {seq : SeqNo} {v : Nat}

include split own earlier

theorem Evu.report_appends (same : c.kind = k) (ahead : 1 ≤ (seq - c.last).toNat)
    (near : (seq - c.last).toNat ≤ 16) : e.report now a z k seq v = e.appendValue now (c.append seq v) := by
  unfold Evu.report
  rw [Evu.contextOf_some split own earlier]
  exact if_pos ⟨same, ahead, near⟩

theorem Evu.report_gap (bounded : e.contexts.length ≤ 16)
    (apart : c.kind ≠ k ∨ (seq - c.last).toNat = 0 ∨ 17 ≤ (seq - c.last).toNat) :
    let x := e.closeOne now .gap c
    e.report now a z k seq v = { x with
      contexts := x.contexts ++ [.opening now a z k seq v],
      counters := { x.counters with contextsOpened := min (x.counters.contextsOpened + 1) 4294967295 } } := by
  have misses : ¬ (c.kind = k ∧ 1 ≤ (seq - c.last).toNat ∧ (seq - c.last).toNat ≤ 16) := by
    rintro ⟨same, first, near⟩
    rcases apart with differs | repeated | far
    · exact differs same
    · omega
    · omega
  have held : c ∈ e.contexts := split ▸ List.mem_append_right before List.mem_cons_self
  unfold Evu.report
  rw [Evu.contextOf_some split own earlier]
  exact (if_neg misses).trans (Evu.openContext_room now _ (Evu.closeOne_room held bounded now .gap))

theorem Evu.appendValue_split {c' : Context} (moved : c'.address = c.address) :
    e.appendValue now c' =
      let x : Evu := { e with contexts := before ++ c' :: after }
      if c'.count = 16 then x.closeOne now .count c' else x := by
  have place : modifyFirst (fun d => d.address == c'.address) (fun _ => c') e.contexts = before ++ c' :: after := by
    rw [split]
    exact modifyFirst_split _ _ before c after
      (fun d held => beq_eq_false_iff_ne.mpr (moved.trans own ▸ earlier d held)) (beq_iff_eq.mpr moved.symm)
  unfold Evu.appendValue
  rw [place]
  rfl

end

end Sys2Proof.Machine

namespace Sys2Proof.Proofs

open Sys2Proof Sys2Proof.Machine

/-- Settles O26, from the urgent closing to the queue a record joins. -/
theorem recordTaken : Obligations.RecordTaken := by
  unfold Obligations.RecordTaken
  refine ⟨fun e now r plain urgent => ?_, fun e now cause => ?_, fun e now a z k seq v bounded => ?_,
    Filter.accepts_iff, EventKind.baseClass_iff, rfl, fun s body zone address kind => ⟨rfl, rfl⟩,
    fun c => ⟨rfl, rfl, rfl, rfl, rfl, rfl, rfl, rfl, rfl, rfl, rfl, rfl, rfl⟩, fun e now r plain calm => ?_⟩
  · have matched : e.urgentMatch r = true := Evu.urgentMatch_iff.mpr urgent
    exact ⟨Evu.take_urgent_contexts plain now matched, Evu.take_urgent plain matched⟩
  · exact ⟨(e.closeAll_kept now cause).2, e.closeAll_closes now cause, e.closeFor_closes now cause⟩
  · intro taken opened closed
    refine ⟨fun absent => ⟨fun room => ?_, fun c rest oldest full => ?_⟩,
      fun before c after split own earlier => ?_⟩
    · exact (Evu.report_opens absent).trans (Evu.openContext_room now _ room)
    · refine (Evu.report_opens absent).trans ?_
      unfold Evu.openContext
      rw [Evu.evict_full now oldest full]
      rfl
    · intro gap c' appended
      refine ⟨fun same first near => ?_, Evu.report_gap split own earlier bounded⟩
      have outcome := (Evu.report_appends (now := now) (z := z) (v := v) split own earlier same first near).trans
        (Evu.appendValue_split (c' := c') split own earlier rfl)
      refine ⟨fun short => outcome.trans (if_neg fun sixteen => short (Nat.succ_injective sixteen)),
        fun fifteen => outcome.trans (if_pos (congrArg (· + 1) fifteen))⟩
  · intro base counted taken joins acting
    have queued : e.take now r = e.queue r := Evu.take_calm now (calm.imp_right fun quiet urgent => by
      obtain ⟨i, accepts, fires⟩ := Evu.urgentMatch_iff.mp urgent
      exact absurd ((quiet i accepts).symm.trans fires) Bool.false_ne_true)
    rw [queued]
    refine ⟨fun unfiltered => ?_, fun i acts first => ?_⟩
    · have decided : decidedClass base (e.deciding r) = some base := congrArg (decidedClass base) (Evu.deciding_none unfiltered)
      exact Evu.queue_base plain decided
    · intro f raised
      have deciding : decidedClass base (e.deciding r) = decidedClass base (some f) :=
        congrArg (decidedClass base) (Evu.deciding_some acts first)
      exact ⟨fun suppresses low => Evu.queue_suppressed plain (deciding.trans (decidedClass_suppressed suppresses low)),
        fun kept => ⟨fun c raises higher =>
            Evu.queue_raised plain (deciding.trans (decidedClass_raised kept raises higher)) higher,
          fun leaves => Evu.queue_base plain (deciding.trans (decidedClass_base kept leaves))⟩⟩

end Sys2Proof.Proofs
end

