-- ==== Sys2Proof/Proofs/ZoneTransitions.lean ====
section
/-! What a transition of a detector, and the notice that it stays ALARM, do to the zones (R94 to R102). -/

namespace Sys2Proof.Machine

/-! ## The cause of an entry into ALARM (R97 to R99) -/

section

variable {v : Zone} {a : Address} {k : DetectorKind}

theorem Zone.alarmCause_latched (latched : v.state = .alarm) : v.alarmCause a k = none := if_pos latched

theorem Zone.alarmCause_direct (free : v.state ≠ .alarm) (direct : k = .callpoint ∨ v.mode = .direct) :
    ∃ c, v.alarmCause a k = some c := by
  unfold Zone.alarmCause
  rw [if_neg free]
  by_cases manual : k = .callpoint
  · exact ⟨_, if_pos manual⟩
  · exact ⟨_, (if_neg manual).trans (if_pos (direct.resolve_left manual))⟩

variable (automatic : k ≠ .callpoint)

include automatic

theorem Zone.alarmCause_first (early : v.state = .quiet ∨ v.state = .pre) (indirect : v.mode ≠ .direct) :
    v.alarmCause a k = none := by
  have free : v.state ≠ .alarm := by rcases early with h | h <;> rw [h] <;> decide
  have waits : v.state ≠ .verify := by rcases early with h | h <;> rw [h] <;> decide
  unfold Zone.alarmCause
  rw [if_neg free, if_neg automatic, if_neg indirect, if_pos waits]

theorem Zone.alarmCause_verify (verify : v.state = .verify) (indirect : v.mode ≠ .direct) : v.alarmCause a k =
    if v.first ≠ some a then some .second else if v.mode = .persist then some .persisted else none := by
  have free : v.state ≠ .alarm := by rw [verify]; decide
  unfold Zone.alarmCause
  rw [if_neg free, if_neg automatic, if_neg indirect, if_neg (not_not.mpr verify)]

theorem Zone.alarmCause_persist (verify : v.state = .verify) (persist : v.mode = .persist) :
    ∃ c, v.alarmCause a k = some c := by
  rw [Zone.alarmCause_verify automatic verify (by rw [persist]; decide), if_pos persist]
  split
  · exact ⟨_, rfl⟩
  · exact ⟨_, rfl⟩

theorem Zone.alarmCause_coincidence (verify : v.state = .verify) (coincidence : v.mode = .coincidence) :
    v.alarmCause a k = if v.first = some a then none else some .second := by
  have persistless : v.mode ≠ .persist := by rw [coincidence]; decide
  rw [Zone.alarmCause_verify automatic verify (by rw [coincidence]; decide), if_neg persistless, ite_not]

end

/-! ## The zone of the transition -/

/-- A detector's one record, taken or not. -/
theorem State.evuAfter_one (s : State) {z : ZoneNo} {a : Address} {k : DetectorKind} (told : Prop) [Decidable told]
    (b : EventBody) : s.evuAfter (if told then [(b, some z, some a, some k)] else []) =
      s.evuAfter ((if told then [b] else []).map fun b => (b, some z, some a, some k)) := by
  split
  · rfl
  · rfl

section

variable {s : State} {z : ZoneNo} {a : Address} {k : DetectorKind} {before : Level}

theorem State.zone_zoneDecrement (kind : Option DetectorKind) :
    let v := s.zone z
    (s.zoneDecrement z a kind).zone z = { v with
      raised := v.raised - 1,
      state := if v.raised - 1 = 0 ∧ v.enabled ∧ v.state = .pre then .quiet else v.state } := by
  intro v
  have lowered := (s.zone_modifyZone z z fun v => { v with raised := v.raised - 1 }).trans (if_pos rfl)
  unfold State.zoneDecrement
  dsimp only
  rw [lowered]
  by_cases falls : v.raised - 1 = 0 ∧ v.enabled = true ∧ v.state = .pre
  · rw [if_pos falls, if_pos falls, State.zone_raise, State.zone_modifyZone, if_pos rfl, lowered]
  · rw [if_neg falls, if_neg falls]
    exact lowered

theorem State.zoneTransition_pre_own :
    let v := s.zone z
    (s.zoneTransition z a k before .pre).zone z = { v with
      raised := if before = .normal then v.raised + 1 else v.raised,
      state := if v.enabled ∧ v.state = .quiet then .pre else v.state } := by
  intro v
  have counted := (s.transitionCounted_zone z before z).trans (if_pos rfl)
  rw [State.zoneTransition_pre, counted]
  by_cases rises : v.enabled = true ∧ v.state = .quiet
  · rw [if_pos rises, if_pos rises, State.zone_raise, State.zone_modifyZone, if_pos rfl, counted]
  · rw [if_neg rises, if_neg rises]
    exact counted

theorem State.zoneTransition_alarm_disabled (disabled : (s.zone z).enabled = false) :
    s.zoneTransition z a k before .alarm = s.transitionCounted z before := by
  have counted := (s.transitionCounted_zone z before z).trans (if_pos rfl)
  rw [State.zoneTransition_alarm, counted]
  exact if_neg (Bool.eq_false_iff.mp disabled)

theorem State.zoneTransition_alarm_own (enabled : (s.zone z).enabled = true) :
    let v := s.zone z
    let up := if before = .normal then v.raised + 1 else v.raised
    (s.zoneTransition z a k before .alarm).zone z = match v.alarmCause a k with
      | some _ => { v with raised := up, state := .alarm, first := none, deadline := none, alarmUnsent := true }
      | none => if v.state = .quiet ∨ v.state = .pre then
          { v with raised := up, state := .verify, first := some a,
                   deadline := some (min (s.su.clock + v.window) 4294967295) }
        else { v with raised := up } := by
  intro v up
  have counted := (s.transitionCounted_zone z before z).trans (if_pos rfl)
  have clock : (s.transitionCounted z before).now = s.now := (s.transitionCounted_rest z before).2
  rw [State.zoneTransition_alarm, counted]
  generalize s.transitionCounted z before = c at counted clock
  have own : ((c.zoneIntoAlarm z a k).confirmPartners z a k).zone z = (c.zoneIntoAlarm z a k).zone z :=
    (State.zone_confirmPartners _ z a k z).trans (if_neg fun other => other.1 rfl)
  refine (congrArg (State.zone · z) (if_pos enabled)).trans (own.trans ?_)
  have cause : (c.zone z).alarmCause a k = v.alarmCause a k := (congrArg (Zone.alarmCause · a k) counted).trans rfl
  have state : (c.zone z).state = v.state := (congrArg Zone.state counted).trans rfl
  rw [State.zoneIntoAlarm_cases, cause, state]
  cases v.alarmCause a k with
  | some x => exact (State.zone_enterAlarm c z a k x none z).trans ((if_pos rfl).trans (by rw [counted]; rfl))
  | none =>
    dsimp only
    by_cases early : v.state = .quiet ∨ v.state = .pre
    · rw [if_pos early, if_pos early, State.zone_enterVerify, if_pos rfl, counted, clock]
      rfl
    · rw [if_neg early, if_neg early]
      exact counted

end

end Sys2Proof.Machine

namespace Sys2Proof.Proofs

open Sys2Proof Sys2Proof.Machine

/-- Settles O24, by the level after the transition and, for ALARM, by the cause of the entry. -/
theorem zoneTransitionOutcome : Obligations.ZoneTransitionOutcome := by
  unfold Obligations.ZoneTransitionOutcome
  refine ⟨fun s z a k before => ?_, fun s z a k => ?_⟩
  · intro v up t after alarm verify tells cause own confirms
    have enters (enabled : v.enabled = true) (caused : ∃ c, v.alarmCause a k = some c) : after .alarm = alarm := by
      obtain ⟨c, caused⟩ := caused
      refine (State.zoneTransition_alarm_own enabled).trans ?_
      rw [caused]
    have waits (enabled : v.enabled = true) (uncaused : v.alarmCause a k = none) : after .alarm =
        if v.state = .quiet ∨ v.state = .pre then verify else { v with raised := up } := by
      refine (State.zoneTransition_alarm_own enabled).trans ?_
      rw [uncaused]
    refine ⟨State.zone_zoneDecrement (some k), State.zoneTransition_pre_own, fun still => ?_,
      fun enabled free direct => enters enabled (Zone.alarmCause_direct free direct),
      fun enabled early automatic indirect =>
        (waits enabled (Zone.alarmCause_first automatic early indirect)).trans (if_pos early),
      fun enabled waiting automatic persist => enters enabled (Zone.alarmCause_persist automatic waiting persist),
      fun enabled waiting automatic coincidence => ?_, ?_, ?_, fun disabled => ?_, fun enabled => ?_,
      fun l y other unconfirmed => ?_, fun y enabled confirmed => ?_, fun l => s.zoneTransition_frame z a k before l⟩
    · rcases Bool.eq_false_or_eq_true v.enabled with enabled | disabled
      · have latched : v.state = .alarm := still.resolve_left fun disabled =>
          Bool.false_ne_true (disabled.symm.trans enabled)
        have late : ¬ (v.state = .quiet ∨ v.state = .pre) := by rw [latched]; decide
        exact (waits enabled (Zone.alarmCause_latched latched)).trans (if_neg late)
      · exact (congrArg (State.zone · z) (State.zoneTransition_alarm_disabled disabled)).trans
          ((s.transitionCounted_zone z before z).trans (if_pos rfl))
    · have cause := Zone.alarmCause_coincidence (a := a) automatic waiting coincidence
      have late : ¬ (v.state = .quiet ∨ v.state = .pre) := by rw [waiting]; decide
      by_cases first : v.first = some a
      · exact (waits enabled (cause.trans (if_pos first))).trans ((if_neg late).trans (if_pos first).symm)
      · exact (enters enabled ⟨_, cause.trans (if_neg first)⟩).trans (if_neg first).symm
    · exact (s.zoneTransition_normal_evu z a k before).trans (s.evuAfter_one _ _)
    · exact (s.zoneTransition_pre_evu z a k before).trans (s.evuAfter_one _ _)
    · exact (congrArg State.evu (State.zoneTransition_alarm_disabled disabled)).trans (s.transitionCounted_rest z before).1
    · let decides : DecidablePred (s.confirms z) := fun y => inferInstanceAs (Decidable (confirms y))
      exact (State.zoneTransition_alarm_evu s z a k before enabled).trans
        (congrArg (fun verified : Evu => List.foldl _ (match v.alarmCause a k with
          | some c => s.alarmTold z { v with raised := up } a k c none s.evu
          | none => verified) _) (s.evuAfter_one _ _))
    · exact (@State.zoneTransition_other s z a k before l y other (Classical.propDecidable _)).trans (if_neg unconfirmed)
    · exact (@State.zoneTransition_other s z a k before .alarm y confirmed.1 (Classical.propDecidable _)).trans
        (if_pos ⟨rfl, enabled, confirmed⟩)
  · intro v t confirmed
    obtain ⟨confirms, stands⟩ := s.zoneStaysAlarm_spec z a k
    exact ⟨fun h => ⟨(confirms h).1, (confirms h).2, s.zoneStaysAlarm_frame z a k⟩, stands⟩

end Sys2Proof.Proofs
end

