-- ==== Sys2Proof/Proofs/JudgedFrames.lean ====
section
/-! A new frame of a record up to its echo judgement (R61 to R64, R140), in the terms of the state it found. -/

namespace Sys2Proof.Machine

/-! ## The record and its events -/

/-- Record r once the new frame f is accepted, weighed and supervised, and its echo judged, in state s. -/
def DetectorRecord.judged (r : DetectorRecord) (s : State) (f : LaneFrame) : DetectorRecord :=
  let period := s.hcq.periodAfter r.address f.frame.done r.period
  { r with
    failureRun := 0, lastSequence := some f.frame.sequence, path := some f.path,
    weakCount := if f.path.signal < s.pages.air.signalMargin then min (r.weakCount + 1) 8 else 0,
    presence := if r.enabled then .present else r.presence,
    battery := if r.enabled then (if f.frame.batteryLow then .low else .ok) else r.battery,
    tamper := if r.enabled then (if f.frame.tamperOpen then .opened else .closed) else r.tamper,
    period := period, deadline := clockAdd s.now (period * r.misses),
    test := if s.hcq.completes r.address f.frame.done .testEnter then true
      else if s.hcq.completes r.address f.frame.done .testExit then false else r.test,
    level := if s.hcq.Crosses f.frame.done r then .normal else r.level,
    levelEpoch := if s.hcq.Crosses f.frame.done r then (s.zone r.zone).epoch else r.levelEpoch }

/-- What the arrival of the new frame f tells of its record r. -/
def DetectorRecord.arrivalEvents (r : DetectorRecord) (s : State) (f : LaneFrame) : List EventBody :=
  (if r.failureRun = 3 then [.integrityOk] else [])
    ++ (if f.path.signal < s.pages.air.signalMargin then
          (if r.weakCount = 3 then [.lowSignal f.path.signal f.path.hop] else [])
        else if 4 ≤ r.weakCount then [.signalOk f.path.signal f.path.hop] else [])
    ++ (if r.enabled then
        (if r.presence = .missing then [.detectorPresent r.deadline] else [])
          ++ (if f.frame.batteryLow ∧ r.battery = .ok then [.batteryLow] else [])
          ++ (if ¬ f.frame.batteryLow ∧ r.battery = .low then [.batteryOk] else [])
          ++ (if f.frame.tamperOpen ∧ r.tamper = .closed then [.tamperOpen] else [])
          ++ (if ¬ f.frame.tamperOpen ∧ r.tamper = .opened then [.tamperClosed] else [])
        else [])

/-- What the echo judgement of the new frame f tells of its record r. -/
def DetectorRecord.echoEvents (r : DetectorRecord) (s : State) (f : LaneFrame) : List EventBody :=
  s.hcq.echoEvents r.address f.frame.done s.pages.timing.attemptLimit
    ++ if s.hcq.Uncounts f.frame.done r (s.zone r.zone).epoch ∧ (s.zone r.zone).Falls then [.zoneQuiet] else []

/-- A zone that a counted record leaves. -/
def Zone.uncounted (v : Zone) : Zone :=
  { v with raised := v.raised - 1, state := if v.Falls then .quiet else v.state }

/-- The zones of t are those of s, but for the one that the echo of frame f takes record r out of. -/
structure ZonesJudged (s t : State) (f : LaneFrame) (r : DetectorRecord) : Prop where
  same : ¬ s.hcq.Uncounts f.frame.done r (s.zone r.zone).epoch → t.zones = s.zones
  becomes : s.hcq.Uncounts f.frame.done r (s.zone r.zone).epoch → ZoneBecomes s t r.zone (s.zone r.zone).uncounted

section

variable {s t : State} {f : LaneFrame} {r : DetectorRecord}

theorem ZonesJudged.of_zones (h : ZonesJudged s t f r) {u : State} (zones : u.zones = t.zones) :
    ZonesJudged s u f r := by
  have zone : ∀ z, u.zone z = t.zone z := fun z => congrArg (fun v => Vector.get v z) zones
  refine ⟨fun stays => zones.trans (h.same stays), fun leaves => ?_⟩
  obtain ⟨own, others⟩ := h.becomes leaves
  exact ⟨(zone _).trans own, fun y other => (zone y).trans (others y other)⟩

/-- What an echo leaves of every zone. -/
theorem ZonesJudged.zone (h : ZonesJudged s t f r) (z : ZoneNo) :
    ∃ n st, t.zone z = { s.zone z with raised := n, state := st } := by
  by_cases leaves : s.hcq.Uncounts f.frame.done r (s.zone r.zone).epoch
  · obtain ⟨own, others⟩ := h.becomes leaves
    by_cases same : z = r.zone
    · exact ⟨_, _, same ▸ own⟩
    · exact ⟨_, _, others z same⟩
  · exact ⟨_, _, congrArg (fun v => Vector.get v z) (h.same leaves)⟩

end

/-! ## The state after the judgement -/

/-- The deadline of an accepted frame is that of its period once the echo is judged, completed or not. -/
theorem Hcq.periodAfter_deadline (q : Hcq) (a : Address) (done : Byte) (period misses now : Nat) :
    (if q.completes a done .setPeriod then clockAdd now (q.periodAfter a done period * misses)
      else clockAdd now (period * misses)) = clockAdd now (q.periodAfter a done period * misses) := by
  split
  · rfl
  · next incomplete =>
    have kept : q.periodAfter a done period = period := by
      unfold Hcq.completes at incomplete
      unfold Hcq.periodAfter
      cases sent : q.sentEntry a with
      | none => rfl
      | some x =>
        rw [sent] at incomplete
        exact if_neg fun set => incomplete
          (Bool.and_eq_true_iff.mpr ⟨beq_iff_eq.mpr set.1, beq_iff_eq.mpr set.2⟩)
    rw [kept]

/-- What record r in state s becomes, u, with the new frame f accepted and its echo judged. -/
structure Work.Judged (s : State) (r : DetectorRecord) (f : LaneFrame) (u : Work) : Prop where
  det : u.det = r.judged s f
  st : u.st = { s with
    fiu := { s.fiu with counters := { s.fiu.counters with
      new := inc32 s.fiu.counters.new,
      kindMismatch := if contentOf r.kind f.frame = .mismatch then inc32 s.fiu.counters.kindMismatch
        else s.fiu.counters.kindMismatch } },
    su := { s.su with missing := if r.enabled = true ∧ r.presence = .missing then s.su.missing - 1
      else s.su.missing },
    zones := u.st.zones, hcq := u.st.hcq, evu := u.st.evu }
  orders : u.st.hcq.orders = s.hcq.orders
  zones : ZonesJudged s u.st f r
  raises : Work.Raises ⟨s, r⟩ u (r.arrivalEvents s f ++ r.echoEvents s f)

theorem Work.judged_spec (s : State) (r : DetectorRecord) (f : LaneFrame) :
    Work.Judged s r f ((Work.mk s r).judged f) := by
  obtain ⟨det, st, raises⟩ := (Work.mk s r).arrived_spec f
  show Work.Judged s r f (((Work.mk s r).arrived f).judgeEcho f.frame.done)
  have echo := ((Work.mk s r).arrived f).judgeEcho_echoed f.frame.done
  generalize (Work.mk s r).arrived f = w at det st raises echo
  generalize w.judgeEcho f.frame.done = u at echo
  have hcq : w.st.hcq = s.hcq := by rw [st]
  have now : w.st.now = s.now := (congrArg State.now st).trans rfl
  have zone : ∀ z, w.st.zone z = s.zone z := fun z => (congrArg (State.zone · z) st).trans rfl
  have limit : w.st.pages.timing.attemptLimit = s.pages.timing.attemptLimit := by rw [st]
  have home : w.det.zone = r.zone := by rw [det]; rfl
  have uncounts : w.st.hcq.Uncounts f.frame.done w.det (w.st.zone w.det.zone).epoch ↔
      s.hcq.Uncounts f.frame.done r (s.zone r.zone).epoch := by
    rw [hcq, zone, home, det]
    rfl
  refine ⟨?_, ?_, (echo.orders).trans (congrArg Hcq.orders hcq), ⟨fun stays => ?_, fun leaves => ?_⟩,
    raises.then echo.raises ?_⟩
  · rw [echo.det, hcq, now, zone, home, det]
    exact congrArg (fun n => { r.judged s f with deadline := n }) (Hcq.periodAfter_deadline ..)
  · have frame := echo.frame
    unfold OnlyNotices at frame
    rw [frame, st]
  · exact (echo.zones (mt uncounts.mp stays)).trans (by rw [st])
  · obtain ⟨own, others⟩ := echo.becomes (uncounts.mpr leaves)
    rw [home, zone] at own
    exact ⟨own, fun y other => (others y (home ▸ other)).trans (zone y)⟩
  · rw [hcq, zone, home, limit, det]
    rfl

end Sys2Proof.Machine
end

