-- ==== Sys2Proof/Proofs/LevelledFrames.lean ====
section
/-! Level processing of a judged frame (R71, R86), in the terms of the state the frame found. -/

namespace Sys2Proof.Machine

/-! ## What a level means for the zones (R86) -/

/-- What ZU makes of the level after a reading of detector a in zone z. -/
def State.hears (s : State) (z : ZoneNo) (a : Address) (k : DetectorKind) (test : Bool) (before after : Level) : State :=
  if test = true then s
  else if after ≠ before then s.zoneTransition z a k before after
  else if before = .alarm then s.zoneStaysAlarm z a k
  else s

section

variable {s : State} {z : ZoneNo} {a : Address} {k : DetectorKind} {test : Bool} {before after : Level}

theorem State.hears_test (tests : test = true) : s.hears z a k test before after = s := if_pos tests

variable (untested : test = false)

include untested

theorem State.hears_transition (moved : after ≠ before) :
    s.hears z a k test before after = s.zoneTransition z a k before after :=
  (if_neg (Bool.eq_false_iff.mp untested)).trans (if_pos moved)

theorem State.hears_alarm (stays : after = before) (alarm : before = .alarm) :
    s.hears z a k test before after = s.zoneStaysAlarm z a k :=
  (if_neg (Bool.eq_false_iff.mp untested)).trans ((if_neg (not_not.mpr stays)).trans (if_pos alarm))

theorem State.hears_still (stays : after = before) (calm : before ≠ .alarm) :
    s.hears z a k test before after = s :=
  (if_neg (Bool.eq_false_iff.mp untested)).trans ((if_neg (not_not.mpr stays)).trans (if_neg calm))

end

/-- What is said of the four cases is said of what ZU makes of the level. -/
theorem State.hears_of_cases {s y : State} {z : ZoneNo} {a : Address} {k : DetectorKind} {test : Bool}
    {before after : Level} (tests : test = true → y = s)
    (moves : test = false → after ≠ before → y = s.zoneTransition z a k before after)
    (stays : test = false → after = before → before = .alarm → y = s.zoneStaysAlarm z a k)
    (still : test = false → after = before → before ≠ .alarm → y = s) : y = s.hears z a k test before after := by
  rcases Bool.eq_false_or_eq_true test with tested | untested
  · exact (tests tested).trans (State.hears_test tested).symm
  · by_cases same : after = before
    · by_cases alarm : before = .alarm
      · exact (stays untested same alarm).trans (State.hears_alarm untested same alarm).symm
      · exact (still untested same alarm).trans (State.hears_still untested same alarm).symm
    · exact (moves untested same).trans (State.hears_transition untested same).symm

theorem SameZones.hears {s t : State} (h : SameZones s t) (z : ZoneNo) (a : Address) (k : DetectorKind) (test : Bool)
    (before after : Level) : SameZones (s.hears z a k test before after) (t.hears z a k test before after) := by
  unfold State.hears
  split
  · exact h
  · split
    · exact h.zoneTransition z a k before after
    · split
      · exact h.zoneStaysAlarm z a k
      · exact h

/-! ## Readings of the judged record -/

theorem State.readingOf_congr {s t : State} {d : DetectorRecord} {n : Nat} {st : ZoneState}
    (zone : t.zone d.zone = { s.zone d.zone with raised := n, state := st }) (pages : t.pages = s.pages) (c : Content) :
    t.readingOf d c = s.readingOf d c := by
  unfold State.readingOf
  rw [zone, pages]
  rfl

namespace Work.Judged

variable {s : State} {r : DetectorRecord} {f : LaneFrame} {u : Work} (h : Work.Judged s r f u)

include h

theorem now : u.st.now = s.now := h.raises.clock

theorem reading (c : Content) : u.st.readingOf u.det c = s.readingOf (r.judged s f) c := by
  obtain ⟨n, st, zone⟩ := h.zones.zone r.zone
  have pages : u.st.pages = s.pages := by rw [h.st]
  rw [h.det]
  exact State.readingOf_congr (d := r.judged s f) zone pages c

theorem epoch : (u.st.zone r.zone).epoch = (s.zone r.zone).epoch := by
  obtain ⟨n, st, zone⟩ := h.zones.zone r.zone
  rw [zone]

theorem told (l : List EventBody) :
    u.st.evuAfter (l.map r.tells) = s.evuAfter ((r.arrivalEvents s f ++ r.echoEvents s f ++ l).map r.tells) := by
  rw [List.map_append]
  exact State.evuAfter_after (s := s) h.raises.evu h.raises.clock (l.map r.tells)

/-- A record with no reading is left by level processing. -/
theorem level_none {c : Content} (none : r.enabled = false ∨ s.readingOf (r.judged s f) c = none) (q : SeqNo) :
    u.level q c = u := by
  refine (u.level_spec q c).1 (none.imp (fun off => ?_) fun unread => (h.reading c).trans unread)
  rw [h.det]
  exact off

theorem level_some {c : Content} {x : Reading} (enabled : r.enabled = true)
    (reads : s.readingOf (r.judged s f) c = some x) (q : SeqNo) :
    let j := r.judged s f
    let epoch := (s.zone r.zone).epoch
    let before := j.currentLevel epoch
    let told := r.reports x.report
    let tells := s.evuAfter ((r.arrivalEvents s f ++ r.echoEvents s f ++ r.drifts x.drift).map r.tells)
    let v : State := { s with
      zones := u.st.zones,
      evu := if x.level = before then tells else (tells.closeFor s.now .transition r.address).take s.now
        (s.eventRecord (.detectorState before x.level x.smoke x.other j.test) (some r.zone) (some r.address)
          (some r.kind)) }
    let w := v.hears r.zone r.address r.kind j.test before x.level
    let y := u.level q c
    y.det = { j with
        level := x.level, levelEpoch := epoch,
        baseline := match x.drift with
          | none => r.baseline
          | some (B, _) => some B,
        driftFault := match x.drift with
          | none => r.driftFault
          | some (B, D) => if D < (B + 8) / 16 then true else if (B + 8) / 16 ≤ D - 4 then false else r.driftFault,
        lastReported := if told.isSome then told else r.lastReported }
      ∧ y.st.zones = w.zones
      ∧ y.st.evu = match told with
        | none => w.evu
        | some n => w.evu.report s.now r.address r.zone r.kind q n := by
  intro j epoch before told tells v w y
  have applied : y = u.applyReading q x :=
    (u.level_spec q c).2.1 x (by rw [h.det]; exact enabled) ((h.reading c).trans reads)
  have view_told : u.st.evuAfter ((r.drifts x.drift).map r.tells) = tells := h.told (r.drifts x.drift)
  have now : u.st.now = s.now := h.now
  have spec := u.applyReading_spec q x
  rw [← applied] at spec
  clear_value y tells
  obtain ⟨u, d⟩ := u
  obtain rfl : d = j := h.det
  have stamp : (u.zone j.zone).epoch = epoch := h.epoch
  dsimp only at spec
  rw [stamp, now] at spec
  obtain ⟨det, v', y', view, tests, moves, stays, still, -, st⟩ := spec
  have heard := State.hears_of_cases tests moves stays still
  have record : ∀ b z a k, u.eventRecord b z a k = s.eventRecord b z a k := fun b z a k => by
    unfold State.eventRecord
    rw [show u.now = s.now from now]
  have views : v'.evu = v.evu := by
    rw [view]
    dsimp only
    rw [record]
    exact congrArg (fun e : Evu => if x.level = before then e else (e.closeFor s.now .transition r.address).take s.now _)
      view_told
  have same : SameZones v' v := ⟨(congrArg State.zones view).trans rfl, views, (congrArg State.now view).trans now⟩
  obtain ⟨zones, evu, -⟩ := same.hears r.zone r.address r.kind j.test before x.level
  exact ⟨det, (congrArg State.zones st).trans ((congrArg State.zones heard).trans zones), (congrArg State.evu st).trans
    (congrArg (fun e : Evu => match told with
      | none => e
      | some n => e.report s.now r.address r.zone r.kind q n) ((congrArg State.evu heard).trans evu))⟩

end Work.Judged

end Sys2Proof.Machine
end

