-- ==== Sys2Proof/Proofs/FinishedFrames.lean ====
section
/-! A new frame from its level processing to the end of its completion (R64 to R67, R147). -/

namespace Sys2Proof.Machine

/-- A frame that carries the pattern of a SOUNDER (R64). -/
abbrev DetectorRecord.PatternOf (r : DetectorRecord) (f : RadioFrame) : Prop :=
  r.kind = .sounder ∧ f.kind = 4 ∧ (f.payload.headD 0).toNat ≤ 7

/-- What the sounder check of a frame tells of its record (R147). -/
def DetectorRecord.patternEvents (r : DetectorRecord) (f : RadioFrame) (expected : Nat) : List EventBody :=
  let reported := (f.payload.headD 0).toNat
  if r.PatternOf f then
    (if reported = expected then (if r.mismatchRun = 2 then [.sounderMatch reported expected] else [])
     else if r.mismatchRun = 1 then [.sounderMismatch reported expected] else [])
  else []

theorem DetectorRecord.patternEvents_nil {r : DetectorRecord} {f : RadioFrame} (silent : ¬ r.PatternOf f)
    (expected : Nat) : r.patternEvents f expected = [] := if_neg silent

theorem byteAt_zero (l : List Byte) : byteAt l 0 = l.headD 0 := by
  cases l with
  | nil => rfl
  | cons b l => rfl

/-- A new frame's completion, from its judged record on. -/
theorem exec_completion_new {s : State} {f : LaneFrame} {i : Nat} {e : BitVec 8} {r : DetectorRecord}
    (completing : s.fiu.state = .completing f i e true) (epoch : s.dtu.epochAt i = e) (record : s.dtu.recordAt i = some r)
    (fresh : ∀ l, r.lastSequence = some l →
      1 ≤ (f.frame.sequence - l).toNat ∧ (f.frame.sequence - l).toNat ≤ 2047) :
    let c := contentOf r.kind f.frame
    let v := (((Work.mk s r).judged f).level f.frame.sequence c).checkPattern c
    exec .completionRequest s = .next ((v.acknowledge f).st.putRecord i (v.acknowledge f).det).releaseFrame := by
  intro c v
  have confirmed := Dtu.confirmed_some epoch record
  have handled : (Work.mk s r).handlePassing f = v.acknowledge f :=
    Work.handlePassing_stages (classifySequence_new fresh)
  rw [exec_completionRequest completing, State.decideFrame_passing confirmed,
    State.onRecord_of_eq (g := fun w => w.handlePassing f) handled]

namespace Work.Judged

variable {s : State} {r : DetectorRecord} {f : LaneFrame} {u : Work} (h : Work.Judged s r f u)

include h

/-- The sounder check after level processing. -/
theorem pattern :
    let c := contentOf r.kind f.frame
    let y := u.level f.frame.sequence c
    let z := y.checkPattern c
    let reported := (f.frame.payload.headD 0).toNat
    let expected := s.hcq.expectedPattern r.zone
    z.det = { y.det with
        sounderPattern := if r.PatternOf f.frame then reported else r.sounderPattern,
        mismatchRun := if r.PatternOf f.frame then (if reported = expected then 0 else min (r.mismatchRun + 1) 2)
          else r.mismatchRun }
      ∧ z.st = { y.st with evu := y.st.evuAfter ((r.patternEvents f.frame expected).map r.tells) } := by
  intro c y z reported expected
  have kept := u.level_det f.frame.sequence c
  rw [h.det] at kept
  have kind : y.det.kind = r.kind := (congrArg DetectorRecord.kind kept).trans rfl
  have home : y.det.zone = r.zone := (congrArg DetectorRecord.zone kept).trans rfl
  have run : y.det.mismatchRun = r.mismatchRun := (congrArg DetectorRecord.mismatchRun kept).trans rfl
  have shown : y.det.sounderPattern = r.sounderPattern := (congrArg DetectorRecord.sounderPattern kept).trans rfl
  have tells : y.det.tells = r.tells := by
    have address : y.det.address = r.address := (congrArg DetectorRecord.address kept).trans rfl
    unfold DetectorRecord.tells
    rw [kind, home, address]
  have orders : y.st.hcq.orders = s.hcq.orders :=
    (congrArg Hcq.orders (u.level_spec f.frame.sequence c).2.2.hcq_eq).trans h.orders
  have pattern : y.st.hcq.expectedPattern r.zone = expected := by
    unfold expected Hcq.expectedPattern
    rw [orders]
  obtain ⟨det, only, raises⟩ := y.checkPattern_spec f.frame
  rw [byteAt_zero, kind, home, run, shown, pattern] at det
  rw [byteAt_zero, kind, home, run, pattern] at raises
  rw [kind] at only
  unfold OnlyEvu at only
  have evu := raises.evu
  rw [tells] at evu
  exact ⟨det, only.trans (congrArg (fun e : Evu => { y.st with evu := e }) evu)⟩

/-- The state at the end of the completion. -/
theorem finished (i : Nat) :
    let c := contentOf r.kind f.frame
    let y := u.level f.frame.sequence c
    let z := y.checkPattern c
    let v := z.acknowledge f
    let t := (v.st.putRecord i v.det).releaseFrame
    t = { s with
      dtu := s.dtu.putRecord i (some z.det), heads := t.heads,
      intake := { s.intake with freeBlocks := s.intake.freeBlocks + 1 },
      fiu := { state := .idle, counters := { s.fiu.counters with
        new := min (s.fiu.counters.new + 1) 4294967295,
        kindMismatch := if c = .mismatch then min (s.fiu.counters.kindMismatch + 1) 4294967295
          else s.fiu.counters.kindMismatch,
        acknowledgements := min (s.fiu.counters.acknowledgements + 1) 4294967295 } },
      zones := y.st.zones,
      su := { s.su with missing := if r.enabled = true ∧ r.presence = .missing then s.su.missing - 1
        else s.su.missing },
      hcq := t.hcq,
      evu := y.st.evuAfter ((r.patternEvents f.frame (s.hcq.expectedPattern r.zone)).map r.tells) } := by
  intro c y z v t
  obtain ⟨-, det, ack⟩ := z.acknowledge_spec f
  obtain ⟨-, checked⟩ := h.pattern
  have levelled := (u.level_spec f.frame.sequence c).2.2
  have arrived := h.st
  unfold OnlyZones at levelled
  have acknowledged : v.st = { s with
      heads := v.st.heads,
      fiu := { s.fiu with counters := { s.fiu.counters with
        new := min (s.fiu.counters.new + 1) 4294967295,
        kindMismatch := if c = .mismatch then min (s.fiu.counters.kindMismatch + 1) 4294967295
          else s.fiu.counters.kindMismatch,
        acknowledgements := min (s.fiu.counters.acknowledgements + 1) 4294967295 } },
      zones := y.st.zones,
      su := { s.su with missing := if r.enabled = true ∧ r.presence = .missing then s.su.missing - 1
        else s.su.missing },
      hcq := v.st.hcq,
      evu := y.st.evuAfter ((r.patternEvents f.frame (s.hcq.expectedPattern r.zone)).map r.tells) } := by
    refine ack.trans ?_
    rw [checked, levelled, arrived]
    rfl
  have released : t = (v.st.putRecord i z.det).releaseFrame := congrArg (fun d => (v.st.putRecord i d).releaseFrame) det
  exact released.trans (congrArg (fun x : State => (x.putRecord i z.det).releaseFrame) acknowledged)

end Work.Judged

end Sys2Proof.Machine
end

