-- ==== Sys2Proof/Proofs/NewFrameRecords.lean ====
section
/-! What a new frame writes in its record (R61 to R64, R71, R86, R140, R147). -/

namespace Sys2Proof.Machine

theorem DetectorRecord.judged_level (r : DetectorRecord) (s : State) (f : LaneFrame) :
    (r.judged s f).currentLevel (s.zone r.zone).epoch =
      if s.hcq.Crosses f.frame.done r then .normal
      else if r.levelEpoch = (s.zone r.zone).epoch then r.level else .normal := by
  unfold DetectorRecord.currentLevel DetectorRecord.judged
  dsimp only
  by_cases crosses : s.hcq.Crosses f.frame.done r
  · rw [if_pos crosses, if_pos crosses, if_pos crosses, if_pos rfl]
  · rw [if_neg crosses, if_neg crosses, if_neg crosses]

end Sys2Proof.Machine

namespace Sys2Proof.Proofs

open Sys2Proof Sys2Proof.Machine

/-- Settles O19: the record is followed through the echo judgement, level processing and the sounder check; what EVU and
the zones are told is that of the judged frame, with the reading's records where there is one. -/
theorem newFrameWritesRecord : Obligations.NewFrameWritesRecord := by
  intro s f i e r completing epoch record fresh signal hop weak low isOpen v sent completes period reported second judged
    expected uncounts falls test boundary before S reading suits raises early records
  have weakness : weak = true ↔ f.path.signal < s.pages.air.signalMargin := decide_eq_true_iff
  have early_eq : early = r.arrivalEvents s f ++ r.echoEvents s f := by
    unfold DetectorRecord.arrivalEvents DetectorRecord.echoEvents
    rw [← List.append_assoc, ← if_congr weakness rfl rfl]
    rfl
  have before_eq : (r.judged s f).currentLevel (s.zone r.zone).epoch = before := r.judged_level s f
  have h := Work.judged_spec s r f
  have outcome := exec_completion_new completing epoch record fresh
  generalize (Work.mk s r).judged f = u at h outcome
  have ended := h.finished i
  obtain ⟨checked, -⟩ := h.pattern
  have kept := u.level_det f.frame.sequence (contentOf r.kind f.frame)
  have unread := fun deaf => h.level_none (c := contentOf r.kind f.frame) deaf f.frame.sequence
  have read := fun x enabled reads => h.level_some (c := contentOf r.kind f.frame) (x := x) enabled reads f.frame.sequence
  rw [h.det] at kept
  dsimp only at ended checked outcome
  generalize u.level f.frame.sequence (contentOf r.kind f.frame) = y at *
  generalize y.checkPattern (contentOf r.kind f.frame) = z at *
  have det : (z.acknowledge f).det = z.det := (z.acknowledge_spec f).2.1
  generalize State.releaseFrame _ = t at outcome ended
  rw [kept] at checked
  have field {α : Type} (g : DetectorRecord → α) := congrArg g checked
  have reads : reading = if r.enabled = false then none
      else s.readingOf (r.judged s f) (contentOf r.kind f.frame) := by
    have law := s.readingOf_frame (r.judged s f) f.frame
    dsimp only at law
    rw [show (r.judged s f).currentLevel (s.zone (r.judged s f).zone).epoch = before from before_eq] at law
    exact congrArg (fun x => if r.enabled = false then none else x) law.symm
  have ended_zones : t.zones = y.st.zones := (congrArg State.zones ended).trans rfl
  refine ⟨t, z.det, outcome, ?_, field DetectorRecord.lastSequence, (field DetectorRecord.path).trans
      (congrArg some f.path_eq), (field DetectorRecord.weakCount).trans (if_congr weakness.symm rfl rfl),
    field DetectorRecord.failureRun, field DetectorRecord.period, field DetectorRecord.deadline,
    field DetectorRecord.presence, field DetectorRecord.battery, field DetectorRecord.tamper,
    field DetectorRecord.test, field DetectorRecord.sounderPattern, field DetectorRecord.mismatchRun,
    field DetectorRecord.address, field DetectorRecord.kind, field DetectorRecord.zone, field DetectorRecord.key,
    field DetectorRecord.misses, field DetectorRecord.enabled, field DetectorRecord.collision,
    congrArg State.su ended, congrArg State.intake ended, congrArg (fun x : State => x.fiu.state) ended,
    fun suited => ?_, fun unsuited => ?_, fun unheard => ?_, fun x hearing => ?_, ?_⟩
  · rw [ended]
    exact (s.dtu.recordAt_putRecord i i _).trans (if_pos ⟨rfl, Dtu.recordAt_lt record⟩)
  · have suiting : contentOf r.kind f.frame ≠ .mismatch := (contentOf_mismatch r.kind f.frame).mpr suited
    exact (congrArg (fun x : State => x.fiu.counters) ended).trans (by rw [if_neg suiting])
  · have mismatched : contentOf r.kind f.frame = .mismatch :=
      not_not.mp fun suiting => unsuited ((contentOf_mismatch r.kind f.frame).mp suiting)
    exact (congrArg (fun x : State => x.fiu.counters) ended).trans (by rw [if_pos mismatched])
  · have deaf : r.enabled = false ∨ s.readingOf (r.judged s f) (contentOf r.kind f.frame) = none := by
      by_cases off : r.enabled = false
      · exact .inl off
      · rw [reads, if_neg off] at unheard
        exact .inr unheard
    obtain rfl : y = u := unread deaf
    have plain {α : Type} (g : DetectorRecord → α) : g y.det = g (r.judged s f) := congrArg g h.det
    have told : t.evu = raises records :=
      (congrArg State.evu ended).trans ((h.told _).trans (congrArg (fun l => raises (l ++ _)) early_eq.symm))
    have judgement : ZonesJudged s t f r := h.zones.of_zones ended_zones
    have level := (field DetectorRecord.level).trans (plain DetectorRecord.level)
    have stamp := (field DetectorRecord.levelEpoch).trans (plain DetectorRecord.levelEpoch)
    exact ⟨fun crosses => ⟨level.trans (if_pos crosses), stamp.trans (if_pos crosses)⟩,
      fun stays => ⟨level.trans (if_neg stays), stamp.trans (if_neg stays)⟩,
      (field DetectorRecord.baseline).trans (plain DetectorRecord.baseline),
      (field DetectorRecord.driftFault).trans (plain DetectorRecord.driftFault),
      (field DetectorRecord.lastReported).trans (plain DetectorRecord.lastReported),
      told, judgement.same, judgement.becomes⟩
  · intro drifted told
    have enabled : r.enabled = true := by
      by_contra off
      exact nomatch (reads.symm.trans hearing).symm.trans (if_pos (Bool.eq_false_iff.mpr off))
    have heard : s.readingOf (r.judged s f) (contentOf r.kind f.frame) = some x := by
      rw [reads, if_neg (Bool.eq_false_iff.not_left.mpr enabled)] at hearing
      exact hearing
    have silent : ¬ r.PatternOf f.frame := fun sounder => by
      have law := s.readingOf_frame (r.judged s f) f.frame
      rw [show (r.judged s f).kind = .sounder from sounder.1] at law
      rw [sounder.1] at heard
      exact nomatch heard.symm.trans law
    have unpatterned : t.evu = y.st.evu := by
      rw [DetectorRecord.patternEvents_nil silent] at ended
      exact (congrArg State.evu ended).trans rfl
    have told_eq : s.evuAfter ((r.arrivalEvents s f ++ r.echoEvents s f ++ r.drifts x.drift).map r.tells) =
        raises (early ++ drifted) := congrArg (fun l => raises (l ++ drifted)) early_eq.symm
    have levelled := read x enabled heard
    dsimp only at levelled
    rw [before_eq, told_eq] at levelled
    obtain ⟨ydet, zones, evu⟩ := levelled
    have levels {α : Type} (g : DetectorRecord → α) := congrArg g ydet
    refine ⟨(field DetectorRecord.level).trans (levels DetectorRecord.level),
      (field DetectorRecord.levelEpoch).trans (levels DetectorRecord.levelEpoch),
      (field DetectorRecord.baseline).trans (levels DetectorRecord.baseline),
      (field DetectorRecord.driftFault).trans (levels DetectorRecord.driftFault),
      (field DetectorRecord.lastReported).trans (levels DetectorRecord.lastReported), ?_⟩
    let told_zones : State := { s with
      zones := u.st.zones,
      evu := if x.level = before then raises (early ++ drifted)
        else ((raises (early ++ drifted)).closeFor s.now .transition r.address).take s.now
          (s.eventRecord (.detectorState before x.level x.smoke x.other test) (some r.zone) (some r.address)
            (some r.kind)) }
    have judgement : ZonesJudged s told_zones f r := h.zones.of_zones rfl
    exact ⟨told_zones, told_zones.hears r.zone r.address r.kind test before x.level, rfl, judgement.same,
      judgement.becomes, State.hears_test, State.hears_transition, State.hears_alarm, State.hears_still,
      ended_zones.trans zones, unpatterned.trans evu⟩
  · rw [ended]

end Sys2Proof.Proofs
end

