-- ==== Sys2Proof/Proofs/NewFrameAcks.lean ====
section
/-! The acknowledgement of a new frame (R66, R67, R138, R140). -/

namespace Sys2Proof.Machine

theorem Hcq.sentEntry_none {q : Hcq} {a : Address} (unsent : ∀ y ∈ q.entries, ¬ (y.target = a ∧ y.state = .sent)) :
    q.sentEntry a = none :=
  List.find?_eq_none.mpr fun y held sentTo => unsent y held
    ((Bool.and_eq_true_iff.mp sentTo).imp beq_iff_eq.mp beq_iff_eq.mp)

/-! ## The queue after the echo judgement -/

section

variable {s : State} {r : DetectorRecord} {f : LaneFrame}

theorem Work.judged_hcq_none (absent : s.hcq.sentEntry r.address = none) : ((Work.mk s r).judged f).st.hcq = s.hcq := by
  obtain ⟨det, st, -⟩ := (Work.mk s r).arrived_spec f
  unfold Work.judged
  generalize (Work.mk s r).arrived f = w at det st
  have hcq : w.st.hcq = s.hcq := by rw [st]
  have address : w.det.address = r.address := by rw [det]; rfl
  rw [w.judgeEcho_none f.frame.done (by rw [hcq, address, absent]), hcq]

variable {before after : List HeldEntry} {x : HeldEntry} (split : s.hcq.entries = before ++ x :: after)
  (own : x.target = r.address) (sent : x.state = .sent)
  (earlier : ∀ y ∈ before, ¬ (y.target = r.address ∧ y.state = .sent))

include split own sent earlier

theorem Work.judged_hcq_done (done : f.frame.done = x.number) : ((Work.mk s r).judged f).st.hcq = { s.hcq with
    entries := before ++ after,
    counters := { s.hcq.counters with done := min (s.hcq.counters.done + 1) 4294967295 } } := by
  obtain ⟨det, st, -⟩ := (Work.mk s r).arrived_spec f
  obtain ⟨found, removed, -⟩ := Hcq.sentEntry_split split own sent earlier
  unfold Work.judged
  generalize (Work.mk s r).arrived f = w at det st
  have hcq : w.st.hcq = s.hcq := by rw [st]
  have address : w.det.address = r.address := by rw [det]; rfl
  obtain ⟨-, -, judged, -⟩ := w.judgeEcho_done f.frame.done x (by rw [hcq, address, found]) done
  rw [judged, hcq, address, removed]

theorem Work.judged_hcq_missed (missed : f.frame.done ≠ x.number) :
    (s.pages.timing.attemptLimit ≤ x.attempts + 1 → ((Work.mk s r).judged f).st.hcq = { s.hcq with
      entries := before ++ after,
      counters := { s.hcq.counters with failedNoEcho := min (s.hcq.counters.failedNoEcho + 1) 4294967295 } })
    ∧ (x.attempts + 1 < s.pages.timing.attemptLimit → ((Work.mk s r).judged f).st.hcq = { s.hcq with
      entries := before ++ { x with state := .waiting, attempts := x.attempts + 1 } :: after }) := by
  obtain ⟨det, st, -⟩ := (Work.mk s r).arrived_spec f
  obtain ⟨found, removed, modified⟩ := Hcq.sentEntry_split split own sent earlier
  unfold Work.judged
  generalize (Work.mk s r).arrived f = w at det st
  have hcq : w.st.hcq = s.hcq := by rw [st]
  have address : w.det.address = r.address := by rw [det]; rfl
  have limit : w.st.pages.timing.attemptLimit = s.pages.timing.attemptLimit := by rw [st]
  obtain ⟨-, -, fails, waits, -⟩ := w.judgeEcho_missed f.frame.done x (by rw [hcq, address, found]) missed
  rw [limit, hcq, address] at fails waits
  rw [removed] at fails
  rw [modified] at waits
  exact ⟨fails, fun below => waits (Nat.not_le.mpr below)⟩

end

/-- The acknowledgement at the end of a judged frame's completion. -/
theorem Work.Judged.acknowledged {s : State} {r : DetectorRecord} {f : LaneFrame} {u : Work} (h : Work.Judged s r f u)
    (i : Nat) :
    let c := contentOf r.kind f.frame
    let v := ((u.level f.frame.sequence c).checkPattern c).acknowledge f
    Acknowledged u.st.hcq s (v.st.putRecord i v.det).releaseFrame f r.address := by
  intro c v
  have levelled := (u.level_spec f.frame.sequence c).2.2
  obtain ⟨checked, only⟩ := h.pattern
  obtain ⟨ack, -, -⟩ := ((u.level f.frame.sequence c).checkPattern c).acknowledge_spec f
  have address : ((u.level f.frame.sequence c).checkPattern c).det.address = r.address :=
    (congrArg DetectorRecord.address checked).trans ((congrArg DetectorRecord.address (u.level_det _ c)).trans
      h.raises.address)
  have hcq : ((u.level f.frame.sequence c).checkPattern c).st.hcq = u.st.hcq :=
    (congrArg State.hcq only).trans levelled.hcq_eq
  have heads : ((u.level f.frame.sequence c).checkPattern c).st.heads = s.heads :=
    (congrArg State.heads only).trans (levelled.heads_eq.trans ((congrArg State.heads h.st).trans rfl))
  have clock : ((u.level f.frame.sequence c).checkPattern c).st.clock = s.clock :=
    (congrArg State.clock only).trans (levelled.clock_eq.trans ((congrArg State.clock h.st).trans rfl))
  rw [hcq, address] at ack
  exact ack.congr heads.symm clock.symm rfl rfl

end Sys2Proof.Machine

namespace Sys2Proof.Proofs

open Sys2Proof Sys2Proof.Machine

/-- Settles O20, by what the echo judgement does to the queue. -/
theorem newFrameAcknowledged : Obligations.NewFrameAcknowledged := by
  intro s f i e r completing epoch record fresh q c
  have h := Work.judged_spec s r f
  have ack := h.acknowledged i
  refine ⟨_, exec_completion_new completing epoch record fresh, ?_, fun unsent => ?_,
    fun before x after split own sent earlier => ⟨fun done => ?_, fun missed limit => ?_, fun missed below => ?_⟩⟩
  · exact congrArg (fun x : State => x.fiu.counters.acknowledgements) (h.finished i)
  · rwa [Work.judged_hcq_none (Hcq.sentEntry_none unsent)] at ack
  · rwa [Work.judged_hcq_done split own sent earlier done] at ack
  · rwa [(Work.judged_hcq_missed split own sent earlier missed).1 limit] at ack
  · rwa [(Work.judged_hcq_missed split own sent earlier missed).2 below] at ack

end Sys2Proof.Proofs
end

