-- ==== Sys2Proof/Proofs/CallPoints.lean ====
section
/-! An operated call point (R72, R97, R101, R105): its zone and the partner zones enter ALARM. -/

namespace Sys2Proof.Machine

theorem State.alarmTold_contexts (s : State) (z : ZoneNo) (v : Zone) (a : Address) (k : DetectorKind) (c : AlarmCause)
    (p : Option ZoneNo) (e : Evu) : (s.alarmTold z v a k c p e).contexts = [] := by
  unfold State.alarmTold
  rcases (Evu.take_kept (e.closeAll s.now .alarm) s.now _).2 with kept | emptied
  · exact kept.trans (e.closeAll_kept s.now .alarm).2
  · exact emptied

theorem State.alarmsTold_contexts (s : State) (z : ZoneNo) (a : Address) (k : DetectorKind) :
    ∀ (l : List ZoneNo) (e : Evu), e.contexts = [] →
      (l.foldl (fun e y => s.alarmTold y (s.zone y) a k .partner (some z) e) e).contexts = []
  | [], _, closed => closed
  | _ :: l, _, _ => State.alarmsTold_contexts s z a k l _ (State.alarmTold_contexts ..)

section

variable {s : State} {z : ZoneNo} {a : Address} {k : DetectorKind}

/-- A transition that enters its own zone into ALARM closes every context (R105). -/
theorem State.zoneTransition_alarm_contexts {before : Level} {c : AlarmCause} (enabled : (s.zone z).enabled = true)
    (caused : (s.zone z).alarmCause a k = some c) : (s.zoneTransition z a k before .alarm).evu.contexts = [] := by
  have told := @State.zoneTransition_alarm_evu s z a k before (Classical.decPred _) enabled
  dsimp only at told
  rw [caused] at told
  rw [told]
  exact State.alarmsTold_contexts s z a k _ _ (State.alarmTold_contexts ..)

theorem Hcq.completes_none {q : Hcq} {a : Address} (absent : q.sentEntry a = none) (done : Byte) (code : HeldCode) :
    q.completes a done code = false := by
  unfold Hcq.completes
  rw [absent]
  rfl

end

section

variable {s : State} {r : DetectorRecord} (absent : s.hcq.sentEntry r.address = none)

include absent

theorem Hcq.not_uncounts (done : Byte) (epoch : BitVec 8) : ¬ s.hcq.Uncounts done r epoch := fun leaves =>
  absurd ((Hcq.completes_none absent done _).symm.trans leaves.1) Bool.false_ne_true

theorem Hcq.not_crosses (done : Byte) : ¬ s.hcq.Crosses done r := fun crosses => crosses.elim
  (fun enters => absurd ((Hcq.completes_none absent done _).symm.trans enters) Bool.false_ne_true)
  (fun leaves => absurd ((Hcq.completes_none absent done _).symm.trans leaves.1) Bool.false_ne_true)

theorem DetectorRecord.judged_test (f : LaneFrame) : (r.judged s f).test = r.test := by
  unfold DetectorRecord.judged
  dsimp only
  rw [Hcq.completes_none absent, Hcq.completes_none absent]
  rfl

end

/-- The reading of an operated call point. -/
theorem State.readingOf_operated {s : State} {d : DetectorRecord} {f : RadioFrame} (manual : d.kind = .callpoint)
    (call : f.kind = 3) (operated : f.payload = [1]) :
    s.readingOf d (contentOf d.kind f) = some (callReading true) := by
  have law := s.readingOf_frame d f
  have reported : (f.payload.headD 0).toNat = 1 := by
    rw [operated]
    rfl
  dsimp only at law
  rw [reported] at law
  refine law.trans ?_
  rw [manual]
  exact if_pos ⟨call, Nat.le_refl 1⟩

end Sys2Proof.Machine

namespace Sys2Proof.Proofs

open Sys2Proof Sys2Proof.Machine

/-- Settles O25: the reading of the frame is ALARM from NORMAL, and the transition it makes enters the zone into ALARM. -/
theorem callPointRaisesAlarm : Obligations.CallPointRaisesAlarm := by
  intro s f i e r completing epoch record fresh unsent manual enabled untested normal call operated zoneEnabled unlatched v
  have absent : s.hcq.sentEntry r.address = none := Hcq.sentEntry_none unsent
  have h := Work.judged_spec s r f
  have outcome := exec_completion_new completing epoch record fresh
  generalize (Work.mk s r).judged f = u at h outcome
  have ended := h.finished i
  obtain ⟨checked, -⟩ := h.pattern
  have silent : ¬ r.PatternOf f.frame := fun sounder => nomatch manual.symm.trans sounder.1
  rw [DetectorRecord.patternEvents_nil silent] at ended
  have heard : s.readingOf (r.judged s f) (contentOf r.kind f.frame) = some (callReading true) :=
    State.readingOf_operated (d := r.judged s f) manual call operated
  have before : (r.judged s f).currentLevel (s.zone r.zone).epoch = .normal := by
    rw [r.judged_level, if_neg (Hcq.not_crosses absent f.frame.done)]
    split
    · next current => exact normal.resolve_right (not_not.mpr current)
    · rfl
  have levelled := h.level_some enabled heard f.frame.sequence
  dsimp only at levelled ended checked outcome
  generalize u.level f.frame.sequence (contentOf r.kind f.frame) = y at *
  generalize y.checkPattern (contentOf r.kind f.frame) = z at *
  generalize State.releaseFrame _ = t at outcome ended
  rw [before, DetectorRecord.judged_test absent] at levelled
  obtain ⟨det, zones, evu⟩ := levelled
  have stays : u.st.zones = s.zones := h.zones.same (Hcq.not_uncounts absent _ _)
  generalize heard_eq : ({ s with zones := u.st.zones, evu := _ } : State) = x at zones evu
  have zone : ∀ y, x.zone y = s.zone y := fun y => by
    rw [← heard_eq]
    exact congrArg (fun zones => Vector.get zones y) stays
  have moves : x.hears r.zone r.address r.kind r.test .normal .alarm =
      x.zoneTransition r.zone r.address r.kind .normal .alarm := State.hears_transition untested (by decide)
  have on : (x.zone r.zone).enabled = true := (congrArg Zone.enabled (zone r.zone)).trans zoneEnabled
  obtain ⟨c, caused⟩ : ∃ c, (x.zone r.zone).alarmCause r.address r.kind = some c :=
    Zone.alarmCause_direct (by rw [zone]; exact unlatched) (.inl manual)
  have transition : ∀ y, t.zone y = (x.zoneTransition r.zone r.address r.kind .normal .alarm).zone y := fun y =>
    congrArg (fun zones => Vector.get zones y)
      (((congrArg State.zones ended).trans zones).trans (congrArg State.zones moves))
  have quiet : t.evu = (x.zoneTransition r.zone r.address r.kind .normal .alarm).evu :=
    ((congrArg State.evu ended).trans evu).trans (congrArg State.evu moves)
  refine ⟨t, z.det, outcome, ?_, ?_, ?_, ?_, ?_, fun y other => ?_⟩
  · rw [ended]
    exact (s.dtu.recordAt_putRecord i i _).trans (if_pos ⟨rfl, Dtu.recordAt_lt record⟩)
  · exact (congrArg DetectorRecord.level checked).trans (congrArg DetectorRecord.level det)
  · exact (congrArg DetectorRecord.levelEpoch checked).trans (congrArg DetectorRecord.levelEpoch det)
  · rw [quiet]
    exact State.zoneTransition_alarm_contexts on caused
  · rw [transition]
    refine (State.zoneTransition_alarm_own on).trans ?_
    rw [caused, zone]
    rfl
  · rw [transition]
    have partners := @State.zoneTransition_other x r.zone r.address r.kind .normal .alarm y other
      (Classical.propDecidable _)
    have confirms : x.confirms r.zone y ↔
        ((s.zone y).enabled = true ∧ (s.zone y).state = .verify ∧ (s.zone y).partner = some r.zone) := by
      unfold State.confirms
      rw [zone y]
      exact and_iff_right other
    rw [zone y] at partners
    by_cases confirmed : x.confirms r.zone y
    · exact (partners.trans (if_pos ⟨rfl, on, confirmed⟩)).trans (if_pos (confirms.mp confirmed)).symm
    · exact (partners.trans (if_neg fun h => confirmed h.2.2)).trans (if_neg (mt confirms.mpr confirmed)).symm

end Sys2Proof.Proofs
end

