-- ==== Sys2Proof/Proofs/CompletionOutcomes.lean ====
section
/-! A completion by the class of its frame (R53 to R59): what is counted, and what stands. -/

namespace Sys2Proof.Machine

/-! ## The class by the distance of the sequences (R57) -/

theorem classifySequence_eq (q : SeqNo) (last : Option SeqNo) : classifySequence q last =
    let d := (last.map fun l => (q - l).toNat).getD 1
    if d = 0 then .repeated else if d ≤ 2047 then .new else .stale := by
  cases last with
  | none => rfl
  | some l => exact classifySequence_some q l

theorem Dtu.confirmed_isSome (d : Dtu) (i : Nat) (e : BitVec 8) :
    (d.confirmed i e).isSome = (decide (d.epochAt i = e) && (d.recordAt i).isSome) := by
  unfold Dtu.confirmed
  split
  · next same => rw [decide_eq_true same, Bool.true_and]
  · next other => rw [decide_eq_false other, Bool.false_and, Option.isSome_none]

theorem Dtu.of_confirmed {d : Dtu} {i : Nat} {e : BitVec 8} {r : DetectorRecord} (confirmed : d.confirmed i e = some r) :
    d.epochAt i = e ∧ d.recordAt i = some r := by
  unfold Dtu.confirmed at confirmed
  split at confirmed
  · next same => exact ⟨same, confirmed⟩
  · exact nomatch confirmed

/-! ## What a completion counts -/

/-- A counter that counts an event that occurred or not. -/
def countIf (b : Bool) (n : Nat) : Nat := if b then min (n + 1) 4294967295 else n

/-- The counters of the classes of frames after a completion. -/
structure FiuCounters.Tallied (c c' : FiuCounters) (forged moved stale repeated new : Bool) : Prop where
  forged : c'.integrityFailure = countIf forged c.integrityFailure
  moved : c'.moved = countIf moved c.moved
  stale : c'.stale = countIf stale c.stale
  repeated : c'.repeated = countIf repeated c.repeated
  new : c'.new = countIf new c.new

/-- Record r once a repeat f has passed its check in state s, before an acknowledgement. -/
def Work.repeated (s : State) (r : DetectorRecord) (f : LaneFrame) : Work where
  st := { s with
    fiu := { s.fiu with counters := { s.fiu.counters with repeated := min (s.fiu.counters.repeated + 1) 4294967295 } },
    evu := s.evuAfter (if r.failureRun = 3 then [r.tells .integrityOk] else []) }
  det := { r with failureRun := 0, path := f.path.improved r.path }

section

variable {s : State} {r : DetectorRecord} {f : LaneFrame}

theorem Work.handlePassing_repeat (cls : classifySequence f.frame.sequence r.lastSequence = .repeated) :
    (Work.mk s r).handlePassing f =
      if f.frame.retry = 0 then Work.repeated s r f else (Work.repeated s r f).acknowledge f := by
  rw [Work.handlePassing_repeated (w := ⟨s, r⟩) cls, Work.passed_eq, Work.handleRepeat_eq]
  rfl

variable {i : Nat} {e : BitVec 8} (confirmed : s.dtu.confirmed i e = some r)

include confirmed

theorem State.decideFrame_tallied_forged :
    s.fiu.counters.Tallied (s.decideFrame f i e false).fiu.counters true false false false false := by
  rw [State.decideFrame_forged confirmed,
    State.onRecord_of_eq (g := fun w => w.handleForged f) (Work.handleForged_eq ⟨s, r⟩ f)]
  exact ⟨rfl, rfl, rfl, rfl, rfl⟩

theorem State.decideFrame_tallied_stale (cls : classifySequence f.frame.sequence r.lastSequence = .stale) :
    s.fiu.counters.Tallied (s.decideFrame f i e true).fiu.counters false false true false false := by
  rw [State.decideFrame_passing confirmed,
    State.onRecord_of_eq (g := fun w => w.handlePassing f) (Work.handlePassing_stale (w := ⟨s, r⟩) cls),
    Work.passed_eq]
  exact ⟨rfl, rfl, rfl, rfl, rfl⟩

theorem State.decideFrame_tallied_repeated (cls : classifySequence f.frame.sequence r.lastSequence = .repeated) :
    s.fiu.counters.Tallied (s.decideFrame f i e true).fiu.counters false false false true false := by
  rw [State.decideFrame_passing confirmed,
    State.onRecord_of_eq (g := fun w => w.handlePassing f) (Work.handlePassing_repeat cls)]
  split
  · exact ⟨rfl, rfl, rfl, rfl, rfl⟩
  · obtain ⟨-, -, ack⟩ := (Work.repeated s r f).acknowledge_spec f
    rw [State.putRecord_fiu, ack]
    exact ⟨rfl, rfl, rfl, rfl, rfl⟩

theorem State.decideFrame_tallied_new (cls : classifySequence f.frame.sequence r.lastSequence = .new) :
    s.fiu.counters.Tallied (s.decideFrame f i e true).fiu.counters false false false false true := by
  have finished := (Work.judged_spec s r f).finished i
  rw [State.decideFrame_passing confirmed,
    State.onRecord_of_eq (g := fun w => w.handlePassing f) (Work.handlePassing_stages (w := ⟨s, r⟩) cls)]
  have counters := congrArg (fun x : State => x.fiu.counters) finished
  have tallied (count : FiuCounters → Nat) := congrArg count counters
  exact ⟨(tallied FiuCounters.integrityFailure).trans rfl, (tallied FiuCounters.moved).trans rfl,
    (tallied FiuCounters.stale).trans rfl, (tallied FiuCounters.repeated).trans rfl,
    (tallied FiuCounters.new).trans rfl⟩

/-- The counts of a confirmed frame that passed its check, by the distance of its sequence. -/
theorem State.decideFrame_tallied_passing :
    let d := (r.lastSequence.map fun l => (f.frame.sequence - l).toNat).getD 1
    s.fiu.counters.Tallied (s.decideFrame f i e true).fiu.counters false false
      (decide (2048 ≤ d)) (decide (d = 0)) (decide (1 ≤ d) && decide (d ≤ 2047)) := by
  intro d
  have cls : classifySequence f.frame.sequence r.lastSequence =
      if d = 0 then .repeated else if d ≤ 2047 then .new else .stale := classifySequence_eq _ _
  by_cases zero : d = 0
  · have tallied := State.decideFrame_tallied_repeated (f := f) confirmed (cls.trans (if_pos zero))
    rwa [zero]
  · rw [if_neg zero] at cls
    by_cases near : d ≤ 2047
    · have tallied := State.decideFrame_tallied_new (f := f) confirmed (cls.trans (if_pos near))
      rwa [decide_eq_false (by omega : ¬ 2048 ≤ d), decide_eq_false zero, decide_eq_true (by omega : 1 ≤ d),
        decide_eq_true near]
    · have tallied := State.decideFrame_tallied_stale (f := f) confirmed (cls.trans (if_neg near))
      rwa [decide_eq_true (by omega : 2048 ≤ d), decide_eq_false zero, decide_eq_true (by omega : 1 ≤ d),
        decide_eq_false near]

end

theorem State.decideFrame_tallied_unconfirmed {s : State} {i : Nat} {e : BitVec 8}
    (unconfirmed : s.dtu.confirmed i e = none) (f : LaneFrame) (passed : Bool) :
    s.fiu.counters.Tallied (s.decideFrame f i e passed).fiu.counters (!passed) passed false false false := by
  rw [State.decideFrame_unconfirmed unconfirmed]
  cases passed with
  | false => exact ⟨rfl, rfl, rfl, rfl, rfl⟩
  | true => exact ⟨rfl, rfl, rfl, rfl, rfl⟩

theorem State.decideFrame_tallied (s : State) (f : LaneFrame) (i : Nat) (e : BitVec 8) (passed : Bool) :
    let confirmed := decide (s.dtu.epochAt i = e) && (s.dtu.recordAt i).isSome
    let last := (s.dtu.recordAt i).bind DetectorRecord.lastSequence
    let d := (last.map fun l => (f.frame.sequence - l).toNat).getD 1
    s.fiu.counters.Tallied (s.decideFrame f i e passed).fiu.counters (!passed) (passed && !confirmed)
      (passed && confirmed && decide (2048 ≤ d)) (passed && confirmed && decide (d = 0))
      (passed && confirmed && decide (1 ≤ d) && decide (d ≤ 2047)) := by
  intro confirmed last d
  have known : confirmed = (s.dtu.confirmed i e).isSome := (s.dtu.confirmed_isSome i e).symm
  rw [known]
  cases standing : s.dtu.confirmed i e with
  | none =>
    have tallied := State.decideFrame_tallied_unconfirmed standing f passed
    cases passed with
    | false => exact tallied
    | true => exact tallied
  | some r =>
    obtain ⟨-, record⟩ := Dtu.of_confirmed standing
    cases passed with
    | false => exact State.decideFrame_tallied_forged standing
    | true =>
      have tallied := State.decideFrame_tallied_passing (f := f) standing
      have same : last = r.lastSequence := by
        show (s.dtu.recordAt i).bind _ = _
        rw [record]
        rfl
      rw [← same] at tallied
      exact tallied

/-! ## What a completion leaves -/

theorem State.decideFrame_dtu (s : State) (f : LaneFrame) (i : Nat) (e : BitVec 8) (passed : Bool) :
    (s.decideFrame f i e passed).dtu = s.dtu
      ∨ ∃ q, (s.decideFrame f i e passed).dtu = s.dtu.putRecord i (some q) := by
  cases standing : s.dtu.confirmed i e with
  | none =>
    rw [State.decideFrame_unconfirmed standing]
    exact .inl rfl
  | some r =>
    have put (g : Work → Work) (stays : Work.Stays g) : ∃ q, (s.onRecord i r g).dtu = s.dtu.putRecord i (some q) :=
      ⟨_, congrArg (fun d : Dtu => d.putRecord i _) (stays ⟨s, r⟩).dtu_eq⟩
    cases passed with
    | false =>
      rw [State.decideFrame_forged standing]
      exact .inr (put _ (Work.handleForged_stays f))
    | true =>
      rw [State.decideFrame_passing standing]
      exact .inr (put _ (Work.handlePassing_stays f))

end Sys2Proof.Machine

namespace Sys2Proof.Proofs

open Sys2Proof Sys2Proof.Machine

/-- Settles O18: what every completion leaves and counts, then the frames dropped unconfirmed and the repeats. -/
theorem completionOutcome : Obligations.CompletionOutcome := by
  unfold Obligations.CompletionOutcome
  refine ⟨fun s f i e passed completing => ?_, fun s f i e moved => ?_,
    fun s f i e r completing epoch record last => ?_⟩
  · intro confirmed last d c count
    have frame := s.decideFrame_frame f i e passed
    have tallied := s.decideFrame_tallied f i e passed
    have dtu := s.decideFrame_dtu f i e passed
    refine ⟨_, exec_completionRequest completing, rfl, ?_, tallied.forged, tallied.moved, tallied.stale,
      tallied.repeated, tallied.new, frame.mode_eq, frame.pages_eq, frame.clock_eq, frame.pli_eq, frame.mex_eq,
      ?_, ?_, fun j other => ?_⟩
    · exact congrArg (fun x : Intake => { x with freeBlocks := x.freeBlocks + 1 }) frame.intake_eq
    · rcases dtu with same | ⟨q, put⟩
      · exact congrArg Dtu.chains same
      · exact (congrArg Dtu.chains put).trans rfl
    · rcases dtu with same | ⟨q, put⟩
      · exact congrArg Dtu.freeList same
      · exact (congrArg Dtu.freeList put).trans rfl
    · rcases dtu with same | ⟨q, put⟩
      · exact congrArg (Dtu.recordAt · j) same
      · exact (congrArg (Dtu.recordAt · j) put).trans
          ((s.dtu.recordAt_putRecord i j _).trans (if_neg fun own => other own.1))
  · intro c dropped
    have unconfirmed := Dtu.confirmed_none moved
    refine ⟨fun completing => ?_, fun completing => ?_⟩
    · rw [exec_completionRequest completing, State.decideFrame_unconfirmed unconfirmed]
      rfl
    · rw [exec_completionRequest completing, State.decideFrame_unconfirmed unconfirmed]
      rfl
  · intro p path c repeated
    have same : f.path = p := f.path_eq
    have cls : classifySequence f.frame.sequence r.lastSequence = .repeated := by
      rw [last]
      exact if_pos rfl
    have ends : ((Work.repeated s r f).st.putRecord i (Work.repeated s r f).det).releaseFrame = repeated := by
      unfold Work.repeated
      rw [same]
      rfl
    have outcome : exec .completionRequest s = .next _ := exec_completionRequest completing
    rw [State.decideFrame_passing (Dtu.confirmed_some epoch record),
      State.onRecord_of_eq (g := fun w => w.handlePassing f) (Work.handlePassing_repeat cls)] at outcome
    refine ⟨fun first => ?_, fun retry => ?_⟩
    · rw [if_pos first, ends] at outcome
      exact outcome
    · rw [if_neg retry] at outcome
      obtain ⟨ack, det, st⟩ := (Work.repeated s r f).acknowledge_spec f
      refine ⟨_, outcome, ack.congr rfl rfl rfl rfl, ?_⟩
      rw [← ends, det]
      exact (congrArg (fun x : State => (x.putRecord i (Work.repeated s r f).det).releaseFrame) st).trans rfl

end Sys2Proof.Proofs
end
